-- ==== Sys2Proof/Word.lean ====
section
/-! DEFINITION. The word types of JBE (00_scope.md R9, R10): a register, a half word (a coefficient, a quant-table
entry, a 16-bit register field) and a byte of the output stream. -/

namespace Sys2Proof

/-- A host register, a command word, a binary32 word, a histogram counter: 32 bits (00_scope.md R9). -/
abbrev Word := BitVec 32

/-- A quantized coefficient, a quant-table entry, a Huffman code word, a 16-bit field (00_scope.md R9). -/
abbrev Half := BitVec 16

/-- A byte of the output stream (10_state.md R50). -/
abbrev Byte := BitVec 8

end Sys2Proof
end

