-- ==== Sys2Proof/Config.lean ====
section
/-! DEFINITION. What an implementation fixes (the open parameters of 00_scope.md R8 and section 3 of
93_implementation_defined.md) and the free values (values the spec leaves open: constants with no body, about
which nothing can be proved). -/

namespace Sys2Proof

/-- The open parameters of an implementation (00_scope.md R8): fixed for a whole execution, never written by a step.
They stand in `State` because a step takes no other argument (log entry 1). -/
structure Params where
  /-- `BASE`: the bus address of register offset 0 (20_memory.md R73). -/
  base : Nat
  /-- `COEF_BLOCKS`: the 64-coefficient blocks the coefficient memory holds for each component. -/
  coefBlocks : Nat
  /-- `QF_CELLS`: the cells the quant-field memory holds. -/
  qfCells : Nat
deriving DecidableEq, Repr

/-- The constraints of 93_implementation_defined.md section 3. -/
def Params.ok (p : Params) : Bool :=
  p.base % 256 == 0 && decide (1 ≤ p.coefBlocks) && decide (p.coefBlocks ≤ 2 ^ 26) &&
    decide (1 ≤ p.qfCells) && decide (p.qfCells < 2 ^ 32)

/-- The parameters the spec's own test vectors assume (00_scope.md R8: "not normative").
DESIGN CHOICE, unsafe (log entry 1): used by `State.reset` alone. -/
def Params.standard : Params := { base := 0, coefBlocks := 4096, qfCells := 4096 }

/-- The n-th free 32-bit value: what a host read of a never-written element returns (20_memory.md R81; log entry 4). -/
opaque Config.freeWord : Nat → Word

/-- The n-th free content of the never-written elements: the word of element `index` of sub-space `sub` of space number
`space` (20_memory.md R61, R81). It bounds OUTCNT during an ESCAN that needs such an element (log entry 5). -/
opaque Config.freeElement (n space sub index : Nat) : Word

/-- The n-th free number: how many of a running command's bytes a read or an abort finds appended
(10_state.md R44, 70_reset_and_hazards.md R232; log entries 5 and 6). -/
opaque Config.freeNat : Nat → Nat

/-- The n-th free choice: whether an aborted command's step had happened (70_reset_and_hazards.md R232; log entry 6). -/
opaque Config.freeBool : Nat → Bool

end Sys2Proof
end

