-- ==== Sys2Proof/Syntax.lean ====
section
/-! DEFINITION. The commands of JBE: one constructor for each row of spec/opcode_table.json (30_encoding.md R91).
An operand's type is exactly its field in the command word, so no ill-formed command can be written down. -/

namespace Sys2Proof

/-- A legal command (30_encoding.md R91). -/
inductive Instr where
  /-- NOP (30_encoding.md R97). -/
  | nop
  /-- QBLK: quantize one block of component `c` = `A[1:0]` (40_quantizer.md R117). -/
  | qblk (c : BitVec 2)
  /-- HCLR: clear the histogram slots whose bit is set in `mask` = `A` (42_huffman.md R161). -/
  | hclr (mask : BitVec 8)
  /-- HSCAN: count the symbols of the current scan (42_huffman.md R162). -/
  | hscan
  /-- HBUILD: build the Huffman table of slot `t` = `A[2:0]` (42_huffman.md R163). -/
  | hbuild (t : BitVec 3)
  /-- ESCAN: entropy-code the current scan (43_entropy.md R189). -/
  | escan
  /-- PUTB: append the byte `b` = `A` to the output stream (43_entropy.md R192). -/
  | putb (b : Byte)
deriving DecidableEq, Repr

end Sys2Proof
end

