-- ==== Sys2Proof/Machine/State.lean ====
section
/-! DEFINITION. The state of JBE as plain data: everything 10_state.md R21 names, the open parameters (00_scope.md R8),
and the model's own fields (the agents' moves still to come, the bus's read data, the sink's bytes, the counter of free
values). Also the model's reasons to stop, and the state after a hard reset (70_reset_and_hazards.md R230). -/

namespace Sys2Proof.Machine

/-- The flags of STATUS (10_state.md R33). -/
structure Status where
  busy : Bool
  done : Bool
  fault : Bool
  cmdovr : Bool
  accerr : Bool
  /-- CAUSE, bits 15:8: the cause code of the fault (60_exceptions.md R201). -/
  cause : BitVec 8
deriving DecidableEq, Repr

/-- IE (10_state.md R34). -/
structure IntEnable where
  doneIe : Bool
  faultIe : Bool
deriving DecidableEq, Repr

/-- CTRL (10_state.md R32); SRST always reads 0 and is no state. -/
structure Ctrl where
  baseline : Bool
  dcfix : Bool
  aq : Bool
deriving DecidableEq, Repr

/-- FINFO (10_state.md R46). -/
structure FInfo where
  k : BitVec 6
  c : BitVec 2
deriving DecidableEq, Repr

/-- A component descriptor COMPc (10_state.md R36). -/
structure Comp where
  hs : BitVec 4
  vs : BitVec 4
  tq : BitVec 2
deriving DecidableEq, Repr

/-- QPOS (10_state.md R38). -/
structure QPos where
  bx : Half
  byRow : Half
deriving DecidableEq, Repr

/-- SCAN (10_state.md R39). -/
structure Scan where
  ns : BitVec 2
  ss : BitVec 6
  se : BitVec 6
  ah : BitVec 4
  al : BitVec 4
deriving DecidableEq, Repr

/-- A scan component slot SCOMPj (10_state.md R40). -/
structure SComp where
  ci : BitVec 2
  td : BitVec 2
  ta : BitVec 2
deriving DecidableEq, Repr

/-- MSEL (10_state.md R43). -/
structure MSel where
  space : BitVec 4
  sub : BitVec 4
deriving DecidableEq, Repr

/-- An element of HUFF (20_memory.md R67): LEN = 0 means the symbol has no code. -/
structure HuffEntry where
  len : BitVec 5
  code : Half
deriving DecidableEq, Repr

/-- The six memory spaces (20_memory.md R61). -/
inductive Space where
  | dbuf | qtab | qf | coef | hist | huff
deriving DecidableEq, Repr

/-- The written elements of one sub-space, as (index, value) pairs, indices strictly rising. An index that is not listed
was never written since hard reset and holds an unspecified value (20_memory.md R81): it reads as NO value. -/
abbrev Store (α : Type) := List (Nat × α)

/-- A memory space of `n` sub-spaces. -/
abbrev Bank (α : Type) (n : Nat) := Vector (Store α) n

/-- The six memory spaces of 20_memory.md R61, each with its legal SUB values as its length. -/
structure Memory where
  dbuf : Bank Word 1
  qtab : Bank Half 4
  qf : Bank Word 1
  coef : Bank Half 3
  hist : Bank Word 8
  huff : Bank HuffEntry 8
deriving DecidableEq, Repr

/-- Memory in which nothing has been written (20_memory.md R81: the content after a hard reset). -/
def Memory.empty : Memory where
  dbuf := Vector.replicate 1 []
  qtab := Vector.replicate 4 []
  qf := Vector.replicate 1 []
  coef := Vector.replicate 3 []
  hist := Vector.replicate 8 []
  huff := Vector.replicate 8 []

/-- One move of an agent (10_state.md R20). -/
inductive Event where
  /-- The host reads `width` bits at the bus address `addr`. -/
  | read (addr width : Nat)
  /-- The host writes `value`, `width` bits wide, at the bus address `addr`. -/
  | write (addr width : Nat) (value : Word)
  /-- A moment at which the sink holds `out_ready = 1` (43_entropy.md R191). -/
  | sinkReady
  /-- The moment at which the sequencer performs the step of the command in CMDREG (30_encoding.md R98). -/
  | sequencer
  /-- The reset input is asserted and released (70_reset_and_hazards.md R230). -/
  | hardReset
deriving DecidableEq, Repr

/-- The model's own reasons to stop; none is a fault of JBE (those are states: 60_exceptions.md R203). -/
inductive Fault where
  /-- The sequencer reads an element that nothing has written since hard reset, whose value is unspecified.
  Raised by QBLK (DBUF, QTAB, QF), HSCAN (COEF, HIST), HBUILD (HIST) and ESCAN (COEF, HUFF), and by a soft reset that
  finds such a command's step done. SAFE: the model stops where the hardware goes on (20_memory.md R81,
  93_implementation_defined.md U1, which ask for exactly this; log entry 3). -/
  | unwritten (space : Space) (sub index : Nat)
deriving DecidableEq, Repr

/-- Reasons to refuse. -/
inductive Refusal where
  /-- The instruction has no meaning yet: raised by `exec`'s arm alone, and safe. No arm raises it. -/
  | notModelled (mnemonic : String)
deriving DecidableEq, Repr

/-- The state of JBE (10_state.md R21). -/
structure State where
  /-- The open parameters (00_scope.md R8; log entry 1); no step writes them. -/
  params : Params
  ctrl : Ctrl
  status : Status
  ie : IntEnable
  /-- The latch behind CMD: the accepted command word (10_state.md R45). -/
  cmdreg : Word
  finfo : FInfo
  faux : Word
  /-- FRAME.NC (10_state.md R35). -/
  nc : BitVec 2
  mcux : Half
  mcuy : Half
  comp : Vector Comp 3
  qfconst : Word
  dcmul : Word
  qpos : QPos
  scan : Scan
  scomp : Vector SComp 3
  niw : Half
  nih : Half
  /-- RI, the restart interval (10_state.md R42). -/
  ri : Half
  msel : MSel
  midx : Word
  outcnt : Word
  /-- PRED[0..2], two's complement (10_state.md R47). -/
  pred : Vector Half 3
  /-- ACC, below 256 (10_state.md R48, 43_entropy.md R194). -/
  acc : Byte
  /-- NACC, the number of pending bits, 0..7 (10_state.md R48). -/
  nacc : Nat
  /-- RSTN, modulo 8 (10_state.md R49). -/
  rstn : BitVec 3
  mem : Memory
  /-- OUT, oldest byte first (10_state.md R50). -/
  out : List Byte
  /-- MODEL: the agents' moves still to come, in order (log entry 2). -/
  agenda : List Event
  /-- MODEL: what the last host read returned (log entry 10). -/
  busData : Word
  /-- MODEL: the bytes the sink has taken, oldest first (log entry 9). -/
  received : List Byte
  /-- MODEL: the number of free values used so far (log entry 4). -/
  free : Nat
deriving DecidableEq, Repr

/-- The state after a hard reset (70_reset_and_hazards.md R230, 10_state.md R25 and R53), for given parameters.
CMDREG 0 and the model's own fields are DESIGN CHOICES (log entries 2, 4, 7, 9, 10). -/
def State.resetWith (p : Params) : State where
  params := p
  ctrl := { baseline := true, dcfix := true, aq := false }
  status := { busy := false, done := false, fault := false, cmdovr := false, accerr := false, cause := 0 }
  ie := { doneIe := false, faultIe := false }
  cmdreg := 0
  finfo := { k := 0, c := 0 }
  faux := 0
  nc := 0
  mcux := 0
  mcuy := 0
  comp := Vector.replicate 3 { hs := 1, vs := 1, tq := 0 }
  qfconst := 0x3F133333#32
  dcmul := 0x3F800000#32
  qpos := { bx := 0, byRow := 0 }
  scan := { ns := 1, ss := 0, se := 63, ah := 0, al := 0 }
  scomp := Vector.replicate 3 { ci := 0, td := 0, ta := 0 }
  niw := 0
  nih := 0
  ri := 0
  msel := { space := 0, sub := 0 }
  midx := 0
  outcnt := 0
  pred := Vector.replicate 3 0
  acc := 0
  nacc := 0
  rstn := 0
  mem := Memory.empty
  out := []
  agenda := []
  busData := 0
  received := []
  free := 0

/-- The state after power-on and hard reset, with the parameters the spec's test vectors assume (log entry 1). -/
def State.reset : State := State.resetWith Params.standard

end Sys2Proof.Machine
end

