-- ==== Sys2Proof/Machine/Flags.lean ====
section
/-! DEFINITION. Every computation of a flag of STATUS (10_state.md R33, R52), the STATUS word, and the interrupt line
(60_exceptions.md R208). JBE has no condition codes; these are its only flags. -/

namespace Sys2Proof.Machine

/-- Acceptance of a command word (30_encoding.md R98): CMDREG latches it, BUSY is set, DONE cleared. -/
def acceptCommand (w : Word) (s : State) : State :=
  { s with cmdreg := w, status := { s.status with busy := true, done := false } }

/-- Completion of a command without fault (30_encoding.md R98). CMDREG keeps the word (log entry 7). -/
def completeCommand (s : State) : State :=
  { s with status := { s.status with busy := false, done := true } }

/-- A refused host access: the sticky bit ACCERR (60_exceptions.md R209). -/
def setAccerr (s : State) : State := { s with status := { s.status with accerr := true } }

/-- A refused write to CMD: the sticky bit CMDOVR (60_exceptions.md R209). -/
def setCmdovr (s : State) : State := { s with status := { s.status with cmdovr := true } }

/-- A write of `w` to STATUS: clears each of DONE, CMDOVR, ACCERR whose written bit is 1 (10_state.md R33). -/
def writeStatus (w : Word) (s : State) : State :=
  { s with status := { s.status with
      done := s.status.done && !w.getLsbD 1
      cmdovr := s.status.cmdovr && !w.getLsbD 3
      accerr := s.status.accerr && !w.getLsbD 4 } }

/-- A one-bit field as a bit vector. -/
def bit (b : Bool) : BitVec 1 := BitVec.ofBool b

/-- The STATUS word (10_state.md R33): CAUSE in bits 15:8, ACCERR 4, CMDOVR 3, FAULT 2, DONE 1, BUSY 0, the rest 0. -/
def statusWord (st : Status) : Word :=
  0#16 ++ st.cause ++ 0#3 ++ bit st.accerr ++ bit st.cmdovr ++ bit st.fault ++ bit st.done ++ bit st.busy

/-- The interrupt output, level-sensitive and active high (60_exceptions.md R208). -/
def irq (s : State) : Bool :=
  (s.ie.doneIe && s.status.done) || (s.ie.faultIe && s.status.fault)

end Sys2Proof.Machine
end

