-- ==== Sys2Proof/Machine/Ops.lean ====
section
/-! DEFINITION. The shared operations: reading and writing memory elements (20_memory.md R61, R80, R81), the output
stream (43_entropy.md R181, R191), taking a fault (60_exceptions.md R203), ending a command (30_encoding.md R98), and
the resets (70_reset_and_hazards.md R230, R231): a reset is the only way out of a fault (60_exceptions.md R207). -/

namespace Sys2Proof.Machine

/-! ### Elements -/

/-- Read the element at index `i`: none where nothing has written it (20_memory.md R81). -/
def Store.read {α : Type} : Store α → Nat → Option α
  | [], _ => none
  | (j, v) :: rest, i => if i = j then some v else Store.read rest i

/-- Write the element at index `i`, keeping the indices strictly rising. -/
def Store.write {α : Type} : Store α → Nat → α → Store α
  | [], i, v => [(i, v)]
  | (j, w) :: rest, i, v =>
    if i < j then (i, v) :: (j, w) :: rest
    else if i = j then (i, v) :: rest
    else (j, w) :: Store.write rest i v

/-- The store in which each element below `n` that nothing has written is given the value `f` says. -/
def Store.fill {α : Type} (f : Nat → α) : Nat → Store α → Store α
  | 0, st => st
  | n + 1, st =>
    let st' := Store.fill f n st
    match Store.read st' n with
    | some _ => st'
    | none => Store.write st' n (f n)

/-- The canonical form of a store: indices strictly rising. -/
def Store.wf {α : Type} : Store α → Bool
  | [] => true
  | [_] => true
  | (i, _) :: (j, w) :: rest => decide (i < j) && Store.wf ((j, w) :: rest)

/-- `MemRead((S, u, i))` (00_scope.md R11): element `i` of sub-space `u`; none where it was never written. -/
def Bank.read {α : Type} {n : Nat} (b : Bank α n) (u i : Nat) : Option α :=
  (b[u]?).bind fun st => Store.read st i

/-- `MemWrite((S, u, i), v)` (00_scope.md R11). A sub-space that does not exist is never asked for (20_memory.md R80). -/
def Bank.write {α : Type} {n : Nat} (b : Bank α n) (u i : Nat) (v : α) : Bank α n :=
  b.setIfInBounds u (Store.write ((b[u]?).getD []) i v)

/-- The bank in which each never-written element of a sub-space `u`, below `size u`, is given the value `f u` says. -/
def Bank.fill {α : Type} {n : Nat} (b : Bank α n) (size : Nat → Nat) (f : Nat → Nat → α) : Bank α n :=
  b.mapFinIdx fun u st _ => Store.fill (f u) (size u) st

/-- Write consecutive elements of one sub-space, starting at index `i`. -/
def Bank.writeRun {α : Type} {n : Nat} (b : Bank α n) (u : Nat) : Nat → List α → Bank α n
  | _, [] => b
  | i, v :: vs => Bank.write (Bank.writeRun b u (i + 1) vs) u i v

/-- Every sub-space of the bank is in canonical form. -/
def Bank.wf {α : Type} {n : Nat} (b : Bank α n) : Bool := b.toList.all Store.wf

/-- The whole memory is in canonical form, so that equal memories are equal data. -/
def Memory.wf (m : Memory) : Bool :=
  Bank.wf m.dbuf && Bank.wf m.qtab && Bank.wf m.qf && Bank.wf m.coef && Bank.wf m.hist && Bank.wf m.huff

/-! ### Faults of JBE -/

/-- The causes of a fault (60_exceptions.md R201). -/
inductive Cause where
  | badcmd | badcfg | qtabrange | qnonfinite | qrange | symrange | nocode | histovf | hufflen
deriving DecidableEq, Repr

/-- The cause codes (60_exceptions.md R201). -/
def Cause.code : Cause → BitVec 8
  | .badcmd => 1
  | .badcfg => 2
  | .qtabrange => 3
  | .qnonfinite => 4
  | .qrange => 5
  | .symrange => 6
  | .nocode => 7
  | .histovf => 8
  | .hufflen => 9

/-- The operands of `raise Fault(CAUSE, c, k, aux)` (60_exceptions.md R204). -/
structure Raise where
  cause : Cause
  c : BitVec 2
  k : BitVec 6
  aux : Word
deriving DecidableEq, Repr

/-- A `raise` from its operands as numbers. -/
def raiseAt (cause : Cause) (c k aux : Nat) : Raise :=
  { cause, c := BitVec.ofNat 2 c, k := BitVec.ofNat 6 k, aux := BitVec.ofNat 32 aux }

/-- Fault entry (60_exceptions.md R203): DONE is as acceptance left it, and nothing else is saved or changed. -/
def faultEntry (r : Raise) (s : State) : State :=
  { s with
    status := { s.status with fault := true, cause := r.cause.code, busy := false }
    finfo := { c := r.c, k := r.k }
    faux := r.aux
    acc := 0
    nacc := 0 }

/-- How a command's work can end early: a fault of JBE, or the model's own stop. -/
inductive Stop where
  | raised (r : Raise)
  | stuck (f : Fault)
deriving DecidableEq, Repr

/-- The end of a command's step (30_encoding.md R98): completion, fault entry, or the model's own stop. -/
def endCommand (s : State) : Option Stop → Host.Outcome State Fault Refusal
  | none => .next (completeCommand s)
  | some (.raised r) => .next (faultEntry r s)
  | some (.stuck f) => .fault f

/-- The value of an element the sequencer needs; the model stops where it was never written (20_memory.md R81). -/
def needed {α : Type} (space : Space) (u i : Nat) : Option α → Except Stop α
  | some v => .ok v
  | none => .error (.stuck (.unwritten space u i))

/-! ### The output stream -/

/-- `emit_byte(b)` (43_entropy.md R181): the only operation that changes OUT at its tail. -/
def emitByte (b : Byte) (s : State) : State :=
  { s with out := s.out ++ [b], outcnt := s.outcnt + 1 }

/-- `out_valid` (43_entropy.md R191). -/
def outValid (s : State) : Bool := !s.out.isEmpty

/-- `out_data` (43_entropy.md R191): the head byte, where there is one. -/
def outData (s : State) : Option Byte := s.out.head?

/-- A moment with `out_ready = 1` (43_entropy.md R191): the head byte, if there is one, goes to the sink. -/
def sinkTake (s : State) : State :=
  match s.out with
  | [] => s
  | b :: rest => { s with out := rest, received := s.received ++ [b] }

/-! ### Resets -/

/-- Hard reset (70_reset_and_hazards.md R230): every register at its reset value, OUT emptied, every memory element
unspecified again. The parameters and the world outside the block (the moves still to come, the bus's last read data,
the bytes the sink holds, the count of free values) are not the block's and stay (log entry 8). -/
def hardReset (s : State) : State :=
  { State.resetWith s.params with
    agenda := s.agenda, busData := s.busData, received := s.received, free := s.free }

/-- Soft reset of an idle or faulted block (70_reset_and_hazards.md R231): as a hard reset, but the memories and the
bytes already appended to OUT are kept. OUTCNT returns to 0. -/
def softReset (s : State) : State :=
  { hardReset s with mem := s.mem, out := s.out }

end Sys2Proof.Machine
end

