-- ==== Sys2Proof/Machine/Operands.lean ====
section
/-! DEFINITION. The operands of the commands: the numeric functions of 00_scope.md R12 and R13 and 40_quantizer.md R113
to R115, and the quantities the frame registers give (10_state.md R35, R54, 40_quantizer.md R118). -/

namespace Sys2Proof.Machine

/-! ### Numbers -/

/-- The zigzag table (00_scope.md R13). -/
def zigzagTable : List Nat :=
  [ 0,  1,  8, 16,  9,  2,  3, 10, 17, 24, 32, 25, 18, 11,  4,  5] ++
  [12, 19, 26, 33, 40, 48, 41, 34, 27, 20, 13,  6,  7, 14, 21, 28] ++
  [35, 42, 49, 56, 57, 50, 43, 36, 29, 22, 15, 23, 30, 37, 44, 51] ++
  [58, 59, 52, 45, 38, 31, 39, 46, 53, 60, 61, 54, 47, 55, 62, 63]

/-- `ZZ[k]` (00_scope.md R13): the natural index of the coefficient at zigzag position `k`, for `k` in 0..63. -/
def zigzag (k : Nat) : Nat := zigzagTable.getD k 0

/-- `cat(v)` (00_scope.md R12): 0 for 0, else the `n` with `2^(n-1) <= |v| < 2^n`. -/
def category (v : Int) : Nat := if v = 0 then 0 else v.natAbs.log2 + 1

/-- `mag(v, n)` (00_scope.md R12): `v` where it is positive, else `v + 2^n - 1`. -/
def magnitude (v : Int) (n : Nat) : Nat := if 0 < v then v.toNat else (v + 2 ^ n - 1).toNat

/-- The exponent field of a binary32 word (40_quantizer.md R113). -/
def expField (w : Word) : Nat := (w.extractLsb' 23 8).toNat

/-- The fraction field of a binary32 word (40_quantizer.md R113). -/
def fracField (w : Word) : Nat := (w.extractLsb' 0 23).toNat

/-- The word is neither an infinity nor a NaN (40_quantizer.md R113). -/
def isFinite (w : Word) : Bool := expField w != 255

/-- `|val(w)|` in units of `2^(-149)` (40_quantizer.md R113): an exact integer for every finite word. -/
def valMagnitude (w : Word) : Nat :=
  if expField w = 0 then fracField w else (2 ^ 23 + fracField w) * 2 ^ (expField w - 1)

/-- `val(w)` in units of `2^(-149)` (40_quantizer.md R113; log entry 15). -/
def valScaled (w : Word) : Int :=
  if w.getLsbD 31 then -(valMagnitude w : Int) else (valMagnitude w : Int)

/-- `rnd(n/d)` (40_quantizer.md R115): to the nearest integer, ties away from zero, `floor(x + 1/2)` of the magnitude. -/
def roundQuotient (n : Int) (d : Nat) : Int :=
  if 0 ≤ n then ((2 * n.natAbs + d) / (2 * d) : Nat) else -((2 * n.natAbs + d) / (2 * d) : Nat)

/-- `rnd(val(d) * val(m) / q)` as one exact quotient with one rounding (40_quantizer.md R114, R115). -/
def quantized (d m : Word) (q : Nat) : Int :=
  roundQuotient (valScaled d * valScaled m) (2 ^ 149 * 2 ^ 149 * q)

/-! ### Frame geometry -/

/-- Component descriptor COMPc (10_state.md R36); asked only for `c < NC <= 3`. -/
def compAt (s : State) (c : Nat) : Comp := (s.comp[c]?).getD { hs := 0, vs := 0, tq := 0 }

/-- Scan component slot SCOMPj (10_state.md R40); asked only for `j < NS <= 3`. -/
def scompAt (s : State) (j : Nat) : SComp := (s.scomp[j]?).getD { ci := 0, td := 0, ta := 0 }

/-- `wib[c]`, the width of component `c` in blocks (10_state.md R35). -/
def wib (s : State) (c : Nat) : Nat := s.mcux.toNat * (compAt s c).hs.toNat

/-- `hib[c]`, the height of component `c` in blocks (10_state.md R35). -/
def hib (s : State) (c : Nat) : Nat := s.mcuy.toNat * (compAt s c).vs.toNat

/-- `maxs`, the largest sampling factor of the frame (10_state.md R35). -/
def maxSampling (s : State) : Nat :=
  (List.range s.nc.toNat).foldl (fun m c => max m (compAt s c).hs.toNat) 0

/-- `QFW`, the width of the quant field in cells (10_state.md R35). -/
def qfWidth (s : State) : Nat := s.mcux.toNat * maxSampling s

/-- `QFH`, the height of the quant field in cells (10_state.md R35). -/
def qfHeight (s : State) : Nat := s.mcuy.toNat * maxSampling s

/-- A legal sampling factor (10_state.md R54 (c)). -/
def samplingOk (c : Comp) : Bool :=
  (c.hs == 1 || c.hs == 2 || c.hs == 4 || c.hs == 8) && c.vs == c.hs

/-- `FrameOK` (10_state.md R54), clauses (a) to (d) in order. -/
def frameOk (s : State) : Bool :=
  (decide (1 ≤ s.nc.toNat) && decide (s.nc.toNat ≤ 3)) &&
  (decide (1 ≤ s.mcux.toNat) && decide (1 ≤ s.mcuy.toNat)) &&
  ((List.range s.nc.toNat).all fun c => samplingOk (compAt s c)) &&
  ((List.range s.nc.toNat).all fun c => decide (wib s c * hib s c ≤ s.params.coefBlocks))

/-- The number of symbols of a Huffman slot (20_memory.md R66, R67): 12 for a DC slot, 256 for an AC slot. -/
def slotSize (t : Nat) : Nat := if t < 4 then 12 else 256

end Sys2Proof.Machine
end

