-- ==== Sys2Proof/Machine/DataPort.lean ====
section
/-! DEFINITION. The data port MDATA (20_memory.md R61, R67 to R69). -/

namespace Sys2Proof.Machine

/-- The space a value of MSEL.SPACE selects; none for the reserved values 6 to 15 (20_memory.md R61). -/
def spaceOf (b : BitVec 4) : Option Space :=
  match b.toNat with
  | 0 => some .dbuf
  | 1 => some .qtab
  | 2 => some .qf
  | 3 => some .coef
  | 4 => some .hist
  | 5 => some .huff
  | _ => none

/-- How many sub-spaces a space has (20_memory.md R61). -/
def subCount : Space → Nat
  | .dbuf => 1
  | .qtab => 4
  | .qf => 1
  | .coef => 3
  | .hist => 8
  | .huff => 8

/-- How many elements a sub-space has (20_memory.md R61). -/
def elementCount (p : Params) (sp : Space) (u : Nat) : Nat :=
  match sp with
  | .dbuf => 64
  | .qtab => 64
  | .qf => p.qfCells
  | .coef => 64 * p.coefBlocks
  | .hist => slotSize u
  | .huff => slotSize u

/-- `(S, u, i)` is a legal triple of 20_memory.md R61. -/
def legalTriple (p : Params) (sp : Space) (u i : Nat) : Bool :=
  decide (u < subCount sp) && decide (i < elementCount p sp u)

/-- The triple MSEL and MIDX select, where it is legal (20_memory.md R68). -/
def selected (s : State) : Option (Space × Nat × Nat) :=
  match spaceOf s.msel.space with
  | none => none
  | some sp =>
    if legalTriple s.params sp s.msel.sub.toNat s.midx.toNat then
      some (sp, s.msel.sub.toNat, s.midx.toNat)
    else none

/-- The data-port word of a HUFF element: `zext_32(LEN ++ CODE)` (20_memory.md R67, R68). -/
def huffWord (e : HuffEntry) : Word := BitVec.setWidth 32 (e.len ++ e.code)

/-- The HUFF element a word writes (20_memory.md R69). -/
def huffOf (w : Word) : HuffEntry := { len := w.extractLsb' 16 5, code := w.extractLsb' 0 16 }

/-- A HUFF element the memory may hold: `LEN <= 16` and `CODE < 2^LEN` (20_memory.md R67, R69). -/
def huffLegal (e : HuffEntry) : Bool := decide (e.len.toNat ≤ 16) && decide (e.code.toNat < 2 ^ e.len.toNat)

/-- An element extended to 32 bits (20_memory.md R68); none where it was never written. -/
def elementWord (m : Memory) (sp : Space) (u i : Nat) : Option Word :=
  match sp with
  | .dbuf => Bank.read m.dbuf u i
  | .qtab => (Bank.read m.qtab u i).map (BitVec.setWidth 32)
  | .qf => Bank.read m.qf u i
  | .coef => (Bank.read m.coef u i).map (BitVec.signExtend 32)
  | .hist => Bank.read m.hist u i
  | .huff => (Bank.read m.huff u i).map huffWord

/-- What a word stores in an element (20_memory.md R69). -/
def writeElement (m : Memory) (sp : Space) (u i : Nat) (w : Word) : Memory :=
  match sp with
  | .dbuf => { m with dbuf := Bank.write m.dbuf u i w }
  | .qtab => { m with qtab := Bank.write m.qtab u i (w.extractLsb' 0 16) }
  | .qf => { m with qf := Bank.write m.qf u i w }
  | .coef => { m with coef := Bank.write m.coef u i (w.extractLsb' 0 16) }
  | .hist => { m with hist := Bank.write m.hist u i w }
  | .huff => { m with huff := Bank.write m.huff u i (huffOf w) }

/-- The index moves on by itself, modulo 2^32 (20_memory.md R68, R69). -/
def advance (s : State) : State := { s with midx := s.midx + 1 }

/-- A read of MDATA (20_memory.md R68): the word returned and the state after it. A never-written element returns a
free value (R81; log entry 4). -/
def readPort (s : State) : Word × State :=
  if s.status.busy then (0, setAccerr s)
  else
    match selected s with
    | none => (0, setAccerr s)
    | some (sp, u, i) =>
      match elementWord s.mem sp u i with
      | some w => (w, advance s)
      | none => (Config.freeWord s.free, advance { s with free := s.free + 1 })

/-- A write of `w` to MDATA (20_memory.md R69). -/
def writePort (w : Word) (s : State) : State :=
  if s.status.busy then setAccerr s
  else
    match selected s with
    | none => setAccerr s
    | some (sp, u, i) =>
      if sp = .huff ∧ huffLegal (huffOf w) = false then setAccerr s
      else advance { s with mem := writeElement s.mem sp u i w }

end Sys2Proof.Machine
end

