-- ==== Sys2Proof/Machine/Registers.lean ====
section
/-! DEFINITION. The register map (10_state.md R25): offsets, the word a register reads as, and what a write stores
(R26, R27, R31 to R46). -/

namespace Sys2Proof.Machine

/-- The registers of the map (10_state.md R25). -/
inductive Reg where
  | id | ctrl | status | ie | cmd | finfo | faux | frame | mcux | mcuy | comp0 | comp1 | comp2
  | qfconst | dcmul | qpos | scan | scomp0 | scomp1 | scomp2 | niw | nih | ri | msel | midx | mdata | outcnt
deriving DecidableEq, Repr

/-- The registers in the order of their offsets: register number `n` stands at offset `4 * n` (10_state.md R25). -/
def regMap : List Reg :=
  [.id, .ctrl, .status, .ie, .cmd, .finfo, .faux, .frame, .mcux, .mcuy, .comp0, .comp1, .comp2] ++
  [.qfconst, .dcmul, .qpos, .scan, .scomp0, .scomp1, .scomp2, .niw, .nih, .ri, .msel, .midx, .mdata, .outcnt]

/-- The register at a byte offset; none at a reserved offset, 0x6C to 0xFC (10_state.md R25, R26). -/
def regAt (offset : Nat) : Option Reg := regMap[offset / 4]?

/-- The byte offset of a register (10_state.md R25). -/
def regOffset : Reg → Nat
  | .id => 0x00
  | .ctrl => 0x04
  | .status => 0x08
  | .ie => 0x0C
  | .cmd => 0x10
  | .finfo => 0x14
  | .faux => 0x18
  | .frame => 0x1C
  | .mcux => 0x20
  | .mcuy => 0x24
  | .comp0 => 0x28
  | .comp1 => 0x2C
  | .comp2 => 0x30
  | .qfconst => 0x34
  | .dcmul => 0x38
  | .qpos => 0x3C
  | .scan => 0x40
  | .scomp0 => 0x44
  | .scomp1 => 0x48
  | .scomp2 => 0x4C
  | .niw => 0x50
  | .nih => 0x54
  | .ri => 0x58
  | .msel => 0x5C
  | .midx => 0x60
  | .mdata => 0x64
  | .outcnt => 0x68

/-- ID (10_state.md R31). -/
def idWord : Word := 0x4A424501#32

/-- The word of a component descriptor (10_state.md R36). -/
def compWord (c : Comp) : Word := 0#22 ++ c.tq ++ c.vs ++ c.hs

/-- The word of a scan component slot (10_state.md R40). -/
def scompWord (c : SComp) : Word := 0#22 ++ c.ta ++ 0#2 ++ c.td ++ 0#2 ++ c.ci

/-- The word of SCAN (10_state.md R39). -/
def scanWord (c : Scan) : Word := c.al ++ c.ah ++ 0#2 ++ c.se ++ 0#2 ++ c.ss ++ 0#6 ++ c.ns

/-- A 16-bit field alone in its register. -/
def halfWord (h : Half) : Word := 0#16 ++ h

/-- The word a register reads as, without the read's side effects (10_state.md R25, R26, R31 to R46). CMD is
write-only and reads 0; MDATA holds no state of its own (R43), and its reads go through the data port. -/
def regWord (r : Reg) (s : State) : Word :=
  match r with
  | .id => idWord
  | .ctrl => 0#28 ++ bit s.ctrl.aq ++ bit s.ctrl.dcfix ++ bit s.ctrl.baseline ++ 0#1
  | .status => statusWord s.status
  | .ie => 0#29 ++ bit s.ie.faultIe ++ bit s.ie.doneIe ++ 0#1
  | .cmd => 0
  | .finfo => 0#24 ++ s.finfo.c ++ s.finfo.k
  | .faux => s.faux
  | .frame => 0#30 ++ s.nc
  | .mcux => halfWord s.mcux
  | .mcuy => halfWord s.mcuy
  | .comp0 => compWord (compAt s 0)
  | .comp1 => compWord (compAt s 1)
  | .comp2 => compWord (compAt s 2)
  | .qfconst => s.qfconst
  | .dcmul => s.dcmul
  | .qpos => s.qpos.byRow ++ s.qpos.bx
  | .scan => scanWord s.scan
  | .scomp0 => scompWord (scompAt s 0)
  | .scomp1 => scompWord (scompAt s 1)
  | .scomp2 => scompWord (scompAt s 2)
  | .niw => halfWord s.niw
  | .nih => halfWord s.nih
  | .ri => halfWord s.ri
  | .msel => 0#24 ++ s.msel.sub ++ s.msel.space
  | .midx => s.midx
  | .mdata => 0
  | .outcnt => s.outcnt

/-- The component descriptor a word writes (10_state.md R36). -/
def compOf (w : Word) : Comp :=
  { hs := w.extractLsb' 0 4, vs := w.extractLsb' 4 4, tq := w.extractLsb' 8 2 }

/-- The scan component slot a word writes (10_state.md R40). -/
def scompOf (w : Word) : SComp :=
  { ci := w.extractLsb' 0 2, td := w.extractLsb' 4 2, ta := w.extractLsb' 8 2 }

/-- The scan parameters a word writes (10_state.md R39). -/
def scanOf (w : Word) : Scan :=
  { ns := w.extractLsb' 0 2, ss := w.extractLsb' 8 6, se := w.extractLsb' 16 6,
    ah := w.extractLsb' 24 4, al := w.extractLsb' 28 4 }

/-- A register that stores what is written to it and has no other effect; the rest are read-only, or have a behaviour
of their own (10_state.md R25; 20_memory.md R72). -/
def isPlain : Reg → Bool
  | .id | .finfo | .faux | .outcnt => false
  | .ctrl | .status | .ie | .cmd | .mdata => false
  | .frame | .mcux | .mcuy | .comp0 | .comp1 | .comp2 | .qfconst | .dcmul | .qpos => true
  | .scan | .scomp0 | .scomp1 | .scomp2 | .niw | .nih | .ri | .msel | .midx => true

/-- Store a word in a plain register: each field takes exactly the bits written, legal or not (10_state.md R27);
reserved bits are ignored (R26). Other registers are left alone. -/
def storeReg (r : Reg) (w : Word) (s : State) : State :=
  match r with
  | .frame => { s with nc := w.extractLsb' 0 2 }
  | .mcux => { s with mcux := w.extractLsb' 0 16 }
  | .mcuy => { s with mcuy := w.extractLsb' 0 16 }
  | .comp0 => { s with comp := s.comp.setIfInBounds 0 (compOf w) }
  | .comp1 => { s with comp := s.comp.setIfInBounds 1 (compOf w) }
  | .comp2 => { s with comp := s.comp.setIfInBounds 2 (compOf w) }
  | .qfconst => { s with qfconst := w }
  | .dcmul => { s with dcmul := w }
  | .qpos => { s with qpos := { bx := w.extractLsb' 0 16, byRow := w.extractLsb' 16 16 } }
  | .scan => { s with scan := scanOf w }
  | .scomp0 => { s with scomp := s.scomp.setIfInBounds 0 (scompOf w) }
  | .scomp1 => { s with scomp := s.scomp.setIfInBounds 1 (scompOf w) }
  | .scomp2 => { s with scomp := s.scomp.setIfInBounds 2 (scompOf w) }
  | .niw => { s with niw := w.extractLsb' 0 16 }
  | .nih => { s with nih := w.extractLsb' 0 16 }
  | .ri => { s with ri := w.extractLsb' 0 16 }
  | .msel => { s with msel := { space := w.extractLsb' 0 4, sub := w.extractLsb' 4 4 } }
  | .midx => { s with midx := w }
  | .id | .finfo | .faux | .outcnt => s
  | .ctrl | .status | .ie | .cmd | .mdata => s

/-- Store the mode bits of CTRL (10_state.md R32); bit 0 is the soft reset and is dealt with before. -/
def storeCtrl (w : Word) (s : State) : State :=
  { s with ctrl := { baseline := w.getLsbD 1, dcfix := w.getLsbD 2, aq := w.getLsbD 3 } }

/-- Store IE (10_state.md R34). -/
def storeIe (w : Word) (s : State) : State :=
  { s with ie := { doneIe := w.getLsbD 1, faultIe := w.getLsbD 2 } }

end Sys2Proof.Machine
end

