-- ==== Sys2Proof/WellFormed.lean ====
section
/-! DEFINITION. Which command words are well formed, written from the match and mask pairs of 30_encoding.md R92 and
NOT from the decoder, so that the two can be held against each other. A term of `Instr` needs no check of its own: its
operands' types are the fields' widths. -/

namespace Sys2Proof

/-- One row of the opcode map: a word `w` is this command when `w &&& mask = pattern` (30_encoding.md R92). -/
structure CommandForm where
  mnemonic : String
  pattern : Word
  mask : Word
deriving DecidableEq, Repr

/-- The seven match and mask pairs of 30_encoding.md R92. -/
def commandForms : List CommandForm :=
  [ ⟨"NOP",    0x00000000#32, 0xFFFFFFFF#32⟩,
    ⟨"QBLK",   0x00000001#32, 0xFFFFFCFF#32⟩,
    ⟨"HCLR",   0x00000002#32, 0xFFFF00FF#32⟩,
    ⟨"HSCAN",  0x00000003#32, 0xFFFFFFFF#32⟩,
    ⟨"HBUILD", 0x00000004#32, 0xFFFFF8FF#32⟩,
    ⟨"ESCAN",  0x00000005#32, 0xFFFFFFFF#32⟩,
    ⟨"PUTB",   0x00000006#32, 0xFFFF00FF#32⟩ ]

/-- The word is the command of this row (30_encoding.md R92). -/
def CommandForm.admits (f : CommandForm) (w : Word) : Bool := w &&& f.mask == f.pattern

/-- The rows a word satisfies: at most one, and none for an illegal word (30_encoding.md R92). -/
def formsOf (w : Word) : List CommandForm := commandForms.filter (·.admits w)

/-- First check of 30_encoding.md R92: the field Z, bits 31:16, is zero. -/
def zIsZero (w : Word) : Bool := w &&& 0xFFFF0000#32 == 0#32

/-- Second check of 30_encoding.md R92: the opcode, bits 7:0, is in the table of R91. -/
def opcodeListed (w : Word) : Bool := commandForms.any fun f => w &&& 0xFF#32 == f.pattern

/-- Third check of 30_encoding.md R92: every operand bit that the table says is 0 is 0. -/
def operandZeros (w : Word) : Bool :=
  commandForms.all fun f => !(w &&& 0xFF#32 == f.pattern) || (w &&& f.mask &&& 0xFF00#32 == 0#32)

/-- A well-formed command word: the three checks of 30_encoding.md R92 together. -/
def wellFormedWord (w : Word) : Bool := zIsZero w && opcodeListed w && operandZeros w

end Sys2Proof
end

