-- ==== Sys2Proof/Decode.lean ====
section
/-! DEFINITION. The decoder of command words (30_encoding.md R92), total, rejecting by name, and the encoder, written
from the encoding table of 30_encoding.md R90 and R91. -/

namespace Sys2Proof

/-- Why a command word is illegal (30_encoding.md R92): each makes the command's step raise BADCMD. -/
inductive Reject where
  /-- The field Z, bits 31:16, is not zero. -/
  | zNotZero (z : Half)
  /-- The opcode is not in the table of 30_encoding.md R91. -/
  | reservedOpcode (op : Byte)
  /-- An operand bit that the table says is 0 is not. -/
  | operandBits (op a : Byte)
deriving DecidableEq, Repr

/-- The field OP, bits 7:0 (30_encoding.md R90). -/
def opField (w : Word) : Byte := w.extractLsb' 0 8

/-- The field A, bits 15:8 (30_encoding.md R90). -/
def aField (w : Word) : Byte := w.extractLsb' 8 8

/-- The field Z, bits 31:16 (30_encoding.md R90). -/
def zField (w : Word) : Half := w.extractLsb' 16 16

/-- A command with no operand: `A` must be 0 (30_encoding.md R91). -/
def noOperand (op a : Byte) (i : Instr) : Except Reject Instr :=
  if a = 0 then .ok i else .error (.operandBits op a)

/-- The command named by an opcode and an operand field (30_encoding.md R91). -/
def decodeOp (op a : Byte) : Except Reject Instr :=
  match op.toNat with
  | 0 => noOperand op a .nop
  | 1 => if a.extractLsb' 2 6 = 0 then .ok (.qblk (a.extractLsb' 0 2)) else .error (.operandBits op a)
  | 2 => .ok (.hclr a)
  | 3 => noOperand op a .hscan
  | 4 => if a.extractLsb' 3 5 = 0 then .ok (.hbuild (a.extractLsb' 0 3)) else .error (.operandBits op a)
  | 5 => noOperand op a .escan
  | 6 => .ok (.putb a)
  | _ => .error (.reservedOpcode op)

/-- Decoding (30_encoding.md R92): every 32-bit word is exactly one legal command or illegal. -/
def decode (w : Word) : Except Reject Instr :=
  if zField w = 0 then decodeOp (opField w) (aField w) else .error (.zNotZero (zField w))

/-- A command word from its three fields (30_encoding.md R90). -/
def commandWord (op a : Byte) : Word := (0#16 ++ a) ++ op

/-- The word of a command (30_encoding.md R91, R95). -/
def encode : Instr → Word
  | .nop => commandWord 0x00 0
  | .qblk c => commandWord 0x01 (0#6 ++ c)
  | .hclr mask => commandWord 0x02 mask
  | .hscan => commandWord 0x03 0
  | .hbuild t => commandWord 0x04 (0#5 ++ t)
  | .escan => commandWord 0x05 0
  | .putb b => commandWord 0x06 b

/-- The command word whose bits, numbered as spec/opcode_table.json numbers them, are `w`, the bits above `nbits` being
zero. JBE's commands are one 32-bit word, written whole to CMD, so there is no byte order (20_memory.md R70). -/
def tableWord (nbits w : Nat) : Word := BitVec.ofNat 32 (w % 2 ^ nbits)

/-- What the decoder reads from an instruction whose bits are `w` (the host's question about the opcode table). -/
def decodeTableWord (nbits w : Nat) : Option Instr := (decode (tableWord nbits w)).toOption

end Sys2Proof
end

