-- ==== Sys2Proof/Machine/Control.lean ====
section
/-! DEFINITION. The command that belongs to no unit: NOP (30_encoding.md R97). -/

namespace Sys2Proof.Machine

/-- NOP (30_encoding.md R97): no state changes other than completion. -/
def execNop (s : State) : Host.Outcome State Fault Refusal := endCommand s none

end Sys2Proof.Machine
end

