-- ==== Sys2Proof/Machine/Serializer.lean ====
section
/-! DEFINITION. The DC/AC coefficient serializer, the function `Serialize` that HSCAN and ESCAN share
(41_serializer.md R130 to R143). -/

namespace Sys2Proof.Machine

/-- A token (41_serializer.md R131). -/
inductive Token where
  /-- The Huffman symbol `symbol`, to be coded with the table in slot `slot`. -/
  | sym (slot symbol : Nat)
  /-- `count` raw bits of value `value`, most significant bit first. -/
  | bits (count value : Nat)
  /-- A restart boundary with marker index `index`. -/
  | rst (index : Nat)
  /-- `End`: the end of the scan. -/
  | fin
deriving DecidableEq, Repr

/-- The kinds of scan (41_serializer.md R133). -/
inductive ScanKind where
  | seq | dcf | dcr | acf | acr
deriving DecidableEq, Repr

/-- An entry of an MCU: scan slot, component, block index into COEF (41_serializer.md R134). -/
structure McuEntry where
  slot : Nat
  comp : Nat
  block : Nat
deriving DecidableEq, Repr

/-- What a part of the serializer produces: its tokens, how it ended early if it did, and PRED and RSTN after it. -/
structure Run where
  tokens : List Token
  stop : Option Stop
  pred : Vector Half 3
  rstn : BitVec 3
deriving DecidableEq, Repr

/-! ### Legal scans -/

/-- The scan kind (41_serializer.md R133); none where the combination is illegal. -/
def scanKind (sc : Scan) : Option ScanKind :=
  if sc.ss = 0 then
    if sc.se = 63 ∧ sc.ah = 0 ∧ sc.al = 0 then some .seq
    else if sc.se = 0 ∧ sc.ah = 0 then some .dcf
    else if sc.se = 0 ∧ sc.al.toNat + 1 = sc.ah.toNat then some .dcr
    else none
  else if sc.ss.toNat ≤ sc.se.toNat ∧ sc.ns = 1 then
    if sc.ah = 0 then some .acf
    else if sc.al.toNat + 1 = sc.ah.toNat then some .acr
    else none
  else none

/-- `ScanOK` (41_serializer.md R132), clauses (a) to (d) in order. -/
def scanOk (s : State) : Bool :=
  let ns := s.scan.ns.toNat
  (decide (1 ≤ ns) && decide (ns ≤ s.nc.toNat)) &&
  ((List.range ns).all fun j => decide ((scompAt s j).ci.toNat < s.nc.toNat)) &&
  ((List.range (ns - 1)).all fun j => decide ((scompAt s j).ci.toNat < (scompAt s (j + 1)).ci.toNat)) &&
  (scanKind s.scan).isSome &&
  (ns != 1 ||
    (let c := (scompAt s 0).ci.toNat
     decide (1 ≤ s.niw.toNat) && decide (s.niw.toNat ≤ wib s c) &&
       decide (1 ≤ s.nih.toNat) && decide (s.nih.toNat ≤ hib s c)))

/-! ### The order of blocks -/

/-- The blocks of component `c` in the MCU at column `mx`, row `my` of an interleaved scan (41_serializer.md R134). -/
def mcuBlocks (s : State) (my mx j : Nat) : List McuEntry :=
  let c := (scompAt s j).ci.toNat
  let hs := (compAt s c).hs.toNat
  let vs := (compAt s c).vs.toNat
  (List.range vs).flatMap fun yy =>
    (List.range hs).map fun xx =>
      { slot := j, comp := c, block := (my * vs + yy) * wib s c + (mx * hs + xx) }

/-- The MCUs of the scan in order (41_serializer.md R134). -/
def mcuList (s : State) : List (List McuEntry) :=
  if s.scan.ns = 1 then
    let c := (scompAt s 0).ci.toNat
    (List.range s.nih.toNat).flatMap fun y =>
      (List.range s.niw.toNat).map fun x => [{ slot := 0, comp := c, block := y * wib s c + x }]
  else
    (List.range s.mcuy.toNat).flatMap fun my =>
      (List.range s.mcux.toNat).map fun mx =>
        (List.range s.scan.ns.toNat).flatMap fun j => mcuBlocks s my mx j

/-! ### Coefficients and the tokens of one block -/

/-- `blk[k] = COEF[c][64*b + k]` (41_serializer.md R140), two's complement. -/
def coefAt (s : State) (c b k : Nat) : Except Stop Int :=
  (needed .coef c (64 * b + k) (Bank.read s.mem.coef c (64 * b + k))).map BitVec.toInt

/-- Tokens with how they ended, if early. -/
abbrev Emission := List Token × Option Stop

/-- Put tokens in front of an emission. -/
def emitFirst (ts : List Token) (e : Emission) : Emission := (ts ++ e.1, e.2)

/-- `PRED[c]` (10_state.md R47). -/
def predAt (p : Vector Half 3) (c : Nat) : Int := ((p[c]?).getD 0).toInt

/-- The transformed DC value `v >>a AL` (41_serializer.md R143). -/
def dcTransform (v : Int) (al : Nat) : Int := v / 2 ^ al

/-- The transformed magnitude `|v| >> AL` of an AC coefficient (41_serializer.md R143). -/
def acTransform (v : Int) (al : Nat) : Nat := v.natAbs / 2 ^ al

/-- DC tokens of kinds SEQ and DCF (41_serializer.md R136), with PRED after them. -/
def dcTokens (s : State) (e : McuEntry) (td al : Nat) (p : Vector Half 3) : Emission × Vector Half 3 :=
  match coefAt s e.comp e.block 0 with
  | .error st => (([], some st), p)
  | .ok v =>
    let dcv := dcTransform v al
    let diff := dcv - predAt p e.comp
    let n := category diff
    if 11 < n then
      (([], some (.raised (raiseAt .symrange e.comp 0 e.block))), p)
    else
      (((.sym td n :: if n = 0 then [] else [.bits n (magnitude diff n)]), none),
        p.setIfInBounds e.comp (BitVec.ofInt 16 dcv))

/-- The DC refinement token (41_serializer.md R138): the bit of weight `2^AL` of the DC value. -/
def dcRefineTokens (s : State) (e : McuEntry) (al : Nat) : Emission :=
  match coefAt s e.comp e.block 0 with
  | .error st => ([], some st)
  | .ok v => ([.bits 1 (dcTransform v al % 2).toNat], none)

/-- `Sym(ta, 0xF0)`, a run of 16 zeros (41_serializer.md R130). -/
def zrl (ta : Nat) : Token := .sym ta 0xF0

/-- AC tokens of the first pass over the positions given (41_serializer.md R137); `r` zeros are pending. The inner
`while` of the rule appends `r / 16` ZRLs and leaves `r % 16`. -/
def acFirst (s : State) (e : McuEntry) (ta al : Nat) : List Nat → Nat → Emission
  | [], r => (if 0 < r then [.sym ta 0x00] else [], none)
  | k :: ks, r =>
    match coefAt s e.comp e.block k with
    | .error st => ([], some st)
    | .ok v =>
      if v = -32768 then ([], some (.raised (raiseAt .symrange e.comp k e.block)))
      else
        let t := acTransform v al
        if t = 0 then acFirst s e ta al ks (r + 1)
        else
          let n := category t
          emitFirst
            (List.replicate (r / 16) (zrl ta) ++
              [.sym ta (16 * (r % 16) + n), .bits n (if 0 < v then t else 2 ^ n - 1 - t)])
            (acFirst s e ta al ks 0)

/-- A coefficient of a refinement band: its position, its sign and its transformed magnitude `a[k]`. -/
structure BandCoef where
  k : Nat
  negative : Bool
  mag : Nat
deriving DecidableEq, Repr

/-- The first loop of 41_serializer.md R139: the whole band is checked before any token of the entry. -/
def bandCoefs (s : State) (e : McuEntry) (al : Nat) (ks : List Nat) : Except Stop (List BandCoef) :=
  ks.mapM fun k => do
    let v ← coefAt s e.comp e.block k
    if v = -32768 then
      throw (.raised (raiseAt .symrange e.comp k e.block))
    return { k, negative := decide (v < 0), mag := acTransform v al }

/-- `eob` of 41_serializer.md R139: the largest position with transformed magnitude 1, or 0. -/
def lastNew (band : List BandCoef) : Nat :=
  band.foldl (fun m x => if x.mag = 1 then max m x.k else m) 0

/-- Single bits as tokens, in order. -/
def bitTokens (bs : List Nat) : List Token := bs.map (.bits 1 ·)

/-- The second loop of 41_serializer.md R139; `r` zeros and the correction bits `br` are pending. Its inner `while`
sends the first ZRL followed by the buffered bits, and then ZRLs alone. -/
def acRefine (ta eob : Nat) : List BandCoef → Nat → List Nat → List Token
  | [], r, br => if 0 < r ∨ br ≠ [] then .sym ta 0x00 :: bitTokens br else []
  | x :: xs, r, br =>
    if x.mag = 0 then acRefine ta eob xs (r + 1) br
    else
      let long := 15 < r ∧ x.k ≤ eob
      let zrls := if long then zrl ta :: bitTokens br ++ List.replicate (r / 16 - 1) (zrl ta) else []
      let r' := if long then r % 16 else r
      let br' := if long then [] else br
      zrls ++
        if 1 < x.mag then acRefine ta eob xs r' (br' ++ [x.mag % 2])
        else
          .sym ta (16 * r' + 1) :: .bits 1 (if x.negative then 0 else 1) :: bitTokens br' ++
            acRefine ta eob xs 0 []

/-- AC tokens of the refinement kind (41_serializer.md R139). -/
def acRefineTokens (s : State) (e : McuEntry) (ta al : Nat) (ks : List Nat) : Emission :=
  match bandCoefs s e al ks with
  | .error st => ([], some st)
  | .ok band => (acRefine ta (lastNew band) band 0 [], none)

/-- The positions `k0..k1` in ascending order. -/
def positions (k0 k1 : Nat) : List Nat := List.range' k0 (k1 + 1 - k0)

/-- The tokens of one entry (41_serializer.md R140), with PRED after them. -/
def entryTokens (s : State) (kind : ScanKind) (e : McuEntry) (p : Vector Half 3) : Emission × Vector Half 3 :=
  let td := (scompAt s e.slot).td.toNat
  let ta := 4 + (scompAt s e.slot).ta.toNat
  let al := s.scan.al.toNat
  let band := positions s.scan.ss.toNat s.scan.se.toNat
  match kind with
  | .seq =>
    match dcTokens s e td 0 p with
    | ((ts, some st), p') => ((ts, some st), p')
    | ((ts, none), p') => (emitFirst ts (acFirst s e ta 0 (positions 1 63) 0), p')
  | .dcf => dcTokens s e td al p
  | .dcr => (dcRefineTokens s e al, p)
  | .acf => (acFirst s e ta al band 0, p)
  | .acr => (acRefineTokens s e ta al band, p)

/-- The tokens of the entries of one MCU in list order (41_serializer.md R140, R141). -/
def mcuTokens (s : State) (kind : ScanKind) : List McuEntry → Vector Half 3 → Emission × Vector Half 3
  | [], p => (([], none), p)
  | e :: es, p =>
    match entryTokens s kind e p with
    | ((ts, some st), p') => ((ts, some st), p')
    | ((ts, none), p') =>
      let rest := mcuTokens s kind es p'
      (emitFirst ts rest.1, rest.2)

/-- A restart boundary stands before MCU `m` (41_serializer.md R135). -/
def restartBefore (s : State) (m : Nat) : Bool :=
  decide (0 < s.ri.toNat) && decide (0 < m) && m % s.ri.toNat == 0

/-- The predictors after a restart boundary or at the start of a scan (41_serializer.md R135). -/
def predZero : Vector Half 3 := Vector.replicate 3 0

/-- The MCUs from number `m` on, and then `End` (41_serializer.md R135, R141). -/
def serializeFrom (s : State) (kind : ScanKind) :
    Nat → List (List McuEntry) → Vector Half 3 → BitVec 3 → Run
  | _, [], p, n => { tokens := [.fin], stop := none, pred := p, rstn := n }
  | m, mcu :: rest, p, n =>
    let boundary := restartBefore s m
    let marks : List Token := if boundary then [.rst n.toNat] else []
    let n' := if boundary then n + 1 else n
    let p' := if boundary then predZero else p
    match mcuTokens s kind mcu p' with
    | ((ts, some st), p'') => { tokens := marks ++ ts, stop := some st, pred := p'', rstn := n' }
    | ((ts, none), p'') =>
      let r := serializeFrom s kind (m + 1) rest p'' n'
      { r with tokens := marks ++ ts ++ r.tokens }

/-- `Serialize` (41_serializer.md R141), for a scan of the given kind. -/
def serialize (s : State) (kind : ScanKind) : Run :=
  serializeFrom s kind 0 (mcuList s) predZero 0

/-- Steps 1 to 3 of HSCAN and ESCAN (42_huffman.md R162, 43_entropy.md R189): the two configuration checks, then
Serialize. A sequencer read of a never-written coefficient inside Serialize is the model's stop (log entry 14). -/
def scanRun (s : State) : Except Stop Run :=
  if !frameOk s then .error (.raised (raiseAt .badcfg 0 0 1))
  else if !scanOk s then .error (.raised (raiseAt .badcfg 0 0 4))
  else
    match scanKind s.scan with
    | none => .error (.raised (raiseAt .badcfg 0 0 4))
    | some kind =>
      let r := serialize s kind
      match r.stop with
      | some (.stuck f) => .error (.stuck f)
      | _ => .ok r

end Sys2Proof.Machine
end

