-- ==== Sys2Proof/Machine/Entropy.lean ====
section
/-! DEFINITION. The entropy coder and the raw-byte path: ESCAN, PUTB (43_entropy.md R180 to R194). -/

namespace Sys2Proof.Machine

/-- One pass of the loop of 43_entropy.md R182: a bit enters ACC, and a complete byte leaves it, a byte 0xFF followed
by the stuffed byte 0x00 (R183). -/
def putBit (b : Bool) (s : State) : State :=
  let acc : Byte := 2 * s.acc + BitVec.setWidth 8 (bit b)
  if s.nacc + 1 = 8 then
    let s := emitByte acc s
    let s := if acc = 0xFF then emitByte 0x00 s else s
    { s with acc := 0, nacc := 0 }
  else { s with acc := acc, nacc := s.nacc + 1 }

/-- `put_bits(n, v)`, most significant bit first (43_entropy.md R182). -/
def putBits : Nat → Nat → State → State
  | 0, _, s => s
  | n + 1, v, s => putBits n v (putBit (v.testBit n) s)

/-- `flush()` (43_entropy.md R184): pending bits are completed with 1 bits. -/
def flush (s : State) : State :=
  if 0 < s.nacc then putBits (8 - s.nacc) (2 ^ (8 - s.nacc) - 1) s else s

/-- Code one token (43_entropy.md R185 to R188). -/
def codeToken (s : State) : Token → Except Stop State
  | .sym t sy =>
    match needed .huff t sy (Bank.read s.mem.huff t sy) with
    | .error e => .error e
    | .ok e =>
      if e.len = 0 then .error (.raised (raiseAt .nocode 0 0 (256 * t + sy)))
      else .ok (putBits e.len.toNat e.code.toNat s)
  | .bits n v => .ok (putBits n v s)
  | .rst n => .ok (emitByte (0xD0 + BitVec.ofNat 8 n) (emitByte 0xFF (flush s)))
  | .fin => .ok (flush s)

/-- Code the tokens in order; a fault keeps what the tokens before it appended (43_entropy.md R190). -/
def codeTokens : List Token → State → State × Option Stop
  | [], s => (s, none)
  | tok :: toks, s =>
    match codeToken s tok with
    | .error e => (s, some e)
    | .ok s' => codeTokens toks s'

/-- ESCAN (43_entropy.md R189): the tokens produced are coded, and then Serialize's own fault, if any, is taken. -/
def execEscan (s : State) : Host.Outcome State Fault Refusal :=
  match scanRun s with
  | .error e => endCommand s (some e)
  | .ok r =>
    let (s', st) := codeTokens r.tokens { s with acc := 0, nacc := 0, pred := r.pred, rstn := r.rstn }
    endCommand s' (st.or r.stop)

/-- PUTB (43_entropy.md R192): the byte is appended as it is. -/
def execPutb (b : Byte) (s : State) : Host.Outcome State Fault Refusal := endCommand (emitByte b s) none

end Sys2Proof.Machine
end

