-- ==== Sys2Proof/Machine/Huffman.lean ====
section
/-! DEFINITION. The Huffman code table generator: HCLR, HSCAN, HBUILD (42_huffman.md R160 to R172). -/

namespace Sys2Proof.Machine

/-! ### HCLR -/

/-- Clear one slot: every symbol's counter is written 0 (42_huffman.md R161). -/
def clearSlot (h : Bank Word 8) (t : Nat) : Bank Word 8 :=
  Bank.writeRun h t 0 (List.replicate (slotSize t) 0)

/-- Clear the slots whose mask bit is 1 (42_huffman.md R161). -/
def clearSlots (mask : BitVec 8) (h : Bank Word 8) : Bank Word 8 :=
  (List.range 8).foldl (fun h t => if mask.getLsbD t then clearSlot h t else h) h

/-- HCLR (42_huffman.md R161). -/
def execHclr (mask : BitVec 8) (s : State) : Host.Outcome State Fault Refusal :=
  endCommand { s with mem := { s.mem with hist := clearSlots mask s.mem.hist } } none

/-! ### HSCAN -/

/-- Count one token (42_huffman.md R162, step 4): a counter already at its largest value faults HISTOVF. -/
def countToken (h : Bank Word 8) : Token → Except Stop (Bank Word 8)
  | .sym t sy =>
    match needed .hist t sy (Bank.read h t sy) with
    | .error e => .error e
    | .ok n =>
      if n = 0xFFFFFFFF#32 then .error (.raised (raiseAt .histovf 0 0 (256 * t + sy)))
      else .ok (Bank.write h t sy (n + 1))
  | .bits _ _ => .ok h
  | .rst _ => .ok h
  | .fin => .ok h

/-- Count the tokens in order; a fault keeps the increments made before it (42_huffman.md R162). -/
def countTokens : List Token → Bank Word 8 → Bank Word 8 × Option Stop
  | [], h => (h, none)
  | tok :: toks, h =>
    match countToken h tok with
    | .error e => (h, some e)
    | .ok h' => countTokens toks h'

/-- HSCAN (42_huffman.md R162): the tokens produced are counted, and then Serialize's own fault, if any, is taken. -/
def execHscan (s : State) : Host.Outcome State Fault Refusal :=
  match scanRun s with
  | .error e => endCommand s (some e)
  | .ok r =>
    let (h, st) := countTokens r.tokens s.mem.hist
    endCommand { s with pred := r.pred, rstn := r.rstn, mem := { s.mem with hist := h } } (st.or r.stop)

/-! ### HBUILD: code sizes -/

/-- An entry of 42_huffman.md R164 with positive frequency, together with the entries its chain of `others` reaches:
`root` is the index that carries the frequency `freq`, and `leaves` lists the chain from `root` on, each entry with its
`codesize` so far (log entry 18). -/
structure HuffNode where
  root : Nat
  freq : Nat
  leaves : List (Nat × Nat)
deriving DecidableEq, Repr

/-- `a` is taken before `b`: least frequency, and among equals the largest index (42_huffman.md R164). -/
def takenBefore (a b : HuffNode) : Bool :=
  decide (a.freq < b.freq) || (a.freq == b.freq && decide (b.root < a.root))

/-- Take the node that comes first out of a list, with the others in their order. -/
def takeLeast : List HuffNode → Option (HuffNode × List HuffNode)
  | [] => none
  | n :: ns =>
    match takeLeast ns with
    | none => some (n, [])
    | some (m, rest) => if takenBefore n m then some (n, ns) else some (m, n :: rest)

/-- Merge `c2` into `c1`: the frequencies add, and every entry of both chains gets one bit longer (42_huffman.md R164). -/
def mergeNodes (c1 c2 : HuffNode) : HuffNode where
  root := c1.root
  freq := c1.freq + c2.freq
  leaves := (c1.leaves ++ c2.leaves).map fun x => (x.1, x.2 + 1)

/-- The loop of 42_huffman.md R164, at most `fuel` rounds: each round leaves one node fewer, and the loop ends when
there is no second node. -/
def mergeAll : Nat → List HuffNode → List HuffNode
  | 0, ns => ns
  | fuel + 1, ns =>
    match takeLeast ns with
    | none => ns
    | some (c1, rest) =>
      match takeLeast rest with
      | none => ns
      | some (c2, rest2) => mergeAll fuel (mergeNodes c1 c2 :: rest2)

/-- The entries with positive frequency: the used symbols, and the reserved entry 256 with frequency 1
(42_huffman.md R164). -/
def initialNodes (h : List Nat) : List HuffNode :=
  (h.zipIdx.filterMap fun x =>
    if x.1 = 0 then none else some { root := x.2, freq := x.1, leaves := [(x.2, 0)] }) ++
    [{ root := 256, freq := 1, leaves := [(256, 0)] }]

/-- The entries with their `codesize` at the loop's exit (42_huffman.md R164). -/
def codeSizes (h : List Nat) : List (Nat × Nat) :=
  (mergeAll (initialNodes h).length (initialNodes h)).flatMap (·.leaves)

/-! ### HBUILD: length limiting -/

/-- `bits[l]`; a length with no place in the list has no codes. -/
def bitsAt (bits : List Nat) (l : Nat) : Nat := bits.getD l 0

/-- `bits[l] <- f bits[l]`. -/
def bitsSet (bits : List Nat) (l : Nat) (f : Nat → Nat) : List Nat := bits.set l (f (bitsAt bits l))

/-- `bits[l]` for `l` in 0..256, the number of entries of each code size (42_huffman.md R165). -/
def sizeCounts (sizes : List (Nat × Nat)) : List Nat :=
  sizes.foldl (fun bits x => bitsSet bits x.2 (· + 1)) (List.replicate 257 0)

/-- The nearest length at most `j` that has a code (the inner `while` of 42_huffman.md R165). -/
def nearestUsed (bits : List Nat) : Nat → Nat
  | 0 => 0
  | j + 1 => if bitsAt bits (j + 1) = 0 then nearestUsed bits j else j + 1

/-- One round at length `l` (42_huffman.md R165). -/
def limitRound (bits : List Nat) (l : Nat) : List Nat :=
  let j := nearestUsed bits (l - 2)
  let bits := bitsSet bits l (· - 2)
  let bits := bitsSet bits (l - 1) (· + 1)
  let bits := bitsSet bits (j + 1) (· + 2)
  bitsSet bits j (· - 1)

/-- The rounds at length `l`, at most `fuel` of them (42_huffman.md R165). -/
def limitLength (l : Nat) : Nat → List Nat → List Nat
  | 0, bits => bits
  | fuel + 1, bits => if bitsAt bits l = 0 then bits else limitLength l fuel (limitRound bits l)

/-- Length limiting: `l` from 256 down to 17 (42_huffman.md R165). -/
def limitLengths (bits : List Nat) : List Nat :=
  (List.range 240).foldl (fun bits i => limitLength (256 - i) (bitsAt bits (256 - i)) bits) bits

/-- Drop one code of the longest length, the place of the reserved entry (42_huffman.md R166). -/
def dropReserved (bits : List Nat) : List Nat := bitsSet bits (nearestUsed bits 16) (· - 1)

/-! ### HBUILD: lengths and codes -/

/-- Put a symbol into a list that is sorted by (key, symbol). -/
def insertByKey (x : Nat × Nat) : List (Nat × Nat) → List (Nat × Nat)
  | [] => [x]
  | y :: ys =>
    if x.2 < y.2 ∨ (x.2 = y.2 ∧ x.1 < y.1) then x :: y :: ys else y :: insertByKey x ys

/-- The (symbol, key) pairs sorted by ascending key, and by ascending symbol among equal keys. -/
def sortByKey (xs : List (Nat × Nat)) : List (Nat × Nat) := xs.foldr insertByKey []

/-- The lengths 1..16, each as often as `bits` says, in ascending order (42_huffman.md R166). -/
def lengthList (bits : List Nat) : List Nat :=
  (List.range' 1 16).flatMap fun l => List.replicate (bitsAt bits l) l

/-- The used symbols with their `len` (42_huffman.md R166): `order` gets the lengths in ascending order. -/
def symbolLengths (sizes : List (Nat × Nat)) (bits : List Nat) : List (Nat × Nat) :=
  ((sortByKey (sizes.filter fun x => decide (x.1 < 256))).map Prod.fst).zip (lengthList bits)

/-- A symbol's length and code, as numbers. -/
structure CodeWord where
  symbol : Nat
  len : Nat
  code : Nat
deriving DecidableEq, Repr

/-- Canonical codes (42_huffman.md R167): from length `l` and value `code` on, for the counts `bits[l], …` given, over
the symbols of `order2`. -/
def canonical : Nat → Nat → List Nat → List Nat → List CodeWord
  | _, _, [], _ => []
  | l, code, n :: counts, syms =>
    ((syms.take n).zipIdx.map fun x => { symbol := x.1, len := l, code := code + x.2 }) ++
      canonical (l + 1) (2 * (code + n)) counts (syms.drop n)

/-- `bits[1..16]` of 42_huffman.md R166 for the histogram `h`. -/
def limitedBits (h : List Nat) : List Nat := dropReserved (limitLengths (sizeCounts (codeSizes h)))

/-- The table of a histogram (42_huffman.md R164 to R167, R169): the used symbols with their lengths and codes. -/
def buildCodes (h : List Nat) : List CodeWord :=
  if h.all (· == 0) then []
  else
    let bits := limitedBits h
    let order2 := (sortByKey (symbolLengths (codeSizes h) bits)).map Prod.fst
    canonical 1 0 ((List.range' 1 16).map (bitsAt bits)) order2

/-- The code word of a symbol; a symbol with no code has length 0 and code 0 (42_huffman.md R163). -/
def codeOf (codes : List CodeWord) (sy : Nat) : CodeWord :=
  (codes.find? fun x => x.symbol == sy).getD { symbol := sy, len := 0, code := 0 }

/-- The HUFF element of a code word (20_memory.md R67). -/
def CodeWord.entry (x : CodeWord) : HuffEntry :=
  { len := BitVec.ofNat 5 x.len, code := BitVec.ofNat 16 x.code }

/-- The counters of slot `t`, symbols 0 up to its size (42_huffman.md R163). -/
def slotCounts (h : Bank Word 8) (t : Nat) : Except Stop (List Nat) :=
  (List.range (slotSize t)).mapM fun sy => (needed .hist t sy (Bank.read h t sy)).map BitVec.toNat

/-- HBUILD (42_huffman.md R163, R170): the whole slot of HUFF is written, or HUFFLEN raised and nothing written. -/
def execHbuild (t : BitVec 3) (s : State) : Host.Outcome State Fault Refusal :=
  match slotCounts s.mem.hist t.toNat with
  | .error e => endCommand s (some e)
  | .ok h =>
    let codes := buildCodes h
    match (List.range 256).find? fun sy => decide (16 < (codeOf codes sy).len) with
    | some sy => endCommand s (some (.raised (raiseAt .hufflen 0 0 (256 * t.toNat + sy))))
    | none =>
      endCommand
        { s with mem := { s.mem with
            huff := Bank.writeRun s.mem.huff t.toNat 0
              ((List.range (slotSize t.toNat)).map fun sy => (codeOf codes sy).entry) } }
        none

end Sys2Proof.Machine
end

