-- ==== Sys2Proof/Machine/Quantizer.lean ====
section
/-! DEFINITION. The DCT quantizer: QBLK (40_quantizer.md R110 to R121). -/

namespace Sys2Proof.Machine

/-- The largest legal quant-table entry (40_quantizer.md R119). -/
def quantLimit (s : State) : Nat := if s.ctrl.baseline then 255 else 32767

/-- The element of QF that belongs to the block at QPOS of component `c`: the top-left cell (40_quantizer.md R118). -/
def qfCell (s : State) (c : Nat) : Nat :=
  let hf := maxSampling s / (compAt s c).hs.toNat
  (s.qpos.byRow.toNat * hf) * qfWidth s + s.qpos.bx.toNat * hf

/-- `mac`, the multiplier word of coefficients 1..63 (40_quantizer.md R112). -/
def acMultiplier (s : State) (c : Nat) : Except Stop Word :=
  if s.ctrl.aq then needed .qf 0 (qfCell s c) (Bank.read s.mem.qf 0 (qfCell s c)) else .ok s.qfconst

/-- `mdc`, the multiplier word of coefficient 0 (40_quantizer.md R112). -/
def dcMultiplier (s : State) (mac : Word) : Word := if s.ctrl.dcfix then s.dcmul else mac

/-- `b`, the block at QPOS (40_quantizer.md R111). -/
def blockIndex (s : State) (c : Nat) : Nat := s.qpos.byRow.toNat * wib s c + s.qpos.bx.toNat

/-- The operands of one coefficient are legal: the input word and the multiplier are finite and the multiplier is
positive (40_quantizer.md R120). -/
def operandsOk (d mw : Word) : Bool := isFinite d && isFinite mw && decide (0 < valScaled mw)

/-- One pass of step 6 of 40_quantizer.md R117: the checks in their order, then the rounded coefficient. -/
def quantCoef (s : State) (c b t : Nat) (mac : Word) (k : Nat) : Except Stop Half := do
  let q ← needed .qtab t k (Bank.read s.mem.qtab t k)
  if q = 0 ∨ quantLimit s < q.toNat then
    throw (.raised (raiseAt .qtabrange c k b))
  let d ← needed .dbuf 0 (zigzag k) (Bank.read s.mem.dbuf 0 (zigzag k))
  let mw := if k = 0 then dcMultiplier s mac else mac
  if !operandsOk d mw then
    throw (.raised (raiseAt .qnonfinite c k b))
  let r := quantized d mw q.toNat
  if r < -32767 ∨ 32767 < r then
    throw (.raised (raiseAt .qrange c k b))
  return BitVec.ofInt 16 r

/-- Steps 1 to 6 of 40_quantizer.md R117: the 64 rounded coefficients of the block, or the first fault met. -/
def quantBlock (s : State) (c : Nat) : Except Stop (List Half) := do
  if !frameOk s then
    throw (.raised (raiseAt .badcfg 0 0 1))
  if s.nc.toNat ≤ c ∨ wib s c ≤ s.qpos.bx.toNat ∨ hib s c ≤ s.qpos.byRow.toNat then
    throw (.raised (raiseAt .badcfg c 0 2))
  if s.ctrl.aq ∧ s.params.qfCells < qfWidth s * qfHeight s then
    throw (.raised (raiseAt .badcfg c 0 3))
  let mac ← acMultiplier s c
  (List.range 64).mapM fun k => quantCoef s c (blockIndex s c) (compAt s c).tq.toNat mac k

/-- QBLK (40_quantizer.md R117): COEF is written only when all 64 coefficients passed (step 7). -/
def execQblk (c : BitVec 2) (s : State) : Host.Outcome State Fault Refusal :=
  match quantBlock s c.toNat with
  | .error e => endCommand s (some e)
  | .ok rs =>
    endCommand
      { s with mem := { s.mem with
          coef := Bank.writeRun s.mem.coef c.toNat (64 * blockIndex s c.toNat) rs } }
      none

end Sys2Proof.Machine
end

