-- ==== Sys2Proof/Machine/Dispatch.lean ====
section
/-! DEFINITION. The step of each command: one arm a constructor (30_encoding.md R91, R98). -/

namespace Sys2Proof.Machine

-- The sequencer's step of a legal command: the whole effect the command's rule gives, as one transition.
def exec (i : Instr) (s : State) : Host.Outcome State Fault Refusal :=
  match i with
  | .nop => Sys2Proof.Machine.execNop s
  | .qblk c => Sys2Proof.Machine.execQblk c s
  | .hclr mask => Sys2Proof.Machine.execHclr mask s
  | .hscan => Sys2Proof.Machine.execHscan s
  | .hbuild t => Sys2Proof.Machine.execHbuild t s
  | .escan => Sys2Proof.Machine.execEscan s
  | .putb b => Sys2Proof.Machine.execPutb b s

end Sys2Proof.Machine
end

