-- ==== Sys2Proof/Machine/Sequencer.lean ====
section
/-! DEFINITION. The sequencer's step of the command in CMDREG (30_encoding.md R98), a read of OUTCNT while a command
runs (10_state.md R44), and the soft reset that aborts one (70_reset_and_hazards.md R232). -/

namespace Sys2Proof.Machine

/-- The step of the command word in CMDREG: an illegal word raises BADCMD (30_encoding.md R92, R93, R98). -/
def runCommand (s : State) : Host.Outcome State Fault Refusal :=
  match decode s.cmdreg with
  | .ok i => exec i s
  | .error _ => .next (faultEntry { cause := .badcmd, c := 0, k := 0, aux := s.cmdreg } s)

/-- The moment of the sequencer's step: an idle block does nothing (30_encoding.md R98; 60_exceptions.md R217).
DESIGN CHOICE: the whole effect comes in this one move, BUSY falling in it too, so no byte of a running command is in
OUT, where the sink could take it, while BUSY is 1; 20_memory.md R72 lets OUT grow before (log entry 24). -/
def sequencerStep (s : State) : Host.Outcome State Fault Refusal :=
  if s.status.busy then runCommand s else .next s

/-- The state in which every never-written element that ESCAN may read, in COEF and in HUFF, holds some value
(20_memory.md R81). -/
def withFreeElements (s : State) : State :=
  { s with mem := { s.mem with
      coef := Bank.fill s.mem.coef (elementCount s.params .coef) fun u i =>
        (Config.freeElement s.free 3 u i).extractLsb' 0 16
      huff := Bank.fill s.mem.huff (elementCount s.params .huff) fun u i =>
        huffOf (Config.freeElement s.free 5 u i) } }

/-- How many bytes the step of the command in CMDREG appends to OUT; none where the step is the model's own stop. -/
def appendedBytes (s : State) : Option Nat :=
  match runCommand s with
  | .next t => some (t.out.length - s.out.length)
  | .fault _ | .refused _ => none

/-- OUTCNT as it reads while a command runs (10_state.md R44): a free value between the count before the command and the
count after it, modulo 2^32. Where the step is the model's own stop, the count after it is the one it has when the
never-written elements hold some values; a command that appends nothing leaves the count as it is (log entry 5). -/
def busyOutcnt (s : State) : Word :=
  let n := ((appendedBytes s).or (appendedBytes (withFreeElements s))).getD 0
  s.outcnt + BitVec.ofNat 32 (Config.freeNat s.free % (n + 1))

/-- A read of OUTCNT (10_state.md R44): exact while idle, and `busyOutcnt` while a command runs. -/
def readOutcnt (s : State) : Word × State :=
  if s.status.busy then (busyOutcnt s, { s with free := s.free + 1 }) else (s.outcnt, s)

/-- A soft reset (70_reset_and_hazards.md R231, R232). While a command runs it is aborted: a free choice says whether
its step had happened; if so its memory writes stand, and OUT has received a free number of the bytes it would have
appended (93_implementation_defined.md U2; log entry 6). -/
def writeSrst (s : State) : Host.Outcome State Fault Refusal :=
  if s.status.busy then
    let s' := { s with free := s.free + 2 }
    if Config.freeBool s.free then
      match runCommand s with
      | .next t =>
        let appended := (t.out.drop s.out.length).take (Config.freeNat (s.free + 1))
        .next (softReset { s' with mem := t.mem, out := s.out ++ appended })
      | .fault f => .fault f
      | .refused r => .refused r
    else .next (softReset s')
  else .next (softReset s)

end Sys2Proof.Machine
end

