-- ==== Sys2Proof/Machine/Bus.lean ====
section
/-! DEFINITION. The host's accesses (20_memory.md R71, R72; 70_reset_and_hazards.md R243), and one move of any agent
(10_state.md R20). -/

namespace Sys2Proof.Machine

/-- The host read that `s` answers with `w`. -/
def answer (w : Word) (s : State) : State := { s with busData := w }

/-- A read of a register (10_state.md R26; 20_memory.md R68, R72). -/
def readReg (r : Reg) (s : State) : Word × State :=
  match r with
  | .mdata => readPort s
  | .outcnt => readOutcnt s
  | .id | .ctrl | .status | .ie | .cmd | .finfo | .faux | .frame | .mcux | .mcuy => (regWord r s, s)
  | .comp0 | .comp1 | .comp2 | .qfconst | .dcmul | .qpos | .scan => (regWord r s, s)
  | .scomp0 | .scomp1 | .scomp2 | .niw | .nih | .ri | .msel | .midx => (regWord r s, s)

/-- A write that is accepted only while the block is not busy (70_reset_and_hazards.md R243). -/
def unlessBusy (s t : State) : State := if s.status.busy then setAccerr s else t

/-- A write to CMD (30_encoding.md R98): refused with CMDOVR while BUSY or FAULT is 1. -/
def writeCmd (w : Word) (s : State) : State :=
  if s.status.busy || s.status.fault then setCmdovr s else acceptCommand w s

/-- A write of `w` to a register (10_state.md R26, R27, R32 to R34; 70_reset_and_hazards.md R231, R243). -/
def writeReg (r : Reg) (w : Word) (s : State) : Host.Outcome State Fault Refusal :=
  match r with
  | .ctrl => if w.getLsbD 0 then writeSrst s else .next (unlessBusy s (storeCtrl w s))
  | .status => .next (writeStatus w s)
  | .ie => .next (storeIe w s)
  | .cmd => .next (writeCmd w s)
  | .mdata => .next (writePort w s)
  | .id | .finfo | .faux | .outcnt => .next (unlessBusy s s)
  | .frame | .mcux | .mcuy | .comp0 | .comp1 | .comp2 => .next (unlessBusy s (storeReg r w s))
  | .qfconst | .dcmul | .qpos | .scan | .scomp0 | .scomp1 => .next (unlessBusy s (storeReg r w s))
  | .scomp2 | .niw | .nih | .ri | .msel | .midx => .next (unlessBusy s (storeReg r w s))

/-- The bus address selects this block (10_state.md R25, 20_memory.md R73; log entry 16). -/
def selectsBlock (p : Params) (addr : Nat) : Bool := decide (p.base ≤ addr) && decide (addr < p.base + 256)

/-- The access is a 32-bit access at an offset that is a multiple of 4 (20_memory.md R71). -/
def legalAccess (offset width : Nat) : Bool := width == 32 && offset % 4 == 0

/-- A host read (20_memory.md R71, R72; 10_state.md R26): a refused read returns 0 and sets ACCERR. -/
def hostRead (addr width : Nat) (s : State) : State :=
  if selectsBlock s.params addr then
    let offset := addr - s.params.base
    if legalAccess offset width then
      match regAt offset with
      | some r => let (w, t) := readReg r s; answer w t
      | none => answer 0 (setAccerr s)
    else answer 0 (setAccerr s)
  else s

/-- A host write (20_memory.md R71, R72; 10_state.md R26): a refused write is ignored and sets ACCERR. -/
def hostWrite (addr width : Nat) (w : Word) (s : State) : Host.Outcome State Fault Refusal :=
  if selectsBlock s.params addr then
    let offset := addr - s.params.base
    if legalAccess offset width then
      match regAt offset with
      | some r => writeReg r w s
      | none => .next (setAccerr s)
    else .next (setAccerr s)
  else .next s

/-- One move of an agent (10_state.md R20). -/
def perform (e : Event) (s : State) : Host.Outcome State Fault Refusal :=
  match e with
  | .read addr width => .next (hostRead addr width s)
  | .write addr width w => hostWrite addr width w s
  | .sinkReady => .next (sinkTake s)
  | .sequencer => sequencerStep s
  | .hardReset => .next (hardReset s)

/-- A command word that has just been accepted, its step being the very next move (30_encoding.md R98). -/
def withCommand (w : Word) (s : State) : State :=
  { acceptCommand w s with agenda := .sequencer :: s.agenda }

end Sys2Proof.Machine
end

