-- ==== Sys2Proof/Machine/Step.lean ====
section
/-! DEFINITION. One step of the machine: the next move of the agenda, and with no move left the sequencer's own step of
the command in CMDREG, if there is one (20_memory.md R75, 30_encoding.md R98, R99; log entries 2 and 12). -/

namespace Sys2Proof.Machine

/-- One step. -/
def step (s : State) : Host.Outcome State Fault Refusal :=
  match s.agenda with
  | [] => sequencerStep s
  | e :: rest => perform e { s with agenda := rest }

/-- The command word `w` stored where the next step takes its command from: JBE fetches nothing, a command is delivered
by a write to CMD, so the word is latched in CMDREG as an accepted write latches it, and the sequencer's step is the
next move (30_encoding.md R98, 20_memory.md R78; log entry 17). -/
def State.withFetchWord (s : State) (nbits w : Nat) : State := withCommand (tableWord nbits w) s

end Sys2Proof.Machine
end

