-- ==== Sys2Proof/Machine/HostScript.lean ====
section
/-! DEFINITION. The host notation of 30_encoding.md R95 and R96 as moves of the agenda. -/

namespace Sys2Proof.Machine

/-- The bus address of a register. -/
def regAddr (p : Params) (r : Reg) : Nat := p.base + regOffset r

/-- `wr REG, v` (30_encoding.md R95). -/
def hostWr (p : Params) (r : Reg) (v : Word) : List Event := [.write (regAddr p r) 32 v]

/-- `rd REG` (30_encoding.md R95). -/
def hostRd (p : Params) (r : Reg) : List Event := [.read (regAddr p r) 32]

/-- `cmd X` (30_encoding.md R95). -/
def hostCmd (p : Params) (i : Instr) : List Event := hostWr p .cmd (encode i)

/-- `wait` (30_encoding.md R96): reads of STATUS until BUSY is 0. How many of them find the command still running is
open (93_implementation_defined.md U4), so it is the argument `polls` (DESIGN CHOICE, log entry 21). -/
def hostWait (p : Params) (polls : Nat) : List Event :=
  (List.replicate polls (Event.read (regAddr p .status) 32)) ++ [.sequencer] ++ hostRd p .status

/-- `run X` (30_encoding.md R96), with the number of polls of its `wait` that still find BUSY = 1 (U4; DESIGN CHOICE, log
entry 21). -/
def hostRun (p : Params) (polls : Nat) (i : Instr) : List Event := hostCmd p i ++ hostWait p polls

/-- The value of MSEL that selects a space and a sub-space (30_encoding.md R96). -/
def mselWord (sp : Space) (sub : Nat) : Word :=
  BitVec.ofNat 32 ((match sp with | .dbuf => 0 | .qtab => 1 | .qf => 2 | .coef => 3 | .hist => 4 | .huff => 5) + 16 * sub)

/-- `mw SPACE, sub, i0, v0, …` (30_encoding.md R96). -/
def hostMw (p : Params) (sp : Space) (sub i0 : Nat) (vs : List Word) : List Event :=
  hostWr p .msel (mselWord sp sub) ++ hostWr p .midx (BitVec.ofNat 32 i0) ++ vs.flatMap (hostWr p .mdata)

/-- `mr SPACE, sub, i0, n` (30_encoding.md R96). -/
def hostMr (p : Params) (sp : Space) (sub i0 n : Nat) : List Event :=
  hostWr p .msel (mselWord sp sub) ++ hostWr p .midx (BitVec.ofNat 32 i0) ++
    (List.replicate n (hostRd p .mdata)).flatten

/-- `marker k` (30_encoding.md R96), with the number of polls of each of its two waits (U4; DESIGN CHOICE, log entry
21). -/
def hostMarker (p : Params) (polls polls' : Nat) (k : Byte) : List Event :=
  hostRun p polls (.putb 0xFF) ++ hostRun p polls' (.putb k)

/-- The quotient `a / d` rounded to nearest, ties to even. -/
def nearestEven (a d : Nat) : Nat :=
  let q := a / d
  let r := a % d
  if d < 2 * r ∨ (2 * r = d ∧ q % 2 = 1) then q + 1 else q

/-- `f32(x)` for `x = n / d` with `d > 0` (30_encoding.md R95): the nearest binary32 word, ties to even; the layout is
that of 40_quantizer.md R113. PRESUMED (unsafe, log entry 25), where R95 does not say which word is meant: the infinity
of the sign of `x` where its rounding is beyond the largest finite word, and negative zero where a negative `x` rounds to
zero, as IEEE 754 rounds; `x = 0` is positive zero. -/
def f32 (n : Int) (d : Nat) : Word :=
  let a := n.natAbs * 2 ^ 149
  let e := (a / d).log2 - 22
  let e := if e = 0 then 1 else e
  let m := nearestEven a (d * 2 ^ (e - 1))
  let w := min ((e - 1) * 2 ^ 23 + m) (255 * 2 ^ 23)
  BitVec.ofNat 32 (if n < 0 then 2 ^ 31 + w else w)

end Sys2Proof.Machine
end

