-- ==== Sys2Proof/Safety.lean ====
section
/-! DEFINITION. What counts as a sound state: the invariant that every step keeps (the memory's canonical form and
bounds, the exclusions among the flags of STATUS, the fault record, the empty bit accumulator), and the two decidable
properties of memory it is made of. -/

namespace Sys2Proof.Machine

/-- Every element a sub-space lists has a legal index (20_memory.md R61, R80). -/
def Bank.within {α : Type} {n : Nat} (b : Bank α n) (bound : Nat → Nat) : Bool :=
  (List.range n).all fun u => ((b[u]?).getD []).all fun x => decide (x.1 < bound u)

/-- Every element the memory lists has a legal index of 20_memory.md R61. -/
def Memory.bounded (p : Params) (m : Memory) : Bool :=
  Bank.within m.dbuf (elementCount p .dbuf) && Bank.within m.qtab (elementCount p .qtab) &&
  Bank.within m.qf (elementCount p .qf) && Bank.within m.coef (elementCount p .coef) &&
  Bank.within m.hist (elementCount p .hist) && Bank.within m.huff (elementCount p .huff)

/-- Every HUFF element the memory lists satisfies `LEN <= 16` and `CODE < 2^LEN` (20_memory.md R67, R69). -/
def Memory.huffSound (m : Memory) : Bool :=
  m.huff.toList.all fun st => st.all fun x => huffLegal x.2

/-- The flags exclude each other as 10_state.md R33 and R52 make them, and CAUSE, FINFO, FAUX are 0 while there is no
fault (10_state.md R33, R46) and CAUSE one of the nine codes while there is one (60_exceptions.md R201). -/
structure StatusSound (s : State) : Prop where
  busy_not_done : s.status.busy = true → s.status.done = false
  busy_not_fault : s.status.busy = true → s.status.fault = false
  done_not_fault : s.status.done = true → s.status.fault = false
  no_fault_no_cause : s.status.fault = false → s.status.cause = 0
  no_fault_no_record : s.status.fault = false → s.finfo = { k := 0, c := 0 } ∧ s.faux = 0
  fault_has_cause : s.status.fault = true → 1 ≤ s.status.cause.toNat ∧ s.status.cause.toNat ≤ 9

/-- The invariant of the machine: it holds in every state a run can reach. -/
structure State.Inv (s : State) : Prop where
  canonical : s.mem.wf = true
  bounded : s.mem.bounded s.params = true
  status : StatusSound s
  acc_empty : s.acc = 0
  nacc_empty : s.nacc = 0

end Sys2Proof.Machine
end

