-- ==== Sys2Proof/Certificates/Slice0/Obligations.lean ====
section
/-! DEFINITION. The statements for the provers, and the words they are written in (namespace Sys2Proof.Claims). Each
statement's docstring names the rule of spec/ it formalises. Model choices are named with their log entry. -/

namespace Sys2Proof.Claims

open Sys2Proof Sys2Proof.Machine

/-! ### Words of the statements -/

/-- STATUS after a command that completed without fault (30_encoding.md R98). -/
def doneStatus (st : Status) : Status := { st with busy := false, done := true }

/-- The state after fault entry with cause code `code`, written out from 60_exceptions.md R203. -/
def faulted (code : BitVec 8) (c : BitVec 2) (k : BitVec 6) (aux : Word) (s : State) : State :=
  { s with
    status := { s.status with fault := true, cause := code, busy := false }
    finfo := { c := c, k := k }
    faux := aux
    acc := 0
    nacc := 0 }

/-- STATUS with ACCERR set (60_exceptions.md R209). -/
def accerrSet (s : State) : State := { s with status := { s.status with accerr := true } }

/-- The mnemonic of a command (30_encoding.md R91). -/
def mnemonicOf : Instr → String
  | .nop => "NOP"
  | .qblk _ => "QBLK"
  | .hclr _ => "HCLR"
  | .hscan => "HSCAN"
  | .hbuild _ => "HBUILD"
  | .escan => "ESCAN"
  | .putb _ => "PUTB"

/-- The cause codes with which a command can end (60_exceptions.md R219). -/
def causesOf : Instr → List (BitVec 8)
  | .nop => []
  | .qblk _ => [2, 3, 4, 5]
  | .hclr _ => []
  | .hscan => [2, 6, 8]
  | .hbuild _ => []
  | .escan => [2, 6, 7]
  | .putb _ => []

/-- The bits of a parameter register that a rule of 10_state.md names (R35 to R43); the rest are reserved (R26). -/
def namedBits : Reg → Word
  | .frame => 0x00000003
  | .mcux | .mcuy | .niw | .nih | .ri => 0x0000FFFF
  | .comp0 | .comp1 | .comp2 => 0x000003FF
  | .qfconst | .dcmul | .qpos | .midx => 0xFFFFFFFF
  | .scan => 0xFF3F3F03
  | .scomp0 | .scomp1 | .scomp2 => 0x00000333
  | .msel => 0x000000FF
  | .id | .ctrl | .status | .ie | .cmd | .finfo | .faux | .mdata | .outcnt => 0

/-! ### Legal frames, scans and elements -/

/-- `wib[c]`, the width of component `c` in blocks, written out from 10_state.md R35. -/
def wibOf (s : State) (c : Nat) : Nat := s.mcux.toNat * (compAt s c).hs.toNat

/-- `hib[c]`, the height of component `c` in blocks, written out from 10_state.md R35. -/
def hibOf (s : State) (c : Nat) : Nat := s.mcuy.toNat * (compAt s c).vs.toNat

/-- `FrameOK`, clauses (a) to (d) written out from 10_state.md R54 and R35. -/
structure FrameLegal (s : State) : Prop where
  components : 1 ≤ s.nc.toNat ∧ s.nc.toNat ≤ 3
  mcus : 1 ≤ s.mcux.toNat ∧ 1 ≤ s.mcuy.toNat
  sampling : ∀ c < s.nc.toNat,
    ((compAt s c).hs.toNat = 1 ∨ (compAt s c).hs.toNat = 2 ∨ (compAt s c).hs.toNat = 4 ∨ (compAt s c).hs.toNat = 8) ∧
      (compAt s c).vs.toNat = (compAt s c).hs.toNat
  capacity : ∀ c < s.nc.toNat,
    (s.mcux.toNat * (compAt s c).hs.toNat) * (s.mcuy.toNat * (compAt s c).vs.toNat) ≤ s.params.coefBlocks

/-- `maxs`, the largest sampling factor of the frame (10_state.md R35). -/
def LargestSampling (s : State) (maxs : Nat) : Prop :=
  (∃ c < s.nc.toNat, (compAt s c).hs.toNat = maxs) ∧ ∀ c < s.nc.toNat, (compAt s c).hs.toNat ≤ maxs

/-- The scan has the kind, the condition column of 41_serializer.md R133. -/
def HasKind (s : State) : ScanKind → Prop
  | .seq => s.scan.ss.toNat = 0 ∧ s.scan.se.toNat = 63 ∧ s.scan.ah.toNat = 0 ∧ s.scan.al.toNat = 0
  | .dcf => s.scan.ss.toNat = 0 ∧ s.scan.se.toNat = 0 ∧ s.scan.ah.toNat = 0
  | .dcr => s.scan.ss.toNat = 0 ∧ s.scan.se.toNat = 0 ∧ 1 ≤ s.scan.ah.toNat ∧ s.scan.al.toNat = s.scan.ah.toNat - 1
  | .acf => 1 ≤ s.scan.ss.toNat ∧ s.scan.ss.toNat ≤ s.scan.se.toNat ∧ s.scan.ns.toNat = 1 ∧ s.scan.ah.toNat = 0
  | .acr => 1 ≤ s.scan.ss.toNat ∧ s.scan.ss.toNat ≤ s.scan.se.toNat ∧ s.scan.ns.toNat = 1 ∧
      1 ≤ s.scan.ah.toNat ∧ s.scan.al.toNat = s.scan.ah.toNat - 1

/-- `ScanOK`, clauses (a) to (d) written out from 41_serializer.md R132. -/
structure ScanLegal (s : State) : Prop where
  number : 1 ≤ s.scan.ns.toNat ∧ s.scan.ns.toNat ≤ s.nc.toNat
  components : ∀ j < s.scan.ns.toNat, (scompAt s j).ci.toNat < s.nc.toNat
  ascending : ∀ j, j + 1 < s.scan.ns.toNat → (scompAt s j).ci.toNat < (scompAt s (j + 1)).ci.toNat
  kind : ∃ kind, HasKind s kind
  extent : s.scan.ns.toNat = 1 →
    1 ≤ s.niw.toNat ∧ s.niw.toNat ≤ wibOf s (scompAt s 0).ci.toNat ∧
    1 ≤ s.nih.toNat ∧ s.nih.toNat ≤ hibOf s (scompAt s 0).ci.toNat

/-- MSEL and MIDX select an element of the space: a row of the table of 20_memory.md R61, with its SPACE, its SUB and
its index range. -/
def Selects (s : State) : Space → Prop
  | .dbuf => s.msel.space.toNat = 0 ∧ s.msel.sub.toNat = 0 ∧ s.midx.toNat ≤ 63
  | .qtab => s.msel.space.toNat = 1 ∧ s.msel.sub.toNat ≤ 3 ∧ s.midx.toNat ≤ 63
  | .qf => s.msel.space.toNat = 2 ∧ s.msel.sub.toNat = 0 ∧ s.midx.toNat < s.params.qfCells
  | .coef => s.msel.space.toNat = 3 ∧ s.msel.sub.toNat ≤ 2 ∧ s.midx.toNat < 64 * s.params.coefBlocks
  | .hist => s.msel.space.toNat = 4 ∧ s.msel.sub.toNat ≤ 7 ∧
      s.midx.toNat ≤ (if s.msel.sub.toNat ≤ 3 then 11 else 255)
  | .huff => s.msel.space.toNat = 5 ∧ s.msel.sub.toNat ≤ 7 ∧
      s.midx.toNat ≤ (if s.msel.sub.toNat ≤ 3 then 11 else 255)

/-- Memory `m` keeps every written element of `s` and may give a value to others (20_memory.md R81). -/
def Completes (s : State) (m : Memory) : Prop :=
  ∀ sp u i w, elementWord s.mem sp u i = some w → elementWord m sp u i = some w

/-! ### The quantizer -/

/-- The field `e = w[30:23]` of a binary32 word (40_quantizer.md R113). -/
def exponentOf (w : Word) : Nat := w.toNat / 2 ^ 23 % 2 ^ 8

/-- The field `f = w[22:0]` of a binary32 word (40_quantizer.md R113). -/
def fractionOf (w : Word) : Nat := w.toNat % 2 ^ 23

/-- `val(w)` as a rational number, written out from 40_quantizer.md R113. A word is finite where `exponentOf w` is not
255. -/
def valQ (w : Word) : ℚ :=
  let sign : ℚ := if w.getLsbD 31 then -1 else 1
  if exponentOf w = 0 then sign * fractionOf w * 2 ^ (-149 : ℤ)
  else sign * (2 ^ 23 + fractionOf w) * 2 ^ ((exponentOf w : ℤ) - 150)

/-- `rnd(x)`, written out from 40_quantizer.md R115. -/
def rndQ (x : ℚ) : ℤ := if 0 ≤ x then ⌊x + 1 / 2⌋ else -⌊-x + 1 / 2⌋

/-- The zigzag table, as 00_scope.md R13 lists it: `zz k` is `ZZ[k]`, for `k` in 0..63. -/
def zz (k : Nat) : Nat :=
  ([ 0,  1,  8, 16,  9,  2,  3, 10, 17, 24, 32, 25, 18, 11,  4,  5,
    12, 19, 26, 33, 40, 48, 41, 34, 27, 20, 13,  6,  7, 14, 21, 28,
    35, 42, 49, 56, 57, 50, 43, 36, 29, 22, 15, 23, 30, 37, 44, 51,
    58, 59, 52, 45, 38, 31, 39, 46, 53, 60, 61, 54, 47, 55, 62, 63] : List Nat).getD k 0

/-- `b`, the block of component `c` at QPOS, written out from 40_quantizer.md R111. -/
def blockOf (s : State) (c : Nat) : Nat := s.qpos.byRow.toNat * wibOf s c + s.qpos.bx.toNat

/-- The element of QF that belongs to the block at QPOS of component `c`, written out from 40_quantizer.md R118 for the
largest sampling factor `maxs`: `cy * QFW + cx` with `(cx, cy) = (BX * hf, BY * hf)`. -/
def cellOf (s : State) (c maxs : Nat) : Nat :=
  let hf := maxs / (compAt s c).hs.toNat
  s.qpos.byRow.toNat * hf * (s.mcux.toNat * maxs) + s.qpos.bx.toNat * hf

/-- Steps 1 to 5 of 40_quantizer.md R117 pass for component `c`, and `mac` is the multiplier of R112: QFCONST, or with
AQ the element of QF that R118 gives, in a field that fits. -/
structure BlockReady (s : State) (c : Nat) (mac : Word) : Prop where
  frame : frameOk s = true
  component : c < s.nc.toNat
  column : s.qpos.bx.toNat < wibOf s c
  row : s.qpos.byRow.toNat < hibOf s c
  constant : s.ctrl.aq = false → mac = s.qfconst
  field : s.ctrl.aq = true → ∃ maxs, LargestSampling s maxs ∧
    (s.mcux.toNat * maxs) * (s.mcuy.toNat * maxs) ≤ s.params.qfCells ∧
    Bank.read s.mem.qf 0 (cellOf s c maxs) = some mac

/-- The multiplier word of coefficient `k` (40_quantizer.md R112). -/
def multiplierOf (s : State) (mac : Word) (k : Nat) : Word :=
  if k = 0 ∧ s.ctrl.dcfix = true then s.dcmul else mac

/-- Coefficient `k` passes every check of step 6 of 40_quantizer.md R117, with table entry `q` and input word `d`. -/
structure CoefReady (s : State) (c : Nat) (mac : Word) (k : Nat) (q : Half) (d : Word) : Prop where
  entry : Bank.read s.mem.qtab (compAt s c).tq.toNat k = some q
  inRange : 1 ≤ q.toNat ∧ q.toNat ≤ (if s.ctrl.baseline then 255 else 32767)
  input : Bank.read s.mem.dbuf 0 (zz k) = some d
  finite : exponentOf d ≠ 255 ∧ exponentOf (multiplierOf s mac k) ≠ 255
  positive : 0 < valQ (multiplierOf s mac k)
  fits : -32767 ≤ quantized d (multiplierOf s mac k) q.toNat ∧ quantized d (multiplierOf s mac k) q.toNat ≤ 32767

/-! ### The serializer -/

/-- Two states agree on everything Serialize reads (41_serializer.md R141): the scan registers, the frame registers, RI
and COEF (and the parameter COEF_BLOCKS). -/
structure SameScanInputs (s s' : State) : Prop where
  nc : s.nc = s'.nc
  mcux : s.mcux = s'.mcux
  mcuy : s.mcuy = s'.mcuy
  comp : s.comp = s'.comp
  scan : s.scan = s'.scan
  scomp : s.scomp = s'.scomp
  niw : s.niw = s'.niw
  nih : s.nih = s'.nih
  ri : s.ri = s'.ri
  coef : s.mem.coef = s'.mem.coef
  blocks : s.params.coefBlocks = s'.params.coefBlocks

/-- A token in the ranges of 41_serializer.md R131; a DC slot's symbol is at most 11 (42_huffman.md R162). -/
def tokenInRange : Token → Prop
  | .sym t sy => t < 8 ∧ sy < 256 ∧ (t < 4 → sy ≤ 11)
  | .bits n v => 1 ≤ n ∧ n ≤ 15 ∧ v < 2 ^ n
  | .rst n => n < 8
  | .fin => True

/-- The marker indices of the restart tokens, in order. -/
def restartIndices (toks : List Token) : List Nat :=
  toks.filterMap fun t => match t with | .rst n => some n | _ => none

/-- The number of MCUs of a scan (41_serializer.md R134). -/
def mcuCount (s : State) : Nat :=
  if s.scan.ns = 1 then s.niw.toNat * s.nih.toNat else s.mcux.toNat * s.mcuy.toNat

/-- The MCU at row `my`, column `mx` of an interleaved scan, written out from 41_serializer.md R134: the components in
slot order, and of each its VS rows of HS blocks. -/
def interleavedMcu (s : State) (my mx : Nat) : List McuEntry :=
  (List.range s.scan.ns.toNat).flatMap fun j =>
    let c := (scompAt s j).ci.toNat
    let hs := (compAt s c).hs.toNat
    let vs := (compAt s c).vs.toNat
    (List.range (vs * hs)).map fun n =>
      { slot := j, comp := c, block := (my * vs + n / hs) * wibOf s c + (mx * hs + n % hs) }

/-- Every coefficient of the component's blocks is written, the DC values are between -1023 and 1023 (so that no
difference exceeds 2047) and no other value is -32768. -/
def codable (s : State) (c : Nat) : Prop :=
  ∀ b < wibOf s c * hibOf s c, ∀ k < 64, ∃ v : Half, Bank.read s.mem.coef c (64 * b + k) = some v ∧
    (k = 0 → -1023 ≤ v.toInt ∧ v.toInt ≤ 1023) ∧ v.toInt ≠ -32768

/-- `n` is `cat(v)`, written out from 00_scope.md R12. -/
def HasCategory (v : Int) (n : Nat) : Prop :=
  (v = 0 ∧ n = 0) ∨ (v ≠ 0 ∧ 1 ≤ n ∧ 2 ^ (n - 1) ≤ v.natAbs ∧ v.natAbs < 2 ^ n)

/-- `mag(v, n)` for `v ≠ 0`, written out from 00_scope.md R12. -/
def magOf (v : Int) (n : Nat) : Int := if 0 < v then v else v + 2 ^ n - 1

/-- The DC tokens of one difference, written out from 41_serializer.md R136. That `category` and `magnitude` are the
functions of 00_scope.md R12 is a clause of DcScanCodesDifferences. -/
def diffTokens (td : Nat) (diff : Int) : List Token :=
  let n := category diff
  .sym td n :: if n = 0 then [] else [.bits n (magnitude diff n)]

/-- The transformed DC value of MCU `m` of a one-component scan (41_serializer.md R134, R143), given the stored ones. -/
def dcOfMcu (s : State) (dc : Nat → Half) (m : Nat) : Int :=
  (dc (m / s.niw.toNat * wibOf s (scompAt s 0).ci.toNat + m % s.niw.toNat)).toInt / 2 ^ s.scan.al.toNat

/-- A restart boundary stands before MCU `m` (41_serializer.md R135). -/
def boundaryBefore (s : State) (m : Nat) : Prop := 0 < s.ri.toNat ∧ 0 < m ∧ m % s.ri.toNat = 0

open Classical in
/-- The restart token in front of MCU `m`, if any, with its index (41_serializer.md R135; 90_conflicts.md C1). -/
noncomputable def markerBefore (s : State) (m : Nat) : List Token :=
  if boundaryBefore s m then [.rst ((m / s.ri.toNat - 1) % 8)] else []

open Classical in
/-- The predictors MCU `m` starts from, given those each MCU leaves for the next one: 0 at the start of the scan and
after a restart boundary (41_serializer.md R135). -/
noncomputable def predBefore (s : State) (preds : Nat → Vector Half 3) (m : Nat) : Vector Half 3 :=
  if m = 0 ∨ boundaryBefore s m then Vector.replicate 3 0 else preds m

open Classical in
/-- The DC difference of MCU `m`: against 0 at the start of the scan and after a restart boundary, else against the MCU
before (41_serializer.md R135, R136). -/
noncomputable def dcDiff (s : State) (dc : Nat → Half) (m : Nat) : Int :=
  dcOfMcu s dc m - if m = 0 ∨ boundaryBefore s m then 0 else dcOfMcu s dc (m - 1)

open Classical in
/-- The tokens of a one-component DC scan, written out from 41_serializer.md R134 to R136 and 90_conflicts.md C1. -/
noncomputable def dcScanTokens (s : State) (dc : Nat → Half) : List Token :=
  ((List.range (s.niw.toNat * s.nih.toNat)).flatMap fun m =>
    (if boundaryBefore s m then [Token.rst ((m / s.ri.toNat - 1) % 8)] else []) ++
      diffTokens (scompAt s 0).td.toNat (dcDiff s dc m)) ++ [.fin]

/-- The entries of a scan in order, each with the number of its MCU (41_serializer.md R134). -/
def scanEntries (s : State) : List (Nat × McuEntry) :=
  (mcuList s).zipIdx.flatMap fun x => x.1.map fun e => (x.2, e)

/-- The transformed DC value of an entry (41_serializer.md R143); asked only where it is written. -/
def dcOf (s : State) (e : McuEntry) : Int :=
  ((Bank.read s.mem.coef e.comp (64 * e.block)).getD 0).toInt / 2 ^ s.scan.al.toNat

/-- The DC difference of an entry, given the entries before it: against the last of its component in the same restart
interval, and against 0 where there is none (41_serializer.md R135, R136). With RI = 0 the quotients are all 0, and the
scan is one interval. -/
def diffOf (s : State) (earlier : List (Nat × McuEntry)) (x : Nat × McuEntry) : Int :=
  let same := earlier.filter fun y => y.1 / s.ri.toNat = x.1 / s.ri.toNat ∧ y.2.comp = x.2.comp
  dcOf s x.2 - (same.getLast?.map fun y => dcOf s y.2).getD 0

/-- Coefficient `k` of entry number `n` cannot be coded: at `k = 0` of a first pass a difference of category above 11,
elsewhere in the band the value -32768 (41_serializer.md R136, R137, R139). -/
def uncodable (s : State) (n k : Nat) : Prop :=
  ∃ x, (scanEntries s)[n]? = some x ∧ s.scan.ss.toNat ≤ k ∧ k ≤ s.scan.se.toNat ∧
    (k = 0 → s.scan.ah = 0 ∧ 2047 < (diffOf s ((scanEntries s).take n) x).natAbs) ∧
    (k ≠ 0 → Bank.read s.mem.coef x.2.comp (64 * x.2.block + k) = some 0x8000#16)

/-- The integer an AC magnitude field of `n` bits stands for ("ones-complement for negatives", 41_serializer.md R137). -/
def fieldValue (n v : Nat) : Int := if 2 ^ (n - 1) ≤ v then v else (v : Int) - (2 ^ n - 1)

/-- A decoder of first-pass AC tokens, written from DOC00's words in 41_serializer.md R130: the band of `n` positions the
tokens stand for. Zeros that end the band are one EOB: a ZRL stands only before a non-zero value (41_serializer.md
R137). -/
def decodeBand : List Token → Nat → Option (List Int)
  | [], 0 => some []
  | [], _ + 1 => none
  | [.sym _ sy], n => if sy = 0 ∧ 0 < n then some (List.replicate n 0) else none
  | .sym _ sy :: .bits m v :: rest, n =>
    if sy % 16 = m ∧ 1 ≤ m ∧ sy / 16 < n then
      (decodeBand rest (n - sy / 16 - 1)).map fun vs => List.replicate (sy / 16) 0 ++ fieldValue m v :: vs
    else none
  | .sym _ sy :: rest, n =>
    if sy = 0xF0 ∧ 16 ≤ n then
      match decodeBand rest (n - 16) with
      | some vs => if ∀ v ∈ vs, v = 0 then none else some (List.replicate 16 0 ++ vs)
      | none => none
    else none
  | _ :: _, _ => none

/-- The transformed coefficient: the shifted magnitude with the sign kept (41_serializer.md R143). -/
def transformed (v : Int) (al : Nat) : Int := if 0 ≤ v then (v.natAbs / 2 ^ al : Nat) else -(v.natAbs / 2 ^ al : Nat)

/-- The tokens are a first pass over positions `k0..k1` of an entry: every symbol is in the entry's AC slot 4 + TA, and
the decoder recovers the transformed coefficients (41_serializer.md R137, R140); asked only where they are written. -/
def FirstPass (s : State) (e : McuEntry) (k0 k1 al : Nat) (toks : List Token) : Prop :=
  (∀ t sy, Token.sym t sy ∈ toks → t = 4 + (scompAt s e.slot).ta.toNat) ∧
  decodeBand toks (k1 + 1 - k0) = some ((List.range' k0 (k1 + 1 - k0)).map fun k =>
    transformed ((Bank.read s.mem.coef e.comp (64 * e.block + k)).getD 0).toInt al)

/-- The tokens of one entry of a first pass that takes in the DC value (kinds SEQ and DCF), given the entries before it
and its AC tokens: the DC difference in the slot TD of the entry's own scan slot comes first (41_serializer.md R136,
R140). -/
def entryTokensOf (s : State) (ac : McuEntry → List Token) (n : Nat) (x : Nat × McuEntry) : List Token :=
  diffTokens (scompAt s x.2.slot).td.toNat (diffOf s ((scanEntries s).take n) x) ++ ac x.2

/-- The tokens of MCU `m` of such a scan: those of its entries in their order (41_serializer.md R140). -/
def mcuTokensOf (s : State) (ac : McuEntry → List Token) (m : Nat) : List Token :=
  (scanEntries s).zipIdx.flatMap fun y => if y.1.1 = m then entryTokensOf s ac y.2 y.1 else []

/-- Pass over coefficients until `n` without history are passed and the next is one without history too, or the band
ends; each coefficient that was already non-zero takes one correction bit (41_serializer.md R139). The first flag of a
coefficient says that it was already non-zero. Answers the values passed, and the flags and tokens left. -/
def passOver : Nat → List Bool → List Token → Option (List Int × List Bool × List Token)
  | _, [], ts => some ([], [], ts)
  | n, true :: hs, .bits 1 b :: ts => (passOver n hs ts).map fun x => ((b : Int) :: x.1, x.2)
  | _, true :: _, _ => none
  | 0, false :: hs, ts => some ([], false :: hs, ts)
  | n + 1, false :: hs, ts => (passOver n hs ts).map fun x => (0 :: x.1, x.2)

/-- A decoder of refinement tokens, written from the words of 41_serializer.md R139: given which coefficients of the
band were already non-zero, the correction bit of each of those and the value, -1, 0 or 1, of each other. `fuel` is any
bound on the number of symbols. -/
def decodeRefinement : Nat → List Bool → List Token → Option (List Int)
  | _, hs, [] => if hs = [] then some [] else none
  | 0, _, _ :: _ => none
  | fuel + 1, hs, .sym _ sy :: ts =>
    if sy = 0x00 then
      match passOver hs.length hs ts with
      | some (vs, [], []) => if hs = [] then none else some vs
      | _ => none
    else if sy = 0xF0 then
      match passOver 15 hs ts with
      | some (vs, false :: hs', ts') => (decodeRefinement fuel hs' ts').map fun ws => vs ++ 0 :: ws
      | _ => none
    else if sy % 16 = 1 then
      match ts with
      | .bits 1 sign :: ts' =>
        match passOver (sy / 16) hs ts' with
        | some (vs, false :: hs', ts'') =>
          (decodeRefinement fuel hs' ts'').map fun ws => vs ++ (if sign = 1 then 1 else -1) :: ws
        | _ => none
      | _ => none
    else none
  | _ + 1, _, _ :: _ => none

/-- What a refinement pass sends of a coefficient `v`: bit 0 of the shifted magnitude where it was already non-zero,
else the sign of a newly non-zero one, else nothing (41_serializer.md R139). -/
def refinedValue (v : Int) (al : Nat) : Int :=
  let t := v.natAbs / 2 ^ al
  if 1 < t then (t % 2 : Nat) else if t = 1 then (if v < 0 then -1 else 1) else 0

/-! ### Histograms and Huffman tables -/

/-- How often a scan's tokens hold symbol `sy` of slot `t`. -/
def symbolCount (toks : List Token) (t sy : Nat) : Nat := toks.count (.sym t sy)

/-- The counters of a slot as numbers. -/
def countsOf (s : State) (t : Nat) : List Nat :=
  (List.range (slotSize t)).map fun sy => ((Bank.read s.mem.hist t sy).getD 0).toNat

/-- The longest length of a table (42_huffman.md R166, L). -/
def longest (cs : List CodeWord) : Nat := cs.foldl (fun m x => max m x.len) 0

/-! ### The coded bytes -/

/-- The first `n` bits of `v` from bit `n-1` down, most significant first (43_entropy.md R182). -/
def msbFirst (n v : Nat) : List Bool := (List.range n).map fun i => v.testBit (n - 1 - i)

/-- The number a list of bits stands for, first bit most significant. -/
def bitsValue (bs : List Bool) : Nat := bs.foldl (fun a b => 2 * a + b.toNat) 0

/-- A byte that leaves the accumulator, followed by 0x00 where it is 0xFF (43_entropy.md R183). -/
def stuffed (b : Byte) : List Byte := if b = 0xFF then [b, 0x00] else [b]

/-- The coded bytes of a run of bits: whole bytes first bit most significant, the last completed with 1 bits, each
stuffed (43_entropy.md R182 to R184). `fuel` is any bound on the number of bytes. -/
def packWith : Nat → List Bool → List Byte
  | 0, _ => []
  | fuel + 1, bs =>
    if bs = [] then []
    else stuffed (BitVec.ofNat 8 (bitsValue ((bs ++ List.replicate 8 true).take 8))) ++ packWith fuel (bs.drop 8)

/-- The coded bytes of a run of bits. -/
def pack (bs : List Bool) : List Byte := packWith bs.length bs

/-- The bytes of a token sequence with `pending` bits before it: each interval between restart boundaries is packed by
itself, and a boundary adds the marker, unstuffed (43_entropy.md R185 to R188). -/
def codedBytes (huff : Bank HuffEntry 8) : List Token → List Bool → List Byte
  | [], pending => pack pending
  | .sym t sy :: rest, pending =>
    let e := (Bank.read huff t sy).getD { len := 0, code := 0 }
    codedBytes huff rest (pending ++ msbFirst e.len.toNat e.code.toNat)
  | .bits n v :: rest, pending => codedBytes huff rest (pending ++ msbFirst n v)
  | .rst n :: rest, pending => pack pending ++ [0xFF, 0xD0 + BitVec.ofNat 8 n] ++ codedBytes huff rest []
  | .fin :: rest, pending => pack pending ++ codedBytes huff rest []

/-- Every symbol of the tokens has a code in HUFF. -/
def allCoded (huff : Bank HuffEntry 8) (toks : List Token) : Prop :=
  ∀ t sy, Token.sym t sy ∈ toks → ∃ e, Bank.read huff t sy = some e ∧ e.len ≠ 0

/-- The whole bytes alone of a run of bits: the pending bits are dropped (43_entropy.md R190). -/
def packWhole (bs : List Bool) : List Byte := pack (bs.take (bs.length / 8 * 8))

/-- The bytes a faulted ESCAN leaves for the tokens before the fault (43_entropy.md R190). -/
def bytesBeforeFault (huff : Bank HuffEntry 8) : List Token → List Bool → List Byte
  | [], pending => packWhole pending
  | .sym t sy :: rest, pending =>
    let e := (Bank.read huff t sy).getD { len := 0, code := 0 }
    bytesBeforeFault huff rest (pending ++ msbFirst e.len.toNat e.code.toNat)
  | .bits n v :: rest, pending => bytesBeforeFault huff rest (pending ++ msbFirst n v)
  | .rst n :: rest, pending => pack pending ++ [0xFF, 0xD0 + BitVec.ofNat 8 n] ++ bytesBeforeFault huff rest []
  | .fin :: rest, pending => pack pending ++ bytesBeforeFault huff rest []

/-- Every byte 0xFF is followed by 0x00 or by 0xD0..0xD7, and none stands last (43_entropy.md R193 (a), (b)). -/
def ffFollowed : List Byte → Prop
  | [] => True
  | [b] => b ≠ 0xFF
  | b :: b' :: rest => (b = 0xFF → b' = 0 ∨ (0xD0 ≤ b'.toNat ∧ b'.toNat ≤ 0xD7)) ∧ ffFollowed (b' :: rest)

/-- The state in which block position `p` and DCT outputs `d` have been set up (40_quantizer.md R121). -/
def withBlock (s : State) (p : QPos) (d : Bank Word 1) : State :=
  { s with qpos := p, mem := { s.mem with dbuf := d } }

end Sys2Proof.Claims

open Sys2Proof Sys2Proof.Machine Sys2Proof.Claims

/-! ### Encoding -/

/-- Words written out from 30_encoding.md R91, R95, R97 and 42_huffman.md R161, 43_entropy.md R189, R192 decode to the
commands they stand for. -/
def Obligations.SpecWordsDecode : Prop :=
  decode 0x00000000#32 = .ok .nop ∧ decode 0x00000001#32 = .ok (.qblk 0) ∧ decode 0x00000301#32 = .ok (.qblk 3) ∧
  decode 0x00001102#32 = .ok (.hclr 0x11) ∧ decode 0x00000003#32 = .ok .hscan ∧
  decode 0x00000404#32 = .ok (.hbuild 4) ∧ decode 0x00000704#32 = .ok (.hbuild 7) ∧
  decode 0x00000005#32 = .ok .escan ∧ decode 0x0000D806#32 = .ok (.putb 0xD8)

/-- Decoding and encoding agree in both directions, for every command with every operand and for every 32-bit word
(30_encoding.md R90 to R92). -/
def Obligations.DecodeIffEncode : Prop := ∀ (w : Word) (i : Instr), decode w = .ok i ↔ encode i = w

/-- 30_encoding.md R92: every word is exactly one legal command or illegal, and which one is what the three checks and
the match and mask pairs say; the step of an illegal word is `raise Fault(BADCMD, 0, 0, w)`. -/
def Obligations.DecoderMatchesOpcodeTable : Prop :=
  ∀ w : Word,
    (decode w).isOk = wellFormedWord w ∧
    (formsOf w).length = (if wellFormedWord w then 1 else 0) ∧
    (∀ i, decode w = .ok i → (formsOf w).map (·.mnemonic) = [mnemonicOf i]) ∧
    ∀ s : State, s.status.busy = true → s.cmdreg = w → wellFormedWord w = false →
      perform .sequencer s = .next (faulted 1 0 0 w s)

/-! ### Steps and commands -/

/-- A step runs the decoded command: where CMDREG holds a command that has not completed and the sequencer moves next
(its own event, or an empty agenda), the step is `exec` of the command (30_encoding.md R98). That the moves to come stand
in an agenda, and that a step with an empty agenda is the sequencer's move, are the model's choices (log entries 2 and
12). -/
def Obligations.StepRunsDecodedCommand : Prop :=
  ∀ (s : State) (i : Instr), s.status.busy = true → decode s.cmdreg = .ok i →
    (s.agenda = [] → step s = exec i s) ∧
    (∀ rest, s.agenda = .sequencer :: rest → step s = exec i { s with agenda := rest })

/-- An illegal word's step raises BADCMD with the word as the auxiliary word and changes nothing else
(30_encoding.md R92, R93; 60_exceptions.md R203, R204, R205). That a step with an empty agenda is the sequencer's move is
the model's choice (log entry 12). -/
def Obligations.IllegalWordRaisesBadcmd : Prop :=
  ∀ s : State, s.status.busy = true → (∀ i, decode s.cmdreg ≠ .ok i) → s.agenda = [] →
    step s = .next (faulted 1 0 0 s.cmdreg s)

/-- A 32-bit write to CMD: accepted where BUSY and FAULT are 0, else refused with CMDOVR alone (30_encoding.md R98). -/
def Obligations.CmdWriteAcceptedOrRefused : Prop :=
  ∀ (s : State) (w : Word), hostWrite (s.params.base + 0x10) 32 w s = .next
    (if s.status.busy = true ∨ s.status.fault = true then { s with status := { s.status with cmdovr := true } }
     else { s with cmdreg := w, status := { s.status with busy := true, done := false } })

/-- NOP (30_encoding.md R97): the word 0; no state changes other than completion, and it never faults. -/
def Obligations.NopCompletes : Prop :=
  decode 0x00000000#32 = .ok .nop ∧ ∀ s : State, exec .nop s = .next { s with status := doneStatus s.status }

/-- PUTB (43_entropy.md R192): the word `0x06 + (b << 8)`; the byte is appended as it is, whatever it is, OUTCNT counts
it, and nothing else changes, the accumulator included. -/
def Obligations.PutbAppendsByte : Prop :=
  ∀ b : Byte, decode (0x00000006#32 + (BitVec.setWidth 32 b <<< 8)) = .ok (.putb b) ∧
    ∀ s : State, exec (.putb b) s = .next
      { s with out := s.out ++ [b], outcnt := s.outcnt + 1, status := doneStatus s.status }

/-- HCLR (42_huffman.md R161): the word `0x02 + (mask << 8)`; it always completes, `mask = 0` included; the counters of
the selected slots are 0, every other counter and all other state is as before. -/
def Obligations.HclrClearsSelectedSlots : Prop :=
  ∀ mask : BitVec 8, decode (0x00000002#32 + (BitVec.setWidth 32 mask <<< 8)) = .ok (.hclr mask) ∧
    ∀ s : State, ∃ h : Bank Word 8,
      exec (.hclr mask) s = .next { s with mem := { s.mem with hist := h }, status := doneStatus s.status } ∧
      ∀ t i, Bank.read h t i =
        if t < 8 ∧ mask.getLsbD t = true ∧ i < (if t < 4 then 12 else 256) then some 0 else Bank.read s.mem.hist t i

/-- What each command can end as (60_exceptions.md R219): a next state is either a completion, with the fault record as
before, or a fault with one of the causes the table lists for the command, with DONE as before. -/
def Obligations.CommandOutcomesTable : Prop :=
  ∀ (i : Instr) (s t : State), exec i s = .next t →
    t.status.busy = false ∧ t.status.cmdovr = s.status.cmdovr ∧ t.status.accerr = s.status.accerr ∧
    ((t.status.done = true ∧ t.status.fault = s.status.fault ∧ t.status.cause = s.status.cause ∧
        t.finfo = s.finfo ∧ t.faux = s.faux) ∨
     (t.status.done = s.status.done ∧ t.status.fault = true ∧ t.status.cause ∈ causesOf i))

/-- The frame of every command (43_entropy.md R189, 40_quantizer.md R117, 42_huffman.md R161 to R163, 30_encoding.md R97):
a next state has every parameter register, IE, CMDREG, the data port's registers and everything outside the block as
before. That CMDREG keeps its word when the command ends is the model's choice, where the spec lets it be kept or
cleared (93_implementation_defined.md U5; log entry 7). -/
def Obligations.CommandsKeepHostRegisters : Prop :=
  ∀ (i : Instr) (s t : State), exec i s = .next t →
    t.params = s.params ∧ t.ctrl = s.ctrl ∧ t.ie = s.ie ∧ t.cmdreg = s.cmdreg ∧ t.nc = s.nc ∧ t.mcux = s.mcux ∧
    t.mcuy = s.mcuy ∧ t.comp = s.comp ∧ t.qfconst = s.qfconst ∧ t.dcmul = s.dcmul ∧ t.qpos = s.qpos ∧
    t.scan = s.scan ∧ t.scomp = s.scomp ∧ t.niw = s.niw ∧ t.nih = s.nih ∧ t.ri = s.ri ∧ t.msel = s.msel ∧
    t.midx = s.midx ∧ t.agenda = s.agenda ∧ t.busData = s.busData ∧ t.received = s.received ∧ t.free = s.free

/-- Which command can change which memory, output and working register: DBUF, QTAB and QF never; COEF only QBLK; HIST
only HCLR and HSCAN; HUFF only HBUILD; OUT and OUTCNT only ESCAN and PUTB; PRED and RSTN only HSCAN and ESCAN; ACC and
NACC only ESCAN, which leaves them 0 (10_state.md R48), and a fault of another command, which makes them 0
(60_exceptions.md R203): never NOP, HCLR and PUTB. -/
def Obligations.CommandsKeepOtherUnits : Prop :=
  ∀ (i : Instr) (s t : State), exec i s = .next t →
    t.mem.dbuf = s.mem.dbuf ∧ t.mem.qtab = s.mem.qtab ∧ t.mem.qf = s.mem.qf ∧
    ((∀ c, i ≠ .qblk c) → t.mem.coef = s.mem.coef) ∧
    ((∀ m, i ≠ .hclr m) → i ≠ .hscan → t.mem.hist = s.mem.hist) ∧
    ((∀ n, i ≠ .hbuild n) → t.mem.huff = s.mem.huff) ∧
    (i ≠ .escan → (∀ b, i ≠ .putb b) → t.out = s.out ∧ t.outcnt = s.outcnt) ∧
    (i ≠ .hscan → i ≠ .escan → t.pred = s.pred ∧ t.rstn = s.rstn) ∧
    (i = .escan → t.acc = 0 ∧ t.nacc = 0) ∧
    (i ≠ .escan → (t.acc = s.acc ∧ t.nacc = s.nacc) ∨ (t.status.fault = true ∧ t.acc = 0 ∧ t.nacc = 0)) ∧
    (i = .nop ∨ (∃ m, i = .hclr m) ∨ (∃ b, i = .putb b) → t.acc = s.acc ∧ t.nacc = s.nacc)

/-! ### The quantizer -/

/-- QBLK on a legal block (40_quantizer.md R117, R111, R112, R118): it completes, writes exactly the 64 rounded
coefficients of the block at QPOS, and changes nothing else. The block, the cell of QF and the zigzag table
(00_scope.md R13) are written out from the spec. -/
def Obligations.QblkWritesRoundedBlock : Prop :=
  ∀ (c : BitVec 2) (s : State) (mac : Word) (q : Nat → Half) (d : Nat → Word),
    BlockReady s c.toNat mac → (∀ k < 64, CoefReady s c.toNat mac k (q k) (d k)) →
    ∃ cf : Bank Half 3,
      exec (.qblk c) s = .next { s with mem := { s.mem with coef := cf }, status := doneStatus s.status } ∧
      (∀ k < 64, Bank.read cf c.toNat (64 * blockOf s c.toNat + k) =
        some (BitVec.ofInt 16 (quantized (d k) (multiplierOf s mac k) (q k).toNat))) ∧
      (∀ u i, ¬(u = c.toNat ∧ 64 * blockOf s c.toNat ≤ i ∧ i < 64 * blockOf s c.toNat + 64) →
        Bank.read cf u i = Bank.read s.mem.coef u i)

/-- The rounded coefficient is `rnd(val(d) * val(m) / q)` over the rationals (40_quantizer.md R113 to R115). -/
def Obligations.QuantizedIsRoundedRational : Prop :=
  ∀ (d m : Word) (q : Nat), exponentOf d ≠ 255 → exponentOf m ≠ 255 → 0 < q →
    quantized d m q = rndQ (valQ d * valQ m / q)

/-- A QBLK that faults writes no element of COEF, nor anything but the fault record (40_quantizer.md R117 step 7,
60_exceptions.md R205). -/
def Obligations.QblkAllOrNothing : Prop :=
  ∀ (c : BitVec 2) (s t : State), exec (.qblk c) s = .next t → t.status.done = s.status.done →
    s.status.done = false →
    ∃ (code : BitVec 8) (fc : BitVec 2) (k : BitVec 6) (aux : Word), t = faulted code fc k aux s

/-- The configuration checks of QBLK in their order (40_quantizer.md R117 steps 1 to 3; 60_exceptions.md R204, R206), with
`FrameOK` (10_state.md R54) and the size of the quant field (10_state.md R35) written out. -/
def Obligations.QblkConfigurationFaults : Prop :=
  ∀ (c : BitVec 2) (s : State),
    (frameOk s = true ↔ FrameLegal s) ∧
    (¬FrameLegal s → exec (.qblk c) s = .next (faulted 2 0 0 1 s)) ∧
    (FrameLegal s →
      (s.nc.toNat ≤ c.toNat ∨ wibOf s c.toNat ≤ s.qpos.bx.toNat ∨ hibOf s c.toNat ≤ s.qpos.byRow.toNat →
        exec (.qblk c) s = .next (faulted 2 c 0 2 s)) ∧
      (c.toNat < s.nc.toNat → s.qpos.bx.toNat < wibOf s c.toNat → s.qpos.byRow.toNat < hibOf s c.toNat →
        s.ctrl.aq = true → ∀ maxs, LargestSampling s maxs →
        s.params.qfCells < (s.mcux.toNat * maxs) * (s.mcuy.toNat * maxs) →
        exec (.qblk c) s = .next (faulted 2 c 0 3 s)))

/-- The data checks of QBLK: the first coefficient that fails, in ascending order, decides the fault, and for one
coefficient the order is QTABRANGE, QNONFINITE, QRANGE (40_quantizer.md R116, R117, R119, R120; 60_exceptions.md R206). -/
def Obligations.QblkFirstDataFault : Prop :=
  ∀ (c : BitVec 2) (s : State) (mac : Word) (q : Nat → Half) (d : Nat → Word) (k : Nat),
    BlockReady s c.toNat mac → k < 64 → (∀ j < k, CoefReady s c.toNat mac j (q j) (d j)) →
    Bank.read s.mem.qtab (compAt s c.toNat).tq.toNat k = some (q k) →
    let limit := if s.ctrl.baseline then 255 else 32767
    let m := multiplierOf s mac k
    let aux := BitVec.ofNat 32 (blockOf s c.toNat)
    ((q k).toNat = 0 ∨ limit < (q k).toNat →
      exec (.qblk c) s = .next (faulted 3 c (BitVec.ofNat 6 k) aux s)) ∧
    (1 ≤ (q k).toNat → (q k).toNat ≤ limit → Bank.read s.mem.dbuf 0 (zz k) = some (d k) →
      (exponentOf (d k) = 255 ∨ exponentOf m = 255 ∨ valQ m ≤ 0 →
        exec (.qblk c) s = .next (faulted 4 c (BitVec.ofNat 6 k) aux s)) ∧
      (exponentOf (d k) ≠ 255 → exponentOf m ≠ 255 → 0 < valQ m →
        (quantized (d k) m (q k).toNat < -32767 ∨ 32767 < quantized (d k) m (q k).toNat) →
        exec (.qblk c) s = .next (faulted 5 c (BitVec.ofNat 6 k) aux s)))

/-- The order of two QBLK commands on different blocks does not matter for COEF (40_quantizer.md R121). -/
def Obligations.QblkOrderDoesNotMatter : Prop :=
  ∀ (s t1 t2 u1 u2 : State) (c1 c2 : BitVec 2) (p1 p2 : QPos) (d1 d2 : Bank Word 1),
    (c1 ≠ c2 ∨ blockOf (withBlock s p1 d1) c1.toNat ≠ blockOf (withBlock s p2 d2) c2.toNat) →
    exec (.qblk c1) (withBlock s p1 d1) = .next t1 → exec (.qblk c2) (withBlock t1 p2 d2) = .next t2 →
    exec (.qblk c2) (withBlock s p2 d2) = .next u1 → exec (.qblk c1) (withBlock u1 p1 d1) = .next u2 →
    ∀ u i, Bank.read t2.mem.coef u i = Bank.read u2.mem.coef u i

/-! ### The serializer -/

/-- Every token a scan produces is in the ranges of 41_serializer.md R131, and a DC slot's symbol is at most 11. -/
def Obligations.TokensInRange : Prop :=
  ∀ (s : State) (r : Run), scanRun s = .ok r → ∀ tok ∈ r.tokens, tokenInRange tok

/-- Serialize is a function of the scan registers, the frame registers, RI and COEF alone (41_serializer.md R141). -/
def Obligations.SerializeReadsOnlyItsInputs : Prop :=
  ∀ s s' : State, SameScanInputs s s' → scanRun s = scanRun s'

/-- The order of blocks (41_serializer.md R134): a scan of several components visits every block of each exactly once,
MCU by MCU, the MCUs in raster order and each in the order of its slots, rows and columns; a scan of one component
visits the blocks of its own extent, one an MCU, row by row. -/
def Obligations.ScanVisitsEveryBlockOnce : Prop :=
  ∀ s : State, frameOk s = true → scanOk s = true →
    (mcuList s).length = mcuCount s ∧
    (s.scan.ns ≠ 1 →
      (∀ m < mcuCount s, (mcuList s)[m]? = some (interleavedMcu s (m / s.mcux.toNat) (m % s.mcux.toNat))) ∧
      ((mcuList s).flatten.map fun e => (e.slot, e.block)).Nodup ∧
      (∀ e ∈ (mcuList s).flatten, e.comp = (scompAt s e.slot).ci.toNat) ∧
      ∀ j b, (j, b) ∈ (mcuList s).flatten.map (fun e => (e.slot, e.block)) ↔
        j < s.scan.ns.toNat ∧ b < wibOf s (scompAt s j).ci.toNat * hibOf s (scompAt s j).ci.toNat) ∧
    (s.scan.ns = 1 → ∀ m < mcuCount s, (mcuList s)[m]? = some [
      { slot := 0, comp := (scompAt s 0).ci.toNat
        block := m / s.niw.toNat * wibOf s (scompAt s 0).ci.toNat + m % s.niw.toNat }])

/-- Restart markers are numbered 0, 1, ..., 7, 0, ... from the first of the scan; RSTN ends as their number modulo 8. A
whole scan is the tokens of MCU 0, 1, ... and then `End`: a marker stands in front of exactly the MCUs whose number is a
positive multiple of RI (so after every RI MCUs, but none at the end, and none where RI = 0), the predictors start from
0 there, and the tokens of the MCUs hold no other marker (41_serializer.md R135, R140, R141; 90_conflicts.md C1). -/
def Obligations.RestartMarkersCycle : Prop :=
  ∀ (s : State) (r : Run), scanRun s = .ok r →
    restartIndices r.tokens = (List.range (restartIndices r.tokens).length).map (· % 8) ∧
    r.rstn.toNat = (restartIndices r.tokens).length % 8 ∧
    (r.stop = none →
      (restartIndices r.tokens).length = (if s.ri = 0 then 0 else (mcuCount s - 1) / s.ri.toNat) ∧
      ∃ (kind : ScanKind) (chunk : Nat → List Token) (preds : Nat → Vector Half 3),
        scanKind s.scan = some kind ∧
        (∀ m < mcuCount s, ∃ mcu, (mcuList s)[m]? = some mcu ∧
          mcuTokens s kind mcu (predBefore s preds m) = ((chunk m, none), preds (m + 1)) ∧
          restartIndices (chunk m) = []) ∧
        r.tokens = ((List.range (mcuCount s)).flatMap fun m => markerBefore s m ++ chunk m) ++ [.fin] ∧
        r.pred = preds (mcuCount s))

/-- A legal scan over written, codable coefficients serializes without fault (41_serializer.md R132, R136, R137, R139). -/
def Obligations.CodableScanSerializes : Prop :=
  ∀ s : State, frameOk s = true → scanOk s = true →
    (∀ j < s.scan.ns.toNat, codable s (scompAt s j).ci.toNat) →
    ∃ r, scanRun s = .ok r ∧ r.stop = none

/-- DC coding. The category and the magnitude bits are those of 00_scope.md R12, written out. A scan of kind SEQ or DCF, of
one component or interleaved, whose coefficients are written and can be coded gives, MCU by MCU, the restart marker where
a boundary stands and then for each entry the difference of its transformed DC value against the entry before of the
same component in the same restart interval (against 0 where there is none), in the slot TD of the entry's scan slot; a
SEQ entry's AC tokens follow, the first pass over 1..63 with AL = 0 (41_serializer.md R134 to R136, R140, R143). With one
component the difference is that against the MCU before, in raster order. -/
def Obligations.DcScanCodesDifferences : Prop :=
  (∀ (v : Int) (n : Nat), category v = n ↔ HasCategory v n) ∧
  (∀ (v : Int) (n : Nat), v ≠ 0 → HasCategory v n → (magnitude v n : Int) = magOf v n) ∧
  (∀ s : State, frameOk s = true → scanOk s = true → HasKind s .seq ∨ HasKind s .dcf →
    (∀ e ∈ (mcuList s).flatten, ∀ k, s.scan.ss.toNat ≤ k → k ≤ s.scan.se.toNat →
      ∃ v, Bank.read s.mem.coef e.comp (64 * e.block + k) = some v) →
    (∀ n k, ¬uncodable s n k) →
    ∃ (r : Run) (ac : McuEntry → List Token), scanRun s = .ok r ∧ r.stop = none ∧
      (∀ e, if s.scan.se.toNat = 0 then ac e = [] else e ∈ (mcuList s).flatten → FirstPass s e 1 63 0 (ac e)) ∧
      r.tokens = ((List.range (mcuCount s)).flatMap fun m => markerBefore s m ++ mcuTokensOf s ac m) ++ [.fin]) ∧
  ∀ (s : State) (dc : Nat → Half), frameOk s = true → scanOk s = true → s.scan.ns = 1 →
    scanKind s.scan = some .dcf →
    (∀ b < wibOf s (scompAt s 0).ci.toNat * hibOf s (scompAt s 0).ci.toNat,
      Bank.read s.mem.coef (scompAt s 0).ci.toNat (64 * b) = some (dc b)) →
    (∀ m < s.niw.toNat * s.nih.toNat, -2047 ≤ dcDiff s dc m ∧ dcDiff s dc m ≤ 2047) →
    ∃ r, scanRun s = .ok r ∧ r.stop = none ∧ r.tokens = dcScanTokens s dc

/-- First-pass AC tokens stand for exactly the transformed band: a decoder written from 41_serializer.md R130 recovers
it, whatever the coefficients (41_serializer.md R137, R143). An entry of kind ACF is the first pass over SS..SE with AL,
in slot 4 + TA of its scan slot, and leaves PRED; one of kind SEQ is the DC tokens with AL = 0, in slot TD, and then the
first pass over 1..63 with AL = 0 in slot 4 + TA, and leaves the DC value in PRED (41_serializer.md R136, R140). -/
def Obligations.AcTokensRecoverBand : Prop :=
  (∀ (s : State) (e : McuEntry) (ta al : Nat) (k0 n : Nat) (v : Nat → Half),
    (∀ k, k0 ≤ k → k < k0 + n → Bank.read s.mem.coef e.comp (64 * e.block + k) = some (v k) ∧ (v k).toInt ≠ -32768) →
    ∃ toks, acFirst s e ta al (List.range' k0 n) 0 = (toks, none) ∧
      decodeBand toks n = some ((List.range' k0 n).map fun k => transformed (v k).toInt al)) ∧
  (∀ (s : State) (e : McuEntry) (p : Vector Half 3) (v : Nat → Half),
    (∀ k, s.scan.ss.toNat ≤ k → k ≤ s.scan.se.toNat →
      Bank.read s.mem.coef e.comp (64 * e.block + k) = some (v k) ∧ (v k).toInt ≠ -32768) →
    ∃ toks, entryTokens s .acf e p = ((toks, none), p) ∧
      FirstPass s e s.scan.ss.toNat s.scan.se.toNat s.scan.al.toNat toks) ∧
  ∀ (s : State) (e : McuEntry) (p : Vector Half 3) (v : Nat → Half),
    (∀ k < 64, Bank.read s.mem.coef e.comp (64 * e.block + k) = some (v k) ∧ (1 ≤ k → (v k).toInt ≠ -32768)) →
    let diff := (v 0).toInt - ((p[e.comp]?).getD 0).toInt
    diff.natAbs ≤ 2047 →
    ∃ toks, entryTokens s .seq e p =
        ((diffTokens (scompAt s e.slot).td.toNat diff ++ toks, none), p.setIfInBounds e.comp (v 0)) ∧
      FirstPass s e 1 63 0 toks

/-- Refinement passes. AC: one correction bit for every coefficient that was already non-zero, and one symbol of size 1
with a sign bit for every newly non-zero one; a decoder that knows which coefficients were already non-zero recovers
every correction bit and every new value, so each stands at its place (41_serializer.md R139, R140). DC: the one token is
the bit of weight 2^AL of the stored value (41_serializer.md R138). Neither touches PRED. -/
def Obligations.RefinementBitCount : Prop :=
  (∀ (s : State) (e : McuEntry) (p : Vector Half 3) (v : Half),
    Bank.read s.mem.coef e.comp (64 * e.block) = some v →
    entryTokens s .dcr e p = (([.bits 1 (v.getLsbD s.scan.al.toNat).toNat], none), p)) ∧
  (∀ (s : State) (e : McuEntry) (p : Vector Half 3) (v : Nat → Half),
    (∀ k, s.scan.ss.toNat ≤ k → k ≤ s.scan.se.toNat →
      Bank.read s.mem.coef e.comp (64 * e.block + k) = some (v k) ∧ (v k).toInt ≠ -32768) →
    let ks := List.range' s.scan.ss.toNat (s.scan.se.toNat + 1 - s.scan.ss.toNat)
    let al := s.scan.al.toNat
    ∃ toks, entryTokens s .acr e p = ((toks, none), p) ∧
      (∀ t sy, Token.sym t sy ∈ toks → t = 4 + (scompAt s e.slot).ta.toNat) ∧
      decodeRefinement toks.length (ks.map fun k => decide (1 < (v k).toInt.natAbs / 2 ^ al)) toks =
        some (ks.map fun k => refinedValue (v k).toInt al)) ∧
  ∀ (ta : Nat) (band : List BandCoef),
    let toks := acRefine ta (lastNew band) band 0 []
    (toks.filter fun t => match t with | .bits _ _ => true | _ => false).length =
      band.countP (fun x => decide (x.mag ≠ 0)) ∧
    (toks.filter fun t => match t with | .sym _ sy => decide (sy % 16 = 1) | _ => false).length =
      band.countP (fun x => decide (x.mag = 1))

/-! ### Histograms -/

/-- HSCAN (42_huffman.md R162): where Serialize meets no fault and every counter it needs is written and does not pass
2^32 - 1, it completes, adds to every counter the number of times the scan holds its symbol, and changes nothing else
but PRED and RSTN. -/
def Obligations.HscanCountsSymbols : Prop :=
  ∀ (s : State) (r : Run), scanRun s = .ok r → r.stop = none →
    (∀ t sy, 0 < symbolCount r.tokens t sy →
      ∃ v : Word, Bank.read s.mem.hist t sy = some v ∧ v.toNat + symbolCount r.tokens t sy < 2 ^ 32) →
    ∃ h : Bank Word 8,
      exec .hscan s = .next
        { s with pred := r.pred, rstn := r.rstn, mem := { s.mem with hist := h }, status := doneStatus s.status } ∧
      ∀ t sy, Bank.read h t sy =
        (Bank.read s.mem.hist t sy).map (· + BitVec.ofNat 32 (symbolCount r.tokens t sy))

/-- HSCAN's counter overflow (42_huffman.md R162; 60_exceptions.md R204, R205): the increments of the tokens before stay,
the counter keeps 2^32 - 1, and the fault names slot and symbol. PRED and RSTN are those Serialize ends with, which is
the model's reading of R205 (log entry 19). -/
def Obligations.HscanOverflowKeepsIncrements : Prop :=
  ∀ (s : State) (r : Run) (pre post : List Token) (t sy : Nat), scanRun s = .ok r →
    r.tokens = pre ++ .sym t sy :: post →
    (∀ t' sy', 0 < symbolCount pre t' sy' →
      ∃ v : Word, Bank.read s.mem.hist t' sy' = some v ∧ v.toNat + symbolCount pre t' sy' < 2 ^ 32) →
    (∃ v : Word, Bank.read s.mem.hist t sy = some v ∧ v.toNat + symbolCount pre t sy = 2 ^ 32 - 1) →
    ∃ h : Bank Word 8,
      exec .hscan s = .next (faulted 8 0 0 (BitVec.ofNat 32 (256 * t + sy))
        { s with pred := r.pred, rstn := r.rstn, mem := { s.mem with hist := h } }) ∧
      ∀ t' sy', Bank.read h t' sy' =
        (Bank.read s.mem.hist t' sy').map (· + BitVec.ofNat 32 (symbolCount pre t' sy'))

/-- HSCAN and ESCAN stop at an illegal frame (auxiliary word 1) and then at an illegal scan (4), before anything is
written (42_huffman.md R162, 43_entropy.md R189, 60_exceptions.md R204, R205), with `FrameOK` (10_state.md R54), `ScanOK`
and the kinds of scan (41_serializer.md R132, R133) written out. -/
def Obligations.ScanConfigurationFaults : Prop :=
  ∀ s : State,
    (frameOk s = true ↔ FrameLegal s) ∧ (scanOk s = true ↔ ScanLegal s) ∧
    (∀ kind, scanKind s.scan = some kind ↔ HasKind s kind) ∧
    (¬FrameLegal s →
      exec .hscan s = .next (faulted 2 0 0 1 s) ∧ exec .escan s = .next (faulted 2 0 0 1 s)) ∧
    (FrameLegal s → ¬ScanLegal s →
      exec .hscan s = .next (faulted 2 0 0 4 s) ∧ exec .escan s = .next (faulted 2 0 0 4 s))

/-! ### Huffman tables -/

/-- HBUILD (42_huffman.md R163, R169): with every counter of the slot written it completes, writes every element of the
slot from the table of the counters, and changes nothing else; where all the counters are 0, every element is 0. -/
def Obligations.HbuildWritesSlot : Prop :=
  ∀ (t : BitVec 3) (s : State),
    (∀ sy < (if t.toNat < 4 then 12 else 256), ∃ n : Word, Bank.read s.mem.hist t.toNat sy = some n) →
    ∃ hf : Bank HuffEntry 8,
      exec (.hbuild t) s = .next { s with mem := { s.mem with huff := hf }, status := doneStatus s.status } ∧
      (∀ sy < (if t.toNat < 4 then 12 else 256),
        Bank.read hf t.toNat sy = some (codeOf (buildCodes (countsOf s t.toNat)) sy).entry) ∧
      (∀ u i, ¬(u = t.toNat ∧ i < (if t.toNat < 4 then 12 else 256)) →
        Bank.read hf u i = Bank.read s.mem.huff u i) ∧
      ((∀ sy < (if t.toNat < 4 then 12 else 256), Bank.read s.mem.hist t.toNat sy = some 0) →
        ∀ sy < (if t.toNat < 4 then 12 else 256), Bank.read hf t.toNat sy = some { len := 0, code := 0 })

/-- Every table HBUILD builds from a histogram with a used symbol (42_huffman.md R168 (a), (b)): exactly the used symbols
have a code, each once, with a length in 1..16, and the sum of 2^(-len) is 1 - 2^(-L). The lengths come from the counts
(R164, R166): where no code size exceeds 16, and where the longest code is shorter than 16, a symbol counted more often
never has a longer code, and one counted more often than all others and the reserved entry together has length 1. -/
def Obligations.HuffmanTableKraft : Prop :=
  ∀ h : List Nat, h.length ≤ 256 → (∃ x ∈ h, x ≠ 0) →
    ((buildCodes h).map (·.symbol)).Nodup ∧
    (∀ sy, (∃ x ∈ buildCodes h, x.symbol = sy) ↔ h.getD sy 0 ≠ 0) ∧
    (∀ x ∈ buildCodes h, 1 ≤ x.len ∧ x.len ≤ 16) ∧
    ((buildCodes h).map fun x => 2 ^ (16 - x.len)).sum + 2 ^ (16 - longest (buildCodes h)) = 2 ^ 16 ∧
    ((∀ x ∈ codeSizes h, x.2 ≤ 16) ∨ longest (buildCodes h) < 16 →
      (∀ x ∈ buildCodes h, ∀ y ∈ buildCodes h, h.getD y.symbol 0 < h.getD x.symbol 0 → x.len ≤ y.len) ∧
      ∀ x ∈ buildCodes h, h.sum + 1 < 2 * h.getD x.symbol 0 → x.len = 1)

/-- The code of every table HBUILD builds is prefix-free (42_huffman.md R168 (b)). -/
def Obligations.HuffmanTablePrefixFree : Prop :=
  ∀ h : List Nat, h.length ≤ 256 → ∀ x ∈ buildCodes h, ∀ y ∈ buildCodes h, x ≠ y → x.len ≤ y.len →
    y.code / 2 ^ (y.len - x.len) ≠ x.code

/-- No code of a table HBUILD builds is all ones, and each fits its length (42_huffman.md R168 (c)); a single used symbol
gets length 1 and code 0 (R168 (d)). -/
def Obligations.HuffmanTableReservesAllOnes : Prop :=
  ∀ h : List Nat, h.length ≤ 256 →
    (∀ x ∈ buildCodes h, x.code + 1 < 2 ^ x.len) ∧
    (∀ x, buildCodes h = [x] → x.len = 1 ∧ x.code = 0)

/-- The codes of a table ascend in (length, symbol) order (42_huffman.md R167; 90_conflicts.md C8). -/
def Obligations.HuffmanCodesCanonical : Prop :=
  ∀ h : List Nat, h.length ≤ 256 → ∀ x ∈ buildCodes h, ∀ y ∈ buildCodes h,
    (x.len < y.len ∨ (x.len = y.len ∧ x.symbol < y.symbol)) →
    (x.len = y.len → x.code < y.code) ∧ x.code * 2 ^ (y.len - x.len) < y.code

/-! ### The entropy coder -/

/-- ESCAN (43_entropy.md R182 to R189): where Serialize meets no fault and every symbol has a code, it completes; the
bytes it appends are those of the token sequence, packed most significant bit first, padded with 1 bits, stuffed, with
the markers between the intervals; OUTCNT counts them; and nothing else changes but PRED, RSTN and the emptied
accumulator. -/
def Obligations.EscanEmitsPackedBits : Prop :=
  ∀ (s : State) (r : Run), scanRun s = .ok r → r.stop = none → allCoded s.mem.huff r.tokens →
    let bytes := codedBytes s.mem.huff r.tokens []
    exec .escan s = .next
      { s with
        out := s.out ++ bytes, outcnt := s.outcnt + BitVec.ofNat 32 bytes.length, acc := 0, nacc := 0
        pred := r.pred, rstn := r.rstn, status := doneStatus s.status }

/-- ESCAN at a symbol with no code (43_entropy.md R185, R190): NOCODE; the whole bytes of the tokens before it stay, the
pending bits are dropped. PRED and RSTN are those Serialize ends with, which is the model's reading of 60_exceptions.md
R205 (log entry 19). -/
def Obligations.EscanNocode : Prop :=
  ∀ (s : State) (r : Run) (pre post : List Token) (t sy : Nat) (e : HuffEntry), scanRun s = .ok r →
    r.tokens = pre ++ .sym t sy :: post → allCoded s.mem.huff pre →
    Bank.read s.mem.huff t sy = some e → e.len = 0 →
    let bytes := bytesBeforeFault s.mem.huff pre []
    exec .escan s = .next (faulted 7 0 0 (BitVec.ofNat 32 (256 * t + sy))
      { s with
        out := s.out ++ bytes, outcnt := s.outcnt + BitVec.ofNat 32 bytes.length
        pred := r.pred, rstn := r.rstn })

/-- SYMRANGE. When: a legal scan whose coefficients are written serializes without fault where each of them can be
coded, and else stops at the first that cannot, in the order of the blocks and of the positions in each, with its
component, position and block as the record (41_serializer.md R136, R137, R139, R141; 60_exceptions.md R204). Then: ESCAN
and HSCAN take that fault after the tokens produced before it, the bytes and the counters of those tokens kept
(42_huffman.md R162, 43_entropy.md R190, 60_exceptions.md R205). -/
def Obligations.SymrangePassedOn : Prop :=
  (∀ s : State, frameOk s = true → scanOk s = true →
    (∀ e ∈ (mcuList s).flatten, ∀ k, s.scan.ss.toNat ≤ k → k ≤ s.scan.se.toNat →
      ∃ v, Bank.read s.mem.coef e.comp (64 * e.block + k) = some v) →
    ∃ r, scanRun s = .ok r ∧
      ((∀ n k, ¬uncodable s n k) → r.stop = none) ∧
      ∀ n k x, (scanEntries s)[n]? = some x → uncodable s n k →
        (∀ n' k', uncodable s n' k' → n < n' ∨ (n = n' ∧ k ≤ k')) →
        r.stop = some (.raised
          { cause := .symrange, c := BitVec.ofNat 2 x.2.comp, k := BitVec.ofNat 6 k, aux := BitVec.ofNat 32 x.2.block })) ∧
  ∀ (s : State) (r : Run) (x : Raise), scanRun s = .ok r → r.stop = some (.raised x) →
    x.cause = .symrange ∧
    (allCoded s.mem.huff r.tokens →
      let bytes := bytesBeforeFault s.mem.huff r.tokens []
      exec .escan s = .next (faulted 6 x.c x.k x.aux
        { s with
          out := s.out ++ bytes, outcnt := s.outcnt + BitVec.ofNat 32 bytes.length
          pred := r.pred, rstn := r.rstn })) ∧
    ((∀ t sy, 0 < symbolCount r.tokens t sy →
        ∃ v : Word, Bank.read s.mem.hist t sy = some v ∧ v.toNat + symbolCount r.tokens t sy < 2 ^ 32) →
      ∃ h : Bank Word 8, exec .hscan s = .next (faulted 6 x.c x.k x.aux
        { s with pred := r.pred, rstn := r.rstn, mem := { s.mem with hist := h } }) ∧
        ∀ t sy, Bank.read h t sy =
          (Bank.read s.mem.hist t sy).map (· + BitVec.ofNat 32 (symbolCount r.tokens t sy)))

/-- In the bytes one ESCAN appends, faulted or not, every 0xFF is followed by 0x00 or by 0xD0..0xD7, and they never end
in a lone 0xFF (43_entropy.md R193 (a), (b)). -/
def Obligations.EscanStuffsEveryFF : Prop :=
  ∀ s t : State, exec .escan s = .next t → ∃ bytes, t.out = s.out ++ bytes ∧ ffFollowed bytes

/-- The bytes one ESCAN appends are a function of the register and memory contents alone: not of the sink, of earlier
output, or of OUTCNT (43_entropy.md R193 (e)). -/
def Obligations.EscanBytesDependOnInputsOnly : Prop :=
  ∀ s s' t t' : State, SameScanInputs s s' → s.mem.huff = s'.mem.huff →
    exec .escan s = .next t → exec .escan s' = .next t' →
    t.out.drop s.out.length = t'.out.drop s'.out.length

/-- `flush()` (43_entropy.md R184): pending bits become one byte, completed with 1 bits and stuffed; with none pending
nothing happens; afterwards the accumulator is empty. -/
def Obligations.FlushPadsWithOnes : Prop :=
  ∀ s : State, s.nacc < 8 → s.acc.toNat < 2 ^ s.nacc →
    (0 < s.nacc →
      let bytes := stuffed (BitVec.ofNat 8 (s.acc.toNat * 2 ^ (8 - s.nacc) + (2 ^ (8 - s.nacc) - 1)))
      flush s = { s with
        out := s.out ++ bytes, outcnt := s.outcnt + BitVec.ofNat 32 bytes.length, acc := 0, nacc := 0 }) ∧
    (s.nacc = 0 → flush s = s ∧ s.acc = 0)

/-! ### Host accesses -/

/-- An access that is not 32 bits wide at a multiple of 4 inside the block (20_memory.md R71): a read returns 0, a write
is ignored, ACCERR is set, and nothing else changes. -/
def Obligations.IllegalAccessRefused : Prop :=
  ∀ (s : State) (offset width : Nat) (w : Word), offset < 256 → (width ≠ 32 ∨ offset % 4 ≠ 0) →
    hostRead (s.params.base + offset) width s = { accerrSet s with busData := 0 } ∧
    hostWrite (s.params.base + offset) width w s = .next (accerrSet s)

/-- Reserved offsets read 0 and ignore writes, both with ACCERR; a write to a read-only register of an idle block is
ignored and sets nothing; a read of CMD returns 0 and sets nothing (10_state.md R26). -/
def Obligations.ReservedOffsetsAndReadOnly : Prop :=
  ∀ (s : State) (w : Word),
    (∀ offset, 0x6C ≤ offset → offset ≤ 0xFC → offset % 4 = 0 →
      hostRead (s.params.base + offset) 32 s = { accerrSet s with busData := 0 } ∧
      hostWrite (s.params.base + offset) 32 w s = .next (accerrSet s)) ∧
    (s.status.busy = false → ∀ r ∈ [Reg.id, Reg.finfo, Reg.faux, Reg.outcnt],
      hostWrite (s.params.base + regOffset r) 32 w s = .next s) ∧
    hostRead (s.params.base + 0x10) 32 s = { s with busData := 0 }

/-- A parameter register of a block that is not busy stores exactly the bits a rule names, legal or not, and reads them
back; reserved bits read 0 (10_state.md R26, R27). The write changes no other register's word. -/
def Obligations.ParameterRegistersReadBack : Prop :=
  ∀ (s : State) (r : Reg) (w : Word), isPlain r = true → s.status.busy = false →
    ∃ t, hostWrite (s.params.base + regOffset r) 32 w s = .next t ∧
      hostRead (s.params.base + regOffset r) 32 t = { t with busData := w &&& namedBits r } ∧
      (∀ r', r' ≠ r → regWord r' t = regWord r' s) ∧ t.mem = s.mem ∧ t.out = s.out ∧ t.cmdreg = s.cmdreg

/-- CTRL and IE (10_state.md R32, R34): CTRL stores bits 3:1 where bit 0 is 0 and the block is not busy; IE stores bits
2:1 in every state of the block. Nothing else changes. -/
def Obligations.CtrlAndIeStore : Prop :=
  ∀ (s : State) (w : Word),
    (w.getLsbD 0 = false → s.status.busy = false → ∃ c,
      hostWrite (s.params.base + 0x04) 32 w s = .next { s with ctrl := c } ∧
      regWord .ctrl { s with ctrl := c } = w &&& 0x0000000E#32) ∧
    (∃ e, hostWrite (s.params.base + 0x0C) 32 w s = .next { s with ie := e } ∧
      regWord .ie { s with ie := e } = w &&& 0x00000006#32)

/-- A write to STATUS clears each of DONE, CMDOVR, ACCERR whose written bit is 1 and has no other effect, in every state
of the block (10_state.md R33). -/
def Obligations.StatusWriteClears : Prop :=
  ∀ (s : State) (w : Word), ∃ st : Status,
    hostWrite (s.params.base + 0x08) 32 w s = .next { s with status := st } ∧
    statusWord st = statusWord s.status &&& ~~~(w &&& 0x0000001A#32)

/-- Accesses while busy (70_reset_and_hazards.md R243): every write but those to STATUS, IE, CMD and CTRL is refused with
ACCERR, and so is one to CTRL with bit 0 clear; one to CMD is refused with CMDOVR; a read of MDATA returns 0 with ACCERR
and leaves MIDX; a read of any other register but OUTCNT returns its word and changes nothing. That a write to a
read-only register sets ACCERR while busy, R243 and 60_exceptions.md R209 before 10_state.md R26, is the model's reading
(log entry 23). -/
def Obligations.BusyAccessesRefused : Prop :=
  ∀ (s : State) (w : Word), s.status.busy = true →
    (∀ r, r ≠ .status → r ≠ .ie → r ≠ .cmd → r ≠ .ctrl →
      hostWrite (s.params.base + regOffset r) 32 w s = .next (accerrSet s)) ∧
    (w.getLsbD 0 = false → hostWrite (s.params.base + 0x04) 32 w s = .next (accerrSet s)) ∧
    hostWrite (s.params.base + 0x10) 32 w s = .next { s with status := { s.status with cmdovr := true } } ∧
    hostRead (s.params.base + 0x64) 32 s = { accerrSet s with busData := 0 } ∧
    (∀ r, r ≠ .mdata → r ≠ .outcnt →
      hostRead (s.params.base + regOffset r) 32 s = { s with busData := regWord r s })

/-- OUTCNT (10_state.md R44): exact while idle, and exact while a command runs that appends nothing, whatever its step
ends as; while ESCAN or PUTB runs the value is between the count before the command and the count after it, modulo 2^32 (the
value is free: log entry 5). For an ESCAN that needs a never-written element, the count after it is the one it has when
those elements hold some values. -/
def Obligations.OutcntReads : Prop :=
  ∀ s : State,
    (s.status.busy = false → hostRead (s.params.base + 0x68) 32 s = { s with busData := s.outcnt }) ∧
    (s.status.busy = true → decode s.cmdreg ≠ .ok .escan → (∀ b, decode s.cmdreg ≠ .ok (.putb b)) →
      hostRead (s.params.base + 0x68) 32 s = { s with busData := s.outcnt, free := s.free + 1 }) ∧
    (∀ t, s.status.busy = true → runCommand s = .next t →
      ∃ n ≤ t.out.length - s.out.length,
        hostRead (s.params.base + 0x68) 32 s =
          { s with busData := s.outcnt + BitVec.ofNat 32 n, free := s.free + 1 }) ∧
    (s.status.busy = true → decode s.cmdreg = .ok .escan →
      ∃ m t, Completes s m ∧ runCommand { s with mem := m } = .next t ∧
        ∃ n ≤ t.out.length - s.out.length,
          hostRead (s.params.base + 0x68) 32 s =
            { s with busData := s.outcnt + BitVec.ofNat 32 n, free := s.free + 1 })

/-- A read of MDATA of a block that is not busy (20_memory.md R68): a triple that no row of the table of R61 allows
returns 0 with ACCERR and leaves MIDX; a written element is returned extended to 32 bits and MIDX advances; a
never-written one returns some value (free: log entry 4), and MIDX advances. -/
def Obligations.DataPortReads : Prop :=
  ∀ s : State, s.status.busy = false →
    ((∀ sp, ¬Selects s sp) → hostRead (s.params.base + 0x64) 32 s = { accerrSet s with busData := 0 }) ∧
    (∀ sp w, Selects s sp → elementWord s.mem sp s.msel.sub.toNat s.midx.toNat = some w →
      hostRead (s.params.base + 0x64) 32 s = { s with busData := w, midx := s.midx + 1 }) ∧
    (∀ sp, Selects s sp → elementWord s.mem sp s.msel.sub.toNat s.midx.toNat = none →
      ∃ w, hostRead (s.params.base + 0x64) 32 s = { s with busData := w, midx := s.midx + 1, free := s.free + 1 })

/-- A write of MDATA of a block that is not busy (20_memory.md R69): a triple that no row of the table of R61 allows, and
an illegal HUFF element, are ignored with ACCERR and leave MIDX; otherwise the element then reads as R68 extends what
R69 stores, every other element is as before, and MIDX advances. -/
def Obligations.DataPortWrites : Prop :=
  ∀ (s : State) (w : Word), s.status.busy = false →
    ((∀ sp, ¬Selects s sp) → hostWrite (s.params.base + 0x64) 32 w s = .next (accerrSet s)) ∧
    (Selects s .huff →
      (16 < (w.extractLsb' 16 5).toNat ∨ 2 ^ (w.extractLsb' 16 5).toNat ≤ (w.extractLsb' 0 16).toNat) →
      hostWrite (s.params.base + 0x64) 32 w s = .next (accerrSet s)) ∧
    (∀ sp, Selects s sp →
      (sp = .huff → (w.extractLsb' 16 5).toNat ≤ 16 ∧
        (w.extractLsb' 0 16).toNat < 2 ^ (w.extractLsb' 16 5).toNat) →
      ∃ m, hostWrite (s.params.base + 0x64) 32 w s = .next { s with mem := m, midx := s.midx + 1 } ∧
        elementWord m sp s.msel.sub.toNat s.midx.toNat = some (match sp with
          | .dbuf | .qf | .hist => w
          | .qtab => w &&& 0x0000FFFF#32
          | .coef => (w.extractLsb' 0 16).signExtend 32
          | .huff => w &&& 0x001FFFFF#32) ∧
        ∀ sp' u' i', ¬(sp' = sp ∧ u' = s.msel.sub.toNat ∧ i' = s.midx.toNat) →
          elementWord m sp' u' i' = elementWord s.mem sp' u' i')

/-- A host read changes nothing but what it returns, ACCERR, MIDX and the count of free values (20_memory.md R72). -/
def Obligations.ReadsHaveNoOtherEffect : Prop :=
  ∀ (s : State) (addr width : Nat), ∃ (w m : Word) (a : Bool) (n : Nat),
    hostRead addr width s =
      { s with busData := w, midx := m, free := n, status := { s.status with accerr := a } }

/-! ### Faults, resets, the sink -/

/-- The fault state (60_exceptions.md R207): while FAULT = 1 (and, as always then, BUSY = 0) no move but a hard reset or a
soft reset leaves it: FAULT, CAUSE, FINFO and FAUX keep their values, no command runs, nothing is appended to OUT. -/
def Obligations.OnlyResetLeavesFault : Prop :=
  ∀ (e : Event) (s t : State), s.status.fault = true → s.status.busy = false → perform e s = .next t →
    e ≠ .hardReset →
    (∀ width w, e = .write (s.params.base + 0x04) width w → w.getLsbD 0 = false) →
    t.status.fault = true ∧ t.status.busy = false ∧ t.status.cause = s.status.cause ∧ t.finfo = s.finfo ∧
      t.faux = s.faux ∧ t.cmdreg = s.cmdreg ∧ t.outcnt = s.outcnt ∧ t.received ++ t.out = s.received ++ s.out

/-- Hard reset (70_reset_and_hazards.md R230): the word of every register, the working registers, OUT empty, irq low, and
every memory element never written again: R230 leaves the content unspecified, and that it is no value at all is the
model's choice, which R81 and U1 ask for (log entry 3). CMDREG is not named (log entry 7). -/
def Obligations.HardResetState : Prop :=
  ∀ s : State, ∃ t, perform .hardReset s = .next t ∧
    regWord .id t = 0x4A424501#32 ∧ regWord .ctrl t = 6 ∧ regWord .status t = 0 ∧ regWord .ie t = 0 ∧
    regWord .finfo t = 0 ∧ regWord .faux t = 0 ∧ regWord .frame t = 0 ∧ regWord .mcux t = 0 ∧ regWord .mcuy t = 0 ∧
    (∀ r ∈ [Reg.comp0, Reg.comp1, Reg.comp2], regWord r t = 0x11#32) ∧
    regWord .qfconst t = 0x3F133333#32 ∧ regWord .dcmul t = 0x3F800000#32 ∧ regWord .qpos t = 0 ∧
    regWord .scan t = 0x003F0001#32 ∧ (∀ r ∈ [Reg.scomp0, Reg.scomp1, Reg.scomp2], regWord r t = 0) ∧
    regWord .niw t = 0 ∧ regWord .nih t = 0 ∧ regWord .ri t = 0 ∧ regWord .msel t = 0 ∧ regWord .midx t = 0 ∧
    regWord .outcnt t = 0 ∧ t.pred = Vector.replicate 3 0 ∧ t.acc = 0 ∧ t.nacc = 0 ∧ t.rstn = 0 ∧ t.out = [] ∧
    irq t = false ∧ (∀ sp u i, elementWord t.mem sp u i = none)

/-- Soft reset of a block that is not busy (70_reset_and_hazards.md R231): registers and working registers as after a hard
reset, OUTCNT 0, the memories and the bytes of OUT kept; the other bits of the word do not matter. -/
def Obligations.SoftResetKeepsMemories : Prop :=
  ∀ (s : State) (w : Word), w.getLsbD 0 = true → s.status.busy = false →
    ∃ t u, hostWrite (s.params.base + 0x04) 32 w s = .next t ∧ perform .hardReset s = .next u ∧
      (∀ r, regWord r t = regWord r u) ∧ t.pred = u.pred ∧ t.acc = 0 ∧ t.nacc = 0 ∧ t.rstn = 0 ∧
      t.outcnt = 0 ∧ t.mem = s.mem ∧ t.out = s.out ∧ t.received = s.received

/-- Soft reset while busy (70_reset_and_hazards.md R232; which case occurs is free: log entry 6): BUSY is 0 and the
registers are as after a soft reset; either nothing of the command happened, or its memory writes are all there and OUT
has received some first bytes of those it would have appended. -/
def Obligations.SoftResetAbortsCommand : Prop :=
  ∀ (s t : State) (w : Word), w.getLsbD 0 = true → s.status.busy = true →
    hostWrite (s.params.base + 0x04) 32 w s = .next t →
    (∀ r, regWord r t = regWord r (hardReset s)) ∧ t.status.busy = false ∧
    ((t.mem = s.mem ∧ t.out = s.out) ∨
     (∃ u n, runCommand s = .next u ∧ t.mem = u.mem ∧ t.out = s.out ++ (u.out.drop s.out.length).take n))

/-- The sink (43_entropy.md R191; 10_state.md R20 (c)): while OUT is not empty the head byte is offered, and a moment with
`out_ready = 1` moves exactly it to the sink; no other state changes. -/
def Obligations.SinkTakesHeadByte : Prop :=
  ∀ s : State,
    (s.out = [] → outValid s = false ∧ perform .sinkReady s = .next s) ∧
    (∀ b rest, s.out = b :: rest → outValid s = true ∧ outData s = some b ∧
      perform .sinkReady s = .next { s with out := rest, received := s.received ++ [b] })

/-- The stream the sink receives is never changed, dropped, duplicated or reordered (10_state.md R50; 43_entropy.md R181,
R191): but for a hard reset every move only appends to the sequence of bytes received and still held, and only the
sequencer's step, or a soft reset that aborts one, appends any: not a read, not the sink, not a write but a 32-bit one
to CTRL with bit 0 set, and nothing while the block is not busy. The bytes received are the model's field (log entry 9);
that all bytes of a command come in one move is its choice (log entry 24). -/
def Obligations.StreamOnlyGrows : Prop :=
  ∀ (e : Event) (s t : State), perform e s = .next t → e ≠ .hardReset →
    ∃ bytes, t.received ++ t.out = s.received ++ s.out ++ bytes ∧
      (s.status.busy = false → bytes = []) ∧ (∀ a w, e = .read a w → bytes = []) ∧ (e = .sinkReady → bytes = []) ∧
      (∀ a width w, e = .write a width w →
        (a ≠ s.params.base + 0x04 ∨ width ≠ 32 ∨ w.getLsbD 0 = false) → bytes = [])

/-- The interrupt line (60_exceptions.md R208): high exactly where a source is pending and enabled; completion raises it
where DONE_IE is set, writing 1 to bit 1 of STATUS lowers it where the other source is off, acceptance of the next
command lowers it too; a fault raises it where FAULT_IE is set. -/
def Obligations.InterruptLine : Prop :=
  (∀ s : State, irq s = true ↔
    (s.ie.doneIe = true ∧ s.status.done = true) ∨ (s.ie.faultIe = true ∧ s.status.fault = true)) ∧
  (∀ (i : Instr) (s t : State), exec i s = .next t → t.status.done = true → s.ie.doneIe = true → irq t = true) ∧
  (∀ (i : Instr) (s t : State), exec i s = .next t → t.status.fault = true → s.ie.faultIe = true → irq t = true) ∧
  (∀ (s t : State) (w : Word), w.getLsbD 1 = true → s.status.fault = false →
    hostWrite (s.params.base + 0x08) 32 w s = .next t → irq t = false) ∧
  (∀ (s t : State) (w : Word), s.status.busy = false → s.status.fault = false →
    hostWrite (s.params.base + 0x10) 32 w s = .next t → irq t = false)

/-! ### Invariants -/

/-- Every step keeps the invariant: canonical memory within its bounds (20_memory.md R61, R80), flags that exclude each
other with a fault record that is 0 until a fault (10_state.md R33, R46; 60_exceptions.md R201), and an empty bit
accumulator between commands (10_state.md R48). -/
def Obligations.StepKeepsInvariant : Prop :=
  ∀ s t : State, s.Inv → step s = .next t → t.Inv

/-- The state after reset has the invariant, and so has it for any parameters. -/
def Obligations.ResetHasInvariant : Prop := State.reset.Inv ∧ ∀ p, (State.resetWith p).Inv

/-- Every step keeps `LEN <= 16` and `CODE < 2^LEN` for every element of HUFF (20_memory.md R67, R69; 42_huffman.md R168):
neither HBUILD nor a host write stores another. -/
def Obligations.StepKeepsHuffSound : Prop :=
  ∀ s t : State, s.mem.huffSound = true → step s = .next t → t.mem.huffSound = true
end

