-- ==== Sys2Proof/Laws/State.lean ====
section
/-! SUPPORT. What each update of the state leaves in each field: one lemma for each field and update, true by rfl, so
that no later proof unfolds a record update. -/

namespace Sys2Proof.Machine

/-! ### acceptCommand -/

section
variable (w : Word) (s : State)

@[simp] theorem acceptCommand_params : (acceptCommand w s).params = s.params := rfl
@[simp] theorem acceptCommand_ctrl : (acceptCommand w s).ctrl = s.ctrl := rfl
@[simp] theorem acceptCommand_status : (acceptCommand w s).status = { s.status with busy := true, done := false } := rfl
@[simp] theorem acceptCommand_ie : (acceptCommand w s).ie = s.ie := rfl
@[simp] theorem acceptCommand_cmdreg : (acceptCommand w s).cmdreg = w := rfl
@[simp] theorem acceptCommand_finfo : (acceptCommand w s).finfo = s.finfo := rfl
@[simp] theorem acceptCommand_faux : (acceptCommand w s).faux = s.faux := rfl
@[simp] theorem acceptCommand_nc : (acceptCommand w s).nc = s.nc := rfl
@[simp] theorem acceptCommand_mcux : (acceptCommand w s).mcux = s.mcux := rfl
@[simp] theorem acceptCommand_mcuy : (acceptCommand w s).mcuy = s.mcuy := rfl
@[simp] theorem acceptCommand_comp : (acceptCommand w s).comp = s.comp := rfl
@[simp] theorem acceptCommand_qfconst : (acceptCommand w s).qfconst = s.qfconst := rfl
@[simp] theorem acceptCommand_dcmul : (acceptCommand w s).dcmul = s.dcmul := rfl
@[simp] theorem acceptCommand_qpos : (acceptCommand w s).qpos = s.qpos := rfl
@[simp] theorem acceptCommand_scan : (acceptCommand w s).scan = s.scan := rfl
@[simp] theorem acceptCommand_scomp : (acceptCommand w s).scomp = s.scomp := rfl
@[simp] theorem acceptCommand_niw : (acceptCommand w s).niw = s.niw := rfl
@[simp] theorem acceptCommand_nih : (acceptCommand w s).nih = s.nih := rfl
@[simp] theorem acceptCommand_ri : (acceptCommand w s).ri = s.ri := rfl
@[simp] theorem acceptCommand_msel : (acceptCommand w s).msel = s.msel := rfl
@[simp] theorem acceptCommand_midx : (acceptCommand w s).midx = s.midx := rfl
@[simp] theorem acceptCommand_outcnt : (acceptCommand w s).outcnt = s.outcnt := rfl
@[simp] theorem acceptCommand_pred : (acceptCommand w s).pred = s.pred := rfl
@[simp] theorem acceptCommand_acc : (acceptCommand w s).acc = s.acc := rfl
@[simp] theorem acceptCommand_nacc : (acceptCommand w s).nacc = s.nacc := rfl
@[simp] theorem acceptCommand_rstn : (acceptCommand w s).rstn = s.rstn := rfl
@[simp] theorem acceptCommand_mem : (acceptCommand w s).mem = s.mem := rfl
@[simp] theorem acceptCommand_out : (acceptCommand w s).out = s.out := rfl
@[simp] theorem acceptCommand_agenda : (acceptCommand w s).agenda = s.agenda := rfl
@[simp] theorem acceptCommand_busData : (acceptCommand w s).busData = s.busData := rfl
@[simp] theorem acceptCommand_received : (acceptCommand w s).received = s.received := rfl
@[simp] theorem acceptCommand_free : (acceptCommand w s).free = s.free := rfl

end

/-! ### completeCommand -/

section
variable (s : State)

@[simp] theorem completeCommand_params : (completeCommand s).params = s.params := rfl
@[simp] theorem completeCommand_ctrl : (completeCommand s).ctrl = s.ctrl := rfl
@[simp] theorem completeCommand_status : (completeCommand s).status = { s.status with busy := false, done := true } := rfl
@[simp] theorem completeCommand_ie : (completeCommand s).ie = s.ie := rfl
@[simp] theorem completeCommand_cmdreg : (completeCommand s).cmdreg = s.cmdreg := rfl
@[simp] theorem completeCommand_finfo : (completeCommand s).finfo = s.finfo := rfl
@[simp] theorem completeCommand_faux : (completeCommand s).faux = s.faux := rfl
@[simp] theorem completeCommand_nc : (completeCommand s).nc = s.nc := rfl
@[simp] theorem completeCommand_mcux : (completeCommand s).mcux = s.mcux := rfl
@[simp] theorem completeCommand_mcuy : (completeCommand s).mcuy = s.mcuy := rfl
@[simp] theorem completeCommand_comp : (completeCommand s).comp = s.comp := rfl
@[simp] theorem completeCommand_qfconst : (completeCommand s).qfconst = s.qfconst := rfl
@[simp] theorem completeCommand_dcmul : (completeCommand s).dcmul = s.dcmul := rfl
@[simp] theorem completeCommand_qpos : (completeCommand s).qpos = s.qpos := rfl
@[simp] theorem completeCommand_scan : (completeCommand s).scan = s.scan := rfl
@[simp] theorem completeCommand_scomp : (completeCommand s).scomp = s.scomp := rfl
@[simp] theorem completeCommand_niw : (completeCommand s).niw = s.niw := rfl
@[simp] theorem completeCommand_nih : (completeCommand s).nih = s.nih := rfl
@[simp] theorem completeCommand_ri : (completeCommand s).ri = s.ri := rfl
@[simp] theorem completeCommand_msel : (completeCommand s).msel = s.msel := rfl
@[simp] theorem completeCommand_midx : (completeCommand s).midx = s.midx := rfl
@[simp] theorem completeCommand_outcnt : (completeCommand s).outcnt = s.outcnt := rfl
@[simp] theorem completeCommand_pred : (completeCommand s).pred = s.pred := rfl
@[simp] theorem completeCommand_acc : (completeCommand s).acc = s.acc := rfl
@[simp] theorem completeCommand_nacc : (completeCommand s).nacc = s.nacc := rfl
@[simp] theorem completeCommand_rstn : (completeCommand s).rstn = s.rstn := rfl
@[simp] theorem completeCommand_mem : (completeCommand s).mem = s.mem := rfl
@[simp] theorem completeCommand_out : (completeCommand s).out = s.out := rfl
@[simp] theorem completeCommand_agenda : (completeCommand s).agenda = s.agenda := rfl
@[simp] theorem completeCommand_busData : (completeCommand s).busData = s.busData := rfl
@[simp] theorem completeCommand_received : (completeCommand s).received = s.received := rfl
@[simp] theorem completeCommand_free : (completeCommand s).free = s.free := rfl

end

/-! ### setAccerr -/

section
variable (s : State)

@[simp] theorem setAccerr_params : (setAccerr s).params = s.params := rfl
@[simp] theorem setAccerr_ctrl : (setAccerr s).ctrl = s.ctrl := rfl
@[simp] theorem setAccerr_status : (setAccerr s).status = { s.status with accerr := true } := rfl
@[simp] theorem setAccerr_ie : (setAccerr s).ie = s.ie := rfl
@[simp] theorem setAccerr_cmdreg : (setAccerr s).cmdreg = s.cmdreg := rfl
@[simp] theorem setAccerr_finfo : (setAccerr s).finfo = s.finfo := rfl
@[simp] theorem setAccerr_faux : (setAccerr s).faux = s.faux := rfl
@[simp] theorem setAccerr_nc : (setAccerr s).nc = s.nc := rfl
@[simp] theorem setAccerr_mcux : (setAccerr s).mcux = s.mcux := rfl
@[simp] theorem setAccerr_mcuy : (setAccerr s).mcuy = s.mcuy := rfl
@[simp] theorem setAccerr_comp : (setAccerr s).comp = s.comp := rfl
@[simp] theorem setAccerr_qfconst : (setAccerr s).qfconst = s.qfconst := rfl
@[simp] theorem setAccerr_dcmul : (setAccerr s).dcmul = s.dcmul := rfl
@[simp] theorem setAccerr_qpos : (setAccerr s).qpos = s.qpos := rfl
@[simp] theorem setAccerr_scan : (setAccerr s).scan = s.scan := rfl
@[simp] theorem setAccerr_scomp : (setAccerr s).scomp = s.scomp := rfl
@[simp] theorem setAccerr_niw : (setAccerr s).niw = s.niw := rfl
@[simp] theorem setAccerr_nih : (setAccerr s).nih = s.nih := rfl
@[simp] theorem setAccerr_ri : (setAccerr s).ri = s.ri := rfl
@[simp] theorem setAccerr_msel : (setAccerr s).msel = s.msel := rfl
@[simp] theorem setAccerr_midx : (setAccerr s).midx = s.midx := rfl
@[simp] theorem setAccerr_outcnt : (setAccerr s).outcnt = s.outcnt := rfl
@[simp] theorem setAccerr_pred : (setAccerr s).pred = s.pred := rfl
@[simp] theorem setAccerr_acc : (setAccerr s).acc = s.acc := rfl
@[simp] theorem setAccerr_nacc : (setAccerr s).nacc = s.nacc := rfl
@[simp] theorem setAccerr_rstn : (setAccerr s).rstn = s.rstn := rfl
@[simp] theorem setAccerr_mem : (setAccerr s).mem = s.mem := rfl
@[simp] theorem setAccerr_out : (setAccerr s).out = s.out := rfl
@[simp] theorem setAccerr_agenda : (setAccerr s).agenda = s.agenda := rfl
@[simp] theorem setAccerr_busData : (setAccerr s).busData = s.busData := rfl
@[simp] theorem setAccerr_received : (setAccerr s).received = s.received := rfl
@[simp] theorem setAccerr_free : (setAccerr s).free = s.free := rfl

end

/-! ### setCmdovr -/

section
variable (s : State)

@[simp] theorem setCmdovr_params : (setCmdovr s).params = s.params := rfl
@[simp] theorem setCmdovr_ctrl : (setCmdovr s).ctrl = s.ctrl := rfl
@[simp] theorem setCmdovr_status : (setCmdovr s).status = { s.status with cmdovr := true } := rfl
@[simp] theorem setCmdovr_ie : (setCmdovr s).ie = s.ie := rfl
@[simp] theorem setCmdovr_cmdreg : (setCmdovr s).cmdreg = s.cmdreg := rfl
@[simp] theorem setCmdovr_finfo : (setCmdovr s).finfo = s.finfo := rfl
@[simp] theorem setCmdovr_faux : (setCmdovr s).faux = s.faux := rfl
@[simp] theorem setCmdovr_nc : (setCmdovr s).nc = s.nc := rfl
@[simp] theorem setCmdovr_mcux : (setCmdovr s).mcux = s.mcux := rfl
@[simp] theorem setCmdovr_mcuy : (setCmdovr s).mcuy = s.mcuy := rfl
@[simp] theorem setCmdovr_comp : (setCmdovr s).comp = s.comp := rfl
@[simp] theorem setCmdovr_qfconst : (setCmdovr s).qfconst = s.qfconst := rfl
@[simp] theorem setCmdovr_dcmul : (setCmdovr s).dcmul = s.dcmul := rfl
@[simp] theorem setCmdovr_qpos : (setCmdovr s).qpos = s.qpos := rfl
@[simp] theorem setCmdovr_scan : (setCmdovr s).scan = s.scan := rfl
@[simp] theorem setCmdovr_scomp : (setCmdovr s).scomp = s.scomp := rfl
@[simp] theorem setCmdovr_niw : (setCmdovr s).niw = s.niw := rfl
@[simp] theorem setCmdovr_nih : (setCmdovr s).nih = s.nih := rfl
@[simp] theorem setCmdovr_ri : (setCmdovr s).ri = s.ri := rfl
@[simp] theorem setCmdovr_msel : (setCmdovr s).msel = s.msel := rfl
@[simp] theorem setCmdovr_midx : (setCmdovr s).midx = s.midx := rfl
@[simp] theorem setCmdovr_outcnt : (setCmdovr s).outcnt = s.outcnt := rfl
@[simp] theorem setCmdovr_pred : (setCmdovr s).pred = s.pred := rfl
@[simp] theorem setCmdovr_acc : (setCmdovr s).acc = s.acc := rfl
@[simp] theorem setCmdovr_nacc : (setCmdovr s).nacc = s.nacc := rfl
@[simp] theorem setCmdovr_rstn : (setCmdovr s).rstn = s.rstn := rfl
@[simp] theorem setCmdovr_mem : (setCmdovr s).mem = s.mem := rfl
@[simp] theorem setCmdovr_out : (setCmdovr s).out = s.out := rfl
@[simp] theorem setCmdovr_agenda : (setCmdovr s).agenda = s.agenda := rfl
@[simp] theorem setCmdovr_busData : (setCmdovr s).busData = s.busData := rfl
@[simp] theorem setCmdovr_received : (setCmdovr s).received = s.received := rfl
@[simp] theorem setCmdovr_free : (setCmdovr s).free = s.free := rfl

end

/-! ### writeStatus -/

section
variable (w : Word) (s : State)

@[simp] theorem writeStatus_params : (writeStatus w s).params = s.params := rfl
@[simp] theorem writeStatus_ctrl : (writeStatus w s).ctrl = s.ctrl := rfl
@[simp] theorem writeStatus_ie : (writeStatus w s).ie = s.ie := rfl
@[simp] theorem writeStatus_cmdreg : (writeStatus w s).cmdreg = s.cmdreg := rfl
@[simp] theorem writeStatus_finfo : (writeStatus w s).finfo = s.finfo := rfl
@[simp] theorem writeStatus_faux : (writeStatus w s).faux = s.faux := rfl
@[simp] theorem writeStatus_nc : (writeStatus w s).nc = s.nc := rfl
@[simp] theorem writeStatus_mcux : (writeStatus w s).mcux = s.mcux := rfl
@[simp] theorem writeStatus_mcuy : (writeStatus w s).mcuy = s.mcuy := rfl
@[simp] theorem writeStatus_comp : (writeStatus w s).comp = s.comp := rfl
@[simp] theorem writeStatus_qfconst : (writeStatus w s).qfconst = s.qfconst := rfl
@[simp] theorem writeStatus_dcmul : (writeStatus w s).dcmul = s.dcmul := rfl
@[simp] theorem writeStatus_qpos : (writeStatus w s).qpos = s.qpos := rfl
@[simp] theorem writeStatus_scan : (writeStatus w s).scan = s.scan := rfl
@[simp] theorem writeStatus_scomp : (writeStatus w s).scomp = s.scomp := rfl
@[simp] theorem writeStatus_niw : (writeStatus w s).niw = s.niw := rfl
@[simp] theorem writeStatus_nih : (writeStatus w s).nih = s.nih := rfl
@[simp] theorem writeStatus_ri : (writeStatus w s).ri = s.ri := rfl
@[simp] theorem writeStatus_msel : (writeStatus w s).msel = s.msel := rfl
@[simp] theorem writeStatus_midx : (writeStatus w s).midx = s.midx := rfl
@[simp] theorem writeStatus_outcnt : (writeStatus w s).outcnt = s.outcnt := rfl
@[simp] theorem writeStatus_pred : (writeStatus w s).pred = s.pred := rfl
@[simp] theorem writeStatus_acc : (writeStatus w s).acc = s.acc := rfl
@[simp] theorem writeStatus_nacc : (writeStatus w s).nacc = s.nacc := rfl
@[simp] theorem writeStatus_rstn : (writeStatus w s).rstn = s.rstn := rfl
@[simp] theorem writeStatus_mem : (writeStatus w s).mem = s.mem := rfl
@[simp] theorem writeStatus_out : (writeStatus w s).out = s.out := rfl
@[simp] theorem writeStatus_agenda : (writeStatus w s).agenda = s.agenda := rfl
@[simp] theorem writeStatus_busData : (writeStatus w s).busData = s.busData := rfl
@[simp] theorem writeStatus_received : (writeStatus w s).received = s.received := rfl
@[simp] theorem writeStatus_free : (writeStatus w s).free = s.free := rfl

end

/-! ### emitByte -/

section
variable (b : Byte) (s : State)

@[simp] theorem emitByte_params : (emitByte b s).params = s.params := rfl
@[simp] theorem emitByte_ctrl : (emitByte b s).ctrl = s.ctrl := rfl
@[simp] theorem emitByte_status : (emitByte b s).status = s.status := rfl
@[simp] theorem emitByte_ie : (emitByte b s).ie = s.ie := rfl
@[simp] theorem emitByte_cmdreg : (emitByte b s).cmdreg = s.cmdreg := rfl
@[simp] theorem emitByte_finfo : (emitByte b s).finfo = s.finfo := rfl
@[simp] theorem emitByte_faux : (emitByte b s).faux = s.faux := rfl
@[simp] theorem emitByte_nc : (emitByte b s).nc = s.nc := rfl
@[simp] theorem emitByte_mcux : (emitByte b s).mcux = s.mcux := rfl
@[simp] theorem emitByte_mcuy : (emitByte b s).mcuy = s.mcuy := rfl
@[simp] theorem emitByte_comp : (emitByte b s).comp = s.comp := rfl
@[simp] theorem emitByte_qfconst : (emitByte b s).qfconst = s.qfconst := rfl
@[simp] theorem emitByte_dcmul : (emitByte b s).dcmul = s.dcmul := rfl
@[simp] theorem emitByte_qpos : (emitByte b s).qpos = s.qpos := rfl
@[simp] theorem emitByte_scan : (emitByte b s).scan = s.scan := rfl
@[simp] theorem emitByte_scomp : (emitByte b s).scomp = s.scomp := rfl
@[simp] theorem emitByte_niw : (emitByte b s).niw = s.niw := rfl
@[simp] theorem emitByte_nih : (emitByte b s).nih = s.nih := rfl
@[simp] theorem emitByte_ri : (emitByte b s).ri = s.ri := rfl
@[simp] theorem emitByte_msel : (emitByte b s).msel = s.msel := rfl
@[simp] theorem emitByte_midx : (emitByte b s).midx = s.midx := rfl
@[simp] theorem emitByte_outcnt : (emitByte b s).outcnt = s.outcnt + 1 := rfl
@[simp] theorem emitByte_pred : (emitByte b s).pred = s.pred := rfl
@[simp] theorem emitByte_acc : (emitByte b s).acc = s.acc := rfl
@[simp] theorem emitByte_nacc : (emitByte b s).nacc = s.nacc := rfl
@[simp] theorem emitByte_rstn : (emitByte b s).rstn = s.rstn := rfl
@[simp] theorem emitByte_mem : (emitByte b s).mem = s.mem := rfl
@[simp] theorem emitByte_out : (emitByte b s).out = s.out ++ [b] := rfl
@[simp] theorem emitByte_agenda : (emitByte b s).agenda = s.agenda := rfl
@[simp] theorem emitByte_busData : (emitByte b s).busData = s.busData := rfl
@[simp] theorem emitByte_received : (emitByte b s).received = s.received := rfl
@[simp] theorem emitByte_free : (emitByte b s).free = s.free := rfl

end

/-! ### faultEntry -/

section
variable (r : Raise) (s : State)

@[simp] theorem faultEntry_params : (faultEntry r s).params = s.params := rfl
@[simp] theorem faultEntry_ctrl : (faultEntry r s).ctrl = s.ctrl := rfl
@[simp] theorem faultEntry_status : (faultEntry r s).status = { s.status with fault := true, cause := r.cause.code, busy := false } := rfl
@[simp] theorem faultEntry_ie : (faultEntry r s).ie = s.ie := rfl
@[simp] theorem faultEntry_cmdreg : (faultEntry r s).cmdreg = s.cmdreg := rfl
@[simp] theorem faultEntry_finfo : (faultEntry r s).finfo = { c := r.c, k := r.k } := rfl
@[simp] theorem faultEntry_faux : (faultEntry r s).faux = r.aux := rfl
@[simp] theorem faultEntry_nc : (faultEntry r s).nc = s.nc := rfl
@[simp] theorem faultEntry_mcux : (faultEntry r s).mcux = s.mcux := rfl
@[simp] theorem faultEntry_mcuy : (faultEntry r s).mcuy = s.mcuy := rfl
@[simp] theorem faultEntry_comp : (faultEntry r s).comp = s.comp := rfl
@[simp] theorem faultEntry_qfconst : (faultEntry r s).qfconst = s.qfconst := rfl
@[simp] theorem faultEntry_dcmul : (faultEntry r s).dcmul = s.dcmul := rfl
@[simp] theorem faultEntry_qpos : (faultEntry r s).qpos = s.qpos := rfl
@[simp] theorem faultEntry_scan : (faultEntry r s).scan = s.scan := rfl
@[simp] theorem faultEntry_scomp : (faultEntry r s).scomp = s.scomp := rfl
@[simp] theorem faultEntry_niw : (faultEntry r s).niw = s.niw := rfl
@[simp] theorem faultEntry_nih : (faultEntry r s).nih = s.nih := rfl
@[simp] theorem faultEntry_ri : (faultEntry r s).ri = s.ri := rfl
@[simp] theorem faultEntry_msel : (faultEntry r s).msel = s.msel := rfl
@[simp] theorem faultEntry_midx : (faultEntry r s).midx = s.midx := rfl
@[simp] theorem faultEntry_outcnt : (faultEntry r s).outcnt = s.outcnt := rfl
@[simp] theorem faultEntry_pred : (faultEntry r s).pred = s.pred := rfl
@[simp] theorem faultEntry_acc : (faultEntry r s).acc = 0 := rfl
@[simp] theorem faultEntry_nacc : (faultEntry r s).nacc = 0 := rfl
@[simp] theorem faultEntry_rstn : (faultEntry r s).rstn = s.rstn := rfl
@[simp] theorem faultEntry_mem : (faultEntry r s).mem = s.mem := rfl
@[simp] theorem faultEntry_out : (faultEntry r s).out = s.out := rfl
@[simp] theorem faultEntry_agenda : (faultEntry r s).agenda = s.agenda := rfl
@[simp] theorem faultEntry_busData : (faultEntry r s).busData = s.busData := rfl
@[simp] theorem faultEntry_received : (faultEntry r s).received = s.received := rfl
@[simp] theorem faultEntry_free : (faultEntry r s).free = s.free := rfl

end

/-! ### advance -/

section
variable (s : State)

@[simp] theorem advance_params : (advance s).params = s.params := rfl
@[simp] theorem advance_ctrl : (advance s).ctrl = s.ctrl := rfl
@[simp] theorem advance_status : (advance s).status = s.status := rfl
@[simp] theorem advance_ie : (advance s).ie = s.ie := rfl
@[simp] theorem advance_cmdreg : (advance s).cmdreg = s.cmdreg := rfl
@[simp] theorem advance_finfo : (advance s).finfo = s.finfo := rfl
@[simp] theorem advance_faux : (advance s).faux = s.faux := rfl
@[simp] theorem advance_nc : (advance s).nc = s.nc := rfl
@[simp] theorem advance_mcux : (advance s).mcux = s.mcux := rfl
@[simp] theorem advance_mcuy : (advance s).mcuy = s.mcuy := rfl
@[simp] theorem advance_comp : (advance s).comp = s.comp := rfl
@[simp] theorem advance_qfconst : (advance s).qfconst = s.qfconst := rfl
@[simp] theorem advance_dcmul : (advance s).dcmul = s.dcmul := rfl
@[simp] theorem advance_qpos : (advance s).qpos = s.qpos := rfl
@[simp] theorem advance_scan : (advance s).scan = s.scan := rfl
@[simp] theorem advance_scomp : (advance s).scomp = s.scomp := rfl
@[simp] theorem advance_niw : (advance s).niw = s.niw := rfl
@[simp] theorem advance_nih : (advance s).nih = s.nih := rfl
@[simp] theorem advance_ri : (advance s).ri = s.ri := rfl
@[simp] theorem advance_msel : (advance s).msel = s.msel := rfl
@[simp] theorem advance_midx : (advance s).midx = s.midx + 1 := rfl
@[simp] theorem advance_outcnt : (advance s).outcnt = s.outcnt := rfl
@[simp] theorem advance_pred : (advance s).pred = s.pred := rfl
@[simp] theorem advance_acc : (advance s).acc = s.acc := rfl
@[simp] theorem advance_nacc : (advance s).nacc = s.nacc := rfl
@[simp] theorem advance_rstn : (advance s).rstn = s.rstn := rfl
@[simp] theorem advance_mem : (advance s).mem = s.mem := rfl
@[simp] theorem advance_out : (advance s).out = s.out := rfl
@[simp] theorem advance_agenda : (advance s).agenda = s.agenda := rfl
@[simp] theorem advance_busData : (advance s).busData = s.busData := rfl
@[simp] theorem advance_received : (advance s).received = s.received := rfl
@[simp] theorem advance_free : (advance s).free = s.free := rfl

end

/-! ### answer -/

section
variable (w : Word) (s : State)

@[simp] theorem answer_params : (answer w s).params = s.params := rfl
@[simp] theorem answer_ctrl : (answer w s).ctrl = s.ctrl := rfl
@[simp] theorem answer_status : (answer w s).status = s.status := rfl
@[simp] theorem answer_ie : (answer w s).ie = s.ie := rfl
@[simp] theorem answer_cmdreg : (answer w s).cmdreg = s.cmdreg := rfl
@[simp] theorem answer_finfo : (answer w s).finfo = s.finfo := rfl
@[simp] theorem answer_faux : (answer w s).faux = s.faux := rfl
@[simp] theorem answer_nc : (answer w s).nc = s.nc := rfl
@[simp] theorem answer_mcux : (answer w s).mcux = s.mcux := rfl
@[simp] theorem answer_mcuy : (answer w s).mcuy = s.mcuy := rfl
@[simp] theorem answer_comp : (answer w s).comp = s.comp := rfl
@[simp] theorem answer_qfconst : (answer w s).qfconst = s.qfconst := rfl
@[simp] theorem answer_dcmul : (answer w s).dcmul = s.dcmul := rfl
@[simp] theorem answer_qpos : (answer w s).qpos = s.qpos := rfl
@[simp] theorem answer_scan : (answer w s).scan = s.scan := rfl
@[simp] theorem answer_scomp : (answer w s).scomp = s.scomp := rfl
@[simp] theorem answer_niw : (answer w s).niw = s.niw := rfl
@[simp] theorem answer_nih : (answer w s).nih = s.nih := rfl
@[simp] theorem answer_ri : (answer w s).ri = s.ri := rfl
@[simp] theorem answer_msel : (answer w s).msel = s.msel := rfl
@[simp] theorem answer_midx : (answer w s).midx = s.midx := rfl
@[simp] theorem answer_outcnt : (answer w s).outcnt = s.outcnt := rfl
@[simp] theorem answer_pred : (answer w s).pred = s.pred := rfl
@[simp] theorem answer_acc : (answer w s).acc = s.acc := rfl
@[simp] theorem answer_nacc : (answer w s).nacc = s.nacc := rfl
@[simp] theorem answer_rstn : (answer w s).rstn = s.rstn := rfl
@[simp] theorem answer_mem : (answer w s).mem = s.mem := rfl
@[simp] theorem answer_out : (answer w s).out = s.out := rfl
@[simp] theorem answer_agenda : (answer w s).agenda = s.agenda := rfl
@[simp] theorem answer_busData : (answer w s).busData = w := rfl
@[simp] theorem answer_received : (answer w s).received = s.received := rfl
@[simp] theorem answer_free : (answer w s).free = s.free := rfl

end

/-! ### storeCtrl -/

section
variable (w : Word) (s : State)

@[simp] theorem storeCtrl_params : (storeCtrl w s).params = s.params := rfl
@[simp] theorem storeCtrl_ctrl : (storeCtrl w s).ctrl = { baseline := w.getLsbD 1, dcfix := w.getLsbD 2, aq := w.getLsbD 3 } := rfl
@[simp] theorem storeCtrl_status : (storeCtrl w s).status = s.status := rfl
@[simp] theorem storeCtrl_ie : (storeCtrl w s).ie = s.ie := rfl
@[simp] theorem storeCtrl_cmdreg : (storeCtrl w s).cmdreg = s.cmdreg := rfl
@[simp] theorem storeCtrl_finfo : (storeCtrl w s).finfo = s.finfo := rfl
@[simp] theorem storeCtrl_faux : (storeCtrl w s).faux = s.faux := rfl
@[simp] theorem storeCtrl_nc : (storeCtrl w s).nc = s.nc := rfl
@[simp] theorem storeCtrl_mcux : (storeCtrl w s).mcux = s.mcux := rfl
@[simp] theorem storeCtrl_mcuy : (storeCtrl w s).mcuy = s.mcuy := rfl
@[simp] theorem storeCtrl_comp : (storeCtrl w s).comp = s.comp := rfl
@[simp] theorem storeCtrl_qfconst : (storeCtrl w s).qfconst = s.qfconst := rfl
@[simp] theorem storeCtrl_dcmul : (storeCtrl w s).dcmul = s.dcmul := rfl
@[simp] theorem storeCtrl_qpos : (storeCtrl w s).qpos = s.qpos := rfl
@[simp] theorem storeCtrl_scan : (storeCtrl w s).scan = s.scan := rfl
@[simp] theorem storeCtrl_scomp : (storeCtrl w s).scomp = s.scomp := rfl
@[simp] theorem storeCtrl_niw : (storeCtrl w s).niw = s.niw := rfl
@[simp] theorem storeCtrl_nih : (storeCtrl w s).nih = s.nih := rfl
@[simp] theorem storeCtrl_ri : (storeCtrl w s).ri = s.ri := rfl
@[simp] theorem storeCtrl_msel : (storeCtrl w s).msel = s.msel := rfl
@[simp] theorem storeCtrl_midx : (storeCtrl w s).midx = s.midx := rfl
@[simp] theorem storeCtrl_outcnt : (storeCtrl w s).outcnt = s.outcnt := rfl
@[simp] theorem storeCtrl_pred : (storeCtrl w s).pred = s.pred := rfl
@[simp] theorem storeCtrl_acc : (storeCtrl w s).acc = s.acc := rfl
@[simp] theorem storeCtrl_nacc : (storeCtrl w s).nacc = s.nacc := rfl
@[simp] theorem storeCtrl_rstn : (storeCtrl w s).rstn = s.rstn := rfl
@[simp] theorem storeCtrl_mem : (storeCtrl w s).mem = s.mem := rfl
@[simp] theorem storeCtrl_out : (storeCtrl w s).out = s.out := rfl
@[simp] theorem storeCtrl_agenda : (storeCtrl w s).agenda = s.agenda := rfl
@[simp] theorem storeCtrl_busData : (storeCtrl w s).busData = s.busData := rfl
@[simp] theorem storeCtrl_received : (storeCtrl w s).received = s.received := rfl
@[simp] theorem storeCtrl_free : (storeCtrl w s).free = s.free := rfl

end

/-! ### storeIe -/

section
variable (w : Word) (s : State)

@[simp] theorem storeIe_params : (storeIe w s).params = s.params := rfl
@[simp] theorem storeIe_ctrl : (storeIe w s).ctrl = s.ctrl := rfl
@[simp] theorem storeIe_status : (storeIe w s).status = s.status := rfl
@[simp] theorem storeIe_ie : (storeIe w s).ie = { doneIe := w.getLsbD 1, faultIe := w.getLsbD 2 } := rfl
@[simp] theorem storeIe_cmdreg : (storeIe w s).cmdreg = s.cmdreg := rfl
@[simp] theorem storeIe_finfo : (storeIe w s).finfo = s.finfo := rfl
@[simp] theorem storeIe_faux : (storeIe w s).faux = s.faux := rfl
@[simp] theorem storeIe_nc : (storeIe w s).nc = s.nc := rfl
@[simp] theorem storeIe_mcux : (storeIe w s).mcux = s.mcux := rfl
@[simp] theorem storeIe_mcuy : (storeIe w s).mcuy = s.mcuy := rfl
@[simp] theorem storeIe_comp : (storeIe w s).comp = s.comp := rfl
@[simp] theorem storeIe_qfconst : (storeIe w s).qfconst = s.qfconst := rfl
@[simp] theorem storeIe_dcmul : (storeIe w s).dcmul = s.dcmul := rfl
@[simp] theorem storeIe_qpos : (storeIe w s).qpos = s.qpos := rfl
@[simp] theorem storeIe_scan : (storeIe w s).scan = s.scan := rfl
@[simp] theorem storeIe_scomp : (storeIe w s).scomp = s.scomp := rfl
@[simp] theorem storeIe_niw : (storeIe w s).niw = s.niw := rfl
@[simp] theorem storeIe_nih : (storeIe w s).nih = s.nih := rfl
@[simp] theorem storeIe_ri : (storeIe w s).ri = s.ri := rfl
@[simp] theorem storeIe_msel : (storeIe w s).msel = s.msel := rfl
@[simp] theorem storeIe_midx : (storeIe w s).midx = s.midx := rfl
@[simp] theorem storeIe_outcnt : (storeIe w s).outcnt = s.outcnt := rfl
@[simp] theorem storeIe_pred : (storeIe w s).pred = s.pred := rfl
@[simp] theorem storeIe_acc : (storeIe w s).acc = s.acc := rfl
@[simp] theorem storeIe_nacc : (storeIe w s).nacc = s.nacc := rfl
@[simp] theorem storeIe_rstn : (storeIe w s).rstn = s.rstn := rfl
@[simp] theorem storeIe_mem : (storeIe w s).mem = s.mem := rfl
@[simp] theorem storeIe_out : (storeIe w s).out = s.out := rfl
@[simp] theorem storeIe_agenda : (storeIe w s).agenda = s.agenda := rfl
@[simp] theorem storeIe_busData : (storeIe w s).busData = s.busData := rfl
@[simp] theorem storeIe_received : (storeIe w s).received = s.received := rfl
@[simp] theorem storeIe_free : (storeIe w s).free = s.free := rfl

end

/-! ### writeStatus -/

section
variable (w : Word) (s : State)

@[simp] theorem writeStatus_busy : (writeStatus w s).status.busy = s.status.busy := rfl
@[simp] theorem writeStatus_fault : (writeStatus w s).status.fault = s.status.fault := rfl
@[simp] theorem writeStatus_cause : (writeStatus w s).status.cause = s.status.cause := rfl
@[simp] theorem writeStatus_done : (writeStatus w s).status.done = (s.status.done && !w.getLsbD 1) := rfl
@[simp] theorem writeStatus_cmdovr : (writeStatus w s).status.cmdovr = (s.status.cmdovr && !w.getLsbD 3) := rfl
@[simp] theorem writeStatus_accerr : (writeStatus w s).status.accerr = (s.status.accerr && !w.getLsbD 4) := rfl

end

/-! ### The resets -/

section
variable (s : State)

@[simp] theorem hardReset_params : (hardReset s).params = s.params := rfl
@[simp] theorem hardReset_ctrl : (hardReset s).ctrl = (State.resetWith s.params).ctrl := rfl
@[simp] theorem hardReset_status : (hardReset s).status = (State.resetWith s.params).status := rfl
@[simp] theorem hardReset_ie : (hardReset s).ie = (State.resetWith s.params).ie := rfl
@[simp] theorem hardReset_cmdreg : (hardReset s).cmdreg = (State.resetWith s.params).cmdreg := rfl
@[simp] theorem hardReset_finfo : (hardReset s).finfo = (State.resetWith s.params).finfo := rfl
@[simp] theorem hardReset_faux : (hardReset s).faux = (State.resetWith s.params).faux := rfl
@[simp] theorem hardReset_nc : (hardReset s).nc = (State.resetWith s.params).nc := rfl
@[simp] theorem hardReset_mcux : (hardReset s).mcux = (State.resetWith s.params).mcux := rfl
@[simp] theorem hardReset_mcuy : (hardReset s).mcuy = (State.resetWith s.params).mcuy := rfl
@[simp] theorem hardReset_comp : (hardReset s).comp = (State.resetWith s.params).comp := rfl
@[simp] theorem hardReset_qfconst : (hardReset s).qfconst = (State.resetWith s.params).qfconst := rfl
@[simp] theorem hardReset_dcmul : (hardReset s).dcmul = (State.resetWith s.params).dcmul := rfl
@[simp] theorem hardReset_qpos : (hardReset s).qpos = (State.resetWith s.params).qpos := rfl
@[simp] theorem hardReset_scan : (hardReset s).scan = (State.resetWith s.params).scan := rfl
@[simp] theorem hardReset_scomp : (hardReset s).scomp = (State.resetWith s.params).scomp := rfl
@[simp] theorem hardReset_niw : (hardReset s).niw = (State.resetWith s.params).niw := rfl
@[simp] theorem hardReset_nih : (hardReset s).nih = (State.resetWith s.params).nih := rfl
@[simp] theorem hardReset_ri : (hardReset s).ri = (State.resetWith s.params).ri := rfl
@[simp] theorem hardReset_msel : (hardReset s).msel = (State.resetWith s.params).msel := rfl
@[simp] theorem hardReset_midx : (hardReset s).midx = (State.resetWith s.params).midx := rfl
@[simp] theorem hardReset_outcnt : (hardReset s).outcnt = (State.resetWith s.params).outcnt := rfl
@[simp] theorem hardReset_pred : (hardReset s).pred = (State.resetWith s.params).pred := rfl
@[simp] theorem hardReset_acc : (hardReset s).acc = (State.resetWith s.params).acc := rfl
@[simp] theorem hardReset_nacc : (hardReset s).nacc = (State.resetWith s.params).nacc := rfl
@[simp] theorem hardReset_rstn : (hardReset s).rstn = (State.resetWith s.params).rstn := rfl
@[simp] theorem hardReset_mem : (hardReset s).mem = (State.resetWith s.params).mem := rfl
@[simp] theorem hardReset_out : (hardReset s).out = (State.resetWith s.params).out := rfl
@[simp] theorem hardReset_agenda : (hardReset s).agenda = s.agenda := rfl
@[simp] theorem hardReset_busData : (hardReset s).busData = s.busData := rfl
@[simp] theorem hardReset_received : (hardReset s).received = s.received := rfl
@[simp] theorem hardReset_free : (hardReset s).free = s.free := rfl

@[simp] theorem softReset_params : (softReset s).params = s.params := rfl
@[simp] theorem softReset_ctrl : (softReset s).ctrl = (State.resetWith s.params).ctrl := rfl
@[simp] theorem softReset_status : (softReset s).status = (State.resetWith s.params).status := rfl
@[simp] theorem softReset_ie : (softReset s).ie = (State.resetWith s.params).ie := rfl
@[simp] theorem softReset_cmdreg : (softReset s).cmdreg = (State.resetWith s.params).cmdreg := rfl
@[simp] theorem softReset_finfo : (softReset s).finfo = (State.resetWith s.params).finfo := rfl
@[simp] theorem softReset_faux : (softReset s).faux = (State.resetWith s.params).faux := rfl
@[simp] theorem softReset_nc : (softReset s).nc = (State.resetWith s.params).nc := rfl
@[simp] theorem softReset_mcux : (softReset s).mcux = (State.resetWith s.params).mcux := rfl
@[simp] theorem softReset_mcuy : (softReset s).mcuy = (State.resetWith s.params).mcuy := rfl
@[simp] theorem softReset_comp : (softReset s).comp = (State.resetWith s.params).comp := rfl
@[simp] theorem softReset_qfconst : (softReset s).qfconst = (State.resetWith s.params).qfconst := rfl
@[simp] theorem softReset_dcmul : (softReset s).dcmul = (State.resetWith s.params).dcmul := rfl
@[simp] theorem softReset_qpos : (softReset s).qpos = (State.resetWith s.params).qpos := rfl
@[simp] theorem softReset_scan : (softReset s).scan = (State.resetWith s.params).scan := rfl
@[simp] theorem softReset_scomp : (softReset s).scomp = (State.resetWith s.params).scomp := rfl
@[simp] theorem softReset_niw : (softReset s).niw = (State.resetWith s.params).niw := rfl
@[simp] theorem softReset_nih : (softReset s).nih = (State.resetWith s.params).nih := rfl
@[simp] theorem softReset_ri : (softReset s).ri = (State.resetWith s.params).ri := rfl
@[simp] theorem softReset_msel : (softReset s).msel = (State.resetWith s.params).msel := rfl
@[simp] theorem softReset_midx : (softReset s).midx = (State.resetWith s.params).midx := rfl
@[simp] theorem softReset_outcnt : (softReset s).outcnt = (State.resetWith s.params).outcnt := rfl
@[simp] theorem softReset_pred : (softReset s).pred = (State.resetWith s.params).pred := rfl
@[simp] theorem softReset_acc : (softReset s).acc = (State.resetWith s.params).acc := rfl
@[simp] theorem softReset_nacc : (softReset s).nacc = (State.resetWith s.params).nacc := rfl
@[simp] theorem softReset_rstn : (softReset s).rstn = (State.resetWith s.params).rstn := rfl
@[simp] theorem softReset_mem : (softReset s).mem = s.mem := rfl
@[simp] theorem softReset_out : (softReset s).out = s.out := rfl
@[simp] theorem softReset_agenda : (softReset s).agenda = s.agenda := rfl
@[simp] theorem softReset_busData : (softReset s).busData = s.busData := rfl
@[simp] theorem softReset_received : (softReset s).received = s.received := rfl
@[simp] theorem softReset_free : (softReset s).free = s.free := rfl

end

/-! ### The sink -/

theorem sinkTake_nil {s : State} (h : s.out = []) : sinkTake s = s := by
  simp [sinkTake, h]

theorem sinkTake_cons {s : State} {b : Byte} {rest : List Byte} (h : s.out = b :: rest) :
    sinkTake s = { s with out := rest, received := s.received ++ [b] } := by
  simp [sinkTake, h]

end Sys2Proof.Machine
end

