-- ==== Sys2Proof/Laws/Ops.lean ====
section
/-! SUPPORT. What the shared operations can do: the end of a command, a needed element, a byte appended, a byte taken by
the sink. One lemma each; later proofs cite these and unfold none of the operations. -/

namespace Sys2Proof.Machine

/-- A command's step that answers a next state ended in completion or in fault entry. -/
theorem endCommand_eq_next_iff {s t : State} {st : Option Stop} :
    endCommand s st = .next t ↔
      (st = none ∧ t = completeCommand s) ∨ (∃ r, st = some (.raised r) ∧ t = faultEntry r s) := by
  rcases st with _ | (r | f) <;> simp [endCommand, eq_comm]

theorem endCommand_none (s : State) : endCommand s none = .next (completeCommand s) := rfl

theorem endCommand_raised (s : State) (r : Raise) : endCommand s (some (.raised r)) = .next (faultEntry r s) := rfl

theorem needed_eq_ok_iff {α : Type} {sp : Space} {u i : Nat} {o : Option α} {v : α} :
    needed sp u i o = .ok v ↔ o = some v := by
  cases o <;> simp [needed]

theorem needed_eq_error_iff {α : Type} {sp : Space} {u i : Nat} {o : Option α} {e : Stop} :
    needed sp u i o = .error e ↔ o = none ∧ e = .stuck (.unwritten sp u i) := by
  cases o <;> simp [needed, eq_comm]

@[simp] theorem needed_some {α : Type} (sp : Space) (u i : Nat) (v : α) : needed sp u i (some v) = .ok v := rfl

/-- A moment of the sink changes OUT and the bytes received alone, and their concatenation not at all. -/
theorem sinkTake_eq (s : State) :
    ∃ o r, sinkTake s = { s with out := o, received := r } ∧ r ++ o = s.received ++ s.out := by
  unfold sinkTake
  split
  · exact ⟨s.out, s.received, rfl, rfl⟩
  · rename_i b rest h
    exact ⟨rest, s.received ++ [b], rfl, by simp [h]⟩

/-- The codes of the causes are 1 to 9. -/
theorem Cause.code_range (c : Cause) : 1 ≤ c.code.toNat ∧ c.code.toNat ≤ 9 := by cases c <;> decide

end Sys2Proof.Machine
end

