-- ==== Sys2Proof/Laws/Entropy.lean ====
section
/-! SUPPORT. What the bit accumulator's operations can do, said once (43_entropy.md R181 to R188, R194): they append bytes,
count them, and change ACC and NACC, nothing else; the accumulator stays sound, and `flush` empties it. -/

namespace Sys2Proof.Machine

/-- The accumulator between two operations (43_entropy.md R194): at most 7 pending bits, and ACC holds just those. -/
structure AccSound (s : State) : Prop where
  nacc : s.nacc < 8
  acc : s.acc.toNat < 2 ^ s.nacc

/-- `t` is `s` with bytes appended and counted, and another accumulator. -/
def Appends (s t : State) : Prop :=
  ∃ bytes a n, t = { s with
    out := s.out ++ bytes, outcnt := s.outcnt + BitVec.ofNat 32 bytes.length, acc := a, nacc := n }

theorem Appends.refl (s : State) : Appends s s := ⟨[], s.acc, s.nacc, by simp⟩

theorem Appends.trans {s t u : State} (h : Appends s t) (h' : Appends t u) : Appends s u := by
  obtain ⟨b, a, n, rfl⟩ := h
  obtain ⟨b', a', n', rfl⟩ := h'
  refine ⟨b ++ b', a', n', ?_⟩
  simp only [List.append_assoc, List.length_append, BitVec.ofNat_add, BitVec.add_assoc]

theorem emitByte_appends (b : Byte) (s : State) : Appends s (emitByte b s) := ⟨[b], s.acc, s.nacc, rfl⟩

theorem accumulator_appends (s : State) (a : Byte) (n : Nat) : Appends s { s with acc := a, nacc := n } :=
  ⟨[], a, n, by simp⟩

theorem putBit_appends (b : Bool) (s : State) : Appends s (putBit b s) := by
  unfold putBit
  simp only
  split
  · split
    · exact ((emitByte_appends _ s).trans (emitByte_appends _ _)).trans (accumulator_appends _ _ _)
    · exact (emitByte_appends _ s).trans (accumulator_appends _ _ _)
  · exact accumulator_appends _ _ _

theorem putBits_appends (n v : Nat) (s : State) : Appends s (putBits n v s) := by
  induction n generalizing s with
  | zero => exact Appends.refl s
  | succ n ih => exact (putBit_appends _ s).trans (ih _)

theorem flush_appends (s : State) : Appends s (flush s) := by
  unfold flush
  split
  · exact putBits_appends _ _ _
  · exact Appends.refl s

theorem codeToken_appends {s t : State} {tok : Token} (h : codeToken s tok = .ok t) : Appends s t := by
  cases tok with
  | sym sl sy =>
    simp only [codeToken] at h
    split at h
    · cases h
    · split at h
      · cases h
      · cases h; exact putBits_appends _ _ _
  | bits n v => cases h; exact putBits_appends _ _ _
  | rst n => cases h; exact ((flush_appends s).trans (emitByte_appends _ _)).trans (emitByte_appends _ _)
  | fin => cases h; exact flush_appends s

/-- Coding tokens, to the end or to a fault, appends bytes and changes nothing but the accumulator besides. -/
theorem codeTokens_appends (toks : List Token) (s : State) : Appends s (codeTokens toks s).1 := by
  induction toks generalizing s with
  | nil => exact Appends.refl s
  | cons tok toks ih =>
    simp only [codeTokens]
    split
    · exact Appends.refl s
    · rename_i s' h
      exact (codeToken_appends h).trans (ih s')

/-- The number of pending bits after one more (43_entropy.md R182). -/
theorem putBit_nacc (b : Bool) (s : State) : (putBit b s).nacc = if s.nacc + 1 = 8 then 0 else s.nacc + 1 := by
  unfold putBit
  simp only
  split <;> rfl

theorem putBit_acc (b : Bool) (s : State) :
    (putBit b s).acc = if s.nacc + 1 = 8 then 0 else 2 * s.acc + BitVec.setWidth 8 (bit b) := by
  unfold putBit
  simp only
  split <;> rfl

theorem putBit_sound {s : State} (h : AccSound s) (b : Bool) : AccSound (putBit b s) := by
  obtain ⟨h1, h2⟩ := h
  refine ⟨?_, ?_⟩
  · rw [putBit_nacc]; split <;> omega
  · rw [putBit_nacc, putBit_acc]
    split
    · simp
    · have hb : (BitVec.setWidth 8 (bit b)).toNat ≤ 1 := by cases b <;> decide
      have hp : 2 ^ s.nacc ≤ 2 ^ 6 := Nat.pow_le_pow_right (by norm_num) (by omega)
      rw [BitVec.toNat_add, BitVec.toNat_mul, pow_succ]
      rw [show (2 : Byte).toNat = 2 from rfl]
      norm_num at hp ⊢
      omega

theorem putBits_sound {s : State} (h : AccSound s) (n v : Nat) : AccSound (putBits n v s) := by
  induction n generalizing s with
  | zero => exact h
  | succ n ih => exact ih (putBit_sound h _)

/-- As many bits as complete the byte empty the accumulator. -/
theorem putBits_complete (n v : Nat) {s : State} (h : s.nacc + (n + 1) = 8) :
    (putBits (n + 1) v s).nacc = 0 ∧ (putBits (n + 1) v s).acc = 0 := by
  induction n generalizing s with
  | zero => simp only [putBits, putBit_nacc, putBit_acc]; rw [if_pos (by omega), if_pos (by omega)]; exact ⟨rfl, rfl⟩
  | succ n ih =>
    have := ih (s := putBit (v.testBit (n + 1)) s) (by rw [putBit_nacc, if_neg (by omega)]; omega)
    exact this

/-- `flush` empties a sound accumulator (43_entropy.md R184). -/
theorem flush_empty {s : State} (h : AccSound s) : (flush s).nacc = 0 ∧ (flush s).acc = 0 := by
  unfold flush
  have h1 := h.nacc
  have h2 := h.acc
  split
  · obtain ⟨n, hn⟩ : ∃ n, 8 - s.nacc = n + 1 := ⟨7 - s.nacc, by omega⟩
    rw [hn]
    exact putBits_complete n _ (by omega)
  · have e : s.nacc = 0 := by omega
    rw [e] at h2
    refine ⟨e, ?_⟩
    apply BitVec.eq_of_toNat_eq
    simpa using h2

theorem AccSound.of_empty {s : State} (h : s.nacc = 0) (h' : s.acc = 0) : AccSound s :=
  ⟨by omega, by rw [h, h']; decide⟩

theorem flush_sound {s : State} (h : AccSound s) : AccSound (flush s) :=
  AccSound.of_empty (flush_empty h).1 (flush_empty h).2

theorem emitByte_sound {s : State} (h : AccSound s) (b : Byte) : AccSound (emitByte b s) := ⟨h.nacc, h.acc⟩

theorem codeToken_sound {s t : State} {tok : Token} (hs : AccSound s) (h : codeToken s tok = .ok t) : AccSound t := by
  cases tok with
  | sym sl sy =>
    simp only [codeToken] at h
    split at h
    · cases h
    · split at h
      · cases h
      · cases h; exact putBits_sound hs _ _
  | bits n v => cases h; exact putBits_sound hs _ _
  | rst n => cases h; exact emitByte_sound (emitByte_sound (flush_sound hs) _) _
  | fin => cases h; exact flush_sound hs

theorem codeTokens_append (ts us : List Token) (s : State) :
    codeTokens (ts ++ us) s =
      match codeTokens ts s with
      | (t, some e) => (t, some e)
      | (t, none) => codeTokens us t := by
  induction ts generalizing s with
  | nil => rfl
  | cons tok ts ih =>
    simp only [List.cons_append, codeTokens]
    cases codeToken s tok with
    | error e => rfl
    | ok t => exact ih t

theorem codeTokens_sound {s : State} (h : AccSound s) (toks : List Token) : AccSound (codeTokens toks s).1 := by
  induction toks generalizing s with
  | nil => exact h
  | cons tok toks ih =>
    simp only [codeTokens]
    split
    · exact h
    · rename_i s' hs
      exact ih (codeToken_sound h hs)

/-- Coding tokens that end with `End` leaves the accumulator empty, if no fault ends it (43_entropy.md R188). -/
theorem codeTokens_fin {s t : State} (h : AccSound s) {toks : List Token}
    (he : codeTokens (toks ++ [.fin]) s = (t, none)) : t.nacc = 0 ∧ t.acc = 0 := by
  rw [codeTokens_append] at he
  rcases hc : codeTokens toks s with ⟨u, _ | e⟩
  · simp only [hc, codeTokens, codeToken, Prod.mk.injEq, and_true] at he
    subst he
    have := codeTokens_sound h toks
    rw [hc] at this
    exact flush_empty this
  · simp [hc] at he

end Sys2Proof.Machine
end

