-- ==== Sys2Proof/Laws/Huffman.lean ====
section
/-! SUPPORT. The laws of the Huffman generator's parts (42_huffman.md R164 to R167): what merging, length limiting,
dropping the reserved code, sorting and the canonical assignment keep. -/

namespace Sys2Proof.Machine

/-! ### Merging -/

/-- The weight of a list of entries: the sum of `2^(-size)`. -/
def weight (xs : List (Nat × Nat)) : ℚ := (xs.map fun x => (1 / 2 : ℚ) ^ x.2).sum

theorem weight_append (xs ys : List (Nat × Nat)) : weight (xs ++ ys) = weight xs + weight ys := by
  simp [weight]

theorem weight_longer (xs : List (Nat × Nat)) : weight (xs.map fun x => (x.1, x.2 + 1)) = weight xs / 2 := by
  induction xs with
  | nil => simp [weight]
  | cons x xs ih =>
    simp only [weight, List.map_cons, List.sum_cons, List.map_map, Function.comp_def, pow_succ] at ih ⊢
    rw [ih]; ring

/-- A node whose tree is whole: its weight is 1, and every leaf is less deep than there are leaves. -/
structure HuffNode.Whole (n : HuffNode) : Prop where
  weight : weight n.leaves = 1
  shallow : ∀ x ∈ n.leaves, x.2 < n.leaves.length

theorem HuffNode.Whole.ne_nil {n : HuffNode} (h : n.Whole) : n.leaves ≠ [] := by
  intro e
  have := h.weight
  simp [e, Machine.weight] at this

theorem HuffNode.Whole.merge {a b : HuffNode} (ha : a.Whole) (hb : b.Whole) : (mergeNodes a b).Whole where
  weight := by
    simp only [mergeNodes, weight_longer, weight_append, ha.weight, hb.weight]; norm_num
  shallow := by
    have h1 := List.length_pos_iff.2 ha.ne_nil
    have h2 := List.length_pos_iff.2 hb.ne_nil
    simp only [mergeNodes, List.mem_map, List.mem_append, List.length_map, List.length_append]
    rintro x ⟨y, hy | hy, rfl⟩
    · have := ha.shallow y hy; simp only; omega
    · have := hb.shallow y hy; simp only; omega

theorem takeLeast_eq_none_iff {ns : List HuffNode} : takeLeast ns = none ↔ ns = [] := by
  cases ns with
  | nil => simp [takeLeast]
  | cons n ns =>
    simp only [takeLeast, reduceCtorEq, iff_false]
    split <;> [simp; skip]
    split <;> simp

theorem takeLeast_perm {ns rest : List HuffNode} {m : HuffNode} (h : takeLeast ns = some (m, rest)) :
    ns.Perm (m :: rest) := by
  induction ns generalizing m rest with
  | nil => simp [takeLeast] at h
  | cons n ns ih =>
    simp only [takeLeast] at h
    split at h
    · rename_i hn
      rw [takeLeast_eq_none_iff] at hn
      simp_all
    · rename_i m' rest' hs
      split at h
      · simp only [Option.some.injEq, Prod.mk.injEq] at h
        obtain ⟨rfl, rfl⟩ := h
        exact List.Perm.refl _
      · simp only [Option.some.injEq, Prod.mk.injEq] at h
        obtain ⟨rfl, rfl⟩ := h
        exact ((ih hs).cons n).trans (List.Perm.swap _ _ _)

/-- The symbols of a list of nodes. -/
def nodeSymbols (ns : List HuffNode) : List Nat := ns.flatMap fun n => n.leaves.map Prod.fst

theorem nodeSymbols_perm {ns ms : List HuffNode} (h : ns.Perm ms) : (nodeSymbols ns).Perm (nodeSymbols ms) :=
  h.flatMap_right _

theorem nodeSymbols_merge (a b : HuffNode) (ns : List HuffNode) :
    nodeSymbols (mergeNodes a b :: ns) = nodeSymbols (a :: b :: ns) := by
  simp [nodeSymbols, mergeNodes, Function.comp_def]

/-- The merging loop ends with one whole tree over the same symbols (42_huffman.md R164). -/
theorem mergeAll_spec (fuel : Nat) (ns : List HuffNode) (hne : ns ≠ []) (hf : ns.length ≤ fuel + 1)
    (hw : ∀ n ∈ ns, n.Whole) :
    ∃ m, mergeAll fuel ns = [m] ∧ m.Whole ∧ (m.leaves.map Prod.fst).Perm (nodeSymbols ns) := by
  induction fuel generalizing ns with
  | zero =>
    match ns, hne, hf with
    | [m], _, _ => exact ⟨m, rfl, hw m (by simp), by simp [nodeSymbols]⟩
  | succ fuel ih =>
    simp only [mergeAll]
    split
    · rename_i h; exact absurd (takeLeast_eq_none_iff.1 h) hne
    · rename_i c1 rest h1
      have p1 := takeLeast_perm h1
      split
      · rename_i h2
        rw [takeLeast_eq_none_iff] at h2
        subst h2
        have e := List.perm_singleton.1 p1
        exact ⟨c1, e, hw c1 (by simp [e]), by simp [e, nodeSymbols]⟩
      · rename_i c2 rest2 h2
        have p2 := takeLeast_perm h2
        have p : ns.Perm (c1 :: c2 :: rest2) := p1.trans (p2.cons c1)
        have hl := p.length_eq
        simp only [List.length_cons] at hl
        have hm : ∀ n ∈ mergeNodes c1 c2 :: rest2, n.Whole := by
          intro n hn
          rcases List.mem_cons.1 hn with rfl | hn
          · exact (hw c1 (p.mem_iff.2 (by simp))).merge (hw c2 (p.mem_iff.2 (by simp)))
          · exact hw n (p.mem_iff.2 (by simp [hn]))
        obtain ⟨m, e, hm1, hm2⟩ := ih (mergeNodes c1 c2 :: rest2) (by simp)
          (by simp only [List.length_cons]; omega) hm
        refine ⟨m, e, hm1, hm2.trans ?_⟩
        rw [nodeSymbols_merge]
        exact (nodeSymbols_perm p).symm

/-- The used symbols of a histogram, ascending. -/
def usedSymbols (h : List Nat) : List Nat := (List.range h.length).filter fun sy => h.getD sy 0 ≠ 0

theorem nodeSymbols_initial (h : List Nat) : nodeSymbols (initialNodes h) = usedSymbols h ++ [256] := by
  have key : ∀ (l : List Nat) (n : Nat),
      (nodeSymbols ((l.zipIdx n).filterMap fun x =>
        if x.1 = 0 then none else some { root := x.2, freq := x.1, leaves := [(x.2, 0)] })) =
      (List.range' n l.length).filter fun sy => l.getD (sy - n) 0 ≠ 0 := by
    intro l
    induction l with
    | nil => intro n; simp [nodeSymbols]
    | cons a l ih =>
      intro n
      have hs : (List.range' (n + 1) l.length).filter (fun sy => (a :: l).getD (sy - n) 0 ≠ 0) =
          (List.range' (n + 1) l.length).filter (fun sy => l.getD (sy - (n + 1)) 0 ≠ 0) := by
        apply List.filter_congr
        intro sy hsy
        rw [List.mem_range'_1] at hsy
        have e : sy - n = (sy - (n + 1)) + 1 := by omega
        simp [e]
      rw [List.zipIdx_cons, List.length_cons, List.range'_succ]
      by_cases ha : a = 0
      · rw [List.filterMap_cons_none (by simp [ha]), List.filter_cons_of_neg (by simp [ha]), ih, hs]
      · rw [List.filterMap_cons_some (b := { root := n, freq := a, leaves := [(n, 0)] }) (by simp [ha]),
          List.filter_cons_of_pos (by simp [ha]), hs, ← ih]
        simp [nodeSymbols]
  have := key h 0
  simp only [Nat.sub_zero] at this
  simp only [initialNodes, nodeSymbols, List.flatMap_append] at this ⊢
  rw [this]
  simp [usedSymbols, List.range_eq_range']

theorem initialNodes_whole (h : List Nat) : ∀ n ∈ initialNodes h, n.Whole := by
  intro n hn
  simp only [initialNodes, List.mem_append, List.mem_filterMap, List.mem_singleton] at hn
  rcases hn with ⟨x, -, hx⟩ | rfl
  · split at hx
    · cases hx
    · cases hx
      exact ⟨by simp [weight], by simp⟩
  · exact ⟨by simp [weight], by simp⟩

/-- The code sizes at the loop's exit (42_huffman.md R164): each used symbol and the reserved entry once, with weight 1 in
all and every size below the number of entries. -/
theorem codeSizes_spec (h : List Nat) :
    ((codeSizes h).map Prod.fst).Perm (usedSymbols h ++ [256]) ∧ weight (codeSizes h) = 1 ∧
      ∀ x ∈ codeSizes h, x.2 ≤ (usedSymbols h).length := by
  obtain ⟨m, e, hm, hp⟩ := mergeAll_spec (initialNodes h).length (initialNodes h) (by simp [initialNodes])
    (by omega) (initialNodes_whole h)
  have hc : codeSizes h = m.leaves := by simp [codeSizes, e]
  rw [nodeSymbols_initial] at hp
  refine ⟨by rw [hc]; exact hp, by rw [hc]; exact hm.weight, ?_⟩
  intro x hx
  rw [hc] at hx
  have h1 := hm.shallow x hx
  have h2 := hp.length_eq
  simp only [List.length_map, List.length_append, List.length_singleton] at h2
  omega

/-! ### Counts of code lengths -/

theorem bitsAt_bitsSet (bits : List Nat) (i l : Nat) (f : Nat → Nat) (hi : i < bits.length) :
    bitsAt (bitsSet bits i f) l = if l = i then f (bitsAt bits i) else bitsAt bits l := by
  have e : bitsAt (bitsSet bits i f) l = ((bits.set i (f (bitsAt bits i)))[l]?).getD 0 := by
    rw [bitsAt, bitsSet, List.getD_eq_getElem?_getD]
  rw [e, List.getElem?_set]
  by_cases h : i = l
  · subst h; rw [if_pos rfl, if_pos hi, if_pos rfl, Option.getD_some]
  · rw [if_neg h, if_neg (Ne.symm h), bitsAt, List.getD_eq_getElem?_getD]

@[simp] theorem bitsSet_length (bits : List Nat) (i : Nat) (f : Nat → Nat) :
    (bitsSet bits i f).length = bits.length := by simp [bitsSet]

/-- `2^l` times the weight of the lengths up to `l`. -/
def kraftTo (bits : List Nat) : Nat → Nat
  | 0 => bitsAt bits 0
  | l + 1 => 2 * kraftTo bits l + bitsAt bits (l + 1)

/-- The number of codes of lengths up to `l`. -/
def countTo (bits : List Nat) : Nat → Nat
  | 0 => bitsAt bits 0
  | l + 1 => countTo bits l + bitsAt bits (l + 1)

/-- Two counts that differ at one length alone differ by its weight. -/
theorem kraftTo_add {bits bits' : List Nat} {i a : Nat} (hi : bitsAt bits' i = bitsAt bits i + a)
    (ho : ∀ l, l ≠ i → bitsAt bits' l = bitsAt bits l) {l : Nat} (hl : i ≤ l) :
    kraftTo bits' l = kraftTo bits l + a * 2 ^ (l - i) := by
  have below : ∀ l, l < i → kraftTo bits' l = kraftTo bits l := by
    intro l
    induction l with
    | zero => intro h; exact ho 0 (by omega)
    | succ l ih => intro h; simp only [kraftTo]; rw [ih (by omega), ho _ (by omega)]
  induction l with
  | zero =>
    obtain rfl : i = 0 := by omega
    simpa [kraftTo] using hi
  | succ l ih =>
    by_cases h : i = l + 1
    · subst h
      simp only [kraftTo, below l (by omega), hi, Nat.sub_self]; ring
    · have e : l + 1 - i = (l - i) + 1 := by omega
      simp only [kraftTo, ih (by omega), ho (l + 1) (by omega), e, pow_succ]; ring

theorem countTo_add {bits bits' : List Nat} {i a : Nat} (hi : bitsAt bits' i = bitsAt bits i + a)
    (ho : ∀ l, l ≠ i → bitsAt bits' l = bitsAt bits l) {l : Nat} (hl : i ≤ l) :
    countTo bits' l = countTo bits l + a := by
  have below : ∀ l, l < i → countTo bits' l = countTo bits l := by
    intro l
    induction l with
    | zero => intro h; exact ho 0 (by omega)
    | succ l ih => intro h; simp only [countTo]; rw [ih (by omega), ho _ (by omega)]
  induction l with
  | zero =>
    obtain rfl : i = 0 := by omega
    simpa [countTo] using hi
  | succ l ih =>
    by_cases h : i = l + 1
    · subst h
      simp only [countTo, below l (by omega), hi]; ring
    · simp only [countTo, ih (by omega), ho (l + 1) (by omega)]; ring

theorem bitsAt_le_countTo (bits : List Nat) {i l : Nat} (h : i ≤ l) : bitsAt bits i ≤ countTo bits l := by
  induction l with
  | zero => obtain rfl : i = 0 := by omega
            exact le_refl _
  | succ l ih =>
    by_cases e : i = l + 1
    · subst e; simp [countTo]
    · have := ih (by omega); simp only [countTo]; omega

theorem kraftTo_eq_zero {bits : List Nat} {l : Nat} (h : ∀ i ≤ l, bitsAt bits i = 0) : kraftTo bits l = 0 := by
  induction l with
  | zero => exact h 0 (le_refl _)
  | succ l ih => simp [kraftTo, ih (fun i hi => h i (by omega)), h (l + 1) (le_refl _)]

theorem nearestUsed_le (bits : List Nat) (j : Nat) : nearestUsed bits j ≤ j := by
  induction j with
  | zero => simp [nearestUsed]
  | succ j ih => simp only [nearestUsed]; split <;> omega

theorem nearestUsed_above {bits : List Nat} {j i : Nat} (h1 : nearestUsed bits j < i) (h2 : i ≤ j) :
    bitsAt bits i = 0 := by
  induction j with
  | zero => omega
  | succ j ih =>
    simp only [nearestUsed] at h1
    split at h1
    · rename_i h
      by_cases e : i = j + 1
      · rw [e]; exact h
      · exact ih h1 (by omega)
    · omega

theorem nearestUsed_used {bits : List Nat} {j : Nat} (h : nearestUsed bits j ≠ 0) :
    bitsAt bits (nearestUsed bits j) ≠ 0 := by
  induction j with
  | zero => simp [nearestUsed] at h
  | succ j ih =>
    simp only [nearestUsed] at h ⊢
    split
    · rename_i e; rw [if_pos e] at h; exact ih h
    · assumption

/-- The counts of a complete code of at most 257 codes, none longer than `l` (42_huffman.md R165). -/
structure CompleteTo (bits : List Nat) (l n : Nat) : Prop where
  length : bits.length = 257
  zero : bitsAt bits 0 = 0
  above : ∀ i, l < i → bitsAt bits i = 0
  kraft : kraftTo bits l = 2 ^ l
  count : countTo bits l = n

/-- The longest length of a complete code has an even count. -/
theorem CompleteTo.even {bits : List Nat} {l n : Nat} (h : CompleteTo bits (l + 1) n) :
    bitsAt bits (l + 1) % 2 = 0 := by
  have := h.kraft
  simp only [kraftTo, pow_succ] at this
  omega

/-- Where no code has the longest length, the code is complete one length earlier. -/
theorem CompleteTo.down {bits : List Nat} {l n : Nat} (h : CompleteTo bits (l + 1) n)
    (hz : bitsAt bits (l + 1) = 0) : CompleteTo bits l n where
  length := h.length
  zero := h.zero
  above i hi := by
    by_cases e : i = l + 1
    · rw [e]; exact hz
    · exact h.above i (by omega)
  kraft := by
    have := h.kraft
    simp only [kraftTo, pow_succ] at this
    omega
  count := by
    have := h.count
    simp only [countTo] at this
    omega

/-- One round keeps the code complete and takes two codes from the longest length (42_huffman.md R165). -/
theorem limitRound_spec {bits : List Nat} {l n : Nat} (h : CompleteTo bits (l + 2) n) (hl : 15 ≤ l) (hu : l + 2 ≤ 256)
    (hn : n ≤ 257) (hb : bitsAt bits (l + 2) ≠ 0) :
    CompleteTo (limitRound bits (l + 2)) (l + 2) n ∧
      bitsAt (limitRound bits (l + 2)) (l + 2) + 2 = bitsAt bits (l + 2) := by
  have heven : bitsAt bits (l + 2) % 2 = 0 := h.even
  have hj0 : nearestUsed bits l ≠ 0 := by
    intro hj
    have hz : kraftTo bits l = 0 := by
      apply kraftTo_eq_zero
      intro i hi
      by_cases e : i = 0
      · rw [e]; exact h.zero
      · exact nearestUsed_above (by omega) hi
    have hk : 2 * (2 * kraftTo bits l + bitsAt bits (l + 1)) + bitsAt bits (l + 2) = 2 ^ (l + 2) := h.kraft
    have h1 := bitsAt_le_countTo bits (show l + 1 ≤ l + 2 by omega)
    have h2 := bitsAt_le_countTo bits (show l + 2 ≤ l + 2 by omega)
    rw [h.count] at h1 h2
    rw [hz] at hk
    have : 2 ^ 17 ≤ 2 ^ (l + 2) := Nat.pow_le_pow_right (by norm_num) (by omega)
    norm_num at this
    omega
  have hjl := nearestUsed_le bits l
  have hju := nearestUsed_used hj0
  set j := nearestUsed bits l with hj
  have hlen := h.length
  -- the four updates in turn
  set b1 := bitsSet bits (l + 2) (· - 2) with hb1
  set b2 := bitsSet b1 (l + 1) (· + 1) with hb2
  set b3 := bitsSet b2 (j + 1) (· + 2) with hb3
  set b4 := bitsSet b3 j (· - 1) with hb4
  have e : limitRound bits (l + 2) = b4 := by
    simp only [limitRound, Nat.add_sub_cancel, show l + 2 - 1 = l + 1 by omega, ← hj, ← hb1, ← hb2, ← hb3, ← hb4]
  have l1 : b1.length = 257 := by simp [hb1, hlen]
  have l2 : b2.length = 257 := by simp [hb2, l1]
  have l3 : b3.length = 257 := by simp [hb3, l2]
  have l4 : b4.length = 257 := by simp [hb4, l3]
  have a1 : ∀ i, bitsAt b1 i = if i = l + 2 then bitsAt bits (l + 2) - 2 else bitsAt bits i :=
    fun i => bitsAt_bitsSet bits (l + 2) i (· - 2) (by omega)
  have a2 : ∀ i, bitsAt b2 i = if i = l + 1 then bitsAt b1 (l + 1) + 1 else bitsAt b1 i :=
    fun i => bitsAt_bitsSet b1 (l + 1) i (· + 1) (by omega)
  have a3 : ∀ i, bitsAt b3 i = if i = j + 1 then bitsAt b2 (j + 1) + 2 else bitsAt b2 i :=
    fun i => bitsAt_bitsSet b2 (j + 1) i (· + 2) (by omega)
  have a4 : ∀ i, bitsAt b4 i = if i = j then bitsAt b3 j - 1 else bitsAt b3 i :=
    fun i => bitsAt_bitsSet b3 j i (· - 1) (by omega)
  have j3 : bitsAt b3 j = bitsAt bits j := by
    rw [a3, if_neg (by omega), a2, if_neg (by omega), a1, if_neg (by omega)]
  have k1 := kraftTo_add (bits := b1) (bits' := bits) (i := l + 2) (a := 2) (by rw [a1]; simp; omega)
    (fun i hi => by rw [a1, if_neg hi]) (le_refl (l + 2))
  have k2 := kraftTo_add (bits := b1) (bits' := b2) (i := l + 1) (a := 1) (by rw [a2]; simp)
    (fun i hi => by rw [a2, if_neg hi]) (show l + 1 ≤ l + 2 by omega)
  have k3 := kraftTo_add (bits := b2) (bits' := b3) (i := j + 1) (a := 2) (by rw [a3]; simp)
    (fun i hi => by rw [a3, if_neg hi]) (show j + 1 ≤ l + 2 by omega)
  have k4 := kraftTo_add (bits := b4) (bits' := b3) (i := j) (a := 1) (by rw [a4, if_pos rfl]; omega)
    (fun i hi => by rw [a4, if_neg hi]) (show j ≤ l + 2 by omega)
  have c1 := countTo_add (bits := b1) (bits' := bits) (i := l + 2) (a := 2) (by rw [a1]; simp; omega)
    (fun i hi => by rw [a1, if_neg hi]) (le_refl (l + 2))
  have c2 := countTo_add (bits := b1) (bits' := b2) (i := l + 1) (a := 1) (by rw [a2]; simp)
    (fun i hi => by rw [a2, if_neg hi]) (show l + 1 ≤ l + 2 by omega)
  have c3 := countTo_add (bits := b2) (bits' := b3) (i := j + 1) (a := 2) (by rw [a3]; simp)
    (fun i hi => by rw [a3, if_neg hi]) (show j + 1 ≤ l + 2 by omega)
  have c4 := countTo_add (bits := b4) (bits' := b3) (i := j) (a := 1) (by rw [a4, if_pos rfl]; omega)
    (fun i hi => by rw [a4, if_neg hi]) (show j ≤ l + 2 by omega)
  have ep : l + 2 - j = (l + 2 - (j + 1)) + 1 := by omega
  rw [e]
  refine ⟨⟨l4, ?_, ?_, ?_, ?_⟩, ?_⟩
  · rw [a4, if_neg (by omega), a3, if_neg (by omega), a2, if_neg (by omega), a1, if_neg (by omega)]
    exact h.zero
  · intro i hi
    rw [a4, if_neg (by omega), a3, if_neg (by omega), a2, if_neg (by omega), a1, if_neg (by omega)]
    exact h.above i hi
  · have hk := h.kraft
    rw [ep, pow_succ] at k4
    simp only [Nat.sub_self, show l + 2 - (l + 1) = 1 by omega, pow_zero, pow_one] at k1 k2
    omega
  · have hc := h.count
    omega
  · rw [a4, if_neg (by omega), a3, if_neg (by omega), a2, if_neg (by omega), a1, if_pos rfl]
    omega

/-- The rounds at length `l` leave it with no code (42_huffman.md R165). -/
theorem limitLength_spec {bits : List Nat} {l n : Nat} (fuel : Nat) (h : CompleteTo bits (l + 2) n) (hl : 15 ≤ l)
    (hu : l + 2 ≤ 256) (hn : n ≤ 257) (hf : bitsAt bits (l + 2) ≤ fuel) :
    CompleteTo (limitLength (l + 2) fuel bits) (l + 1) n := by
  induction fuel generalizing bits with
  | zero => exact h.down (Nat.le_zero.1 hf)
  | succ fuel ih =>
    simp only [limitLength]
    split
    · rename_i hz; exact h.down hz
    · rename_i hz
      obtain ⟨h1, h2⟩ := limitRound_spec h hl hu hn hz
      exact ih h1 (by omega)

/-- Length limiting leaves a complete code of the same size with no length above 16 (42_huffman.md R165). -/
theorem limitLengths_spec {bits : List Nat} {n : Nat} (h : CompleteTo bits 256 n) (hn : n ≤ 257) :
    CompleteTo (limitLengths bits) 16 n := by
  have key : ∀ m ≤ 240, CompleteTo
      ((List.range m).foldl (fun bits i => limitLength (256 - i) (bitsAt bits (256 - i)) bits) bits) (256 - m) n := by
    intro m
    induction m with
    | zero => intro _; simpa using h
    | succ m ih =>
      intro hm
      rw [List.range_succ, List.foldl_append]
      simp only [List.foldl_cons, List.foldl_nil]
      have e : 256 - m = (254 - m) + 2 := by omega
      have e' : 256 - (m + 1) = (254 - m) + 1 := by omega
      have := ih (by omega)
      rw [e] at this ⊢
      rw [e']
      exact limitLength_spec _ this (by omega) (by omega) hn (le_refl _)
  exact key 240 (le_refl _)

/-- Dropping the reserved code (42_huffman.md R166): `L`, the longest length, keeps at least one code, and the code lacks
exactly one word of length `L`. -/
theorem dropReserved_spec {bits : List Nat} {n : Nat} (h : CompleteTo bits 16 n) :
    ∃ L, 1 ≤ L ∧ L ≤ 16 ∧ bitsAt (dropReserved bits) L ≠ 0 ∧ bitsAt (dropReserved bits) 0 = 0 ∧
      (∀ i, L < i → bitsAt (dropReserved bits) i = 0) ∧
      kraftTo (dropReserved bits) 16 + 2 ^ (16 - L) = 2 ^ 16 ∧ countTo (dropReserved bits) 16 + 1 = n := by
  have hL0 : nearestUsed bits 16 ≠ 0 := by
    intro hz
    have hk := h.kraft
    rw [kraftTo_eq_zero] at hk
    · norm_num at hk
    · intro i hi
      by_cases e : i = 0
      · rw [e]; exact h.zero
      · exact nearestUsed_above (by omega) hi
  have hLe := nearestUsed_le bits 16
  have hLu := nearestUsed_used hL0
  have hab : ∀ i, nearestUsed bits 16 < i → bitsAt bits i = 0 := by
    intro i hi
    by_cases h16 : i ≤ 16
    · exact nearestUsed_above hi h16
    · exact h.above i (by omega)
  have hd : dropReserved bits = bitsSet bits (nearestUsed bits 16) (· - 1) := rfl
  obtain ⟨L, hL⟩ : ∃ L, nearestUsed bits 16 = L + 1 := ⟨nearestUsed bits 16 - 1, by omega⟩
  have hlen := h.length
  have at' : ∀ i, bitsAt (dropReserved bits) i = if i = L + 1 then bitsAt bits (L + 1) - 1 else bitsAt bits i := by
    intro i
    rw [hd, hL]
    exact bitsAt_bitsSet bits (L + 1) i (· - 1) (by omega)
  -- the code is complete up to `L + 1`, so its count there is even
  have hc : ∀ d, L + 1 + d ≤ 16 → CompleteTo bits (16 - d) n := by
    intro d
    induction d with
    | zero => intro _; simpa using h
    | succ d ih =>
      intro hd'
      have e : 16 - d = (16 - (d + 1)) + 1 := by omega
      have := ih (by omega)
      rw [e] at this
      exact this.down (hab _ (by omega))
  have hcl := hc (16 - (L + 1)) (by omega)
  rw [show 16 - (16 - (L + 1)) = L + 1 by omega] at hcl
  have hev := hcl.even
  rw [hL] at hLu
  have k := kraftTo_add (bits := dropReserved bits) (bits' := bits) (i := L + 1) (a := 1)
    (by rw [at', if_pos rfl]; omega) (fun i hi => by rw [at', if_neg hi]) (show L + 1 ≤ 16 by omega)
  have c := countTo_add (bits := dropReserved bits) (bits' := bits) (i := L + 1) (a := 1)
    (by rw [at', if_pos rfl]; omega) (fun i hi => by rw [at', if_neg hi]) (show L + 1 ≤ 16 by omega)
  refine ⟨L + 1, by omega, by omega, ?_, ?_, ?_, ?_, ?_⟩
  · rw [at', if_pos rfl]; omega
  · rw [at', if_neg (by omega)]; exact h.zero
  · intro i hi
    rw [at', if_neg (by omega)]
    exact hab i (by omega)
  · rw [h.kraft, one_mul] at k; exact k.symm
  · rw [h.count] at c; exact c.symm

/-- The number of entries of each code size (42_huffman.md R165). -/
theorem bitsAt_sizeCounts (sizes : List (Nat × Nat)) (hs : ∀ x ∈ sizes, x.2 ≤ 256) (l : Nat) :
    (sizeCounts sizes).length = 257 ∧ bitsAt (sizeCounts sizes) l = sizes.countP fun x => x.2 = l := by
  have key : ∀ (bits : List Nat), bits.length = 257 →
      (sizes.foldl (fun bits x => bitsSet bits x.2 (· + 1)) bits).length = 257 ∧
      bitsAt (sizes.foldl (fun bits x => bitsSet bits x.2 (· + 1)) bits) l =
        bitsAt bits l + sizes.countP fun x => x.2 = l := by
    induction sizes with
    | nil => intro bits hb; simp [hb]
    | cons x xs ih =>
      intro bits hb
      have hx := hs x (by simp)
      obtain ⟨h1, h2⟩ := ih (fun y hy => hs y (by simp [hy])) (bitsSet bits x.2 (· + 1)) (by simp [hb])
      refine ⟨h1, ?_⟩
      rw [List.foldl_cons, h2, bitsAt_bitsSet _ _ _ _ (by omega), List.countP_cons]
      by_cases e : x.2 = l
      · subst e; simp; omega
      · simp [e, Ne.symm e]
  have := key (List.replicate 257 0) List.length_replicate
  refine ⟨this.1, ?_⟩
  have hz : bitsAt (List.replicate 257 0) l = 0 := by
    unfold bitsAt
    simp only [List.getD_eq_getElem?_getD, List.getElem?_replicate]
    split <;> rfl
  rw [sizeCounts, this.2, hz, zero_add]

/-- The counts of entries of weight 1, none of size 0 and none longer than 256, are those of a complete code. -/
theorem sizeCounts_complete {sizes : List (Nat × Nat)} (hs : ∀ x ∈ sizes, x.2 ≤ 256) (hw : weight sizes = 1)
    (h2 : 2 ≤ sizes.length) : CompleteTo (sizeCounts sizes) 256 sizes.length := by
  have hat : ∀ l, bitsAt (sizeCounts sizes) l = sizes.countP fun x => x.2 = l :=
    fun l => (bitsAt_sizeCounts sizes hs l).2
  have hk : ∀ l, (kraftTo (sizeCounts sizes) l : ℚ) =
      2 ^ l * weight (sizes.filter fun x => x.2 ≤ l) := by
    have split : ∀ (l : Nat) (xs : List (Nat × Nat)), weight (xs.filter fun x => x.2 ≤ l + 1) =
        weight (xs.filter fun x => x.2 ≤ l) + (xs.countP fun x => x.2 = l + 1) * (1 / 2 : ℚ) ^ (l + 1) := by
      intro l xs
      induction xs with
      | nil => simp [weight]
      | cons x xs ih =>
        have hc : ∀ ys, weight (x :: ys) = (1 / 2 : ℚ) ^ x.2 + weight ys := by intro ys; simp [weight]
        rcases lt_trichotomy x.2 (l + 1) with h | h | h
        · rw [List.filter_cons_of_pos (by simp; omega), List.filter_cons_of_pos (by simp; omega), hc, hc, ih,
            List.countP_cons_of_neg (by simp; omega)]
          ring
        · rw [List.filter_cons_of_pos (by simp; omega), List.filter_cons_of_neg (by simp; omega), hc, ih,
            List.countP_cons_of_pos (by simp; omega), h]
          push_cast; ring
        · rw [List.filter_cons_of_neg (by simp; omega), List.filter_cons_of_neg (by simp; omega), ih,
            List.countP_cons_of_neg (by simp; omega)]
    have zero : ∀ (xs : List (Nat × Nat)), weight (xs.filter fun x => x.2 ≤ 0) = (xs.countP fun x => x.2 = 0) := by
      intro xs
      induction xs with
      | nil => simp [weight]
      | cons x xs ih =>
        by_cases h : x.2 = 0
        · rw [List.filter_cons_of_pos (by simp; omega), List.countP_cons_of_pos (by simp; omega)]
          have : weight (x :: xs.filter fun x => decide (x.2 ≤ 0)) =
              (1 / 2 : ℚ) ^ x.2 + weight (xs.filter fun x => decide (x.2 ≤ 0)) := by simp [weight]
          rw [this, ih, h]; push_cast; ring
        · rw [List.filter_cons_of_neg (by simp; omega), List.countP_cons_of_neg (by simp; omega), ih]
    intro l
    induction l with
    | zero => simp only [kraftTo, hat, zero]; simp
    | succ l ih =>
      simp only [kraftTo, hat, Nat.cast_add, Nat.cast_mul, ih, split]
      have : (2 : ℚ) ^ (l + 1) * (1 / 2) ^ (l + 1) = 1 := by rw [← mul_pow]; norm_num
      push_cast
      linear_combination (norm := ring_nf) -(List.countP (fun x => decide (x.2 = l + 1)) sizes : ℚ) * this
  have hc : ∀ l, countTo (sizeCounts sizes) l = (sizes.filter fun x => x.2 ≤ l).length := by
    intro l
    induction l with
    | zero => simp only [countTo, hat, List.countP_eq_length_filter]; simp
    | succ l ih =>
      simp only [countTo, hat, ih, ← List.countP_eq_length_filter]
      clear ih hk hat hw h2 hs
      induction sizes with
      | nil => simp
      | cons x xs ih =>
        simp only [List.countP_cons]
        rcases lt_trichotomy x.2 (l + 1) with h | h | h
        · simp [show x.2 ≤ l by omega, show x.2 ≤ l + 1 by omega, show x.2 ≠ l + 1 by omega]; omega
        · simp [h]; omega
        · simp [show ¬x.2 ≤ l by omega, show ¬x.2 ≤ l + 1 by omega, show x.2 ≠ l + 1 by omega]; omega
  have hall : (sizes.filter fun x => x.2 ≤ 256) = sizes := by
    rw [List.filter_eq_self]; intro x hx; simpa using hs x hx
  refine ⟨(bitsAt_sizeCounts sizes hs 0).1, ?_, ?_, ?_, ?_⟩
  · rw [hat, List.countP_eq_zero]
    intro x hx hx0
    simp only [decide_eq_true_eq] at hx0
    -- an entry of size 0 has weight 1 alone, and there is a second entry
    obtain ⟨ys, zs, rfl⟩ := List.append_of_mem hx
    have hpos : ∀ ws : List (Nat × Nat), 0 ≤ weight ws := by
      intro ws
      apply List.sum_nonneg
      intro a ha
      obtain ⟨w, -, rfl⟩ := List.mem_map.1 ha
      positivity
    have hpos' : ∀ ws : List (Nat × Nat), ws ≠ [] → 0 < weight ws := by
      intro ws hws
      cases ws with
      | nil => exact absurd rfl hws
      | cons w ws =>
        have : weight (w :: ws) = (1 / 2 : ℚ) ^ w.2 + weight ws := by simp [weight]
        rw [this]
        have := hpos ws
        positivity
    have e : weight (ys ++ x :: zs) = weight ys + ((1 / 2 : ℚ) ^ x.2 + weight zs) := by
      rw [weight_append]; simp [weight]
    rw [e, hx0] at hw
    have h1 := hpos ys
    have h3 := hpos zs
    rcases ys with _ | ⟨y, ys⟩
    · rcases zs with _ | ⟨z, zs⟩
      · simp at h2
      · have := hpos' (z :: zs) (by simp); linarith
    · have := hpos' (y :: ys) (by simp); linarith
  · intro i hi
    rw [hat, List.countP_eq_zero]
    intro x hx
    have := hs x hx
    simp; omega
  · have := hk 256
    rw [hall, hw, mul_one] at this
    exact_mod_cast this
  · rw [hc, hall]

/-! ### Sorting and lengths -/

/-- The order of 42_huffman.md R166 and R167: by key, and by symbol among equal keys. -/
def keyBefore (x y : Nat × Nat) : Prop := x.2 < y.2 ∨ (x.2 = y.2 ∧ x.1 < y.1)

theorem insertByKey_perm (x : Nat × Nat) (ys : List (Nat × Nat)) : (insertByKey x ys).Perm (x :: ys) := by
  induction ys with
  | nil => exact List.Perm.refl _
  | cons y ys ih =>
    simp only [insertByKey]
    split
    · exact List.Perm.refl _
    · exact (ih.cons y).trans (List.Perm.swap _ _ _)

theorem sortByKey_perm (xs : List (Nat × Nat)) : (sortByKey xs).Perm xs := by
  induction xs with
  | nil => exact List.Perm.refl _
  | cons x xs ih => exact (insertByKey_perm x _).trans (ih.cons x)

theorem insertByKey_sorted {x : Nat × Nat} {ys : List (Nat × Nat)} (h : ys.Pairwise keyBefore)
    (hx : ∀ y ∈ ys, y.1 ≠ x.1) : (insertByKey x ys).Pairwise keyBefore := by
  induction ys with
  | nil => simp [insertByKey]
  | cons y ys ih =>
    rw [List.pairwise_cons] at h
    simp only [insertByKey]
    split
    · rename_i hxy
      refine List.pairwise_cons.2 ⟨?_, List.pairwise_cons.2 h⟩
      intro z hz
      rcases List.mem_cons.1 hz with rfl | hz
      · exact hxy
      · have := h.1 z hz
        unfold keyBefore at this ⊢
        omega
    · rename_i hxy
      refine List.pairwise_cons.2 ⟨?_, ih h.2 fun z hz => hx z (by simp [hz])⟩
      intro z hz
      rcases List.mem_cons.1 ((insertByKey_perm x ys).mem_iff.1 hz) with rfl | hz
      · have := hx y (by simp)
        unfold keyBefore
        omega
      · exact h.1 z hz

/-- The sort is strict where no symbol stands twice (42_huffman.md R166, R167). -/
theorem sortByKey_sorted {xs : List (Nat × Nat)} (h : (xs.map Prod.fst).Nodup) :
    (sortByKey xs).Pairwise keyBefore := by
  induction xs with
  | nil => exact List.Pairwise.nil
  | cons x xs ih =>
    rw [List.map_cons, List.nodup_cons] at h
    refine insertByKey_sorted (ih h.2) ?_
    intro y hy e
    exact h.1 (List.mem_map.2 ⟨y, (sortByKey_perm xs).mem_iff.1 hy, e⟩)

/-- The lengths from `l` on, as often as the counts say. -/
def lengthsFrom : Nat → List Nat → List Nat
  | _, [] => []
  | l, n :: counts => List.replicate n l ++ lengthsFrom (l + 1) counts

theorem lengthList_eq (bits : List Nat) : lengthList bits = lengthsFrom 1 ((List.range' 1 16).map (bitsAt bits)) := rfl

theorem lengthsFrom_length (l : Nat) (counts : List Nat) : (lengthsFrom l counts).length = counts.sum := by
  induction counts generalizing l with
  | nil => rfl
  | cons n counts ih => simp [lengthsFrom, ih]

theorem lengthsFrom_ge {l : Nat} {counts : List Nat} {x : Nat} (h : x ∈ lengthsFrom l counts) : l ≤ x := by
  induction counts generalizing l with
  | nil => simp [lengthsFrom] at h
  | cons n counts ih =>
    rcases List.mem_append.1 h with h | h
    · exact (List.eq_of_mem_replicate h).ge
    · have := ih h; omega

theorem lengthsFrom_sorted (l : Nat) (counts : List Nat) : (lengthsFrom l counts).Pairwise (· ≤ ·) := by
  induction counts generalizing l with
  | nil => exact List.Pairwise.nil
  | cons n counts ih =>
    refine List.pairwise_append.2 ⟨?_, ih (l + 1), ?_⟩
    · rw [List.pairwise_replicate]; exact .inr (le_refl _)
    · intro a ha b hb
      have := lengthsFrom_ge hb
      rw [List.eq_of_mem_replicate ha]
      omega

theorem mem_lengthList {bits : List Nat} {l : Nat} :
    l ∈ lengthList bits ↔ 1 ≤ l ∧ l ≤ 16 ∧ bitsAt bits l ≠ 0 := by
  simp only [lengthList, List.mem_flatMap, List.mem_range'_1, List.mem_replicate]
  constructor
  · rintro ⟨a, ha, hb, rfl⟩; exact ⟨ha.1, by omega, hb⟩
  · rintro ⟨h1, h2, h3⟩; exact ⟨l, ⟨h1, by omega⟩, h3, rfl⟩

theorem lengthList_length {bits : List Nat} (h0 : bitsAt bits 0 = 0) :
    (lengthList bits).length = countTo bits 16 := by
  simp only [lengthList, List.length_flatMap, List.length_replicate, List.range', List.map_cons, List.map_nil,
    List.sum_cons, List.sum_nil, countTo, h0, Nat.reduceAdd]
  omega

theorem lengthList_kraft {bits : List Nat} (h0 : bitsAt bits 0 = 0) :
    ((lengthList bits).map fun l => 2 ^ (16 - l)).sum = kraftTo bits 16 := by
  have : ∀ ls : List Nat, ((ls.flatMap fun l => List.replicate (bitsAt bits l) l).map fun l => 2 ^ (16 - l)).sum =
      (ls.map fun l => bitsAt bits l * 2 ^ (16 - l)).sum := by
    intro ls
    induction ls with
    | nil => rfl
    | cons l ls ih => simp [List.flatMap_cons, ih]
  rw [lengthList, this]
  simp only [List.range', List.map_cons, List.map_nil, List.sum_cons, List.sum_nil, kraftTo, h0]
  norm_num
  ring

/-! ### Canonical codes -/

theorem canonical_symbols (l code : Nat) (counts syms : List Nat) (h : syms.length = counts.sum) :
    (canonical l code counts syms).map (·.symbol) = syms := by
  induction counts generalizing l code syms with
  | nil => cases syms <;> simp_all [canonical]
  | cons n counts ih =>
    rw [List.sum_cons] at h
    simp only [canonical, List.map_append, List.map_map]
    rw [ih _ _ _ (by rw [List.length_drop]; omega)]
    have : (fun x : CodeWord => x.symbol) ∘ (fun x : Nat × Nat => { symbol := x.1, len := l, code := code + x.2 }) =
        Prod.fst := rfl
    rw [this, List.zipIdx_map_fst, List.take_append_drop]

theorem canonical_lens (l code : Nat) (counts syms : List Nat) (h : syms.length = counts.sum) :
    (canonical l code counts syms).map (·.len) = lengthsFrom l counts := by
  induction counts generalizing l code syms with
  | nil => rfl
  | cons n counts ih =>
    rw [List.sum_cons] at h
    simp only [canonical, List.map_append, List.map_map, lengthsFrom]
    rw [ih _ _ _ (by rw [List.length_drop]; omega)]
    congr 1
    have : (fun x : CodeWord => x.len) ∘ (fun x : Nat × Nat => { symbol := x.1, len := l, code := code + x.2 }) =
        Function.const _ l := rfl
    rw [this, List.map_const, List.length_zipIdx, List.length_take]
    congr 1
    omega

/-- Every code starts at or after the value the assignment starts from (42_huffman.md R167). -/
theorem canonical_ge {l code : Nat} {counts syms : List Nat} {x : CodeWord}
    (h : x ∈ canonical l code counts syms) : l ≤ x.len ∧ code * 2 ^ (x.len - l) ≤ x.code := by
  induction counts generalizing l code syms with
  | nil => simp [canonical] at h
  | cons n counts ih =>
    rcases List.mem_append.1 h with h | h
    · obtain ⟨y, -, rfl⟩ := List.mem_map.1 h
      simp
    · obtain ⟨h1, h2⟩ := ih h
      refine ⟨by omega, le_trans ?_ h2⟩
      have e : x.len - l = (x.len - (l + 1)) + 1 := by omega
      rw [e, pow_succ]
      calc code * (2 ^ (x.len - (l + 1)) * 2) = 2 * code * 2 ^ (x.len - (l + 1)) := by ring
        _ ≤ 2 * (code + n) * 2 ^ (x.len - (l + 1)) := Nat.mul_le_mul_right _ (by omega)

/-- A later code lies above an earlier one and everything the earlier one is a prefix of (42_huffman.md R167). -/
theorem canonical_pairwise (l code : Nat) (counts syms : List Nat) :
    (canonical l code counts syms).Pairwise fun x y =>
      x.len ≤ y.len ∧ (x.code + 1) * 2 ^ (y.len - x.len) ≤ y.code := by
  induction counts generalizing l code syms with
  | nil => exact List.Pairwise.nil
  | cons n counts ih =>
    refine List.pairwise_append.2 ⟨?_, ih _ _ _, ?_⟩
    · rw [List.pairwise_map]
      have : ∀ (xs : List Nat) (i : Nat), (xs.zipIdx i).Pairwise fun a b => a.2 < b.2 := by
        intro xs
        induction xs with
        | nil => intro i; simp
        | cons a xs ih =>
          intro i
          rw [List.zipIdx_cons, List.pairwise_cons]
          refine ⟨?_, ih _⟩
          rintro ⟨b, j⟩ hb
          have := List.le_snd_of_mem_zipIdx hb
          simp only at this ⊢
          omega
      refine (this _ 0).imp ?_
      intro a b hab
      simp
      omega
    · intro x hx y hy
      obtain ⟨⟨b, j⟩, hb, rfl⟩ := List.mem_map.1 hx
      have hj := List.snd_lt_of_mem_zipIdx hb
      have hl := List.length_take_le n syms
      obtain ⟨h1, h2⟩ := canonical_ge hy
      refine ⟨by simp only; omega, le_trans ?_ h2⟩
      have e : y.len - l = (y.len - (l + 1)) + 1 := by omega
      simp only at hj ⊢
      rw [e, pow_succ]
      calc (code + j + 1) * (2 ^ (y.len - (l + 1)) * 2) = 2 * (code + j + 1) * 2 ^ (y.len - (l + 1)) := by ring
        _ ≤ 2 * (code + n) * 2 ^ (y.len - (l + 1)) := Nat.mul_le_mul_right _ (by omega)

/-- The codes stay below the value that the weights of all of them reach (42_huffman.md R167). -/
theorem canonical_le {l code : Nat} {counts syms : List Nat} (M : Nat) (h : syms.length = counts.sum)
    (hM : l + counts.length ≤ M + 1) {x : CodeWord} (hx : x ∈ canonical l code counts syms) :
    (x.code + 1) * 2 ^ (M - x.len) ≤
      code * 2 ^ (M - l) + ((canonical l code counts syms).map fun y => 2 ^ (M - y.len)).sum := by
  induction counts generalizing l code syms with
  | nil => simp [canonical] at hx
  | cons n counts ih =>
    rw [List.sum_cons] at h
    rw [List.length_cons] at hM
    have hlen : (syms.take n).length = n := by rw [List.length_take]; omega
    have hfirst : (((syms.take n).zipIdx.map fun x => ({ symbol := x.1, len := l, code := code + x.2 } : CodeWord)).map
        fun y => 2 ^ (M - y.len)).sum = n * 2 ^ (M - l) := by
      rw [List.map_map]
      have : (fun y : CodeWord => 2 ^ (M - y.len)) ∘
          (fun x : Nat × Nat => { symbol := x.1, len := l, code := code + x.2 }) = Function.const _ (2 ^ (M - l)) := rfl
      rw [this, List.map_const, List.sum_replicate, List.length_zipIdx, hlen, smul_eq_mul]
    simp only [canonical, List.map_append, List.sum_append, hfirst]
    rcases List.mem_append.1 hx with hx | hx
    · obtain ⟨⟨b, j⟩, hb, rfl⟩ := List.mem_map.1 hx
      have hj := List.snd_lt_of_mem_zipIdx hb
      simp only at hj ⊢
      have : (code + j + 1) * 2 ^ (M - l) ≤ (code + n) * 2 ^ (M - l) := Nat.mul_le_mul_right _ (by omega)
      rw [add_mul code n] at this
      omega
    · have hc : counts ≠ [] := by rintro rfl; simp [canonical] at hx
      have := List.length_pos_iff.2 hc
      have h2 := ih (by rw [List.length_drop]; omega) (by omega) hx
      have e : M - l = (M - (l + 1)) + 1 := by omega
      rw [e, pow_succ]
      nlinarith [h2]

/-! ### The whole table -/

theorem usedSymbols_nodup (h : List Nat) : (usedSymbols h).Nodup := List.Nodup.filter _ List.nodup_range

/-- Everything the table of a histogram with a used symbol is (42_huffman.md R164 to R168): the used symbols once each, in
(length, symbol) order, each code above all that an earlier one is a prefix of, with a longest length `L` at most 16 at
which exactly one code word is left free. -/
theorem buildCodes_spec (h : List Nat) (hl : h.length ≤ 256) (hne : ¬ (h.all (· == 0)) = true) :
    ((buildCodes h).map (·.symbol)).Perm (usedSymbols h) ∧
    (buildCodes h).Pairwise (fun x y => x.len < y.len ∨ (x.len = y.len ∧ x.symbol < y.symbol)) ∧
    (buildCodes h).Pairwise (fun x y => x.len ≤ y.len ∧ (x.code + 1) * 2 ^ (y.len - x.len) ≤ y.code) ∧
    ∃ L, 1 ≤ L ∧ L ≤ 16 ∧ (∃ x ∈ buildCodes h, x.len = L) ∧ (∀ x ∈ buildCodes h, 1 ≤ x.len ∧ x.len ≤ L) ∧
      ((buildCodes h).map fun x => 2 ^ (16 - x.len)).sum + 2 ^ (16 - L) = 2 ^ 16 ∧
      (∀ x ∈ buildCodes h, (x.code + 1) * 2 ^ (16 - x.len) ≤ ((buildCodes h).map fun x => 2 ^ (16 - x.len)).sum) := by
  obtain ⟨hp, hw, hsz⟩ := codeSizes_spec h
  have hul : (usedSymbols h).length ≤ 256 :=
    (List.length_filter_le _ _).trans (by simpa using hl)
  have hu1 : 1 ≤ (usedSymbols h).length := by
    simp only [List.all_eq_true, beq_iff_eq, not_forall] at hne
    obtain ⟨x, hx, hx0⟩ := hne
    obtain ⟨i, hi, rfl⟩ := List.getElem_of_mem hx
    apply List.length_pos_of_mem (a := i)
    simp [usedSymbols, hi, hx0]
  have hlen := hp.length_eq
  simp only [List.length_map, List.length_append, List.length_singleton] at hlen
  have hc := sizeCounts_complete (sizes := codeSizes h) (fun x hx => (hsz x hx).trans hul) hw (by omega)
  have hlim := limitLengths_spec hc (by omega)
  obtain ⟨L, hL1, hL16, hLu, h0, hab, hk, hcnt⟩ := dropReserved_spec hlim
  set bits := limitedBits h with hbits
  change bitsAt bits L ≠ 0 at hLu
  change bitsAt bits 0 = 0 at h0
  change ∀ i, L < i → bitsAt bits i = 0 at hab
  change kraftTo bits 16 + _ = _ at hk
  change countTo bits 16 + 1 = _ at hcnt
  have hll := lengthList_length h0
  -- symbols
  have hfil : (((codeSizes h).filter fun x => decide (x.1 < 256)).map Prod.fst).Perm (usedSymbols h) := by
    have e : ((codeSizes h).filter fun x => decide (x.1 < 256)).map Prod.fst =
        ((codeSizes h).map Prod.fst).filter fun x => decide (x < 256) := by
      rw [List.filter_map]; rfl
    rw [e]
    refine (hp.filter _).trans ?_
    rw [List.filter_append]
    have : (usedSymbols h).filter (fun x => decide (x < 256)) = usedSymbols h := by
      rw [List.filter_eq_self]
      intro a ha
      simp only [usedSymbols, List.mem_filter, List.mem_range] at ha
      simp; omega
    rw [this]; simp
  set srt := (sortByKey ((codeSizes h).filter fun x => decide (x.1 < 256))).map Prod.fst with hsrt
  have hsp : srt.Perm (usedSymbols h) := ((sortByKey_perm _).map _).trans hfil
  have hsl : srt.length = (lengthList bits).length := by rw [hsp.length_eq, hll]; omega
  have hzf : (symbolLengths (codeSizes h) bits).map Prod.fst = srt := by
    simp only [symbolLengths, ← hsrt]; exact List.map_fst_zip hsl.le
  have hzs : (symbolLengths (codeSizes h) bits).map Prod.snd = lengthList bits := by
    simp only [symbolLengths, ← hsrt]; exact List.map_snd_zip hsl.ge
  set sorted := sortByKey (symbolLengths (codeSizes h) bits) with hsorted
  have hsperm : sorted.Perm (symbolLengths (codeSizes h) bits) := sortByKey_perm _
  have hspw : sorted.Pairwise keyBefore := sortByKey_sorted (by rw [hzf]; exact hsp.nodup_iff.2 (usedSymbols_nodup h))
  have hs2 : sorted.map Prod.snd = lengthList bits := by
    have p1 : (sorted.map Prod.snd).Perm (lengthList bits) := by rw [← hzs]; exact hsperm.map _
    refine p1.eq_of_pairwise (le := (· ≤ ·)) (fun a b _ _ h1 h2 => le_antisymm h1 h2) ?_ ?_
    · rw [List.pairwise_map]
      refine hspw.imp ?_
      intro a b hab
      unfold keyBefore at hab
      omega
    · rw [lengthList_eq]; exact lengthsFrom_sorted _ _
  have hcl : (sorted.map Prod.fst).length = ((List.range' 1 16).map (bitsAt bits)).sum := by
    rw [← lengthsFrom_length 1, ← lengthList_eq, ← hs2]; simp
  have hb : buildCodes h = canonical 1 0 ((List.range' 1 16).map (bitsAt bits)) (sorted.map Prod.fst) := by
    unfold buildCodes
    rw [if_neg hne]
  have hbs := canonical_symbols 1 0 _ _ hcl
  have hbl := canonical_lens 1 0 _ _ hcl
  rw [← hb] at hbs hbl
  rw [← lengthList_eq, ← hs2] at hbl
  have hpair : (buildCodes h).map (fun x => (x.symbol, x.len)) = sorted := by
    have e1 : ((buildCodes h).map (fun x => (x.symbol, x.len))) =
        List.zip ((buildCodes h).map (·.symbol)) ((buildCodes h).map (·.len)) := by
      rw [List.zip_map']
    rw [e1, hbs, hbl, List.zip_map']
    simp
  have hsum : ((buildCodes h).map fun x => 2 ^ (16 - x.len)).sum = kraftTo bits 16 := by
    rw [← lengthList_kraft h0, ← hs2, ← hbl, List.map_map]; rfl
  have hmem : ∀ x ∈ buildCodes h, x.len ∈ lengthList bits := by
    intro x hx; rw [← hs2, ← hbl]; exact List.mem_map_of_mem hx
  refine ⟨?_, ?_, ?_, L, hL1, hL16, ?_, ?_, ?_, ?_⟩
  · rw [hbs]; exact (hsperm.map _).trans (by rw [hzf]; exact hsp)
  · have := hspw
    rw [← hpair, List.pairwise_map] at this
    exact this
  · rw [hb]; exact canonical_pairwise _ _ _ _
  · have : L ∈ lengthList bits := mem_lengthList.2 ⟨hL1, hL16, hLu⟩
    rw [← hs2, ← hbl] at this
    obtain ⟨x, hx, e⟩ := List.mem_map.1 this
    exact ⟨x, hx, e⟩
  · intro x hx
    obtain ⟨h1, h2, h3⟩ := mem_lengthList.1 (hmem x hx)
    refine ⟨h1, ?_⟩
    by_contra hcon
    exact h3 (hab _ (by omega))
  · rw [hsum]; exact hk
  · intro x hx
    have := canonical_le (l := 1) (code := 0) 16 hcl (by simp) (by rw [← hb]; exact hx)
    rw [← hb] at this
    simpa using this

end Sys2Proof.Machine
end

