-- ==== Sys2Proof/Laws/Memory.lean ====
section
/-! SUPPORT. The laws of the memory: read after write, a write leaves every other element alone, every operation keeps
the canonical form and the bounds, and equal reads make equal memories. -/

namespace Sys2Proof.Machine

/-! ### One store -/

section
variable {α : Type}

theorem Store.read_write (st : Store α) (i j : Nat) (v : α) :
    Store.read (Store.write st i v) j = if j = i then some v else Store.read st j := by
  induction st with
  | nil => simp [Store.write, Store.read]
  | cons x rest ih =>
    obtain ⟨k, w⟩ := x
    simp only [Store.write]
    split_ifs <;> simp_all [Store.read]

theorem Store.mem_write {st : Store α} {i : Nat} {v : α} {x : Nat × α} (h : x ∈ Store.write st i v) :
    x = (i, v) ∨ x ∈ st := by
  induction st with
  | nil => simpa [Store.write] using h
  | cons y rest ih =>
    obtain ⟨k, w⟩ := y
    simp only [Store.write] at h
    split_ifs at h <;> simp_all
    all_goals grind

/-- The canonical form as a pairwise order of the indices. -/
theorem Store.wf_iff (st : Store α) : Store.wf st = true ↔ st.Pairwise (fun a b => a.1 < b.1) := by
  induction st with
  | nil => simp [Store.wf]
  | cons x rest ih =>
    cases rest with
    | nil => simp [Store.wf]
    | cons y rest =>
      obtain ⟨i, v⟩ := x
      obtain ⟨j, w⟩ := y
      simp only [Store.wf, Bool.and_eq_true, decide_eq_true_eq, ih, List.pairwise_cons, List.mem_cons,
        forall_eq_or_imp]
      constructor
      · rintro ⟨h, h1, h2⟩
        exact ⟨⟨h, fun a ha => h.trans (h1 a ha)⟩, h1, h2⟩
      · rintro ⟨⟨h, _⟩, h1, h2⟩
        exact ⟨h, h1, h2⟩

theorem Store.wf_write {st : Store α} (h : Store.wf st = true) (i : Nat) (v : α) :
    Store.wf (Store.write st i v) = true := by
  rw [Store.wf_iff] at h ⊢
  induction st with
  | nil => simp [Store.write]
  | cons x rest ih =>
    obtain ⟨k, w⟩ := x
    rw [List.pairwise_cons] at h
    simp only [Store.write]
    split_ifs with h1 h2
    · refine List.pairwise_cons.2 ⟨?_, List.pairwise_cons.2 h⟩
      intro a ha
      rcases List.mem_cons.1 ha with rfl | ha
      · exact h1
      · exact h1.trans (h.1 a ha)
    · subst h2
      exact List.pairwise_cons.2 ⟨fun a ha => h.1 a ha, h.2⟩
    · refine List.pairwise_cons.2 ⟨?_, ih h.2⟩
      intro a ha
      rcases Store.mem_write ha with rfl | ha
      · exact lt_of_le_of_ne (Nat.le_of_not_lt h1) (Ne.symm h2)
      · exact h.1 a ha

/-- A filled store reads as before where something was written, and as `f` says below the bound elsewhere. -/
theorem Store.read_fill (f : Nat → α) (n : Nat) (st : Store α) (i : Nat) :
    Store.read (Store.fill f n st) i = (Store.read st i).or (if i < n then some (f i) else none) := by
  induction n with
  | zero => simp [Store.fill]
  | succ n ih =>
    have key : Store.read (Store.fill f (n + 1) st) i =
        if i = n then (Store.read (Store.fill f n st) i).or (some (f i)) else Store.read (Store.fill f n st) i := by
      simp only [Store.fill]
      split
      · rename_i v hv
        split_ifs with h
        · subst h; simp [hv]
        · rfl
      · rename_i hv
        rw [Store.read_write]
        split_ifs with h
        · subst h; simp [hv]
        · rfl
    rw [key, ih]
    by_cases h : i = n
    · subst h; simp
    · have : i < n + 1 ↔ i < n := by omega
      simp [h, this]

theorem Store.wf_fill {st : Store α} (h : Store.wf st = true) (f : Nat → α) (n : Nat) :
    Store.wf (Store.fill f n st) = true := by
  induction n with
  | zero => exact h
  | succ n ih =>
    simp only [Store.fill]
    split
    · exact ih
    · exact Store.wf_write ih _ _

theorem Store.read_eq_some_iff {st : Store α} (h : Store.wf st = true) {i : Nat} {v : α} :
    Store.read st i = some v ↔ (i, v) ∈ st := by
  rw [Store.wf_iff] at h
  induction st with
  | nil => simp [Store.read]
  | cons x rest ih =>
    obtain ⟨k, w⟩ := x
    rw [List.pairwise_cons] at h
    simp only [Store.read, List.mem_cons, Prod.mk.injEq]
    split_ifs with h1
    · subst h1
      constructor
      · intro e; exact .inl ⟨rfl, (Option.some.inj e).symm⟩
      · rintro (⟨-, rfl⟩ | hm)
        · rfl
        · exact absurd (h.1 _ hm) (lt_irrefl _)
    · rw [ih h.2]
      constructor
      · exact .inr
      · rintro (⟨e, -⟩ | hm)
        · exact absurd e h1
        · exact hm

/-- Two canonical stores that read alike at every index are the same data. -/
theorem Store.eq_of_reads {st st' : Store α} (h : Store.wf st = true) (h' : Store.wf st' = true)
    (hr : ∀ i, Store.read st i = Store.read st' i) : st = st' := by
  have key : ∀ x, x ∈ st ↔ x ∈ st' := by
    rintro ⟨i, v⟩
    rw [← Store.read_eq_some_iff h, ← Store.read_eq_some_iff h', hr]
  rw [Store.wf_iff] at h h'
  have nd : ∀ {l : Store α}, l.Pairwise (fun a b => a.1 < b.1) → l.Nodup := fun {l} hp =>
    hp.imp fun hab e => by subst e; exact lt_irrefl _ hab
  have hperm : st.Perm st' := (List.perm_ext_iff_of_nodup (nd h) (nd h')).2 key
  exact hperm.eq_of_pairwise (fun a b _ _ hab hba => absurd (hab.trans hba) (lt_irrefl _)) h h'

end

/-! ### One bank -/

section
variable {α : Type} {n : Nat}

theorem Bank.read_write (b : Bank α n) (u i : Nat) (v : α) (u' i' : Nat) :
    Bank.read (Bank.write b u i v) u' i' =
      if u' = u ∧ u < n ∧ i' = i then some v else Bank.read b u' i' := by
  unfold Bank.read Bank.write
  by_cases hu : u' = u
  · subst hu
    by_cases hn : u' < n
    · rw [Vector.getElem?_setIfInBounds_self_of_lt hn]
      simp [hn, Store.read_write]
    · simp [hn]
  · rw [Vector.getElem?_setIfInBounds_ne (Ne.symm hu)]
    simp [hu]

theorem Bank.read_writeRun (b : Bank α n) (u i : Nat) (vs : List α) (u' j : Nat) :
    Bank.read (Bank.writeRun b u i vs) u' j =
      if u' = u ∧ u < n ∧ i ≤ j ∧ j < i + vs.length then vs[j - i]? else Bank.read b u' j := by
  induction vs generalizing i with
  | nil =>
    have : ¬(u' = u ∧ u < n ∧ i ≤ j ∧ j < i + ([] : List α).length) := by simp
    rw [if_neg this]; rfl
  | cons v vs ih =>
    simp only [Bank.writeRun, Bank.read_write, ih, List.length_cons]
    by_cases hu : u' = u ∧ u < n
    · obtain ⟨rfl, hn⟩ := hu
      by_cases hj : j = i
      · subst hj; simp [hn]
      · by_cases hr : i + 1 ≤ j ∧ j < i + 1 + vs.length
        · have e : j - i = (j - (i + 1)) + 1 := by omega
          rw [if_neg (by simp [hj]), if_pos ⟨rfl, hn, hr⟩, if_pos ⟨rfl, hn, by omega⟩, e]
          simp
        · rw [if_neg (by simp [hj]), if_neg (by tauto), if_neg (by omega)]
    · rw [if_neg (by tauto), if_neg (by tauto), if_neg (by tauto)]

/-- A filled bank reads as before where something was written, and as `f` says within the sizes elsewhere. -/
theorem Bank.read_fill (b : Bank α n) (size : Nat → Nat) (f : Nat → Nat → α) (u i : Nat) :
    Bank.read (Bank.fill b size f) u i =
      (Bank.read b u i).or (if u < n ∧ i < size u then some (f u i) else none) := by
  unfold Bank.read Bank.fill
  by_cases hu : u < n
  · simp [hu, Store.read_fill]
  · simp [hu]

/-- The store of one sub-space after a write. -/
theorem Bank.store_write (b : Bank α n) (u i : Nat) (v : α) {w : Nat} (hw : w < n) :
    (Bank.write b u i v)[w] = if u = w then Store.write b[w] i v else b[w] := by
  unfold Bank.write
  rw [Vector.getElem_setIfInBounds]
  split_ifs with h
  · subst h; simp [hw]
  · rfl

theorem Bank.wf_iff (b : Bank α n) : Bank.wf b = true ↔ ∀ u (h : u < n), Store.wf b[u] = true := by
  unfold Bank.wf
  rw [List.all_eq_true]
  constructor
  · intro h u hu
    exact h _ (by simp [Vector.mem_toList_iff])
  · intro h st hst
    rw [Vector.mem_toList_iff] at hst
    obtain ⟨u, hu, rfl⟩ := Vector.getElem_of_mem hst
    exact h u hu

theorem Bank.wf_write {b : Bank α n} (h : Bank.wf b = true) (u i : Nat) (v : α) :
    Bank.wf (Bank.write b u i v) = true := by
  rw [Bank.wf_iff] at h ⊢
  intro w hw
  rw [Bank.store_write b u i v hw]
  split_ifs
  · exact Store.wf_write (h w hw) i v
  · exact h w hw

theorem Bank.wf_writeRun {b : Bank α n} (h : Bank.wf b = true) (u i : Nat) (vs : List α) :
    Bank.wf (Bank.writeRun b u i vs) = true := by
  induction vs generalizing i with
  | nil => exact h
  | cons v vs ih => exact Bank.wf_write (ih (i + 1)) u i v

theorem Bank.wf_fill {b : Bank α n} (h : Bank.wf b = true) (size : Nat → Nat) (f : Nat → Nat → α) :
    Bank.wf (Bank.fill b size f) = true := by
  rw [Bank.wf_iff] at h ⊢
  intro u hu
  simpa [Bank.fill] using Store.wf_fill (h u hu) (f u) (size u)

theorem Bank.within_iff (b : Bank α n) (bound : Nat → Nat) :
    Bank.within b bound = true ↔ ∀ u (h : u < n), ∀ x ∈ b[u], x.1 < bound u := by
  unfold Bank.within
  simp only [List.all_eq_true, List.mem_range, decide_eq_true_eq]
  constructor
  · intro h u hu x hx
    exact h u hu x (by simpa [hu] using hx)
  · intro h u hu x hx
    exact h u hu x (by simpa [hu] using hx)

theorem Bank.within_write {b : Bank α n} {bound : Nat → Nat} (h : Bank.within b bound = true) {u i : Nat}
    (hi : i < bound u) (v : α) : Bank.within (Bank.write b u i v) bound = true := by
  rw [Bank.within_iff] at h ⊢
  intro w hw x hx
  rw [Bank.store_write b u i v hw] at hx
  split_ifs at hx with e
  · rcases Store.mem_write hx with rfl | hx
    · subst e; exact hi
    · exact h w hw x hx
  · exact h w hw x hx

theorem Bank.within_writeRun {b : Bank α n} {bound : Nat → Nat} (h : Bank.within b bound = true) {u i : Nat}
    {vs : List α} (hi : i + vs.length ≤ bound u) : Bank.within (Bank.writeRun b u i vs) bound = true := by
  induction vs generalizing i with
  | nil => exact h
  | cons v vs ih =>
    rw [List.length_cons] at hi
    exact Bank.within_write (ih (by omega)) (by omega) v

/-- An element that reads has an index its sub-space lists. -/
theorem Bank.read_bound {b : Bank α n} {bound : Nat → Nat} (h : Bank.within b bound = true) {u i : Nat} {v : α}
    (hr : Bank.read b u i = some v) : i < bound u := by
  rw [Bank.within_iff] at h
  unfold Bank.read at hr
  by_cases hu : u < n
  · simp only [Vector.getElem?_eq_getElem hu, Option.bind_some] at hr
    have : ∀ {st : Store α}, Store.read st i = some v → ∃ x ∈ st, x.1 = i := by
      intro st
      induction st with
      | nil => simp [Store.read]
      | cons y rest ih =>
        simp only [Store.read]
        split_ifs with e
        · intro _; exact ⟨y, by simp, e.symm⟩
        · intro hh; obtain ⟨x, hx, e⟩ := ih hh; exact ⟨x, by simp [hx], e⟩
    obtain ⟨x, hx, rfl⟩ := this hr
    exact h u hu x hx
  · simp [hu] at hr

/-- Two canonical banks that read alike are the same data. -/
theorem Bank.eq_of_reads {b b' : Bank α n} (h : Bank.wf b = true) (h' : Bank.wf b' = true)
    (hr : ∀ u i, Bank.read b u i = Bank.read b' u i) : b = b' := by
  rw [Bank.wf_iff] at h h'
  apply Vector.ext
  intro u hu
  refine Store.eq_of_reads (h u hu) (h' u hu) fun i => ?_
  simpa [Bank.read, hu] using hr u i

end

/-! ### The whole memory -/

theorem Memory.wf_empty : Memory.wf Memory.empty = true := by decide

theorem Memory.bounded_empty (p : Params) : Memory.bounded p Memory.empty = true := rfl

theorem Memory.wf_iff (m : Memory) : m.wf = true ↔
    Bank.wf m.dbuf = true ∧ Bank.wf m.qtab = true ∧ Bank.wf m.qf = true ∧ Bank.wf m.coef = true ∧
      Bank.wf m.hist = true ∧ Bank.wf m.huff = true := by
  simp [Memory.wf, Bool.and_eq_true, and_assoc]

theorem Memory.bounded_iff (p : Params) (m : Memory) : m.bounded p = true ↔
    Bank.within m.dbuf (elementCount p .dbuf) = true ∧ Bank.within m.qtab (elementCount p .qtab) = true ∧
    Bank.within m.qf (elementCount p .qf) = true ∧ Bank.within m.coef (elementCount p .coef) = true ∧
    Bank.within m.hist (elementCount p .hist) = true ∧ Bank.within m.huff (elementCount p .huff) = true := by
  simp [Memory.bounded, Bool.and_eq_true, and_assoc]

/-- A data-port write keeps the canonical form (20_memory.md R69). -/
theorem Memory.wf_writeElement {m : Memory} (h : m.wf = true) (sp : Space) (u i : Nat) (w : Word) :
    (writeElement m sp u i w).wf = true := by
  rw [Memory.wf_iff] at h ⊢
  obtain ⟨h1, h2, h3, h4, h5, h6⟩ := h
  cases sp <;> simp only [writeElement] <;>
    refine ⟨?_, ?_, ?_, ?_, ?_, ?_⟩ <;> first | assumption | exact Bank.wf_write (by assumption) _ _ _

/-- A data-port write at a legal triple keeps the bounds (20_memory.md R61, R69). -/
theorem Memory.bounded_writeElement {p : Params} {m : Memory} (h : m.bounded p = true) {sp : Space} {u i : Nat}
    (hl : legalTriple p sp u i = true) (w : Word) : (writeElement m sp u i w).bounded p = true := by
  rw [Memory.bounded_iff] at h ⊢
  obtain ⟨h1, h2, h3, h4, h5, h6⟩ := h
  simp only [legalTriple, Bool.and_eq_true, decide_eq_true_eq] at hl
  cases sp <;> simp only [writeElement] <;>
    refine ⟨?_, ?_, ?_, ?_, ?_, ?_⟩ <;> first | assumption | exact Bank.within_write (by assumption) hl.2 _

end Sys2Proof.Machine
end

