-- ==== Sys2Proof/Laws/Quantizer.lean ====
section
/-! SUPPORT. What QBLK can do, said once (40_quantizer.md R117). -/

namespace Sys2Proof.Machine

/-- Everything a next state of QBLK can be: a fault before anything is written, or the block written whole. -/
theorem execQblk_eq_next_iff {c : BitVec 2} {s t : State} :
    execQblk c s = .next t ↔
      (∃ r, quantBlock s c.toNat = .error (.raised r) ∧ t = faultEntry r s) ∨
      (∃ rs, quantBlock s c.toNat = .ok rs ∧ t = completeCommand { s with mem := { s.mem with
        coef := Bank.writeRun s.mem.coef c.toNat (64 * blockIndex s c.toNat) rs } }) := by
  unfold execQblk
  split <;> rename_i h
  · rename_i e
    cases e <;> simp [endCommand, h, eq_comm]
  · simp [endCommand, h, eq_comm]

/-- A list computed element by element, with a stop at the first one that has none. -/
theorem mapM_ok_iff {α β ε : Type} (f : α → Except ε β) (l : List α) (rs : List β) :
    l.mapM f = .ok rs ↔ List.Forall₂ (fun a b => f a = .ok b) l rs := by
  induction l generalizing rs with
  | nil => cases rs <;> simp [pure, Except.pure]
  | cons a l ih =>
    rw [List.mapM_cons]
    rcases h : f a with e | b
    · cases rs <;> simp [bind, Except.bind, h]
    · rcases h' : l.mapM f with e | bs
      · have := fun r => (ih r).not.1 (by simp [h'])
        cases rs <;> simp_all [bind, Except.bind]
      · have := (ih bs).1 h'
        cases rs with
        | nil => simp [bind, Except.bind, pure, Except.pure]
        | cons r rs =>
          simp only [bind, Except.bind, pure, Except.pure, Except.ok.injEq, List.cons.injEq, List.forall₂_cons, h]
          rw [← ih, h']
          simp

/-- The first element that stops decides how the computation of a list stops. -/
theorem mapM_error_of {α β ε : Type} (f : α → Except ε β) (l l' : List α) (a : α) (e : ε)
    (hl : ∀ x ∈ l, ∃ b, f x = .ok b) (ha : f a = .error e) : (l ++ a :: l').mapM f = .error e := by
  induction l with
  | nil => simp [bind, Except.bind, ha]
  | cons x l ih =>
    obtain ⟨b, hb⟩ := hl x (by simp)
    rw [List.cons_append, List.mapM_cons, hb]
    simp [bind, Except.bind, ih (fun y hy => hl y (by simp [hy]))]

/-- A coefficient that passes every check (40_quantizer.md R117, step 6). -/
theorem quantCoef_eq_ok {s : State} {c b t k : Nat} {mac : Word} {q : Half} {d : Word}
    (hq : Bank.read s.mem.qtab t k = some q) (hq1 : 1 ≤ q.toNat) (hq2 : q.toNat ≤ quantLimit s)
    (hd : Bank.read s.mem.dbuf 0 (zigzag k) = some d)
    (hok : operandsOk d (if k = 0 then dcMultiplier s mac else mac) = true)
    (hlo : -32767 ≤ quantized d (if k = 0 then dcMultiplier s mac else mac) q.toNat)
    (hhi : quantized d (if k = 0 then dcMultiplier s mac else mac) q.toNat ≤ 32767) :
    quantCoef s c b t mac k =
      .ok (BitVec.ofInt 16 (quantized d (if k = 0 then dcMultiplier s mac else mac) q.toNat)) := by
  have hne : ¬(q = 0 ∨ quantLimit s < q.toNat) := by
    rintro (rfl | h)
    · simp at hq1
    · omega
  have hr : ¬(quantized d (if k = 0 then dcMultiplier s mac else mac) q.toNat < -32767 ∨
    32767 < quantized d (if k = 0 then dcMultiplier s mac else mac) q.toNat) := by omega
  unfold quantCoef
  simp only [hq, hd, needed_some, bind, Except.bind, hne, hok, hr, if_false, Bool.not_true, pure, Except.pure,
    Bool.false_eq_true]

/-- The block is quantized once its configuration is legal and every coefficient passes. -/
theorem quantBlock_of_config {s : State} {c : Nat} {mac : Word} (hf : frameOk s = true) (hc : c < s.nc.toNat)
    (hx : s.qpos.bx.toNat < wib s c) (hy : s.qpos.byRow.toNat < hib s c)
    (hqf : ¬(s.ctrl.aq = true ∧ s.params.qfCells < qfWidth s * qfHeight s)) (hm : acMultiplier s c = .ok mac) :
    quantBlock s c =
      (List.range 64).mapM fun k => quantCoef s c (blockIndex s c) (compAt s c).tq.toNat mac k := by
  have hp : ¬(s.nc.toNat ≤ c ∨ wib s c ≤ s.qpos.bx.toNat ∨ hib s c ≤ s.qpos.byRow.toNat) := by omega
  unfold quantBlock
  simp only [hf, hp, hqf, hm, Bool.not_true, if_false, bind, Except.bind, Bool.false_eq_true]

/-- What a quantized block says of the configuration, and how long it is (40_quantizer.md R117, steps 1 and 2). -/
theorem quantBlock_ok {s : State} {c : Nat} {rs : List Half} (h : quantBlock s c = .ok rs) :
    frameOk s = true ∧ c < s.nc.toNat ∧ s.qpos.bx.toNat < wib s c ∧ s.qpos.byRow.toNat < hib s c ∧
      rs.length = 64 := by
  unfold quantBlock at h
  by_cases hf : frameOk s = true
  · by_cases hp : s.nc.toNat ≤ c ∨ wib s c ≤ s.qpos.bx.toNat ∨ hib s c ≤ s.qpos.byRow.toNat
    · simp [hf, hp, bind, Except.bind, throw, throwThe, MonadExceptOf.throw] at h
    · by_cases hq : s.ctrl.aq = true ∧ s.params.qfCells < qfWidth s * qfHeight s
      · simp only [hf, hp, hq, bind, Except.bind, throw, throwThe, MonadExceptOf.throw] at h
        simp at h
      · simp only [hf, hp, hq, bind, Except.bind, Bool.not_true, if_false, Bool.false_eq_true] at h
        cases hm : acMultiplier s c with
        | error e => simp [hm] at h
        | ok mac =>
          simp only [hm] at h
          rw [mapM_ok_iff] at h
          refine ⟨hf, by omega, by omega, by omega, ?_⟩
          rw [← h.length_eq]; simp
  · simp [hf, bind, Except.bind, throw, throwThe, MonadExceptOf.throw] at h

/-- The block at a legal position lies inside COEF (10_state.md R54 (d), 20_memory.md R80). -/
theorem blockIndex_lt {s : State} {c : Nat} (hf : frameOk s = true) (hc : c < s.nc.toNat)
    (hx : s.qpos.bx.toNat < wib s c) (hy : s.qpos.byRow.toNat < hib s c) : blockIndex s c < s.params.coefBlocks := by
  simp only [frameOk, Bool.and_eq_true, decide_eq_true_eq, List.all_eq_true, List.mem_range] at hf
  refine lt_of_lt_of_le ?_ (hf.2 c hc)
  unfold blockIndex
  calc s.qpos.byRow.toNat * wib s c + s.qpos.bx.toNat < s.qpos.byRow.toNat * wib s c + wib s c := by omega
    _ = (s.qpos.byRow.toNat + 1) * wib s c := by ring
    _ ≤ hib s c * wib s c := Nat.mul_le_mul_right _ hy
    _ = wib s c * hib s c := by ring

end Sys2Proof.Machine
end

