-- ==== Sys2Proof/Laws/Histogram.lean ====
section
/-! SUPPORT. What HCLR, HSCAN's counting and HBUILD's reading and writing do to HIST and HUFF, said once
(42_huffman.md R161 to R163). -/

namespace Sys2Proof.Machine

/-! ### Clearing -/

theorem read_clearSlot (h : Bank Word 8) (t u i : Nat) :
    Bank.read (clearSlot h t) u i = if u = t ∧ t < 8 ∧ i < slotSize t then some 0 else Bank.read h u i := by
  unfold clearSlot
  rw [Bank.read_writeRun]
  simp only [List.length_replicate, Nat.zero_le, true_and, Nat.zero_add, Nat.sub_zero]
  split
  · rename_i hc; simp [hc.2.2]
  · rfl

/-- Slots are cleared where the mask says, and nothing else is (42_huffman.md R161). -/
theorem read_clearSlots (mask : BitVec 8) (h : Bank Word 8) (u i : Nat) :
    Bank.read (clearSlots mask h) u i =
      if u < 8 ∧ mask.getLsbD u = true ∧ i < slotSize u then some 0 else Bank.read h u i := by
  have key : ∀ n ≤ 8, Bank.read
      ((List.range n).foldl (fun h t => if mask.getLsbD t then clearSlot h t else h) h) u i =
      if u < n ∧ mask.getLsbD u = true ∧ i < slotSize u then some 0 else Bank.read h u i := by
    intro n
    induction n with
    | zero => intro _; simp
    | succ n ih =>
      intro hn
      rw [List.range_succ, List.foldl_append, List.foldl_cons, List.foldl_nil]
      by_cases hm : mask.getLsbD n = true
      · rw [if_pos hm, read_clearSlot, ih (by omega)]
        by_cases hu : u = n
        · subst hu
          by_cases hi : i < slotSize u
          · rw [if_pos ⟨rfl, by omega, hi⟩, if_pos ⟨by omega, hm, hi⟩]
          · rw [if_neg (by tauto), if_neg (by tauto), if_neg (by tauto)]
        · rw [if_neg (by tauto)]
          refine if_congr ?_ rfl rfl
          constructor
          · rintro ⟨h1, h2⟩; exact ⟨by omega, h2⟩
          · rintro ⟨h1, h2⟩; exact ⟨by omega, h2⟩
      · rw [if_neg hm, ih (by omega)]
        refine if_congr ?_ rfl rfl
        constructor
        · rintro ⟨h1, h2⟩; exact ⟨by omega, h2⟩
        · rintro ⟨h1, h2, h3⟩
          refine ⟨?_, h2, h3⟩
          by_contra hc
          obtain rfl : u = n := by omega
          exact hm h2
  exact key 8 (le_refl _)

/-- A property of banks that clearing a slot keeps, clearing the selected slots keeps. -/
theorem clearSlots_induct {P : Bank Word 8 → Prop} (hP : ∀ h, ∀ t < 8, P h → P (clearSlot h t)) (mask : BitVec 8)
    {h : Bank Word 8} (h0 : P h) : P (clearSlots mask h) := by
  have key : ∀ n ≤ 8, P ((List.range n).foldl (fun h t => if mask.getLsbD t then clearSlot h t else h) h) := by
    intro n
    induction n with
    | zero => intro _; simpa using h0
    | succ n ih =>
      intro hn
      rw [List.range_succ, List.foldl_append, List.foldl_cons, List.foldl_nil]
      split
      · exact hP _ n (by omega) (ih (by omega))
      · exact ih (by omega)
  exact key 8 (le_refl _)

theorem wf_clearSlots (mask : BitVec 8) {h : Bank Word 8} (hw : Bank.wf h = true) :
    Bank.wf (clearSlots mask h) = true :=
  clearSlots_induct (P := fun h => Bank.wf h = true) (fun _ _ _ hb => Bank.wf_writeRun hb _ _ _) mask hw

theorem within_clearSlots (mask : BitVec 8) {h : Bank Word 8} (hb : Bank.within h slotSize = true) :
    Bank.within (clearSlots mask h) slotSize = true :=
  clearSlots_induct (P := fun h => Bank.within h slotSize = true)
    (fun _ _ _ hb => Bank.within_writeRun hb (by simp)) mask hb

/-! ### Counting -/

/-- What counting one token can do (42_huffman.md R162). -/
theorem countToken_eq_ok {h h' : Bank Word 8} {tok : Token} (e : countToken h tok = .ok h') :
    (∃ t sy n, tok = .sym t sy ∧ Bank.read h t sy = some n ∧ n ≠ 0xFFFFFFFF#32 ∧ h' = Bank.write h t sy (n + 1)) ∨
      ((∀ t sy, tok ≠ .sym t sy) ∧ h' = h) := by
  cases tok with
  | sym t sy =>
    simp only [countToken] at e
    split at e
    · cases e
    · rename_i n hn
      rw [needed_eq_ok_iff] at hn
      split at e
      · cases e
      · rename_i hne
        cases e
        exact .inl ⟨t, sy, n, rfl, hn, hne, rfl⟩
  | bits n v => cases e; exact .inr ⟨by simp, rfl⟩
  | rst n => cases e; exact .inr ⟨by simp, rfl⟩
  | fin => cases e; exact .inr ⟨by simp, rfl⟩

/-- How counting one token can stop (42_huffman.md R162). -/
theorem countToken_eq_error {h : Bank Word 8} {tok : Token} {e : Stop} (he : countToken h tok = .error e) :
    ∃ t sy, tok = .sym t sy ∧
      ((Bank.read h t sy = none ∧ e = .stuck (.unwritten .hist t sy)) ∨
        (Bank.read h t sy = some 0xFFFFFFFF#32 ∧ e = .raised (raiseAt .histovf 0 0 (256 * t + sy)))) := by
  cases tok with
  | sym t sy =>
    simp only [countToken] at he
    split at he
    · rename_i err herr
      cases he
      obtain ⟨h1, h2⟩ := needed_eq_error_iff.1 herr
      exact ⟨t, sy, rfl, .inl ⟨h1, h2⟩⟩
    · rename_i n hn
      rw [needed_eq_ok_iff] at hn
      split at he
      · rename_i hn'
        cases he
        exact ⟨t, sy, rfl, .inr ⟨hn'▸ hn, rfl⟩⟩
      · cases he
  | bits n v => cases he
  | rst n => cases he
  | fin => cases he

/-- A property of banks that a write to a written element keeps, counting keeps. -/
theorem countTokens_induct {P : Bank Word 8 → Prop}
    (hP : ∀ h t sy n v, P h → Bank.read h t sy = some n → P (Bank.write h t sy v)) (toks : List Token)
    {h : Bank Word 8} (h0 : P h) : P (countTokens toks h).1 := by
  induction toks generalizing h with
  | nil => exact h0
  | cons tok toks ih =>
    simp only [countTokens]
    split
    · exact h0
    · rename_i h' e
      apply ih
      rcases countToken_eq_ok e with ⟨t, sy, n, rfl, hr, -, rfl⟩ | ⟨-, rfl⟩
      · exact hP _ _ _ _ _ h0 hr
      · exact h0

theorem wf_countTokens (toks : List Token) {h : Bank Word 8} (hw : Bank.wf h = true) :
    Bank.wf (countTokens toks h).1 = true :=
  countTokens_induct (P := fun h => Bank.wf h = true) (fun _ _ _ _ _ hb _ => Bank.wf_write hb _ _ _) toks hw

theorem within_countTokens (toks : List Token) {h : Bank Word 8} {bound : Nat → Nat}
    (hb : Bank.within h bound = true) : Bank.within (countTokens toks h).1 bound = true :=
  countTokens_induct (P := fun h => Bank.within h bound = true)
    (fun _ _ _ _ _ hb hr => Bank.within_write hb (Bank.read_bound hb hr) _) toks hb

theorem countTokens_append (ts us : List Token) (h : Bank Word 8) :
    countTokens (ts ++ us) h =
      match countTokens ts h with
      | (h', some e) => (h', some e)
      | (h', none) => countTokens us h' := by
  induction ts generalizing h with
  | nil => rfl
  | cons tok ts ih =>
    simp only [List.cons_append, countTokens]
    cases countToken h tok with
    | error e => rfl
    | ok h' => exact ih h'

/-- The only fault of counting is HISTOVF (42_huffman.md R162). -/
theorem countTokens_stop {toks : List Token} {h : Bank Word 8} {r : Raise}
    (e : (countTokens toks h).2 = some (.raised r)) : r.cause = .histovf := by
  induction toks generalizing h with
  | nil => simp [countTokens] at e
  | cons tok toks ih =>
    simp only [countTokens] at e
    split at e
    · rename_i st hst
      simp only [Option.some.injEq] at e
      subst e
      obtain ⟨t, sy, -, ⟨-, h2⟩ | ⟨-, h2⟩⟩ := countToken_eq_error hst
      · cases h2
      · cases h2; rfl
    · exact ih e

/-- Counting one symbol more often than its counter holds room for does not happen: with room for every occurrence, all
tokens are counted, and every counter grows by the number of its symbol's occurrences (42_huffman.md R162). -/
theorem countTokens_room (toks : List Token) (h : Bank Word 8)
    (hroom : ∀ t sy, 0 < toks.count (.sym t sy) →
      ∃ v : Word, Bank.read h t sy = some v ∧ v.toNat + toks.count (.sym t sy) < 2 ^ 32) :
    ∃ h', countTokens toks h = (h', none) ∧ ∀ t sy, Bank.read h' t sy =
      (Bank.read h t sy).map (· + BitVec.ofNat 32 (toks.count (.sym t sy))) := by
  induction toks generalizing h with
  | nil => exact ⟨h, rfl, fun t sy => by cases Bank.read h t sy <;> simp⟩
  | cons tok toks ih =>
    by_cases htok : ∃ t sy, tok = .sym t sy
    · obtain ⟨t, sy, rfl⟩ := htok
      obtain ⟨v, hv, hlt⟩ := hroom t sy (by simp)
      rw [List.count_cons_self] at hlt
      have hne : v ≠ 0xFFFFFFFF#32 := by
        rintro rfl
        simp at hlt
        omega
      have hc : countToken h (.sym t sy) = .ok (Bank.write h t sy (v + 1)) := by
        simp only [countToken, hv, needed_some, hne, if_false]
      have ht8 : t < 8 := by
        by_contra hcon
        simp [Bank.read, show ¬t < 8 from hcon] at hv
      have hv1 : (v + 1).toNat = v.toNat + 1 := by
        rw [BitVec.toNat_add]
        simp only [show (1 : Word).toNat = 1 from rfl]
        omega
      obtain ⟨h', he, hr⟩ := ih (Bank.write h t sy (v + 1)) (by
        intro t' sy' hpos
        by_cases hts : t' = t ∧ sy' = sy
        · obtain ⟨rfl, rfl⟩ := hts
          refine ⟨v + 1, ?_, by omega⟩
          rw [Bank.read_write, if_pos ⟨rfl, ht8, rfl⟩]
        · have hn : Token.sym t sy ≠ Token.sym t' sy' := by
            intro e; cases e; exact hts ⟨rfl, rfl⟩
          obtain ⟨w, hw, hwl⟩ := hroom t' sy' (by rw [List.count_cons_of_ne hn]; exact hpos)
          rw [List.count_cons_of_ne hn] at hwl
          refine ⟨w, ?_, hwl⟩
          rw [Bank.read_write, if_neg (by tauto)]
          exact hw)
      refine ⟨h', by simp only [countTokens, hc]; exact he, ?_⟩
      intro t' sy'
      rw [hr, Bank.read_write]
      by_cases hts : t' = t ∧ sy' = sy
      · obtain ⟨rfl, rfl⟩ := hts
        rw [if_pos ⟨rfl, ht8, rfl⟩, hv, List.count_cons_self]
        simp only [Option.map_some, BitVec.ofNat_add]
        congr 1
        rw [BitVec.add_assoc, BitVec.add_comm 1 _]
        rfl
      · have hn : Token.sym t sy ≠ Token.sym t' sy' := by
          intro e; cases e; exact hts ⟨rfl, rfl⟩
        rw [if_neg (by tauto), List.count_cons_of_ne hn]
    · have hc : countToken h tok = .ok h := by
        cases tok with
        | sym t sy => exact absurd ⟨t, sy, rfl⟩ htok
        | bits n v => rfl
        | rst n => rfl
        | fin => rfl
      have hn : ∀ t sy, tok ≠ Token.sym t sy := fun t sy e => htok ⟨t, sy, e⟩
      obtain ⟨h', he, hr⟩ := ih h (by
        intro t sy hpos
        have := hroom t sy (by rw [List.count_cons_of_ne (hn t sy)]; exact hpos)
        rwa [List.count_cons_of_ne (hn t sy)] at this)
      refine ⟨h', by simp only [countTokens, hc]; exact he, ?_⟩
      intro t sy
      rw [hr, List.count_cons_of_ne (hn t sy)]

/-! ### Tables -/

/-- Every code word of a table is either absent, with length 0 and code 0, or one of the table. -/
theorem codeOf_cases (codes : List CodeWord) (sy : Nat) :
    codeOf codes sy = { symbol := sy, len := 0, code := 0 } ∨
      (codeOf codes sy ∈ codes ∧ (codeOf codes sy).symbol = sy) := by
  unfold codeOf
  cases h : codes.find? fun x => x.symbol == sy with
  | none => exact .inl rfl
  | some x =>
    refine .inr ⟨List.mem_of_find?_eq_some h, ?_⟩
    have := List.find?_some h
    simpa using this

/-- No code HBUILD assigns is longer than 16, and each fits its length (42_huffman.md R168, R170). -/
theorem codeOf_sound {h : List Nat} (hl : h.length ≤ 256) (sy : Nat) :
    (codeOf (buildCodes h) sy).len ≤ 16 ∧
      (codeOf (buildCodes h) sy).code < 2 ^ (codeOf (buildCodes h) sy).len := by
  rcases codeOf_cases (buildCodes h) sy with e | ⟨hm, -⟩
  · rw [e]; exact ⟨by norm_num, by norm_num⟩
  · by_cases hne : (h.all (· == 0)) = true
    · simp [buildCodes, hne] at hm
    · obtain ⟨-, -, -, L, -, hL, -, hb, hs, ht⟩ := buildCodes_spec h hl hne
      have h1 := (hb _ hm).2
      have h2 := le_trans (ht _ hm) (Nat.le.intro hs)
      set x := codeOf (buildCodes h) sy
      refine ⟨by omega, ?_⟩
      have : (x.code + 1) * 2 ^ (16 - x.len) ≤ 2 ^ x.len * 2 ^ (16 - x.len) := by
        rw [← pow_add, show x.len + (16 - x.len) = 16 by omega]
        omega
      have := Nat.le_of_mul_le_mul_right this (by positivity)
      omega

theorem slotCounts_eq_ok_iff {h : Bank Word 8} {t : Nat} {cs : List Nat} :
    slotCounts h t = .ok cs ↔
      List.Forall₂ (fun sy c => ∃ n : Word, Bank.read h t sy = some n ∧ c = n.toNat) (List.range (slotSize t)) cs := by
  have e : (fun sy c => (needed .hist t sy (Bank.read h t sy)).map BitVec.toNat = Except.ok (ε := Stop) c) =
      fun sy c => ∃ n : Word, Bank.read h t sy = some n ∧ c = n.toNat := by
    funext sy c
    cases Bank.read h t sy <;> simp [needed, Except.map, eq_comm]
  unfold slotCounts
  rw [mapM_ok_iff, e]

theorem slotCounts_length {h : Bank Word 8} {t : Nat} {cs : List Nat} (e : slotCounts h t = .ok cs) :
    cs.length = slotSize t := by
  rw [slotCounts_eq_ok_iff] at e
  rw [← e.length_eq, List.length_range]

theorem slotSize_le (t : Nat) : slotSize t ≤ 256 := by unfold slotSize; split <;> omega

theorem slotCounts_error {h : Bank Word 8} {t : Nat} {e : Stop} (he : slotCounts h t = .error e) :
    ∃ sy, e = .stuck (.unwritten .hist t sy) := by
  have key : ∀ (l : List Nat) (e : Stop),
      (l.mapM fun sy => (needed .hist t sy (Bank.read h t sy)).map BitVec.toNat) = .error e →
      ∃ sy, e = .stuck (.unwritten .hist t sy) := by
    intro l
    induction l with
    | nil => intro e he; simp [pure, Except.pure] at he
    | cons a l ih =>
      intro e he
      rw [List.mapM_cons] at he
      cases hr : Bank.read h t a with
      | none =>
        simp only [hr, needed, Except.map, bind, Except.bind, Except.error.injEq] at he
        exact ⟨a, he.symm⟩
      | some v =>
        simp only [hr, needed, Except.map, bind, Except.bind] at he
        split at he
        · rename_i err herr
          cases he
          exact ih _ herr
        · cases he
  exact key _ _ he

/-- Everything a next state of HBUILD can be: the slot written whole from the table of the counters (42_huffman.md R163,
R170: HUFFLEN never comes). -/
theorem execHbuild_eq_next_iff {t : BitVec 3} {s u : State} :
    execHbuild t s = .next u ↔ ∃ cs, slotCounts s.mem.hist t.toNat = .ok cs ∧
      u = completeCommand { s with mem := { s.mem with
        huff := Bank.writeRun s.mem.huff t.toNat 0
          ((List.range (slotSize t.toNat)).map fun sy => (codeOf (buildCodes cs) sy).entry) } } := by
  unfold execHbuild
  cases hc : slotCounts s.mem.hist t.toNat with
  | error e =>
    obtain ⟨sy, rfl⟩ := slotCounts_error hc
    simp [endCommand]
  | ok cs =>
    have hl : cs.length ≤ 256 := by rw [slotCounts_length hc]; exact slotSize_le _
    have hf : ((List.range 256).find? fun sy => decide (16 < (codeOf (buildCodes cs) sy).len)) = none := by
      rw [List.find?_eq_none]
      intro sy _
      have := (codeOf_sound hl sy).1
      simp; omega
    simp only [hf, endCommand_none, Host.Outcome.next.injEq, Except.ok.injEq, exists_eq_left', eq_comm]

end Sys2Proof.Machine
end

