-- ==== Sys2Proof/Laws/Serializer.lean ====
section
/-! SUPPORT. What Serialize and its parts can produce, said once (41_serializer.md R130 to R143). -/

namespace Sys2Proof.Machine

/-! ### Numbers -/

/-- `cat(v)` bounds `|v|` from both sides (00_scope.md R12). -/
theorem category_spec {v : Int} (h : v ≠ 0) :
    1 ≤ category v ∧ 2 ^ (category v - 1) ≤ v.natAbs ∧ v.natAbs < 2 ^ category v := by
  have h0 : v.natAbs ≠ 0 := by omega
  rw [category, if_neg h]
  exact ⟨by omega, by simpa using Nat.log2_self_le h0, Nat.lt_log2_self⟩

theorem category_eq_zero_iff {v : Int} : category v = 0 ↔ v = 0 := by
  unfold category
  split <;> simp_all

/-- `cat(v)` is at most `n` where `|v| < 2^n`. -/
theorem category_le {v : Int} {n : Nat} (h : v.natAbs < 2 ^ n) : category v ≤ n := by
  by_cases hv : v = 0
  · simp [category, hv]
  · obtain ⟨h1, h2, -⟩ := category_spec hv
    by_contra hc
    have : 2 ^ n ≤ 2 ^ (category v - 1) := Nat.pow_le_pow_right (by norm_num) (by omega)
    omega

/-- `mag(v, n)` fits in its `n` bits (00_scope.md R12). -/
theorem magnitude_lt {v : Int} (h : v ≠ 0) : magnitude v (category v) < 2 ^ category v := by
  obtain ⟨h1, h2, h3⟩ := category_spec h
  have hp : ((2 ^ category v : Nat) : Int) = (2 : Int) ^ category v := by push_cast; rfl
  unfold magnitude
  split
  · omega
  · rw [← hp]; omega

/-! ### The parts of the serializer -/

/-- The tokens of a part are at most Sym and Bits, in the ranges of 41_serializer.md R131; a DC slot's symbol is at most
11 (42_huffman.md R162). -/
def blockToken : Token → Prop
  | .sym t sy => t < 8 ∧ sy < 256 ∧ (t < 4 → sy ≤ 11)
  | .bits n v => 1 ≤ n ∧ n ≤ 15 ∧ v < 2 ^ n
  | .rst _ => False
  | .fin => False

/-- A part that raises, raises SYMRANGE (41_serializer.md R136, R137, R139). -/
def onlySymrange : Option Stop → Prop
  | none => True
  | some (.raised r) => r.cause = .symrange
  | some (.stuck _) => True

theorem coefAt_eq_ok_iff {s : State} {c b k : Nat} {v : Int} :
    coefAt s c b k = .ok v ↔ ∃ w, Bank.read s.mem.coef c (64 * b + k) = some w ∧ v = w.toInt := by
  unfold coefAt needed
  cases Bank.read s.mem.coef c (64 * b + k) <;> simp [Except.map, eq_comm]

theorem coefAt_error {s : State} {c b k : Nat} {e : Stop} (h : coefAt s c b k = .error e) :
    e = .stuck (.unwritten .coef c (64 * b + k)) := by
  unfold coefAt needed at h
  cases hr : Bank.read s.mem.coef c (64 * b + k) <;> simp [hr, Except.map] at h
  exact h.symm

theorem coefAt_range {s : State} {c b k : Nat} {v : Int} (h : coefAt s c b k = .ok v) :
    -32768 ≤ v ∧ v ≤ 32767 := by
  obtain ⟨w, -, rfl⟩ := coefAt_eq_ok_iff.1 h
  have h1 := BitVec.le_toInt w
  have h2 := BitVec.toInt_lt (x := w)
  norm_num at h1 h2
  omega

theorem dcTokens_tokens (s : State) (e : McuEntry) {td : Nat} (htd : td < 4) (al : Nat) (p : Vector Half 3) :
    (∀ t ∈ (dcTokens s e td al p).1.1, blockToken t) ∧ onlySymrange (dcTokens s e td al p).1.2 := by
  unfold dcTokens
  split
  · rename_i st h
    rw [coefAt_error h]
    exact ⟨by simp, trivial⟩
  · rename_i v h
    dsimp only
    split
    · exact ⟨by simp, rfl⟩
    · rename_i hn
      refine ⟨?_, trivial⟩
      intro t ht
      rcases List.mem_cons.1 ht with rfl | ht
      · exact ⟨by omega, by omega, fun _ => by omega⟩
      · split at ht
        · simp at ht
        · rename_i h0
          obtain rfl := List.mem_singleton.1 ht
          have hd := mt category_eq_zero_iff.2 h0
          exact ⟨by omega, by omega, magnitude_lt hd⟩

theorem dcRefineTokens_tokens (s : State) (e : McuEntry) (al : Nat) :
    (∀ t ∈ (dcRefineTokens s e al).1, blockToken t) ∧ onlySymrange (dcRefineTokens s e al).2 := by
  unfold dcRefineTokens
  split
  · rename_i st h
    rw [coefAt_error h]
    exact ⟨by simp, trivial⟩
  · refine ⟨?_, trivial⟩
    intro t ht
    obtain rfl := List.mem_singleton.1 ht
    refine ⟨by omega, by omega, ?_⟩
    omega

theorem zrl_blockToken {ta : Nat} (h : 4 ≤ ta) (h' : ta < 8) : blockToken (zrl ta) :=
  ⟨h', by omega, by omega⟩

/-- A transformed magnitude below 2^15 has a category of at most 15 (40_quantizer.md R116). -/
theorem acTransform_lt {v : Int} (h : -32767 ≤ v) (h' : v ≤ 32767) (al : Nat) : acTransform v al < 2 ^ 15 := by
  unfold acTransform
  have : v.natAbs / 2 ^ al ≤ v.natAbs := Nat.div_le_self _ _
  omega

theorem acFirst_tokens (s : State) (e : McuEntry) {ta : Nat} (h4 : 4 ≤ ta) (h8 : ta < 8) (al : Nat)
    (ks : List Nat) (r : Nat) :
    (∀ t ∈ (acFirst s e ta al ks r).1, blockToken t) ∧ onlySymrange (acFirst s e ta al ks r).2 := by
  induction ks generalizing r with
  | nil =>
    refine ⟨?_, trivial⟩
    intro t ht
    simp only [acFirst] at ht
    split at ht
    · obtain rfl := List.mem_singleton.1 ht
      exact ⟨h8, by omega, by omega⟩
    · simp at ht
  | cons k ks ih =>
    simp only [acFirst]
    split
    · rename_i st h
      rw [coefAt_error h]
      exact ⟨by simp, trivial⟩
    · rename_i v h
      split
      · exact ⟨by simp, rfl⟩
      · rename_i hv
        split
        · exact ih (r + 1)
        · rename_i ht
          obtain ⟨hr1, hr2⟩ := coefAt_range h
          have hlt := acTransform_lt (v := v) (by omega) hr2 al
          have hne : ((acTransform v al : Nat) : Int) ≠ 0 := by exact_mod_cast ht
          obtain ⟨h1, h2, h3⟩ := category_spec hne
          have hc : category (acTransform v al : Nat) ≤ 15 := category_le (by simpa using hlt)
          refine ⟨?_, (ih 0).2⟩
          intro t hm
          simp only [emitFirst, List.mem_append, List.mem_replicate, List.mem_cons, List.not_mem_nil, or_false] at hm
          rcases hm with (⟨-, rfl⟩ | rfl | rfl) | hm
          · exact zrl_blockToken h4 h8
          · have : r % 16 < 16 := Nat.mod_lt _ (by norm_num)
            exact ⟨h8, by omega, by omega⟩
          · simp only [Int.natAbs_natCast] at h2 h3
            refine ⟨by omega, hc, ?_⟩
            split <;> omega
          · exact (ih 0).1 t hm

theorem bitTokens_blockToken {bs : List Nat} (h : ∀ b ∈ bs, b < 2) : ∀ t ∈ bitTokens bs, blockToken t := by
  intro t ht
  obtain ⟨b, hb, rfl⟩ := List.mem_map.1 ht
  exact ⟨by omega, by omega, by simpa using h b hb⟩

/-- `eob` is at least every position with transformed magnitude 1 (41_serializer.md R139). -/
theorem lastNew_ge {band : List BandCoef} {x : BandCoef} (hx : x ∈ band) (hm : x.mag = 1) : x.k ≤ lastNew band := by
  have key : ∀ (band : List BandCoef) (m : Nat),
      m ≤ band.foldl (fun m x => if x.mag = 1 then max m x.k else m) m ∧
      ∀ x ∈ band, x.mag = 1 → x.k ≤ band.foldl (fun m x => if x.mag = 1 then max m x.k else m) m := by
    intro band
    induction band with
    | nil => intro m; simp
    | cons y ys ih =>
      intro m
      rw [List.foldl_cons]
      obtain ⟨h1, h2⟩ := ih (if y.mag = 1 then max m y.k else m)
      refine ⟨le_trans (by split <;> omega) h1, ?_⟩
      intro x hx hm
      rcases List.mem_cons.1 hx with rfl | hx
      · rw [if_pos hm] at h1 ⊢
        omega
      · exact h2 x hx hm
  exact (key band 0).2 x hx hm

theorem acRefine_tokens {ta eob : Nat} (h4 : 4 ≤ ta) (h8 : ta < 8) {band : List BandCoef}
    (he : ∀ x ∈ band, x.mag = 1 → x.k ≤ eob) (r : Nat) {br : List Nat} (hb : ∀ b ∈ br, b < 2) :
    ∀ t ∈ acRefine ta eob band r br, blockToken t := by
  induction band generalizing r br with
  | nil =>
    intro t ht
    simp only [acRefine] at ht
    split at ht
    · rcases List.mem_cons.1 ht with rfl | ht
      · exact ⟨h8, by omega, by omega⟩
      · exact bitTokens_blockToken hb t ht
    · simp at ht
  | cons x xs ih =>
    have he' : ∀ y ∈ xs, y.mag = 1 → y.k ≤ eob := fun y hy => he y (by simp [hy])
    intro t ht
    simp only [acRefine] at ht
    split at ht
    · exact ih he' (r + 1) hb t ht
    · rename_i h0
      have hbr' : ∀ b ∈ (if 15 < r ∧ x.k ≤ eob then [] else br), b < 2 := by
        intro b hbm
        split at hbm
        · simp at hbm
        · exact hb b hbm
      rcases List.mem_append.1 ht with ht | ht
      · split at ht
        · simp only [List.mem_cons, List.cons_append, List.mem_append, List.mem_replicate] at ht
          rcases ht with rfl | ht | ⟨-, rfl⟩
          · exact zrl_blockToken h4 h8
          · exact bitTokens_blockToken hb t ht
          · exact zrl_blockToken h4 h8
        · simp at ht
      · split at ht
        · refine ih he' _ ?_ t ht
          intro b hbm
          rcases List.mem_append.1 hbm with hbm | hbm
          · exact hbr' b hbm
          · obtain rfl := List.mem_singleton.1 hbm
            omega
        · rename_i h1
          have hx := he x (by simp) (by omega)
          have hr : (if 15 < r ∧ x.k ≤ eob then r % 16 else r) < 16 := by
            split
            · omega
            · omega
          simp only [List.mem_cons, List.cons_append, List.mem_append] at ht
          rcases ht with rfl | rfl | ht | ht
          · exact ⟨h8, by omega, by omega⟩
          · refine ⟨by omega, by omega, ?_⟩; split <;> norm_num
          · exact bitTokens_blockToken hbr' t ht
          · exact ih he' 0 (by simp) t ht

theorem bandCoefs_error {s : State} {e : McuEntry} {al : Nat} {ks : List Nat} {st : Stop}
    (h : bandCoefs s e al ks = .error st) : onlySymrange (some st) := by
  unfold bandCoefs at h
  induction ks generalizing st with
  | nil => simp [pure, Except.pure] at h
  | cons k ks ih =>
    rw [List.mapM_cons] at h
    rcases hc : coefAt s e.comp e.block k with err | v
    · simp [hc, bind, Except.bind] at h
      subst h
      rw [coefAt_error hc]; trivial
    · by_cases hv : v = -32768
      · simp [hc, hv, bind, Except.bind, throw, throwThe, MonadExceptOf.throw] at h
        subst h; rfl
      · simp only [hc, hv, bind, Except.bind, if_false, pure, Except.pure] at h
        split at h
        · rename_i err herr
          cases h
          refine ih ?_
          rw [← herr]
          rfl
        · cases h

theorem acRefineTokens_tokens (s : State) (e : McuEntry) {ta : Nat} (h4 : 4 ≤ ta) (h8 : ta < 8) (al : Nat)
    (ks : List Nat) :
    (∀ t ∈ (acRefineTokens s e ta al ks).1, blockToken t) ∧ onlySymrange (acRefineTokens s e ta al ks).2 := by
  unfold acRefineTokens
  split
  · rename_i st h
    exact ⟨by simp, bandCoefs_error h⟩
  · exact ⟨acRefine_tokens h4 h8 (fun x hx hm => lastNew_ge hx hm) 0 (by simp), trivial⟩

/-- The tokens of one entry, of any kind of scan (41_serializer.md R140). -/
theorem entryTokens_tokens (s : State) (kind : ScanKind) (e : McuEntry) (p : Vector Half 3) :
    (∀ t ∈ (entryTokens s kind e p).1.1, blockToken t) ∧ onlySymrange (entryTokens s kind e p).1.2 := by
  have htd : (scompAt s e.slot).td.toNat < 4 := (scompAt s e.slot).td.isLt
  have hta : (scompAt s e.slot).ta.toNat < 4 := (scompAt s e.slot).ta.isLt
  unfold entryTokens
  dsimp only
  cases kind with
  | seq =>
    have h := dcTokens_tokens s e htd 0 p
    simp only
    split
    · rename_i ts st p' heq
      rw [heq] at h; exact h
    · rename_i ts p' heq
      rw [heq] at h
      have h' := acFirst_tokens s e (ta := 4 + (scompAt s e.slot).ta.toNat) (by omega) (by omega) 0 (positions 1 63) 0
      refine ⟨?_, h'.2⟩
      intro t ht
      rcases List.mem_append.1 ht with ht | ht
      · exact h.1 t ht
      · exact h'.1 t ht
  | dcf => exact dcTokens_tokens s e htd _ p
  | dcr => exact dcRefineTokens_tokens s e _
  | acf => exact acFirst_tokens s e (by omega) (by omega) _ _ _
  | acr => exact acRefineTokens_tokens s e (by omega) (by omega) _ _

theorem mcuTokens_tokens (s : State) (kind : ScanKind) (es : List McuEntry) (p : Vector Half 3) :
    (∀ t ∈ (mcuTokens s kind es p).1.1, blockToken t) ∧ onlySymrange (mcuTokens s kind es p).1.2 := by
  induction es generalizing p with
  | nil => exact ⟨by simp [mcuTokens], trivial⟩
  | cons e es ih =>
    have h := entryTokens_tokens s kind e p
    simp only [mcuTokens]
    split
    · rename_i ts st p' heq
      rw [heq] at h; exact h
    · rename_i ts p' heq
      rw [heq] at h
      refine ⟨?_, (ih p').2⟩
      intro t ht
      rcases List.mem_append.1 ht with ht | ht
      · exact h.1 t ht
      · exact (ih p').1 t ht

/-- Serialize's own faults are SYMRANGE (41_serializer.md R141). -/
theorem serializeFrom_stop (s : State) (kind : ScanKind) (m : Nat) (ms : List (List McuEntry)) (p : Vector Half 3)
    (n : BitVec 3) : onlySymrange (serializeFrom s kind m ms p n).stop := by
  induction ms generalizing m p n with
  | nil => trivial
  | cons mcu ms ih =>
    simp only [serializeFrom]
    split
    · rename_i ts st p' heq
      have := (mcuTokens_tokens s kind mcu (if restartBefore s m = true then predZero else p)).2
      rw [heq] at this
      exact this
    · exact ih _ _ _

/-- Without a fault the tokens end in `End`, and before it there is none (41_serializer.md R141). -/
theorem serializeFrom_fin {s : State} {kind : ScanKind} {m : Nat} {ms : List (List McuEntry)} {p : Vector Half 3}
    {n : BitVec 3} (h : (serializeFrom s kind m ms p n).stop = none) :
    ∃ toks, (serializeFrom s kind m ms p n).tokens = toks ++ [.fin] := by
  induction ms generalizing m p n with
  | nil => exact ⟨[], rfl⟩
  | cons mcu ms ih =>
    simp only [serializeFrom] at h ⊢
    split at h
    · simp at h
    · rename_i ts p' heq
      obtain ⟨toks, e⟩ := ih h
      refine ⟨(if restartBefore s m = true then [Token.rst n.toNat] else []) ++ ts ++ toks, ?_⟩
      simp only [e, List.append_assoc]

/-- Everything the first three steps of HSCAN and ESCAN can answer (42_huffman.md R162, 43_entropy.md R189). -/
theorem scanRun_eq_ok_iff {s : State} {r : Run} :
    scanRun s = .ok r ↔ frameOk s = true ∧ scanOk s = true ∧
      ∃ kind, scanKind s.scan = some kind ∧ r = serialize s kind ∧ ∀ f, r.stop ≠ some (.stuck f) := by
  unfold scanRun
  by_cases hf : frameOk s = true
  · by_cases hs : scanOk s = true
    · simp only [hf, hs, Bool.not_true, Bool.false_eq_true, if_false, true_and]
      cases hk : scanKind s.scan with
      | none => simp
      | some kind =>
        simp only [Option.some.injEq, exists_eq_left']
        cases hst : (serialize s kind).stop with
        | none => simp only [Except.ok.injEq]; constructor
                  · rintro rfl; simp_all
                  · rintro ⟨rfl, -⟩; rfl
        | some st =>
          cases st with
          | raised x => simp only [Except.ok.injEq]; constructor
                        · rintro rfl; simp_all
                        · rintro ⟨rfl, -⟩; rfl
          | stuck f => simp only [reduceCtorEq, false_iff]; rintro ⟨rfl, h⟩; exact h f hst
    · simp [hf, hs]
  · simp [hf]

/-- A scan that ends early, ends in SYMRANGE; one that does not, ends in `End`. -/
theorem scanRun_stop {s : State} {r : Run} (h : scanRun s = .ok r) :
    (∃ x, r.stop = some (.raised x) ∧ x.cause = .symrange) ∨
      (r.stop = none ∧ ∃ toks, r.tokens = toks ++ [.fin]) := by
  obtain ⟨-, -, kind, -, rfl, hns⟩ := scanRun_eq_ok_iff.1 h
  have hs := serializeFrom_stop s kind 0 (mcuList s) predZero 0
  cases hst : (serialize s kind).stop with
  | none => exact .inr ⟨rfl, serializeFrom_fin hst⟩
  | some st =>
    cases st with
    | raised x =>
      refine .inl ⟨x, rfl, ?_⟩
      change onlySymrange (serialize s kind).stop at hs
      rw [hst] at hs; exact hs
    | stuck f => exact absurd hst (hns f)

/-- A scan that answers no run stops at the frame, at the scan, or at a never-written coefficient. -/
theorem scanRun_error {s : State} {e : Stop} (h : scanRun s = .error e) :
    (frameOk s = false ∧ e = .raised (raiseAt .badcfg 0 0 1)) ∨
      (frameOk s = true ∧ scanOk s = false ∧ e = .raised (raiseAt .badcfg 0 0 4)) ∨ ∃ f, e = .stuck f := by
  unfold scanRun at h
  by_cases hf : frameOk s = true
  · by_cases hs : scanOk s = true
    · simp only [hf, hs, Bool.not_true, Bool.false_eq_true, if_false] at h
      have hk : (scanKind s.scan).isSome = true := by
        simp only [scanOk, Bool.and_eq_true] at hs
        exact hs.1.2
      obtain ⟨kind, hk⟩ := Option.isSome_iff_exists.1 hk
      rw [hk] at h
      simp only at h
      split at h
      · rename_i f _
        cases h; exact .inr (.inr ⟨f, rfl⟩)
      · cases h
    · have hs' : scanOk s = false := by simpa using hs
      simp only [hf, hs', Bool.not_true, Bool.false_eq_true, if_false, Bool.not_false, if_true, Except.error.injEq] at h
      exact .inr (.inl ⟨hf, hs', h.symm⟩)
  · have hf' : frameOk s = false := by simpa using hf
    simp only [hf', Bool.not_false, if_true, Except.error.injEq] at h
    exact .inl ⟨hf', h.symm⟩

end Sys2Proof.Machine
end

