-- ==== Sys2Proof/Laws/Commands.lean ====
section
/-! SUPPORT. What HSCAN and ESCAN can answer, what each host access can answer, and what a move of the sequencer can
answer, each said once, so that no later proof unfolds them. -/

namespace Sys2Proof.Machine

/-- HSCAN's state before it ends: PRED, RSTN and HIST alone have changed (42_huffman.md R162). -/
def hscanState (s : State) (r : Run) : State :=
  { s with pred := r.pred, rstn := r.rstn, mem := { s.mem with hist := (countTokens r.tokens s.mem.hist).1 } }

/-- Everything a next state of HSCAN can be (42_huffman.md R162). -/
theorem execHscan_eq_next_iff {s t : State} :
    execHscan s = .next t ↔
      (∃ x, scanRun s = .error (.raised x) ∧ t = faultEntry x s) ∨
      (∃ r, scanRun s = .ok r ∧ (countTokens r.tokens s.mem.hist).2 = none ∧ r.stop = none ∧
        t = completeCommand (hscanState s r)) ∨
      (∃ r x, scanRun s = .ok r ∧ (countTokens r.tokens s.mem.hist).2.or r.stop = some (.raised x) ∧
        t = faultEntry x (hscanState s r)) := by
  unfold execHscan
  cases hr : scanRun s with
  | error e => cases e <;> simp [endCommand, eq_comm]
  | ok r =>
    simp only [endCommand_eq_next_iff, Except.ok.injEq, reduceCtorEq, false_and, exists_false, false_or,
      exists_eq_left']
    constructor
    · rintro (⟨h, rfl⟩ | ⟨x, h, rfl⟩)
      · rw [Option.or_eq_none_iff] at h
        exact .inl ⟨h.1, h.2, rfl⟩
      · exact .inr ⟨r, x, rfl, h, rfl⟩
    · rintro (⟨h, h', rfl⟩ | ⟨r', x, rfl, h, rfl⟩)
      · exact .inl ⟨by rw [h, h']; rfl, rfl⟩
      · exact .inr ⟨x, h, rfl⟩

/-- ESCAN's state before the first token: an empty accumulator, PRED and RSTN as Serialize leaves them
(43_entropy.md R189). -/
def escanStart (s : State) (r : Run) : State := { s with acc := 0, nacc := 0, pred := r.pred, rstn := r.rstn }

/-- Everything a next state of ESCAN can be (43_entropy.md R189, R190). -/
theorem execEscan_eq_next_iff {s t : State} :
    execEscan s = .next t ↔
      (∃ x, scanRun s = .error (.raised x) ∧ t = faultEntry x s) ∨
      (∃ r, scanRun s = .ok r ∧ (codeTokens r.tokens (escanStart s r)).2 = none ∧ r.stop = none ∧
        t = completeCommand (codeTokens r.tokens (escanStart s r)).1) ∨
      (∃ r x, scanRun s = .ok r ∧ (codeTokens r.tokens (escanStart s r)).2.or r.stop = some (.raised x) ∧
        t = faultEntry x (codeTokens r.tokens (escanStart s r)).1) := by
  unfold execEscan
  cases hr : scanRun s with
  | error e => cases e <;> simp [endCommand, eq_comm]
  | ok r =>
    simp only [endCommand_eq_next_iff, Except.ok.injEq, reduceCtorEq, false_and, exists_false, false_or,
      exists_eq_left']
    constructor
    · rintro (⟨h, rfl⟩ | ⟨x, h, rfl⟩)
      · rw [Option.or_eq_none_iff] at h
        exact .inl ⟨h.1, h.2, rfl⟩
      · exact .inr ⟨r, x, rfl, h, rfl⟩
    · rintro (⟨h, h', rfl⟩ | ⟨r', x, rfl, h, rfl⟩)
      · exact .inl ⟨by change (codeTokens r.tokens (escanStart s r)).2.or r.stop = none; rw [h, h']; rfl, rfl⟩
      · exact .inr ⟨x, h, rfl⟩

theorem escanStart_sound (s : State) (r : Run) : AccSound (escanStart s r) := AccSound.of_empty rfl rfl

/-- The only fault of coding is NOCODE (43_entropy.md R185). -/
theorem codeTokens_stop {toks : List Token} {s : State} {r : Raise} (e : (codeTokens toks s).2 = some (.raised r)) :
    r.cause = .nocode := by
  induction toks generalizing s with
  | nil => simp [codeTokens] at e
  | cons tok toks ih =>
    simp only [codeTokens] at e
    split at e
    · rename_i st hst
      simp only [Option.some.injEq] at e
      subst e
      cases tok with
      | sym t sy =>
        simp only [codeToken] at hst
        split at hst
        · rename_i err herr
          cases hst
          obtain ⟨-, h2⟩ := needed_eq_error_iff.1 herr
          cases h2
        · split at hst
          · cases hst; rfl
          · cases hst
      | bits n v => cases hst
      | rst n => cases hst
      | fin => cases hst
    · exact ih e

/-- Everything a next state of the sequencer's step can be (30_encoding.md R98). -/
theorem sequencerStep_eq_next_iff {s t : State} :
    sequencerStep s = .next t ↔
      (s.status.busy = false ∧ t = s) ∨
      (s.status.busy = true ∧ ((∃ i, decode s.cmdreg = .ok i ∧ exec i s = .next t) ∨
        ((∃ e, decode s.cmdreg = .error e) ∧
          t = faultEntry { cause := .badcmd, c := 0, k := 0, aux := s.cmdreg } s))) := by
  unfold sequencerStep runCommand
  cases hb : s.status.busy with
  | false => simp [eq_comm]
  | true =>
    cases hd : decode s.cmdreg with
    | ok i => simp
    | error e => simp [eq_comm]

/-- Only ESCAN and PUTB append to OUT (43_entropy.md R181). -/
theorem runCommand_out {s t : State} (he : decode s.cmdreg ≠ .ok .escan) (hp : ∀ b, decode s.cmdreg ≠ .ok (.putb b))
    (h : runCommand s = .next t) : t.out = s.out := by
  unfold runCommand at h
  split at h
  · rename_i i hi
    cases i with
    | nop => cases h; rfl
    | qblk c => obtain ⟨x, -, rfl⟩ | ⟨rs, -, rfl⟩ := execQblk_eq_next_iff.1 h <;> rfl
    | hclr m => cases h; rfl
    | hscan =>
      obtain ⟨x, -, rfl⟩ | ⟨r, -, -, -, rfl⟩ | ⟨r, x, -, -, rfl⟩ := execHscan_eq_next_iff.1 h <;> rfl
    | hbuild n => obtain ⟨cs, -, rfl⟩ := execHbuild_eq_next_iff.1 h; rfl
    | escan => exact absurd hi he
    | putb b => exact absurd hi (hp b)
  · cases h; rfl

theorem appendedBytes_eq_some {s : State} {n : Nat} (h : appendedBytes s = some n) :
    ∃ t, runCommand s = .next t ∧ n = t.out.length - s.out.length := by
  unfold appendedBytes at h
  split at h
  · rename_i t ht
    exact ⟨t, ht, (Option.some.inj h).symm⟩
  all_goals cases h

/-- OUTCNT is exact while a command runs that appends nothing (10_state.md R44). -/
theorem busyOutcnt_of_not_append {s : State} (he : decode s.cmdreg ≠ .ok .escan)
    (hp : ∀ b, decode s.cmdreg ≠ .ok (.putb b)) : busyOutcnt s = s.outcnt := by
  have key : ∀ u : State, u.cmdreg = s.cmdreg → ∀ n, appendedBytes u = some n → n = 0 := by
    intro u hu n hn
    obtain ⟨t, ht, rfl⟩ := appendedBytes_eq_some hn
    rw [runCommand_out (by rwa [hu]) (by rwa [hu]) ht, Nat.sub_self]
  unfold busyOutcnt
  have h0 : ((appendedBytes s).or (appendedBytes (withFreeElements s))).getD 0 = 0 := by
    cases h1 : appendedBytes s with
    | some n => exact key s rfl n h1
    | none =>
      cases h2 : appendedBytes (withFreeElements s) with
      | some n => exact key (withFreeElements s) rfl n h2
      | none => rfl
  simp [h0, Nat.mod_one]

/-- Everything a next state of the aborting soft reset can be (70_reset_and_hazards.md R231, R232): memory is as it was,
or as the command's step leaves it. -/
theorem writeSrst_next {s t : State} (h : writeSrst s = .next t) :
    ∃ m o f, t = softReset { s with mem := m, out := o, free := f } ∧
      (m = s.mem ∨ (s.status.busy = true ∧ ∃ u, runCommand s = .next u ∧ m = u.mem)) ∧
      (∃ bytes, o = s.out ++ bytes ∧ (s.status.busy = false → bytes = [])) := by
  unfold writeSrst at h
  split at h
  · rename_i hb
    split at h
    · split at h
      · rename_i u hu
        cases h
        exact ⟨u.mem, _, s.free + 2, rfl, .inr ⟨hb, u, hu, rfl⟩, _, rfl, by simp [hb]⟩
      · cases h
      · cases h
    · cases h
      exact ⟨s.mem, s.out, s.free + 2, rfl, .inl rfl, [], by simp, fun _ => rfl⟩
  · cases h
    exact ⟨s.mem, s.out, s.free, rfl, .inl rfl, [], by simp, fun _ => rfl⟩

/-- A host read changes what it returns, MIDX, ACCERR and the count of free values at most (20_memory.md R72). -/
theorem hostRead_eq (addr width : Nat) (s : State) : ∃ w m a n,
    hostRead addr width s = { s with busData := w, midx := m, free := n, status := { s.status with accerr := a } } := by
  have hself : ∀ w, answer w s = { s with
      busData := w, midx := s.midx, free := s.free, status := { s.status with accerr := s.status.accerr } } := fun _ => rfl
  have hacc : answer 0 (setAccerr s) = { s with
      busData := 0, midx := s.midx, free := s.free, status := { s.status with accerr := true } } := rfl
  unfold hostRead
  split
  · dsimp only
    split
    · split
      · rename_i r _
        have hport : ∃ w m a n, answer (readPort s).1 (readPort s).2 =
            { s with busData := w, midx := m, free := n, status := { s.status with accerr := a } } := by
          unfold readPort
          split
          · exact ⟨_, _, _, _, hacc⟩
          · split
            · exact ⟨_, _, _, _, hacc⟩
            · split
              · exact ⟨_, s.midx + 1, s.status.accerr, s.free, rfl⟩
              · exact ⟨_, s.midx + 1, s.status.accerr, s.free + 1, rfl⟩
        have hcnt : ∃ w m a n, answer (readOutcnt s).1 (readOutcnt s).2 =
            { s with busData := w, midx := m, free := n, status := { s.status with accerr := a } } := by
          unfold readOutcnt
          split
          · exact ⟨_, s.midx, s.status.accerr, s.free + 1, rfl⟩
          · exact ⟨_, _, _, _, hself _⟩
        cases r <;> first
          | exact hport
          | exact hcnt
          | exact ⟨_, _, _, _, hself _⟩
      · exact ⟨_, _, _, _, hacc⟩
    · exact ⟨_, _, _, _, hacc⟩
  · exact ⟨s.busData, s.midx, s.status.accerr, s.free, rfl⟩

/-- Everything a next state of a host write can be: the access is outside the block, it is a write of one register, or
ACCERR is set (20_memory.md R71, 10_state.md R26). -/
theorem hostWrite_next {addr width : Nat} {w : Word} {s t : State} (h : hostWrite addr width w s = .next t) :
    t = s ∨ t = setAccerr s ∨ ∃ r, writeReg r w s = .next t := by
  unfold hostWrite at h
  split at h
  · dsimp only at h
    split at h
    · split at h
      · rename_i r _
        exact .inr (.inr ⟨r, h⟩)
      · cases h; exact .inr (.inl rfl)
    · cases h; exact .inr (.inl rfl)
  · cases h; exact .inl rfl

/-- Everything a next state of a write to a register can be (10_state.md R26, R32 to R34; 70_reset_and_hazards.md R243). -/
theorem writeReg_next {r : Reg} {w : Word} {s t : State} (h : writeReg r w s = .next t) :
    t = s ∨ t = setAccerr s ∨
      (r = .ctrl ∧ w.getLsbD 0 = true ∧ writeSrst s = .next t) ∨
      (r = .ctrl ∧ w.getLsbD 0 = false ∧ s.status.busy = false ∧ t = storeCtrl w s) ∨
      (r = .status ∧ t = writeStatus w s) ∨ (r = .ie ∧ t = storeIe w s) ∨
      (r = .cmd ∧ t = setCmdovr s) ∨
      (r = .cmd ∧ s.status.busy = false ∧ s.status.fault = false ∧ t = acceptCommand w s) ∨
      (r = .mdata ∧ s.status.busy = false ∧ ∃ sp u i, selected s = some (sp, u, i) ∧
        (sp = .huff → huffLegal (huffOf w) = true) ∧ t = advance { s with mem := writeElement s.mem sp u i w }) ∨
      (isPlain r = true ∧ s.status.busy = false ∧ t = storeReg r w s) := by
  have plain : ∀ r', isPlain r' = true → writeReg r' w s = .next (unlessBusy s (storeReg r' w s)) := by
    intro r' hr'
    cases r' <;> first | rfl | cases hr'
  have ro : unlessBusy s s = s ∨ unlessBusy s s = setAccerr s := by unfold unlessBusy; split <;> simp
  by_cases hp : isPlain r = true
  · rw [plain r hp] at h
    cases h
    unfold unlessBusy
    split
    · exact .inr (.inl rfl)
    · rename_i hb
      have : s.status.busy = false := by simpa using hb
      iterate 8 apply Or.inr
      exact .inr ⟨hp, this, rfl⟩
  · cases r with
    | id => cases h; rcases ro with e | e <;> rw [e] <;> simp
    | finfo => cases h; rcases ro with e | e <;> rw [e] <;> simp
    | faux => cases h; rcases ro with e | e <;> rw [e] <;> simp
    | outcnt => cases h; rcases ro with e | e <;> rw [e] <;> simp
    | ctrl =>
      simp only [writeReg] at h
      split at h
      · rename_i hw
        exact .inr (.inr (.inl ⟨rfl, hw, h⟩))
      · rename_i hw
        cases h
        have hw' : w.getLsbD 0 = false := by simpa using hw
        unfold unlessBusy
        split
        · exact .inr (.inl rfl)
        · rename_i hb
          exact .inr (.inr (.inr (.inl ⟨rfl, hw', by simpa using hb, rfl⟩)))
    | status => cases h; exact .inr (.inr (.inr (.inr (.inl ⟨rfl, rfl⟩))))
    | ie => cases h; exact .inr (.inr (.inr (.inr (.inr (.inl ⟨rfl, rfl⟩)))))
    | cmd =>
      cases h
      unfold writeCmd
      split
      · iterate 6 apply Or.inr
        exact .inl ⟨rfl, rfl⟩
      · rename_i hc
        simp only [Bool.or_eq_true, not_or, Bool.not_eq_true] at hc
        iterate 7 apply Or.inr
        exact .inl ⟨rfl, hc.1, hc.2, rfl⟩
    | mdata =>
      cases h
      unfold writePort
      split
      · exact .inr (.inl rfl)
      · rename_i hb
        split
        · exact .inr (.inl rfl)
        · rename_i sp u i hsel
          split
          · exact .inr (.inl rfl)
          · rename_i hl
            iterate 8 apply Or.inr
            refine .inl ⟨rfl, by simpa using hb, sp, u, i, hsel, ?_, rfl⟩
            intro e
            by_contra hcon
            exact hl ⟨e, by simpa using hcon⟩
    | frame | mcux | mcuy | comp0 | comp1 | comp2 | qfconst | dcmul | qpos => exact absurd rfl hp
    | scan | scomp0 | scomp1 | scomp2 | niw | nih | ri | msel | midx => exact absurd rfl hp

/-- A plain register's store leaves memory, flags, output and the working registers alone. -/
theorem storeReg_frame (r : Reg) (w : Word) (s : State) :
    (storeReg r w s).mem = s.mem ∧ (storeReg r w s).status = s.status ∧ (storeReg r w s).finfo = s.finfo ∧
    (storeReg r w s).faux = s.faux ∧ (storeReg r w s).acc = s.acc ∧ (storeReg r w s).nacc = s.nacc ∧
    (storeReg r w s).out = s.out ∧ (storeReg r w s).outcnt = s.outcnt ∧ (storeReg r w s).received = s.received ∧
    (storeReg r w s).params = s.params ∧ (storeReg r w s).cmdreg = s.cmdreg ∧ (storeReg r w s).ie = s.ie ∧
    (storeReg r w s).ctrl = s.ctrl ∧ (storeReg r w s).agenda = s.agenda := by
  cases r <;> exact ⟨rfl, rfl, rfl, rfl, rfl, rfl, rfl, rfl, rfl, rfl, rfl, rfl, rfl, rfl⟩

end Sys2Proof.Machine
end

