-- ==== Sys2Proof/Laws/FreeElements.lean ====
section
/-! SUPPORT. An ESCAN for which every element it may read holds a value is never the model's own stop, so the range in
which OUTCNT reads while it runs is known (10_state.md R44, 20_memory.md R80, R81). -/

namespace Sys2Proof.Machine

/-- The stop is not the model's own. -/
def Unstuck (o : Option Stop) : Prop := ∀ f, o ≠ some (.stuck f)

theorem unstuck_none : Unstuck none := fun _ h => by cases h

theorem unstuck_raised (r : Raise) : Unstuck (some (.raised r)) := fun _ h => by cases h

/-- Every coefficient of the entry's block is written. -/
def EntryWritten (s : State) (e : McuEntry) : Prop :=
  ∀ k < 64, ∃ w, Bank.read s.mem.coef e.comp (64 * e.block + k) = some w

theorem EntryWritten.coefAt {s : State} {e : McuEntry} (h : EntryWritten s e) {k : Nat} (hk : k < 64) :
    ∃ v, coefAt s e.comp e.block k = .ok v := by
  obtain ⟨w, hw⟩ := h k hk
  exact ⟨_, coefAt_eq_ok_iff.2 ⟨w, hw, rfl⟩⟩

theorem dcTokens_unstuck {s : State} {e : McuEntry} (h : EntryWritten s e) (td al : Nat) (p : Vector Half 3) :
    Unstuck (dcTokens s e td al p).1.2 := by
  obtain ⟨v, hv⟩ := h.coefAt (k := 0) (by norm_num)
  simp only [dcTokens, hv]
  split
  · exact unstuck_raised _
  · exact unstuck_none

theorem acFirst_unstuck {s : State} {e : McuEntry} (h : EntryWritten s e) (ta al : Nat) {ks : List Nat}
    (hk : ∀ k ∈ ks, k < 64) (r : Nat) : Unstuck (acFirst s e ta al ks r).2 := by
  induction ks generalizing r with
  | nil => exact unstuck_none
  | cons k ks ih =>
    have ih := ih fun j hj => hk j (List.mem_cons_of_mem _ hj)
    obtain ⟨v, hv⟩ := h.coefAt (hk k (by simp))
    simp only [acFirst, hv]
    split
    · exact unstuck_raised _
    · split
      · exact ih _
      · exact ih _

theorem bandCoefs_unstuck {s : State} {e : McuEntry} (h : EntryWritten s e) (al : Nat) {ks : List Nat}
    (hk : ∀ k ∈ ks, k < 64) {st : Stop} (he : bandCoefs s e al ks = .error st) : Unstuck (some st) := by
  unfold bandCoefs at he
  induction ks generalizing st with
  | nil => simp [pure, Except.pure] at he
  | cons k ks ih =>
    obtain ⟨v, hv⟩ := h.coefAt (hk k (by simp))
    rw [List.mapM_cons] at he
    by_cases hm : v = -32768
    · simp [hv, hm, bind, Except.bind, throw, throwThe, MonadExceptOf.throw] at he
      subst he
      exact unstuck_raised _
    · simp only [hv, hm, bind, Except.bind, if_false, pure, Except.pure] at he
      split at he
      · rename_i err herr
        cases he
        exact ih (fun j hj => hk j (List.mem_cons_of_mem _ hj)) herr
      · cases he

theorem mem_positions {k k0 k1 : Nat} (h : k ∈ positions k0 k1) : k ≤ k1 := by
  rw [positions, List.mem_range'_1] at h
  omega

theorem entryTokens_unstuck {s : State} {e : McuEntry} (h : EntryWritten s e) (kind : ScanKind) (p : Vector Half 3) :
    Unstuck (entryTokens s kind e p).1.2 := by
  have hse : ∀ k ∈ positions s.scan.ss.toNat s.scan.se.toNat, k < 64 := fun k hk =>
    lt_of_le_of_lt (mem_positions hk) s.scan.se.isLt
  unfold entryTokens
  dsimp only
  cases kind with
  | seq =>
    have hd := dcTokens_unstuck h (scompAt s e.slot).td.toNat 0 p
    simp only
    split
    · rename_i ts st p' heq
      rw [heq] at hd; exact hd
    · exact acFirst_unstuck h _ _ (fun k hk => by have := mem_positions hk; omega) _
  | dcf => exact dcTokens_unstuck h _ _ p
  | dcr =>
    obtain ⟨v, hv⟩ := h.coefAt (k := 0) (by norm_num)
    simp only [dcRefineTokens, hv]
    exact unstuck_none
  | acf => exact acFirst_unstuck h _ _ hse _
  | acr =>
    simp only [acRefineTokens]
    split
    · rename_i st hb
      exact bandCoefs_unstuck h _ hse hb
    · exact unstuck_none

theorem mcuTokens_unstuck {s : State} {es : List McuEntry} (h : ∀ e ∈ es, EntryWritten s e) (kind : ScanKind)
    (p : Vector Half 3) : Unstuck (mcuTokens s kind es p).1.2 := by
  induction es generalizing p with
  | nil => exact unstuck_none
  | cons e es ih =>
    have he := entryTokens_unstuck (h e (by simp)) kind p
    simp only [mcuTokens]
    split
    · rename_i ts st p' heq
      rw [heq] at he; exact he
    · exact ih (fun e' h' => h e' (List.mem_cons_of_mem _ h')) _

/-- A scan whose blocks are all written is not the model's own stop, and every symbol of its tokens is in range. -/
theorem serializeFrom_written {s : State} {ms : List (List McuEntry)}
    (h : ∀ es ∈ ms, ∀ e ∈ es, EntryWritten s e) (kind : ScanKind) (m : Nat) (p : Vector Half 3) (n : BitVec 3) :
    Unstuck (serializeFrom s kind m ms p n).stop ∧
      ∀ t sy, Token.sym t sy ∈ (serializeFrom s kind m ms p n).tokens → blockToken (.sym t sy) := by
  induction ms generalizing m p n with
  | nil => exact ⟨unstuck_none, by simp [serializeFrom]⟩
  | cons mcu ms ih =>
    have ih := ih fun es hes => h es (List.mem_cons_of_mem _ hes)
    have hmarks : ∀ t sy, Token.sym t sy ∉ (if restartBefore s m = true then [Token.rst n.toNat] else []) := by
      intro t sy; split <;> simp
    have hm := mcuTokens_unstuck (h mcu (by simp)) kind (if restartBefore s m = true then predZero else p)
    have ht := (mcuTokens_tokens s kind mcu (if restartBefore s m = true then predZero else p)).1
    simp only [serializeFrom]
    split
    · rename_i ts st p' heq
      rw [heq] at hm ht
      refine ⟨hm, fun t sy hmem => ?_⟩
      exact ht _ ((List.mem_append.1 hmem).resolve_left (hmarks t sy))
    · rename_i ts p' heq
      rw [heq] at ht
      refine ⟨(ih _ _ _).1, fun t sy hmem => ?_⟩
      rcases List.mem_append.1 hmem with hmem | hmem
      · exact ht _ ((List.mem_append.1 hmem).resolve_left (hmarks t sy))
      · exact (ih _ _ _).2 t sy hmem

/-- The blocks of a legal scan lie inside COEF (10_state.md R54 (d), 20_memory.md R80). -/
theorem mcuList_bound {s : State} (hf : frameOk s = true) (hs : scanOk s = true) {es : List McuEntry}
    (hes : es ∈ mcuList s) {e : McuEntry} (he : e ∈ es) : e.comp < 3 ∧ e.block < s.params.coefBlocks := by
  simp only [frameOk, Bool.and_eq_true, decide_eq_true_eq, List.all_eq_true, List.mem_range] at hf
  obtain ⟨⟨⟨⟨-, h3⟩, -⟩, -⟩, hcap⟩ := hf
  simp only [scanOk, Bool.and_eq_true, Bool.or_eq_true, decide_eq_true_eq, List.all_eq_true, List.mem_range,
    bne_iff_ne, ne_eq] at hs
  obtain ⟨⟨⟨⟨⟨h1, -⟩, hci⟩, -⟩, -⟩, hext⟩ := hs
  have key : ∀ j < s.scan.ns.toNat, ∀ b < wib s (scompAt s j).ci.toNat * hib s (scompAt s j).ci.toNat,
      (scompAt s j).ci.toNat < 3 ∧ b < s.params.coefBlocks := fun j hj b hb =>
    ⟨lt_of_lt_of_le (hci j hj) h3, lt_of_lt_of_le hb (hcap _ (hci j hj))⟩
  have lin : ∀ {x y w h : Nat}, x < w → y < h → y * w + x < w * h := by
    intro x y w h hx hy
    calc y * w + x < y * w + w := by omega
      _ = w * (y + 1) := by ring
      _ ≤ w * h := Nat.mul_le_mul_left _ hy
  unfold mcuList at hes
  split at hes
  · rename_i hns
    have hns : s.scan.ns.toNat = 1 := by rw [hns]; rfl
    obtain ⟨⟨⟨-, hw⟩, -⟩, hh⟩ := hext.resolve_left (fun h => h hns)
    simp only [List.mem_flatMap, List.mem_map, List.mem_range] at hes
    obtain ⟨y, hy, x, hx, rfl⟩ := hes
    obtain rfl := List.mem_singleton.1 he
    exact key 0 (by omega) _ (lin (lt_of_lt_of_le hx hw) (lt_of_lt_of_le hy hh))
  · simp only [List.mem_flatMap, List.mem_map, List.mem_range] at hes
    obtain ⟨my, hmy, mx, hmx, rfl⟩ := hes
    simp only [List.mem_flatMap, mcuBlocks, List.mem_map, List.mem_range] at he
    obtain ⟨j, hj, yy, hyy, xx, hxx, rfl⟩ := he
    refine key j hj _ (lin ?_ ?_)
    · rw [wib, Nat.mul_comm s.mcux.toNat, Nat.add_comm, Nat.mul_comm mx]
      calc xx + _ * mx < (compAt s (scompAt s j).ci.toNat).hs.toNat * (mx + 1) := by rw [Nat.mul_add]; omega
        _ ≤ _ := Nat.mul_le_mul_left _ hmx
    · rw [hib, Nat.mul_comm s.mcuy.toNat, Nat.add_comm, Nat.mul_comm my]
      calc yy + _ * my < (compAt s (scompAt s j).ci.toNat).vs.toNat * (my + 1) := by rw [Nat.mul_add]; omega
        _ ≤ _ := Nat.mul_le_mul_left _ hmy

/-- Coding stops at a symbol whose element of HUFF is not written, or at none. -/
theorem codeTokens_unstuck {s : State} {toks : List Token}
    (h : ∀ t sy, Token.sym t sy ∈ toks → ∃ e, Bank.read s.mem.huff t sy = some e) :
    Unstuck (codeTokens toks s).2 := by
  induction toks generalizing s with
  | nil => exact unstuck_none
  | cons tok toks ih =>
    simp only [codeTokens]
    split
    · rename_i st hst
      cases tok with
      | sym t sy =>
        obtain ⟨e, he⟩ := h t sy (by simp)
        simp only [codeToken, he, needed_some] at hst
        split at hst
        · cases hst; exact unstuck_raised _
        · cases hst
      | bits n v => cases hst
      | rst n => cases hst
      | fin => cases hst
    · rename_i s' hs
      refine ih fun t sy hmem => ?_
      obtain ⟨bytes, a, k, e⟩ := codeToken_appends hs
      rw [e]
      exact h t sy (List.mem_cons_of_mem _ hmem)

/-- An ESCAN for which every element it may read holds a value answers a next state (20_memory.md R80). -/
theorem execEscan_written {s : State}
    (hc : ∀ u < 3, ∀ i < 64 * s.params.coefBlocks, ∃ w, Bank.read s.mem.coef u i = some w)
    (hh : ∀ u < 8, ∀ i < slotSize u, ∃ e, Bank.read s.mem.huff u i = some e) : ∃ t, execEscan s = .next t := by
  unfold execEscan
  cases hr : scanRun s with
  | error e =>
    cases e with
    | raised x => exact ⟨_, rfl⟩
    | stuck f =>
      exfalso
      obtain ⟨-, h⟩ | ⟨-, -, h⟩ | ⟨g, hg⟩ := scanRun_error hr
      · cases h
      · cases h
      · unfold scanRun at hr
        split at hr
        · cases hr
        · split at hr
          · cases hr
          · rename_i hf hs
            rw [Bool.not_eq_true, Bool.not_eq_false'] at hf hs
            split at hr
            · cases hr
            · rename_i kind hk
              dsimp only at hr
              split at hr
              · rename_i f' hst
                refine (serializeFrom_written (fun es hes e he k hk' => ?_) kind 0 predZero 0).1 f' hst
                obtain ⟨h1, h2⟩ := mcuList_bound hf hs hes he
                exact hc _ h1 _ (by omega)
              · cases hr
  | ok r =>
    obtain ⟨hf, hs, kind, -, rfl, hns⟩ := scanRun_eq_ok_iff.1 hr
    have hw : ∀ es ∈ mcuList s, ∀ e ∈ es, EntryWritten s e := fun es hes e he k hk' => by
      obtain ⟨h1, h2⟩ := mcuList_bound hf hs hes he
      exact hc _ h1 _ (by omega)
    have hcode := codeTokens_unstuck (s := escanStart s (serialize s kind)) (toks := (serialize s kind).tokens)
      fun t sy hmem => by
        obtain ⟨h8, h256, h11⟩ := (serializeFrom_written hw kind 0 predZero 0).2 t sy hmem
        refine hh t h8 sy ?_
        unfold slotSize
        split
        · have := h11 ‹_›; omega
        · exact h256
    have hend : ∀ (u : State) (o : Option Stop), Unstuck o → ∃ t, endCommand u o = .next t := by
      intro u o ho
      rcases o with _ | x | f
      · exact ⟨_, rfl⟩
      · exact ⟨_, rfl⟩
      · exact absurd rfl (ho f)
    refine hend _ _ fun f hf' => ?_
    rcases Option.or_eq_some_iff.1 hf' with h | ⟨-, h⟩
    · exact hcode f h
    · exact hns f h

/-- An ESCAN answers a next state once the never-written elements hold some values, so `busyOutcnt` has a range. -/
theorem runCommand_withFreeElements {s : State} (he : decode s.cmdreg = .ok .escan) :
    ∃ t, runCommand (withFreeElements s) = .next t := by
  have h : runCommand (withFreeElements s) = execEscan (withFreeElements s) := by
    unfold runCommand
    rw [show (withFreeElements s).cmdreg = s.cmdreg from rfl, he]
    rfl
  rw [h]
  refine execEscan_written (fun u hu i hi => ?_) fun u hu i hi => ?_
  · simp only [withFreeElements, Bank.read_fill]
    cases Bank.read s.mem.coef u i with
    | some w => exact ⟨w, rfl⟩
    | none => exact ⟨_, Option.none_or.trans (if_pos ⟨hu, hi⟩)⟩
  · simp only [withFreeElements, Bank.read_fill]
    cases Bank.read s.mem.huff u i with
    | some w => exact ⟨w, rfl⟩
    | none => exact ⟨_, Option.none_or.trans (if_pos ⟨hu, hi⟩)⟩

/-- The elements that are written keep their values (20_memory.md R81). -/
theorem elementWord_withFreeElements {s : State} {sp : Space} {u i : Nat} {w : Word}
    (h : elementWord s.mem sp u i = some w) : elementWord (withFreeElements s).mem sp u i = some w := by
  cases sp with
  | coef =>
    simp only [elementWord, withFreeElements, Bank.read_fill, Option.map_eq_some_iff] at h ⊢
    obtain ⟨v, hv, rfl⟩ := h
    exact ⟨v, by rw [hv, Option.some_or], rfl⟩
  | huff =>
    simp only [elementWord, withFreeElements, Bank.read_fill, Option.map_eq_some_iff] at h ⊢
    obtain ⟨v, hv, rfl⟩ := h
    exact ⟨v, by rw [hv, Option.some_or], rfl⟩
  | dbuf => exact h
  | qtab => exact h
  | qf => exact h
  | hist => exact h

end Sys2Proof.Machine
end

