-- ==== Sys2Proof/Laws/PerInstr.lean ====
section
/-! SUPPORT. Statements made for every command, one lemma a constructor: the word a command is encoded as satisfies
exactly one row of the opcode map, its own (30_encoding.md R91, R92). -/

/-- The encoder's word is well formed, its opcode field is the command's, and the one match and mask pair it satisfies is
the command's (30_encoding.md R91, R92). -/
def Sys2Proof.Laws.EncodeMatchesTable.Statement (i : Sys2Proof.Instr) : Prop :=
  Sys2Proof.wellFormedWord (Sys2Proof.encode i) = true ∧
  (Sys2Proof.formsOf (Sys2Proof.encode i)).map (·.mnemonic) = [match i with
    | .nop => "NOP"
    | .qblk _ => "QBLK"
    | .hclr _ => "HCLR"
    | .hscan => "HSCAN"
    | .hbuild _ => "HBUILD"
    | .escan => "ESCAN"
    | .putb _ => "PUTB"]

theorem Sys2Proof.Laws.EncodeMatchesTable.nop : Sys2Proof.Laws.EncodeMatchesTable.Statement .nop := by
  unfold Sys2Proof.Laws.EncodeMatchesTable.Statement; decide

theorem Sys2Proof.Laws.EncodeMatchesTable.qblk (c : BitVec 2) :
    Sys2Proof.Laws.EncodeMatchesTable.Statement (.qblk c) := by
  unfold Sys2Proof.Laws.EncodeMatchesTable.Statement; revert c; decide

theorem Sys2Proof.Laws.EncodeMatchesTable.hclr (mask : BitVec 8) :
    Sys2Proof.Laws.EncodeMatchesTable.Statement (.hclr mask) := by
  unfold Sys2Proof.Laws.EncodeMatchesTable.Statement; revert mask; decide +kernel

theorem Sys2Proof.Laws.EncodeMatchesTable.hscan : Sys2Proof.Laws.EncodeMatchesTable.Statement .hscan := by
  unfold Sys2Proof.Laws.EncodeMatchesTable.Statement; decide

theorem Sys2Proof.Laws.EncodeMatchesTable.hbuild (t : BitVec 3) :
    Sys2Proof.Laws.EncodeMatchesTable.Statement (.hbuild t) := by
  unfold Sys2Proof.Laws.EncodeMatchesTable.Statement; revert t; decide

theorem Sys2Proof.Laws.EncodeMatchesTable.escan : Sys2Proof.Laws.EncodeMatchesTable.Statement .escan := by
  unfold Sys2Proof.Laws.EncodeMatchesTable.Statement; decide

theorem Sys2Proof.Laws.EncodeMatchesTable.putb (b : Sys2Proof.Byte) :
    Sys2Proof.Laws.EncodeMatchesTable.Statement (.putb b) := by
  unfold Sys2Proof.Laws.EncodeMatchesTable.Statement; revert b; decide +kernel
end

