-- ==== Sys2Proof/Tests/Slice0.lean ====
section
/-! SUPPORT. The model's own tests: ill-formed words that each check of WellFormed refuses, decode tests from the words of
30_encoding.md, at most two one-step tests for each command with the results of 95_test_vectors.md, and for every
obligation with hypotheses a witness that meets them. -/

namespace Sys2Proof.Tests

open Sys2Proof Sys2Proof.Machine Sys2Proof.Claims

/-! ### WellFormed (30_encoding.md R92) -/

theorem test_z_not_zero_refused : zIsZero 0x00010000#32 = false ∧ wellFormedWord 0x80000006#32 = false := by decide
theorem test_reserved_opcode_refused : opcodeListed 0x07#32 = false ∧ wellFormedWord 0xFF#32 = false := by decide
theorem test_operand_bits_refused :
    operandZeros 0x100#32 = false ∧ operandZeros 0x401#32 = false ∧ operandZeros 0x804#32 = false ∧
      operandZeros 0x103#32 = false ∧ operandZeros 0x105#32 = false := by decide
theorem test_well_formed_words : wellFormedWord 0x301#32 = true ∧ wellFormedWord 0x704#32 = true := by decide

/-! ### Decode: words written out from 30_encoding.md R91 and 95_test_vectors.md 2.7 -/

theorem test_decode_nop : (decode 0b00000000000000000000000000000000#32).toOption = some .nop := by decide
theorem test_decode_qblk : (decode 0b00000000000000000000001000000001#32).toOption = some (.qblk 2) := by decide
theorem test_decode_hclr : (decode 0b00000000000000000001000100000010#32).toOption = some (.hclr 0x11) := by decide
theorem test_decode_hscan : (decode 0b00000000000000000000000000000011#32).toOption = some .hscan := by decide
theorem test_decode_hbuild : (decode 0b00000000000000000000010000000100#32).toOption = some (.hbuild 4) := by decide
theorem test_decode_escan : (decode 0b00000000000000000000000000000101#32).toOption = some .escan := by decide
theorem test_decode_putb : (decode 0b00000000000000001101100000000110#32).toOption = some (.putb 0xD8) := by decide
theorem test_decode_rejects :
    decode 0x00010000#32 = .error (.zNotZero 1) ∧ decode 0x00000007#32 = .error (.reservedOpcode 7) ∧
      decode 0x00000401#32 = .error (.operandBits 1 4) := ⟨rfl, rfl, rfl⟩

/-! ### Small states -/

/-- The next state, where there is one. -/
def nextOf (o : Host.Outcome State Fault Refusal) : Option State :=
  match o with
  | .next s => some s
  | .fault _ => none
  | .refused _ => none

/-- One component, one block, and a scan of DC values alone (kind DCF). -/
def small : State :=
  { State.resetWith { base := 0, coefBlocks := 4, qfCells := 4 } with
    nc := 1, mcux := 1, mcuy := 1, niw := 1, nih := 1
    scan := { ns := 1, ss := 0, se := 0, ah := 0, al := 0 } }

/-- The stores of a bank with one sub-space set. -/
def oneStore {α : Type} {n : Nat} (u : Nat) (st : Store α) : Bank α n := (Vector.replicate n []).setIfInBounds u st

/-- Consecutive elements from index 0 on. -/
def run {α : Type} (vs : List α) : Store α := vs.zipIdx.map fun x => (x.2, x.1)

/-- `small` with the first coefficients of component 0. -/
def withCoef (s : State) (vs : List Half) : State := { s with mem := { s.mem with coef := oneStore 0 (run vs) } }

/-- A state with the first counters of a slot. -/
def withHist (s : State) (t : Nat) (vs : List Word) : State :=
  { s with mem := { s.mem with hist := oneStore t (run vs) } }

/-- A state with the first elements of a slot of HUFF. -/
def withHuff (s : State) (t : Nat) (vs : List HuffEntry) : State :=
  { s with mem := { s.mem with huff := oneStore t (run vs) } }

/-- `small` with a block to quantize: QTAB[0] all 1, and the DBUF word of every coefficient 10.0 (vector Q31). -/
def quantState : State :=
  { small with
    dcmul := 0x40400000#32, qfconst := 0x3F000000#32
    mem := { Memory.empty with
      qtab := oneStore 0 (run (List.replicate 64 1))
      dbuf := oneStore 0 (run (List.replicate 64 0x41200000#32)) } }

/-- The same, with another entry of QTAB[0] at coefficient 0. -/
def quantStateWith (q : Half) : State :=
  { quantState with mem := { quantState.mem with qtab := oneStore 0 (run (q :: List.replicate 63 1)) } }

/-- The same as `quantState`, with other words for coefficients 0 and 1 (natural indices 0 and 1). -/
def quantStateOf (d0 d1 : Word) : State :=
  { quantState with mem := { quantState.mem with
      dbuf := oneStore 0 (run (d0 :: d1 :: List.replicate 62 0x41200000#32)) } }

/-- A busy block with a command word latched. -/
def running (w : Word) : State := acceptCommand w small

/-! ### One step of each command -/

theorem test_nop_completes :
    nextOf (step (running 0)) = some { running 0 with status := doneStatus (running 0).status } := by decide

/-- Vector Q31, CTRL = 0x6: DC multiplier 3.0, AC multiplier 0.5. -/
theorem test_qblk_multipliers :
    (nextOf (exec (.qblk 0) quantState)).map (fun t => (t.mem.coef[0]?).map fun st => (st.take 2, st.length)) =
      some (some ([(0, 30), (1, 5)], 64)) := by decide +kernel

/-- Vector Q23: entry 256 with BASELINE = 1 raises QTABRANGE, and nothing is written. -/
theorem test_qblk_qtabrange :
    (nextOf (exec (.qblk 0) (quantStateWith 256))).map (fun t => (t.status.cause, t.mem.coef[0]?)) =
      some (3, some []) := by decide +kernel

/-- 42_huffman.md R161: slots 0 and 4 are cleared, slot 1 is not. -/
theorem test_hclr_mask :
    (nextOf (exec (.hclr 0x11) (withHist small 1 [7]))).map (fun t =>
      (Bank.read t.mem.hist 0 11, Bank.read t.mem.hist 0 12, Bank.read t.mem.hist 4 255, Bank.read t.mem.hist 1 0)) =
      some (some 0, none, some 0, some 7) := by decide +kernel

/-- Vector TG1: DC value -13 codes as category 4, which is counted once (42_huffman.md R162). -/
theorem test_hscan_counts :
    (nextOf (exec .hscan (withHist (withCoef small [-13]) 0 [0, 0, 0, 0, 6]))).map (fun t =>
      (Bank.read t.mem.hist 0 4, Bank.read t.mem.hist 0 3, predAt t.pred 0, t.status.done)) =
      some (some 7, some 0, -13, true) := by decide

/-- 95_test_vectors.md 2.5, HISTOVF: the counter keeps its value. -/
theorem test_hscan_histovf :
    (nextOf (exec .hscan (withHist (withCoef small [0]) 0 [0xFFFFFFFF]))).map (fun t =>
      (Bank.read t.mem.hist 0 0, t.status.fault, t.status.cause, t.faux)) =
      some (some 0xFFFFFFFF, true, 8, 0) := by decide

/-- Vector H3. -/
theorem test_hbuild_table :
    (nextOf (exec (.hbuild 0) (withHist small 0 [10, 5, 3, 1, 0, 0, 0, 0, 0, 0, 0, 0]))).map (fun t =>
      (t.mem.huff[0]?).map fun st => (st.take 5, st.length)) =
      some (some ([(0, ⟨1, 0⟩), (1, ⟨2, 2⟩), (2, ⟨3, 6⟩), (3, ⟨4, 14⟩), (4, ⟨0, 0⟩)], 12)) := by decide +kernel

/-- Vector H7: length limiting, and canonical order among the codes of length 16. -/
theorem test_hbuild_limits :
    ((buildCodes ((List.range 20).map (2 ^ ·))).filter fun x => x.len = 16).map (fun x => (x.symbol, x.code)) =
      [(0, 0xFFF8), (1, 0xFFF9), (2, 0xFFFA), (3, 0xFFFB), (4, 0xFFFC), (5, 0xFFFD), (6, 0xFFFE)] := by
  decide +kernel

/-- Vector TG1 with HUFF[0][4] = (2, 10): bits 10 0010 and two pad bits. -/
theorem test_escan_bytes :
    (nextOf (exec .escan (withHuff (withCoef small [-13]) 0
        [⟨0, 0⟩, ⟨0, 0⟩, ⟨0, 0⟩, ⟨0, 0⟩, ⟨2, 2⟩]))).map (fun t => (t.out, t.outcnt, t.acc, t.nacc)) =
      some ([0x8B], 1, 0, 0) := by decide

/-- 95_test_vectors.md 2.6, NOCODE: no byte, the symbol in FAUX. -/
theorem test_escan_nocode :
    (nextOf (exec .escan (withHuff (withCoef small [5]) 0 [⟨0, 0⟩, ⟨0, 0⟩, ⟨0, 0⟩, ⟨0, 0⟩]))).map (fun t =>
      (t.out, t.status.fault, t.status.cause, t.faux)) = some ([], true, 7, 3) := by decide

/-- Vector X10: no stuffing. -/
theorem test_putb_raw :
    (nextOf (exec (.putb 0xFF) small)).map (fun t => (t.out, t.outcnt, t.status.done)) = some ([0xFF], 1, true) := by
  decide

/-- Vectors X2 and X4. -/
theorem test_packing :
    (flush (putBits 7 0x7F small)).out = [0xFF, 0x00] ∧
      (flush (putBits 16 0xABCD (putBits 3 5 small))).out = [0xB5, 0x79, 0xBF] := by decide

/-! ### Witnesses: encoding and steps -/

theorem witness_StepRunsDecodedCommand :
    ((running 0x06).status.busy = true ∧ decode (running 0x06).cmdreg = .ok (.putb 0) ∧ (running 0x06).agenda = []) ∧
      ({ running 0x06 with agenda := [.sequencer, .sinkReady] }.agenda = [Event.sequencer, .sinkReady]) :=
  ⟨⟨rfl, rfl, rfl⟩, rfl⟩

theorem witness_IllegalWordRaisesBadcmd :
    (running 0x07).status.busy = true ∧ (∀ i, decode (running 0x07).cmdreg ≠ .ok i) ∧ (running 0x07).agenda = [] ∧
      wellFormedWord (running 0x07).cmdreg = false := by
  refine ⟨rfl, ?_, rfl, by decide⟩
  have h : decode (running 0x07).cmdreg = .error (.reservedOpcode 7) := rfl
  rw [h]
  simp

theorem witness_command_next :
    (∃ t, exec .nop small = .next t ∧ t.status.done = true) ∧
      (∃ t, exec (.qblk 3) small = .next t ∧ t.status.fault = true ∧ t.status.cause = 2) ∧
      (∃ t, exec (.hclr 1) small = .next t) ∧ (∃ t, exec (.putb 1) small = .next t) :=
  ⟨⟨_, rfl, rfl⟩, ⟨_, rfl, rfl, rfl⟩, ⟨_, rfl⟩, ⟨_, rfl⟩⟩

/-! ### Witnesses: the quantizer -/

/-- Steps 1 to 5 of QBLK pass with AQ clear: the checks that can be evaluated. -/
theorem blockReady_of {s : State} {c : Nat} {mac : Word} (ha : s.ctrl.aq = false)
    (h : frameOk s = true ∧ c < s.nc.toNat ∧ s.qpos.bx.toNat < wibOf s c ∧ s.qpos.byRow.toNat < hibOf s c ∧
      mac = s.qfconst) : BlockReady s c mac :=
  ⟨h.1, h.2.1, h.2.2.1, h.2.2.2.1, fun _ => h.2.2.2.2, fun h => by cases ha.symm.trans h⟩

theorem quantState_ready : BlockReady quantState 0 0x3F000000#32 := blockReady_of rfl (by decide)

/-- Two components, the second at half resolution, and the last block of the second: its cell is row 2, column 2 of a
field four cells wide (40_quantizer.md R118). -/
def subsampled : State :=
  { quantState with
    params := { base := 0, coefBlocks := 16, qfCells := 16 }
    nc := 2, mcux := 2, mcuy := 2, qpos := ⟨1, 1⟩
    comp := Vector.ofFn (fun c => if c.val = 0 then ⟨2, 2, 0⟩ else ⟨1, 1, 0⟩)
    ctrl := { baseline := true, dcfix := true, aq := true }
    mem := { quantState.mem with qf := oneStore 0 [(10, 0x40000000#32)] } }

/-- The field case of `BlockReady`: AQ set, the field exactly as large as QF_CELLS, and the block's cell written. -/
theorem subsampled_ready_field : BlockReady subsampled 1 0x40000000#32 where
  frame := by decide
  component := by decide
  column := by decide
  row := by decide
  constant := by decide
  field := fun _ => ⟨2, ⟨⟨0, by decide, by decide⟩, by decide⟩, by decide, by decide⟩

/-- The multiplier words of `quantState`, 3.0 and 0.5, are positive. -/
theorem valQ_positive : 0 < valQ 0x40400000#32 ∧ 0 < valQ 0x3F000000#32 := by
  have h1 : exponentOf 0x40400000#32 = 128 := by decide
  have h2 : exponentOf 0x3F000000#32 = 126 := by decide
  have s1 : (0x40400000#32).getLsbD 31 = false := by decide
  have s2 : (0x3F000000#32).getLsbD 31 = false := by decide
  constructor <;> simp only [valQ, h1, h2, s1, s2] <;> norm_num <;> positivity

theorem quantState_coefs : ∀ k < 64, CoefReady quantState 0 0x3F000000#32 k 1 0x41200000#32 := by
  intro k hk
  have h : ∀ k < 64, Bank.read quantState.mem.qtab 0 k = some 1 ∧
      Bank.read quantState.mem.dbuf 0 (zz k) = some 0x41200000#32 := by decide +kernel
  have hm : multiplierOf quantState 0x3F000000#32 k = 0x40400000#32 ∨
      multiplierOf quantState 0x3F000000#32 k = 0x3F000000#32 := by
    unfold multiplierOf
    split
    · exact .inl rfl
    · exact .inr rfl
  have hf : ∀ m, m = 0x40400000#32 ∨ m = 0x3F000000#32 →
      (exponentOf 0x41200000#32 ≠ 255 ∧ exponentOf m ≠ 255) ∧
        -32767 ≤ quantized 0x41200000#32 m 1 ∧ quantized 0x41200000#32 m 1 ≤ 32767 := by
    rintro m (rfl | rfl) <;> decide +kernel
  obtain ⟨h1, h2⟩ := h k hk
  obtain ⟨h3, h4⟩ := hf _ hm
  refine ⟨h1, by decide, h2, h3, ?_, h4⟩
  rcases hm with e | e <;> rw [e]
  · exact valQ_positive.1
  · exact valQ_positive.2

/-- The zigzag table of the statements is the model's (00_scope.md R13). -/
theorem test_zigzag : ∀ k < 64, zigzag k = zz k := by decide +kernel

theorem witness_QblkWritesRoundedBlock :
    ∃ (c : BitVec 2) (s : State) (mac : Word) (q : Nat → Half) (d : Nat → Word),
      BlockReady s c.toNat mac ∧ ∀ k < 64, CoefReady s c.toNat mac k (q k) (d k) :=
  ⟨0, quantState, 0x3F000000#32, fun _ => 1, fun _ => 0x41200000#32, quantState_ready, quantState_coefs⟩

theorem witness_QuantizedIsRoundedRational :
    exponentOf 0xC1000000#32 ≠ 255 ∧ exponentOf 0x00000001#32 ≠ 255 ∧ 0 < 16 := by decide

theorem witness_QblkAllOrNothing :
    ∃ t, exec (.qblk 0) { small with nc := 0 } = .next t ∧ t.status.done = { small with nc := 0 }.status.done ∧
      { small with nc := 0 }.status.done = false :=
  ⟨_, rfl, rfl, rfl⟩

/-- A legal frame, checked clause by clause. -/
theorem frameLegal_of {s : State} (h : (1 ≤ s.nc.toNat ∧ s.nc.toNat ≤ 3) ∧ (1 ≤ s.mcux.toNat ∧ 1 ≤ s.mcuy.toNat) ∧
    (∀ c < s.nc.toNat, ((compAt s c).hs.toNat = 1 ∨ (compAt s c).hs.toNat = 2 ∨ (compAt s c).hs.toNat = 4 ∨
      (compAt s c).hs.toNat = 8) ∧ (compAt s c).vs.toNat = (compAt s c).hs.toNat) ∧
    ∀ c < s.nc.toNat, (s.mcux.toNat * (compAt s c).hs.toNat) * (s.mcuy.toNat * (compAt s c).vs.toNat) ≤
      s.params.coefBlocks) : FrameLegal s := ⟨h.1, h.2.1, h.2.2.1, h.2.2.2⟩

theorem small_frameLegal : FrameLegal small := frameLegal_of (by decide)

theorem noComponents_illegal : ¬FrameLegal { small with nc := 0 } := fun h => absurd h.components.1 (by decide)

theorem witness_QblkConfigurationFaults :
    ¬FrameLegal { small with nc := 0 } ∧ FrameLegal small ∧ small.nc.toNat ≤ (1 : BitVec 2).toNat ∧
      wibOf { small with qpos := ⟨1, 0⟩ } 0 ≤ 1 ∧ hibOf { small with qpos := ⟨0, 1⟩ } 0 ≤ 1 ∧
      (let s := { small with params := { small.params with qfCells := 0 }, ctrl := { small.ctrl with aq := true } }
       FrameLegal s ∧ s.ctrl.aq = true ∧ LargestSampling s 1 ∧
         s.params.qfCells < (s.mcux.toNat * 1) * (s.mcuy.toNat * 1)) :=
  ⟨noComponents_illegal, small_frameLegal, by decide, by decide, by decide, frameLegal_of (by decide), rfl,
    ⟨⟨0, by decide, by decide⟩, by decide⟩, by decide⟩

/-- The first failing coefficient is 0: a zero entry, an entry above the limit. -/
theorem witness_QblkFirstDataFault_table :
    BlockReady (quantStateWith 0) 0 0x3F000000#32 ∧ BlockReady (quantStateWith 256) 0 0x3F000000#32 ∧
      Bank.read (quantStateWith 0).mem.qtab 0 0 = some 0 ∧ Bank.read (quantStateWith 256).mem.qtab 0 0 = some 256 ∧
      255 < (256 : Half).toNat :=
  ⟨blockReady_of rfl (by decide), blockReady_of rfl (by decide), by decide, by decide, by decide⟩

/-- The first failing coefficient is 0: an infinite word, and a word whose quotient 3 * 10923 is 32769. -/
theorem witness_QblkFirstDataFault_word :
    BlockReady (quantStateOf 0x7F800000#32 0) 0 0x3F000000#32 ∧
      BlockReady (quantStateOf 0x462AAC00#32 0) 0 0x3F000000#32 ∧
      Bank.read (quantStateOf 0x7F800000#32 0).mem.dbuf 0 (zz 0) = some 0x7F800000#32 ∧
      exponentOf 0x7F800000#32 = 255 ∧
      Bank.read (quantStateOf 0x462AAC00#32 0).mem.dbuf 0 (zz 0) = some 0x462AAC00#32 ∧
      exponentOf 0x462AAC00#32 ≠ 255 ∧
      0 < valQ (multiplierOf (quantStateOf 0x462AAC00#32 0) 0x3F000000#32 0) ∧
      32767 < quantized 0x462AAC00#32 (multiplierOf (quantStateOf 0x462AAC00#32 0) 0x3F000000#32 0) 1 :=
  ⟨blockReady_of rfl (by decide), blockReady_of rfl (by decide), by decide, by decide, by decide, by decide,
    valQ_positive.1, by decide +kernel⟩

/-- A negative zero multiplier is finite and not positive (40_quantizer.md R120). -/
theorem witness_QblkFirstDataFault_multiplier :
    BlockReady { quantState with qfconst := 0x80000000#32 } 0 0x80000000#32 ∧ exponentOf 0x80000000#32 ≠ 255 ∧
      valQ 0x80000000#32 ≤ 0 := by
  refine ⟨blockReady_of rfl (by decide), by decide, ?_⟩
  have h : fractionOf 0x80000000#32 = 0 := by decide
  have h' : exponentOf 0x80000000#32 = 0 := by decide
  simp only [valQ, h, h', if_true]
  norm_num

theorem qblk_next {c : BitVec 2} {s : State} {rs : List Half} (h : quantBlock s c.toNat = .ok rs) :
    ∃ cf, exec (.qblk c) s = .next (completeCommand { s with mem := { s.mem with coef := cf } }) :=
  ⟨_, execQblk_eq_next_iff.2 (.inr ⟨rs, h, rfl⟩)⟩

/-- What QBLK computes does not depend on what another QBLK wrote (40_quantizer.md R121). -/
theorem quantBlock_after (s : State) (cf : Bank Half 3) (p q : QPos) (d : Bank Word 1) (c : Nat) :
    quantBlock (withBlock (completeCommand
      { withBlock s p d with mem := { (withBlock s p d).mem with coef := cf } }) q d) c =
      quantBlock (withBlock s q d) c := rfl

/-- Two blocks side by side. -/
def wide : State := { quantState with mcux := 2 }

/-- Two blocks of one component, quantized in both orders (40_quantizer.md R121). -/
theorem witness_QblkOrderDoesNotMatter :
    ∃ (s t1 t2 u1 u2 : State) (c1 c2 : BitVec 2) (p1 p2 : QPos) (d1 d2 : Bank Word 1),
      (c1 ≠ c2 ∨ blockOf (withBlock s p1 d1) c1.toNat ≠ blockOf (withBlock s p2 d2) c2.toNat) ∧
      exec (.qblk c1) (withBlock s p1 d1) = .next t1 ∧ exec (.qblk c2) (withBlock t1 p2 d2) = .next t2 ∧
      exec (.qblk c2) (withBlock s p2 d2) = .next u1 ∧ exec (.qblk c1) (withBlock u1 p1 d1) = .next u2 ∧
      t2.status.done = true ∧ u2.status.done = true := by
  have isOk : ∀ e : Except Stop (List Half), e.isOk = true → ∃ rs, e = .ok rs := by
    intro e h
    cases e with
    | ok rs => exact ⟨rs, rfl⟩
    | error e => cases h
  obtain ⟨r1, h1⟩ := isOk (quantBlock (withBlock wide ⟨0, 0⟩ quantState.mem.dbuf) 0) (by decide +kernel)
  obtain ⟨r2, h2⟩ := isOk (quantBlock (withBlock wide ⟨1, 0⟩ quantState.mem.dbuf) 0) (by decide +kernel)
  obtain ⟨c1, e1⟩ := qblk_next (c := 0) h1
  obtain ⟨c2, e2⟩ := qblk_next (c := 0) h2
  obtain ⟨c3, e3⟩ := qblk_next (c := 0) ((quantBlock_after wide c1 ⟨0, 0⟩ ⟨1, 0⟩ quantState.mem.dbuf 0).trans h2)
  obtain ⟨c4, e4⟩ := qblk_next (c := 0) ((quantBlock_after wide c2 ⟨1, 0⟩ ⟨0, 0⟩ quantState.mem.dbuf 0).trans h1)
  exact ⟨wide, _, _, _, _, 0, 0, ⟨0, 0⟩, ⟨1, 0⟩, quantState.mem.dbuf, quantState.mem.dbuf, .inr (by decide),
    e1, e3, e2, e4, rfl, rfl⟩

/-! ### Witnesses: scans -/

/-- A scan of two DC values. -/
def twoBlocks : State :=
  { small with
    mcux := 2, niw := 2, ri := 1
    mem := { small.mem with coef := oneStore 0 [(0, 5), (64, 7)] } }

/-- The run a scan produces, where it produces one. -/
def runOf (s : State) : Option Run := (scanRun s).toOption

theorem runOf_some {s : State} {r : Run} (h : runOf s = some r) : scanRun s = .ok r := by
  unfold runOf at h
  cases e : scanRun s with
  | ok x => rw [e] at h; cases h; rfl
  | error x => rw [e] at h; cases h

/-- Two MCUs with a restart boundary between them (also for TokensInRange and RestartMarkersCycle). -/
theorem witness_scan_run :
    scanRun twoBlocks = .ok
      { tokens := [.sym 0 3, .bits 3 5, .rst 0, .sym 0 3, .bits 3 7, .fin], stop := none
        pred := (predZero.setIfInBounds 0 7), rstn := 1 } := runOf_some (by decide)

/-- A scan of one component, and one of two with 2x2 sampling in the first. -/
theorem witness_ScanVisitsEveryBlockOnce :
    (frameOk twoBlocks = true ∧ scanOk twoBlocks = true ∧ twoBlocks.scan.ns = 1) ∧
      (let s := { small with
        nc := 2, comp := Vector.ofFn (fun c => if c.val = 0 then ⟨2, 2, 0⟩ else ⟨1, 1, 0⟩)
        scomp := Vector.ofFn (fun j => ⟨BitVec.ofNat 2 j.val, 0, 0⟩)
        scan := { small.scan with ns := 2 } }
       frameOk s = true ∧ scanOk s = true ∧ s.scan.ns ≠ 1) := by decide

theorem witness_SerializeReadsOnlyItsInputs :
    SameScanInputs twoBlocks { twoBlocks with out := [1], outcnt := 9, rstn := 3 } ∧
      twoBlocks ≠ { twoBlocks with out := [1], outcnt := 9, rstn := 3 } :=
  ⟨⟨rfl, rfl, rfl, rfl, rfl, rfl, rfl, rfl, rfl, rfl, rfl⟩, by decide⟩

theorem witness_CodableScanSerializes :
    let s := withCoef small (List.replicate 64 (-1023))
    frameOk s = true ∧ scanOk s = true ∧ ∀ j < s.scan.ns.toNat, codable s (scompAt s j).ci.toNat := by
  refine ⟨by decide, by decide, ?_⟩
  intro j hj b hb k hk
  obtain rfl : j = 0 := by
    have : (withCoef small (List.replicate 64 (-1023))).scan.ns.toNat = 1 := by decide
    omega
  obtain rfl : b = 0 := by
    have : wibOf (withCoef small (List.replicate 64 (-1023))) 0 * hibOf (withCoef small (List.replicate 64 (-1023))) 0 =
        1 := by decide
    have e : (scompAt (withCoef small (List.replicate 64 (-1023))) 0).ci.toNat = 0 := by decide
    rw [e] at hb
    omega
  refine ⟨-1023, ?_, fun _ => by decide, by decide⟩
  have : ∀ k < 64, Bank.read (withCoef small (List.replicate 64 (-1023))).mem.coef 0 k = some (-1023) := by
    decide +kernel
  have e : (scompAt (withCoef small (List.replicate 64 (-1023))) 0).ci.toNat = 0 := by decide
  rw [e, Nat.mul_zero, Nat.zero_add]
  exact this k hk

theorem witness_DcScanCodesDifferences :
    frameOk twoBlocks = true ∧ scanOk twoBlocks = true ∧ twoBlocks.scan.ns = 1 ∧
      scanKind twoBlocks.scan = some .dcf ∧
      (∀ b < wibOf twoBlocks 0 * hibOf twoBlocks 0,
        Bank.read twoBlocks.mem.coef 0 (64 * b) = some (if b = 0 then 5 else 7)) ∧
      (∀ m < twoBlocks.niw.toNat * twoBlocks.nih.toNat,
        -2047 ≤ dcDiff twoBlocks (fun b => if b = 0 then 5 else 7) m ∧
          dcDiff twoBlocks (fun b => if b = 0 then 5 else 7) m ≤ 2047) := by
  refine ⟨by decide, by decide, by decide, by decide, by decide, ?_⟩
  have hv : ∀ m, dcOfMcu twoBlocks (fun b => if b = 0 then 5 else 7) m = 5 ∨
      dcOfMcu twoBlocks (fun b => if b = 0 then 5 else 7) m = 7 := by
    intro m
    have hal : twoBlocks.scan.al.toNat = 0 := by decide
    unfold dcOfMcu
    simp only [hal]
    split
    · left; decide
    · right; decide
  intro m _
  have h1 := hv m
  have h2 := hv (m - 1)
  unfold dcDiff
  split <;> omega

/-- A band of one run of two zeros and a negative value. -/
theorem witness_AcTokensRecoverBand :
    ∀ k, 1 ≤ k → k < 1 + 3 → Bank.read (withCoef small [9, 0, 0, -3]).mem.coef 0 (64 * 0 + k) =
      some ((fun k => if k = 3 then (-3 : Half) else 0) k) ∧
        ((fun k => if k = 3 then (-3 : Half) else 0) k).toInt ≠ -32768 := by
  intro k h1 h2
  interval_cases k <;> decide

/-- The DC value of a refinement, and a band with an already non-zero, a zero and a newly non-zero coefficient. -/
def refined : State :=
  { withCoef small [-13, 9, 0, -1] with scan := { ns := 1, ss := 1, se := 3, ah := 1, al := 0 } }

theorem witness_RefinementBitCount :
    Bank.read refined.mem.coef 0 (64 * 0) = some (-13) ∧
      ∀ k, refined.scan.ss.toNat ≤ k → k ≤ refined.scan.se.toNat →
        Bank.read refined.mem.coef 0 (64 * 0 + k) =
            some ((fun k => if k = 1 then (9 : Half) else if k = 3 then -1 else 0) k) ∧
          ((fun k => if k = 1 then (9 : Half) else if k = 3 then -1 else 0) k).toInt ≠ -32768 := by
  refine ⟨by decide, ?_⟩
  intro k h1 h2
  have e1 : refined.scan.ss.toNat = 1 := by decide
  have e2 : refined.scan.se.toNat = 3 := by decide
  rw [e1] at h1
  rw [e2] at h2
  interval_cases k <;> decide

/-- 41_serializer.md R138's example, and R139's procedure on the band: symbol 0x11, its sign 0, then the correction bit. -/
theorem test_refinement_tokens :
    (entryTokens refined .dcr ⟨0, 0, 0⟩ predZero).1 = ([.bits 1 1], none) ∧
      (entryTokens refined .acr ⟨0, 0, 0⟩ predZero).1 = ([.sym 4 0x11, .bits 1 0, .bits 1 1], none) := by decide

theorem witness_HscanCountsSymbols :
    (∃ r, scanRun twoBlocks = .ok r ∧ r.stop = none) ∧
      (∀ t sy, 0 < symbolCount [.sym 0 3, .bits 3 5, .rst 0, .sym 0 3, .bits 3 7, .fin] t sy →
        ∃ v : Word, Bank.read (withHist twoBlocks 0 [0, 0, 0, 0xFFFFFFFD]).mem.hist t sy = some v ∧
          v.toNat + symbolCount [.sym 0 3, .bits 3 5, .rst 0, .sym 0 3, .bits 3 7, .fin] t sy < 2 ^ 32) := by
  refine ⟨⟨_, witness_scan_run, rfl⟩, ?_⟩
  intro t sy h
  rw [symbolCount, List.count_pos_iff] at h
  simp at h
  obtain ⟨rfl, rfl⟩ := h
  exact ⟨0xFFFFFFFD#32, by decide, by decide⟩

theorem witness_HscanOverflowKeepsIncrements :
    ∃ r : Run, scanRun twoBlocks = .ok r ∧
      r.tokens = [.sym 0 3, .bits 3 5, .rst 0] ++ .sym 0 3 :: [.bits 3 7, .fin] ∧
      (∀ t sy, 0 < symbolCount [.sym 0 3, .bits 3 5, .rst 0] t sy →
        ∃ v : Word, Bank.read (withHist twoBlocks 0 [0, 0, 0, 0xFFFFFFFE]).mem.hist t sy = some v ∧
          v.toNat + symbolCount [.sym 0 3, .bits 3 5, .rst 0] t sy < 2 ^ 32) ∧
      (∃ v : Word, Bank.read (withHist twoBlocks 0 [0, 0, 0, 0xFFFFFFFE]).mem.hist 0 3 = some v ∧
        v.toNat + symbolCount [.sym 0 3, .bits 3 5, .rst 0] 0 3 = 2 ^ 32 - 1) := by
  refine ⟨_, witness_scan_run, rfl, ?_, ⟨0xFFFFFFFE#32, by decide, by decide⟩⟩
  intro t sy h
  rw [symbolCount, List.count_pos_iff] at h
  simp at h
  obtain ⟨rfl, rfl⟩ := h
  exact ⟨0xFFFFFFFE#32, by decide, by decide⟩

theorem witness_ScanConfigurationFaults :
    ¬FrameLegal { small with nc := 0 } ∧ (FrameLegal { small with niw := 0 } ∧ ¬ScanLegal { small with niw := 0 }) ∧
      ScanLegal small :=
  ⟨noComponents_illegal, ⟨frameLegal_of (by decide), fun h => absurd (h.extent (by decide)).1 (by decide)⟩,
    ⟨by decide, by decide, fun j h => absurd h (by have : small.scan.ns.toNat = 1 := by decide
                                                   omega), ⟨.dcf, by decide, by decide, by decide⟩, by decide⟩⟩

/-- The condition column of 41_serializer.md R133, one scan of each kind, and DOC00's three kinds of illegal one. -/
theorem test_scan_kinds :
    scanKind ⟨3, 0, 63, 0, 0⟩ = some .seq ∧ scanKind ⟨3, 0, 0, 0, 15⟩ = some .dcf ∧ scanKind ⟨3, 0, 0, 1, 0⟩ = some .dcr ∧
      scanKind ⟨1, 1, 63, 0, 1⟩ = some .acf ∧ scanKind ⟨1, 3, 63, 2, 1⟩ = some .acr ∧
      scanKind ⟨1, 0, 5, 0, 0⟩ = none ∧ scanKind ⟨2, 1, 63, 0, 0⟩ = none ∧ scanKind ⟨1, 1, 63, 2, 0⟩ = none := by decide

/-- The counters of a DC slot written, and all of them 0 (HbuildWritesSlot, both clauses). -/
theorem witness_HbuildWritesSlot :
    (∀ sy < (if (0 : BitVec 3).toNat < 4 then 12 else 256), ∃ n : Word,
      Bank.read (withHist small 0 (List.replicate 12 0)).mem.hist (0 : BitVec 3).toNat sy = some n) ∧
    (∀ sy < (if (0 : BitVec 3).toNat < 4 then 12 else 256),
      Bank.read (withHist small 0 (List.replicate 12 0)).mem.hist (0 : BitVec 3).toNat sy = some 0) := by
  have : ∀ sy < 12, Bank.read (withHist small 0 (List.replicate 12 0)).mem.hist (0 : BitVec 3).toNat sy = some 0 := by
    decide
  exact ⟨fun sy h => ⟨0, this sy h⟩, this⟩

theorem witness_huffman_histogram :
    ([3, 0, 1] : List Nat).length ≤ 256 ∧ (∃ x ∈ ([3, 0, 1] : List Nat), x ≠ 0) ∧
      (∃ x ∈ buildCodes [3, 0, 1], ∃ y ∈ buildCodes [3, 0, 1], x ≠ y ∧ x.len < y.len) ∧
      buildCodes [0, 4] = [{ symbol := 1, len := 1, code := 0 }] := by decide +kernel

/-- Counts with no long code: symbol 0 is counted more often than symbol 2, and more often than all else together. Of the
second histogram the code sizes go up to 16 exactly, so the first premise alone holds. -/
theorem witness_HuffmanTableKraft_counts :
    ((∀ x ∈ codeSizes [3, 0, 1], x.2 ≤ 16) ∧ longest (buildCodes [3, 0, 1]) < 16 ∧
      (∃ x ∈ buildCodes [3, 0, 1], ∃ y ∈ buildCodes [3, 0, 1],
        ([3, 0, 1] : List Nat).getD y.symbol 0 < ([3, 0, 1] : List Nat).getD x.symbol 0) ∧
      ∃ x ∈ buildCodes [3, 0, 1], ([3, 0, 1] : List Nat).sum + 1 < 2 * ([3, 0, 1] : List Nat).getD x.symbol 0) ∧
    ((∀ x ∈ codeSizes ((List.range 16).map (2 ^ ·)), x.2 ≤ 16) ∧
      longest (buildCodes ((List.range 16).map (2 ^ ·))) = 16) := by decide +kernel

/-! ### Witnesses: the entropy coder -/

theorem witness_EscanEmitsPackedBits :
    ∃ r, scanRun twoBlocks = .ok r ∧ r.stop = none ∧
      allCoded (withHuff twoBlocks 0 [⟨0, 0⟩, ⟨0, 0⟩, ⟨0, 0⟩, ⟨16, 0xFFFE⟩]).mem.huff r.tokens := by
  refine ⟨_, witness_scan_run, rfl, ?_⟩
  intro t sy h
  simp at h
  obtain ⟨rfl, rfl⟩ := h
  exact ⟨⟨16, 0xFFFE⟩, by decide, by decide⟩

theorem witness_EscanNocode :
    ∃ r : Run, scanRun twoBlocks = .ok r ∧
      r.tokens = [] ++ .sym 0 3 :: [.bits 3 5, .rst 0, .sym 0 3, .bits 3 7, .fin] ∧
      allCoded (withHuff twoBlocks 0 [⟨0, 0⟩, ⟨0, 0⟩, ⟨0, 0⟩, ⟨0, 0⟩]).mem.huff [] ∧
      Bank.read (withHuff twoBlocks 0 [⟨0, 0⟩, ⟨0, 0⟩, ⟨0, 0⟩, ⟨0, 0⟩]).mem.huff 0 3 = some ⟨0, 0⟩ ∧
      (⟨0, 0⟩ : HuffEntry).len = 0 :=
  ⟨_, witness_scan_run, rfl, by intro t sy h; simp at h, by decide, rfl⟩

/-- The second difference is 2048 (vector TF1's mechanism): SYMRANGE after the first block's tokens. -/
def tooFar : State :=
  { twoBlocks with ri := 0, mem := { small.mem with coef := oneStore 0 [(0, -1), (64, 2047)] } }

theorem witness_SymrangePassedOn :
    ∃ (r : Run) (x : Raise), scanRun tooFar = .ok r ∧ r.stop = some (.raised x) ∧
      allCoded (withHuff tooFar 0 [⟨0, 0⟩, ⟨1, 0⟩]).mem.huff r.tokens ∧
      (∀ t sy, 0 < symbolCount r.tokens t sy → ∃ v : Word,
        Bank.read (withHist tooFar 0 [0, 0xFFFFFFFE]).mem.hist t sy = some v ∧
          v.toNat + symbolCount r.tokens t sy < 2 ^ 32) := by
  have h : runOf tooFar = some
      { tokens := [.sym 0 1, .bits 1 0], stop := some (.raised (raiseAt .symrange 0 0 1))
        pred := predZero.setIfInBounds 0 (-1), rstn := 0 } := by decide
  refine ⟨_, _, runOf_some h, rfl, ?_, ?_⟩
  · intro t sy hm
    simp at hm
    obtain ⟨rfl, rfl⟩ := hm
    exact ⟨⟨1, 0⟩, by decide, by decide⟩
  · intro t sy hm
    rw [symbolCount, List.count_pos_iff] at hm
    simp at hm
    obtain ⟨rfl, rfl⟩ := hm
    exact ⟨0xFFFFFFFE#32, by decide, by decide⟩

/-- The second block of `tooFar` is the first that cannot be coded, and every block of `twoBlocks` can be (the first
clause of SymrangePassedOn, both cases). -/
theorem witness_SymrangePassedOn_when :
    (frameOk tooFar = true ∧ scanOk tooFar = true ∧ (scanEntries tooFar)[1]? = some (1, ⟨0, 0, 1⟩) ∧
      uncodable tooFar 1 0 ∧ ∀ n k, uncodable tooFar n k → 1 < n ∨ (1 = n ∧ 0 ≤ k)) ∧
    (frameOk twoBlocks = true ∧ scanOk twoBlocks = true ∧ ∀ n k, ¬uncodable twoBlocks n k) ∧
    ∀ e ∈ (mcuList tooFar).flatten, ∀ k, tooFar.scan.ss.toNat ≤ k → k ≤ tooFar.scan.se.toNat →
      ∃ v, Bank.read tooFar.mem.coef e.comp (64 * e.block + k) = some v := by
  have e1 : tooFar.scan.se.toNat = 0 := by decide
  have e2 : twoBlocks.scan.se.toNat = 0 := by decide
  have e3 : scanEntries tooFar = [(0, ⟨0, 0, 0⟩), (1, ⟨0, 0, 1⟩)] := by decide
  have e4 : scanEntries twoBlocks = [(0, ⟨0, 0, 0⟩), (1, ⟨0, 0, 1⟩)] := by decide
  have e5 : (mcuList tooFar).flatten = [⟨0, 0, 0⟩, ⟨0, 0, 1⟩] := by decide
  refine ⟨⟨by decide, by decide, by decide, ?_, ?_⟩, ⟨by decide, by decide, ?_⟩, ?_⟩
  · exact ⟨_, by rw [e3]; rfl, by decide, by decide, fun _ => by decide, fun h => absurd rfl h⟩
  · rintro n k ⟨x, hx, -, hk, h, -⟩
    rw [e1] at hk
    obtain rfl : k = 0 := by omega
    match n with
    | 0 =>
      rw [e3] at hx
      cases hx
      exact absurd (h rfl).2 (by decide)
    | 1 => exact .inr ⟨rfl, le_rfl⟩
    | n + 2 => exact .inl (by omega)
  · rintro n k ⟨x, hx, -, hk, h, -⟩
    rw [e2] at hk
    obtain rfl : k = 0 := by omega
    match n with
    | 0 =>
      rw [e4] at hx
      cases hx
      exact absurd (h rfl).2 (by decide)
    | 1 =>
      rw [e4] at hx
      cases hx
      exact absurd (h rfl).2 (by decide)
    | n + 2 =>
      rw [e4] at hx
      simp at hx
  · rw [e5, e1]
    intro e he k _ hk
    obtain rfl : k = 0 := by omega
    simp only [List.mem_cons, List.not_mem_nil, or_false] at he
    obtain rfl | rfl := he
    · exact ⟨-1, by decide⟩
    · exact ⟨2047, by decide⟩

/-- A category at both ends of its range, and a scan of one component whose differences can be coded (the first three
clauses of DcScanCodesDifferences; the coefficients of `twoBlocks` are written at the one position the scan reads). -/
theorem witness_DcScanCodesDifferences_one :
    (HasCategory (-1024) 11 ∧ HasCategory 2047 11 ∧ HasCategory (-1) 1 ∧ HasCategory 0 0) ∧
    (HasKind twoBlocks .dcf ∧ frameOk twoBlocks = true ∧ scanOk twoBlocks = true ∧ ∀ n k, ¬uncodable twoBlocks n k) ∧
    ∀ e ∈ (mcuList twoBlocks).flatten, ∀ k, twoBlocks.scan.ss.toNat ≤ k → k ≤ twoBlocks.scan.se.toNat →
      ∃ v, Bank.read twoBlocks.mem.coef e.comp (64 * e.block + k) = some v := by
  refine ⟨by simp only [HasCategory]; decide, ⟨by simp only [HasKind]; decide,
    witness_SymrangePassedOn_when.2.1⟩, ?_⟩
  have e1 : (mcuList twoBlocks).flatten = [⟨0, 0, 0⟩, ⟨0, 0, 1⟩] := by decide
  have e2 : twoBlocks.scan.se.toNat = 0 := by decide
  rw [e1, e2]
  intro e he k _ hk
  obtain rfl : k = 0 := by omega
  simp only [List.mem_cons, List.not_mem_nil, or_false] at he
  obtain rfl | rfl := he
  · exact ⟨5, by decide⟩
  · exact ⟨7, by decide⟩

/-- Two components, one block each, with 64 coefficients written, in one interleaved SEQ scan; the slots name tables 1
and 2 for DC, 3 and 0 for AC. -/
def interleaved : State :=
  { small with
    nc := 2
    scomp := Vector.ofFn (fun j => if j.val = 0 then ⟨0, 1, 3⟩ else ⟨1, 2, 0⟩)
    scan := { ns := 2, ss := 0, se := 63, ah := 0, al := 0 }
    mem := { small.mem with
      coef := Vector.ofFn (fun c =>
        run (if c.val = 0 then 2047 :: List.replicate 63 0 else -2047 :: List.replicate 62 0 ++ [-32767])) } }

theorem interleaved_written : ∀ e ∈ ([⟨0, 0, 0⟩, ⟨1, 1, 0⟩] : List McuEntry), ∀ k < 64,
    ∃ v, Bank.read interleaved.mem.coef e.comp (64 * e.block + k) = some v ∧ v ≠ 0x8000#16 := by
  have h : ∀ c < 2, ∀ k < 64, (Bank.read interleaved.mem.coef c (64 * 0 + k)).isSome = true ∧
      Bank.read interleaved.mem.coef c (64 * 0 + k) ≠ some 0x8000#16 := by decide +kernel
  have h' : ∀ c < 2, ∀ k < 64, ∃ v, Bank.read interleaved.mem.coef c (64 * 0 + k) = some v ∧ v ≠ 0x8000#16 := by
    intro c hc k hk
    obtain ⟨v, hv⟩ := Option.isSome_iff_exists.1 (h c hc k hk).1
    exact ⟨v, hv, fun e => (h c hc k hk).2 (e ▸ hv)⟩
  intro e he k hk
  simp only [List.mem_cons, List.not_mem_nil, or_false] at he
  obtain rfl | rfl := he
  · exact h' 0 (by decide) k hk
  · exact h' 1 (by decide) k hk

/-- An interleaved SEQ scan whose differences are the largest that can be coded (DcScanCodesDifferences). -/
theorem witness_DcScanCodesDifferences_seq :
    frameOk interleaved = true ∧ scanOk interleaved = true ∧ HasKind interleaved .seq ∧
    (∀ e ∈ (mcuList interleaved).flatten, ∀ k, interleaved.scan.ss.toNat ≤ k → k ≤ interleaved.scan.se.toNat →
      ∃ v, Bank.read interleaved.mem.coef e.comp (64 * e.block + k) = some v) ∧
    ∀ n k, ¬uncodable interleaved n k := by
  have e1 : (mcuList interleaved).flatten = [⟨0, 0, 0⟩, ⟨1, 1, 0⟩] := by decide
  have e2 : scanEntries interleaved = [(0, ⟨0, 0, 0⟩), (0, ⟨1, 1, 0⟩)] := by decide
  have e3 : interleaved.scan.se.toNat = 63 := by decide
  refine ⟨by decide, by decide, by simp only [HasKind]; decide, ?_, ?_⟩
  · rw [e1, e3]
    intro e he k _ hk
    obtain ⟨v, h, -⟩ := interleaved_written e he k (by omega)
    exact ⟨v, h⟩
  · rintro n k ⟨x, hx, -, hk, h0, h1⟩
    rw [e3] at hk
    have hx' : x.2 ∈ ([⟨0, 0, 0⟩, ⟨1, 1, 0⟩] : List McuEntry) := by
      rw [e2] at hx
      have := List.mem_of_getElem? hx
      simp only [List.mem_cons, List.not_mem_nil, or_false] at this ⊢
      obtain rfl | rfl := this
      · exact .inl rfl
      · exact .inr rfl
    by_cases hz : k = 0
    · have hd := (h0 hz).2
      match n with
      | 0 => rw [e2] at hx; cases hx; exact absurd hd (by decide +kernel)
      | 1 => rw [e2] at hx; cases hx; exact absurd hd (by decide +kernel)
      | n + 2 => rw [e2] at hx; simp at hx
    · obtain ⟨v, h, hv⟩ := interleaved_written x.2 hx' k (by omega)
      exact hv (Option.some.inj (h.symm.trans (h1 hz)))

/-- The tokens of that scan (41_serializer.md R136, R137): both differences against 0, each in its own slots; the 62 zeros
before the last coefficient are three ZRLs and a run of 14. -/
theorem test_interleaved_tokens :
    (runOf interleaved).map (·.tokens) = some
      [.sym 1 11, .bits 11 2047, .sym 7 0, .sym 2 11, .bits 11 0, .sym 4 0xF0, .sym 4 0xF0, .sym 4 0xF0,
        .sym 4 0xEF, .bits 15 0, .fin] := by decide +kernel

/-- A band of a first pass, 1..63 with AL = 1, over written coefficients (AcTokensRecoverBand, the ACF clause). -/
theorem witness_AcTokensRecoverBand_acf :
    let s := { interleaved with scan := { ns := 1, ss := 1, se := 63, ah := 0, al := 1 } }
    s.scan.ss.toNat = 1 ∧ s.scan.se.toNat = 63 ∧ scanKind s.scan = some .acf ∧
      ∀ k < 64, Bank.read s.mem.coef 0 (64 * 0 + k) = some (if k = 0 then 2047 else 0 : Half) := by decide +kernel

/-- An entry of a SEQ scan whose difference is 2047 (AcTokensRecoverBand, the SEQ clause). -/
theorem witness_AcTokensRecoverBand_seq :
    (∀ k < 64, Bank.read interleaved.mem.coef 0 (64 * 0 + k) = some (if k = 0 then 2047 else 0 : Half)) ∧
      ((2047 : Half).toInt - (((Vector.replicate 3 (0 : Half))[0]?).getD 0).toInt).natAbs ≤ 2047 := by decide +kernel

/-- A scan whose byte is 0xFF: code 11110 of length 5 and bits 111 (EscanStuffsEveryFF). -/
theorem witness_EscanStuffsEveryFF :
    (nextOf (exec .escan (withHuff (withCoef small [7]) 0 [⟨0, 0⟩, ⟨0, 0⟩, ⟨0, 0⟩, ⟨5, 31⟩]))).map (·.out) =
      some [0xFF, 0x00] := by decide

theorem witness_EscanBytesDependOnInputsOnly :
    let s := withHuff twoBlocks 0 [⟨0, 0⟩, ⟨0, 0⟩, ⟨0, 0⟩, ⟨1, 0⟩]
    let s' := { s with out := [1, 2], outcnt := 7 }
    SameScanInputs s s' ∧ s.mem.huff = s'.mem.huff ∧ (nextOf (exec .escan s)).isSome = true ∧
      (nextOf (exec .escan s')).isSome = true :=
  ⟨⟨rfl, rfl, rfl, rfl, rfl, rfl, rfl, rfl, rfl, rfl, rfl⟩, rfl, by decide, by decide⟩

theorem witness_FlushPadsWithOnes :
    (let s := { small with acc := 0x7F, nacc := 7 }
     s.nacc < 8 ∧ s.acc.toNat < 2 ^ s.nacc ∧ 0 < s.nacc) ∧
      (small.nacc < 8 ∧ small.acc.toNat < 2 ^ small.nacc ∧ small.nacc = 0) := by decide

/-! ### Witnesses: host accesses -/

theorem witness_IllegalAccessRefused :
    (255 < 256 ∧ ((32 : Nat) ≠ 32 ∨ 255 % 4 ≠ 0)) ∧ (4 < 256 ∧ ((16 : Nat) ≠ 32 ∨ 4 % 4 ≠ 0)) := by decide

theorem witness_ReservedOffsetsAndReadOnly :
    (0x6C ≤ 0x6C ∧ 0x6C ≤ 0xFC ∧ 0x6C % 4 = 0) ∧ (0x6C ≤ 0xFC ∧ 0xFC % 4 = 0) ∧ small.status.busy = false := by decide

theorem witness_ParameterRegistersReadBack :
    isPlain .frame = true ∧ isPlain .scan = true ∧ isPlain .midx = true ∧ small.status.busy = false := by decide

theorem witness_CtrlAndIeStore : (0xFFFFFFFE#32).getLsbD 0 = false ∧ small.status.busy = false := by decide

theorem witness_BusyAccessesRefused : (running 0).status.busy = true ∧ (0xE#32).getLsbD 0 = false := by decide

/-- One block, nothing written in COEF, and a DC table without codes: ESCAN, with 7 bytes counted before it. -/
def uncodedScan : State := { withHuff (running 0x05) 0 (List.replicate 12 ⟨0, 0⟩) with outcnt := 7 }

/-- An idle block; PUTB; HBUILD, which appends nothing, and ESCAN, where the step is the model's own stop. -/
theorem witness_OutcntReads :
    small.status.busy = false ∧
      ((running 0x06).status.busy = true ∧ (nextOf (runCommand (running 0x06))).isSome = true) ∧
      ((running 0x04).status.busy = true ∧ decode (running 0x04).cmdreg = .ok (.hbuild 0) ∧
        runCommand (running 0x04) = .fault (.unwritten .hist 0 0)) ∧
      (uncodedScan.status.busy = true ∧ decode uncodedScan.cmdreg = .ok .escan ∧
        runCommand uncodedScan = .fault (.unwritten .coef 0 0)) :=
  ⟨rfl, ⟨rfl, by decide⟩, ⟨rfl, rfl, rfl⟩, rfl, rfl, rfl⟩

/-- HBUILD appends nothing, so OUTCNT reads exactly while it runs (10_state.md R44). -/
theorem test_outcnt_while_hbuild : (hostRead 0x68 32 { running 0x04 with outcnt := 7 }).busData = 7 := by
  have h : (hostRead 0x68 32 { running 0x04 with outcnt := 7 }).busData = busyOutcnt { running 0x04 with outcnt := 7 } :=
    rfl
  have hd : decode { running 0x04 with outcnt := 7 }.cmdreg = .ok (.hbuild 0) := rfl
  rw [h]
  exact busyOutcnt_of_not_append (fun e => by cases hd.symm.trans e) fun b e => by cases hd.symm.trans e

theorem uncodedScan_appends : appendedBytes (withFreeElements uncodedScan) = some 0 := by
  obtain ⟨t, ht⟩ := runCommand_withFreeElements (s := uncodedScan) rfl
  have hout : t.out = [] := by
    have hx : execEscan (withFreeElements uncodedScan) = .next t := ht
    have hhuff : ∀ n ≤ 11, Bank.read (withFreeElements uncodedScan).mem.huff 0 n = some ⟨0, 0⟩ := by
      intro n hn
      have h : ∀ n < 12, Bank.read uncodedScan.mem.huff 0 n = some ⟨0, 0⟩ := by decide
      simp only [withFreeElements, Bank.read_fill, h n (by omega), Option.some_or]
    have hcode : ∀ n ≤ 11, ∀ (toks : List Token) (u : State), u.mem.huff = (withFreeElements uncodedScan).mem.huff →
        (codeTokens (.sym 0 n :: toks) u).1 = u := by
      intro n hn toks u hu
      simp only [codeTokens, codeToken, hu, hhuff n hn, needed_some, if_true]
    have hrun : ∀ r, scanRun (withFreeElements uncodedScan) = .ok r →
        (codeTokens r.tokens (escanStart (withFreeElements uncodedScan) r)).1.out = [] := by
      intro r hr
      obtain ⟨-, -, kind, hk, rfl, -⟩ := scanRun_eq_ok_iff.1 hr
      obtain rfl : kind = .dcf := by
        have : scanKind (withFreeElements uncodedScan).scan = some .dcf := by rfl
        rw [this] at hk; exact (Option.some.inj hk).symm
      have hm : mcuList (withFreeElements uncodedScan) = [[⟨0, 0, 0⟩]] := by rfl
      have htd : (scompAt (withFreeElements uncodedScan) 0).td.toNat = 0 := by rfl
      have hri : restartBefore (withFreeElements uncodedScan) 0 = false := by rfl
      unfold serialize
      rw [hm]
      simp only [serializeFrom, mcuTokens, entryTokens, hri, htd, dcTokens, Bool.false_eq_true, if_false]
      rcases coefAt (withFreeElements uncodedScan) 0 0 0 with st | v
      · rfl
      · dsimp only
        by_cases h : 11 < category (dcTransform v (withFreeElements uncodedScan).scan.al.toNat - predAt predZero 0)
        · simp only [if_pos h]
          rfl
        · simp only [if_neg h, emitFirst, List.nil_append, List.cons_append]
          rw [hcode _ (Nat.le_of_not_lt h) _ (escanStart (withFreeElements uncodedScan) _) rfl]
          rfl
    obtain ⟨x, -, rfl⟩ | ⟨r, hr, -, -, rfl⟩ | ⟨r, x, hr, -, rfl⟩ := execEscan_eq_next_iff.1 hx
    · rfl
    · exact hrun r hr
    · exact hrun r hr
  unfold appendedBytes
  rw [ht]
  simp only [hout, List.length_nil, Nat.zero_sub]

/-- No byte is possible, whatever the coefficients are, so OUTCNT reads exactly (10_state.md R44). -/
theorem test_outcnt_while_uncoded_escan : (hostRead 0x68 32 uncodedScan).busData = 7 := by
  have h : (hostRead 0x68 32 uncodedScan).busData = busyOutcnt uncodedScan := rfl
  have h0 : appendedBytes uncodedScan = none := rfl
  rw [h, busyOutcnt, h0, Option.none_or, uncodedScan_appends]
  simp only [Option.getD_some, Nat.zero_add, Nat.mod_one]
  rfl

/-- A state that selects an element through MSEL and MIDX. -/
def selecting (sp : Space) (sub idx : Nat) : State :=
  storeReg .midx (BitVec.ofNat 32 idx) (storeReg .msel (mselWord sp sub) small)

/-- A triple no row of R61 allows: an index or a SUB just beyond its range, and a reserved SPACE. -/
theorem witness_unselected :
    (∀ sp, ¬Selects (selecting .dbuf 0 64) sp) ∧ (∀ sp, ¬Selects (selecting .hist 3 12) sp) ∧
      (∀ sp, ¬Selects (selecting .coef 3 0) sp) ∧
      ∀ sp, ¬Selects { small with msel := { space := 6, sub := 0 } } sp := by
  refine ⟨?_, ?_, ?_, ?_⟩ <;> intro sp <;> cases sp <;> simp only [Selects] <;> decide

/-- The last legal element of each row of R61. -/
theorem witness_selected :
    Selects (selecting .dbuf 0 63) .dbuf ∧ Selects (selecting .qtab 3 63) .qtab ∧ Selects (selecting .qf 0 3) .qf ∧
      Selects (selecting .coef 2 255) .coef ∧ Selects (selecting .hist 3 11) .hist ∧
      Selects (selecting .hist 7 255) .hist ∧ Selects (selecting .huff 7 255) .huff := by
  simp only [Selects]
  decide

theorem witness_DataPortReads :
    small.status.busy = false ∧
      (Selects (withHist (selecting .hist 0 0) 0 [3]) .hist ∧
        elementWord (withHist (selecting .hist 0 0) 0 [3]).mem .hist 0 0 = some 3) ∧
      (Selects (selecting .hist 0 11) .hist ∧ elementWord (selecting .hist 0 11).mem .hist 0 11 = none) := by
  simp only [Selects]
  decide

/-- Vectors M3, M4, M6, M7 at the bounds of LEN and CODE. -/
theorem witness_DataPortWrites :
    Selects (selecting .huff 0 11) .huff ∧
      (16 < ((0x00110000#32).extractLsb' 16 5).toNat) ∧
      (2 ^ ((0x00020004#32).extractLsb' 16 5).toNat ≤ ((0x00020004#32).extractLsb' 0 16).toNat) ∧
      (2 ^ ((0x00000001#32).extractLsb' 16 5).toNat ≤ ((0x00000001#32).extractLsb' 0 16).toNat) ∧
      (((0x0010FFFF#32).extractLsb' 16 5).toNat ≤ 16 ∧
        ((0x0010FFFF#32).extractLsb' 0 16).toNat < 2 ^ ((0x0010FFFF#32).extractLsb' 16 5).toNat) ∧
      Selects (selecting .coef 1 255) .coef ∧ small.status.busy = false := by
  simp only [Selects]
  decide

/-! ### Witnesses: faults, resets, the sink, invariants -/

/-- A faulted block: QBLK straight after reset (95_test_vectors.md 2.7). -/
def broken : State := faulted 2 0 0 1 State.reset

theorem witness_OnlyResetLeavesFault :
    broken.status.fault = true ∧ broken.status.busy = false ∧
      (∃ t, perform (.write (broken.params.base + 0x04) 32 0xE) broken = .next t) ∧
      Event.write (broken.params.base + 0x04) 32 0xE ≠ .hardReset ∧ (0xE : Word).getLsbD 0 = false ∧
      (∃ t, perform .sequencer broken = .next t) ∧ (∃ t, perform .sinkReady broken = .next t) :=
  ⟨rfl, rfl, ⟨_, rfl⟩, by decide, by decide, ⟨_, rfl⟩, ⟨_, rfl⟩⟩

theorem witness_SoftResetKeepsMemories : (1#32).getLsbD 0 = true ∧ broken.status.busy = false := by decide

/-- An abort whose command has a step: whichever way the free choice falls, there is a next state. -/
theorem witness_SoftResetAbortsCommand :
    (1#32).getLsbD 0 = true ∧ (running 0x06).status.busy = true ∧
      ∃ t, hostWrite ((running 0x06).params.base + 0x04) 32 1 (running 0x06) = .next t := by
  refine ⟨by decide, rfl, ?_⟩
  have h : hostWrite ((running 0x06).params.base + 0x04) 32 1 (running 0x06) = writeSrst (running 0x06) := by
    simp [hostWrite, selectsBlock, legalAccess, regAt, regMap, writeReg]
  obtain ⟨u, hu⟩ : ∃ u, runCommand (running 0x06) = .next u := ⟨_, rfl⟩
  have hb : (running 0x06).status.busy = true := rfl
  rw [h]
  unfold writeSrst
  rw [if_pos hb]
  dsimp only
  split
  · rw [hu]; exact ⟨_, rfl⟩
  · exact ⟨_, rfl⟩

theorem witness_SinkTakesHeadByte : small.out = [] ∧ { small with out := [7, 8] }.out = 7 :: [8] := ⟨rfl, rfl⟩

theorem witness_StreamOnlyGrows :
    (∃ t, perform .sequencer (running 0x06) = .next t) ∧ (∃ t, perform .sinkReady { small with out := [7] } = .next t) ∧
      (∃ t, perform (.read 8 32) small = .next t) ∧ (∃ t, perform .sequencer small = .next t) ∧
      small.status.busy = false ∧ Event.sequencer ≠ .hardReset ∧
      (∃ t, perform (.write ((running 0x06).params.base + 0x10) 32 0x01) (running 0x06) = .next t) ∧
      (running 0x06).params.base + 0x10 ≠ (running 0x06).params.base + 0x04 :=
  ⟨⟨_, rfl⟩, ⟨_, rfl⟩, ⟨_, rfl⟩, ⟨_, rfl⟩, rfl, by decide, ⟨_, rfl⟩, by decide⟩

theorem witness_InterruptLine :
    (∃ t, exec .nop { small with ie := ⟨true, true⟩ } = .next t ∧ t.status.done = true) ∧
      (∃ t, exec (.qblk 3) { small with ie := ⟨true, true⟩ } = .next t ∧ t.status.fault = true) ∧
      (0x2#32).getLsbD 1 = true ∧ small.status.fault = false ∧ small.status.busy = false ∧
      (∃ t, hostWrite (small.params.base + 0x08) 32 0x2 small = .next t) ∧
      (∃ t, hostWrite (small.params.base + 0x10) 32 0 small = .next t) :=
  ⟨⟨_, rfl, rfl⟩, ⟨_, rfl, rfl⟩, by decide, rfl, rfl, ⟨_, rfl⟩, ⟨_, rfl⟩⟩

theorem witness_StepKeepsInvariant : (running 0x06).Inv ∧ ∃ t, step (running 0x06) = .next t :=
  ⟨⟨by decide, by decide, ⟨by decide, by decide, by decide, by decide, by decide, by decide⟩, by decide, by decide⟩,
    ⟨_, rfl⟩⟩

theorem witness_StepKeepsHuffSound :
    (withHuff (running 0x06) 0 [⟨16, 0xFFFE⟩, ⟨0, 0⟩]).mem.huffSound = true ∧
      ∃ t, step (withHuff (running 0x06) 0 [⟨16, 0xFFFE⟩, ⟨0, 0⟩]) = .next t :=
  ⟨by decide, ⟨_, rfl⟩⟩

end Sys2Proof.Tests
end

/-! The statements of 10_state.md: the accesses to the register map, the words of the registers, the configuration
checks, OUTCNT and the stream. -/

namespace Sys2Proof.Proofs

open Sys2Proof.Machine Sys2Proof.Claims

/-! ### The register map and the accesses to it (10_state.md R25, 20_memory.md R71, R73) -/

@[simp] theorem regAt_regOffset (r : Reg) : regAt (regOffset r) = some r := by cases r <;> rfl

theorem regOffset_lt (r : Reg) : regOffset r < 256 := by cases r <;> decide

theorem regOffset_aligned (r : Reg) : regOffset r % 4 = 0 := by cases r <;> rfl

theorem regOffset_of_regAt {offset : Nat} {r : Reg} (h4 : offset % 4 = 0) (h : regAt offset = some r) :
    regOffset r = offset := by
  have hlt : offset / 4 < 27 := (List.getElem?_eq_some_iff.1 h).1
  have map : ∀ n < 27, ∀ r, regMap[n]? = some r → regOffset r = 4 * n := by
    intro n hn r
    revert n
    cases r <;> decide
  rw [map _ hlt r h]
  omega

theorem regAt_reserved {offset : Nat} (h : 0x6C ≤ offset) : regAt offset = none := by
  apply List.getElem?_eq_none
  have : regMap.length = 27 := rfl
  omega

theorem selectsBlock_iff (p : Params) (offset : Nat) : selectsBlock p (p.base + offset) = true ↔ offset < 256 := by
  simp [selectsBlock]

theorem legalAccess_iff (offset width : Nat) : legalAccess offset width = true ↔ width = 32 ∧ offset % 4 = 0 := by
  simp [legalAccess]

section
variable (s : State) (r : Reg) (w : Word)

/-- A 32-bit read at a register's address is a read of the register. -/
theorem hostRead_reg :
    hostRead (s.params.base + regOffset r) 32 s = answer (readReg r s).1 (readReg r s).2 := by
  unfold hostRead
  rw [if_pos ((selectsBlock_iff _ _).2 (regOffset_lt r)), Nat.add_sub_cancel_left,
    if_pos ((legalAccess_iff _ _).2 ⟨rfl, regOffset_aligned r⟩), regAt_regOffset]

/-- A 32-bit write at a register's address is a write of the register. -/
theorem hostWrite_reg : hostWrite (s.params.base + regOffset r) 32 w s = writeReg r w s := by
  unfold hostWrite
  rw [if_pos ((selectsBlock_iff _ _).2 (regOffset_lt r)), Nat.add_sub_cancel_left,
    if_pos ((legalAccess_iff _ _).2 ⟨rfl, regOffset_aligned r⟩), regAt_regOffset]

variable {offset : Nat} (h : offset < 256) (h4 : offset % 4 = 0) (hr : regAt offset = none)
include h h4 hr

/-- A read where no register stands is refused (10_state.md R26). -/
theorem hostRead_reserved : hostRead (s.params.base + offset) 32 s = answer 0 (setAccerr s) := by
  unfold hostRead
  rw [if_pos ((selectsBlock_iff _ _).2 h), Nat.add_sub_cancel_left, if_pos ((legalAccess_iff _ _).2 ⟨rfl, h4⟩), hr]

/-- A write where no register stands is refused (10_state.md R26). -/
theorem hostWrite_reserved : hostWrite (s.params.base + offset) 32 w s = .next (setAccerr s) := by
  unfold hostWrite
  rw [if_pos ((selectsBlock_iff _ _).2 h), Nat.add_sub_cancel_left, if_pos ((legalAccess_iff _ _).2 ⟨rfl, h4⟩), hr]

end

/-- A write that moves the machine is of no effect, is refused, or is a 32-bit write at a register's address. -/
theorem hostWrite_next_reg {addr width : Nat} {w : Word} {s t : State} (h : hostWrite addr width w s = .next t) :
    t = s ∨ t = setAccerr s ∨
      ∃ r, addr = s.params.base + regOffset r ∧ width = 32 ∧ writeReg r w s = .next t := by
  unfold hostWrite at h
  split at h
  · rename_i hsel
    simp only [selectsBlock, Bool.and_eq_true, decide_eq_true_eq] at hsel
    obtain ⟨offset, rfl⟩ := Nat.exists_eq_add_of_le hsel.1
    rw [Nat.add_sub_cancel_left] at h
    dsimp only at h
    split at h
    · rename_i hlegal
      obtain ⟨hw, h4⟩ := (legalAccess_iff _ _).1 hlegal
      split at h
      · rename_i r hr
        exact .inr (.inr ⟨r, by rw [regOffset_of_regAt h4 hr], hw, h⟩)
      · cases h; exact .inr (.inl rfl)
    · cases h; exact .inr (.inl rfl)
  · cases h; exact .inl rfl

/-! ### Writes of a block that is not busy -/

section
variable {s : State} (hb : s.status.busy = false)
include hb

theorem unlessBusy_of_idle (t : State) : unlessBusy s t = t := by simp [unlessBusy, hb]

theorem writeReg_plain {r : Reg} (hr : isPlain r = true) (w : Word) : writeReg r w s = .next (storeReg r w s) := by
  rw [← unlessBusy_of_idle hb (storeReg r w s)]
  cases r <;> cases hr <;> rfl

end

/-- Settles O42: no register stands at the reserved offsets, and an idle block's write to a read-only register is dropped. -/
theorem reservedOffsetsAndReadOnly : Obligations.ReservedOffsetsAndReadOnly := by
  intro s w
  refine ⟨fun offset hlo hhi h4 => ?_, fun hb r hr => ?_, hostRead_reg s .cmd⟩
  · have hnone := regAt_reserved hlo
    exact ⟨hostRead_reserved s (by omega) h4 hnone, hostWrite_reserved s w (by omega) h4 hnone⟩
  · have hro : writeReg r w s = .next (unlessBusy s s) := by
      simp only [List.mem_cons, List.not_mem_nil, or_false] at hr
      obtain rfl | rfl | rfl | rfl := hr <;> rfl
    rw [hostWrite_reg, hro, unlessBusy_of_idle hb]

/-! ### The words of the registers (10_state.md R32 to R43) -/

theorem regWord_storeCtrl (w : Word) (s : State) : regWord .ctrl (storeCtrl w s) = w &&& 0x0000000E#32 := by
  refine BitVec.eq_of_getLsbD_eq fun i hi => ?_
  simp only [regWord, storeCtrl, bit, BitVec.getLsbD_append, BitVec.getLsbD_and]
  interval_cases i <;> simp

theorem regWord_storeIe (w : Word) (s : State) : regWord .ie (storeIe w s) = w &&& 0x00000006#32 := by
  refine BitVec.eq_of_getLsbD_eq fun i hi => ?_
  simp only [regWord, storeIe, bit, BitVec.getLsbD_append, BitVec.getLsbD_and]
  interval_cases i <;> simp

theorem statusWord_writeStatus (w : Word) (s : State) :
    statusWord (writeStatus w s).status = statusWord s.status &&& ~~~(w &&& 0x0000001A#32) := by
  refine BitVec.eq_of_getLsbD_eq fun i hi => ?_
  simp only [statusWord, writeStatus, bit, BitVec.getLsbD_append, BitVec.getLsbD_and, BitVec.getLsbD_not]
  interval_cases i <;> simp

section
variable (w : Word)

theorem compWord_compOf : compWord (compOf w) = w &&& 0x000003FF#32 := by
  refine BitVec.eq_of_getLsbD_eq fun i hi => ?_
  simp only [compWord, compOf, BitVec.getLsbD_append, BitVec.getLsbD_and, BitVec.getLsbD_extractLsb']
  interval_cases i <;> simp

theorem scompWord_scompOf : scompWord (scompOf w) = w &&& 0x00000333#32 := by
  refine BitVec.eq_of_getLsbD_eq fun i hi => ?_
  simp only [scompWord, scompOf, BitVec.getLsbD_append, BitVec.getLsbD_and, BitVec.getLsbD_extractLsb']
  interval_cases i <;> simp

theorem scanWord_scanOf : scanWord (scanOf w) = w &&& 0xFF3F3F03#32 := by
  refine BitVec.eq_of_getLsbD_eq fun i hi => ?_
  simp only [scanWord, scanOf, BitVec.getLsbD_append, BitVec.getLsbD_and, BitVec.getLsbD_extractLsb']
  interval_cases i <;> simp

theorem halfWord_extract : halfWord (w.extractLsb' 0 16) = w &&& 0x0000FFFF#32 := by
  refine BitVec.eq_of_getLsbD_eq fun i hi => ?_
  simp only [halfWord, BitVec.getLsbD_append, BitVec.getLsbD_and, BitVec.getLsbD_extractLsb']
  interval_cases i <;> simp

theorem frameWord_extract : (0#30 ++ w.extractLsb' 0 2 : Word) = w &&& 0x00000003#32 := by
  refine BitVec.eq_of_getLsbD_eq fun i hi => ?_
  simp only [BitVec.getLsbD_append, BitVec.getLsbD_and, BitVec.getLsbD_extractLsb']
  interval_cases i <;> simp

theorem qposWord_extract : (w.extractLsb' 16 16 ++ w.extractLsb' 0 16 : Word) = w &&& 0xFFFFFFFF#32 := by
  refine BitVec.eq_of_getLsbD_eq fun i hi => ?_
  simp only [BitVec.getLsbD_append, BitVec.getLsbD_and, BitVec.getLsbD_extractLsb']
  interval_cases i <;> simp

theorem mselWord_extract : (0#24 ++ w.extractLsb' 4 4 ++ w.extractLsb' 0 4 : Word) = w &&& 0x000000FF#32 := by
  refine BitVec.eq_of_getLsbD_eq fun i hi => ?_
  simp only [BitVec.getLsbD_append, BitVec.getLsbD_and, BitVec.getLsbD_extractLsb']
  interval_cases i <;> simp

end

/-! ### What a store of a parameter register leaves in each field (10_state.md R27) -/

section
variable (r : Reg) (w : Word) (s : State)

theorem storeReg_nc : (storeReg r w s).nc = if r = .frame then w.extractLsb' 0 2 else s.nc := by
  cases r <;> rfl

theorem storeReg_mcux : (storeReg r w s).mcux = if r = .mcux then w.extractLsb' 0 16 else s.mcux := by
  cases r <;> rfl

theorem storeReg_mcuy : (storeReg r w s).mcuy = if r = .mcuy then w.extractLsb' 0 16 else s.mcuy := by
  cases r <;> rfl

theorem storeReg_comp0 : compAt (storeReg r w s) 0 = if r = .comp0 then compOf w else compAt s 0 := by
  cases r <;> simp [compAt, storeReg]

theorem storeReg_comp1 : compAt (storeReg r w s) 1 = if r = .comp1 then compOf w else compAt s 1 := by
  cases r <;> simp [compAt, storeReg]

theorem storeReg_comp2 : compAt (storeReg r w s) 2 = if r = .comp2 then compOf w else compAt s 2 := by
  cases r <;> simp [compAt, storeReg]

theorem storeReg_qfconst : (storeReg r w s).qfconst = if r = .qfconst then w else s.qfconst := by
  cases r <;> rfl

theorem storeReg_dcmul : (storeReg r w s).dcmul = if r = .dcmul then w else s.dcmul := by
  cases r <;> rfl

theorem storeReg_qpos : (storeReg r w s).qpos =
    if r = .qpos then { bx := w.extractLsb' 0 16, byRow := w.extractLsb' 16 16 } else s.qpos := by
  cases r <;> rfl

theorem storeReg_scan : (storeReg r w s).scan = if r = .scan then scanOf w else s.scan := by
  cases r <;> rfl

theorem storeReg_scomp0 : scompAt (storeReg r w s) 0 = if r = .scomp0 then scompOf w else scompAt s 0 := by
  cases r <;> simp [scompAt, storeReg]

theorem storeReg_scomp1 : scompAt (storeReg r w s) 1 = if r = .scomp1 then scompOf w else scompAt s 1 := by
  cases r <;> simp [scompAt, storeReg]

theorem storeReg_scomp2 : scompAt (storeReg r w s) 2 = if r = .scomp2 then scompOf w else scompAt s 2 := by
  cases r <;> simp [scompAt, storeReg]

theorem storeReg_niw : (storeReg r w s).niw = if r = .niw then w.extractLsb' 0 16 else s.niw := by
  cases r <;> rfl

theorem storeReg_nih : (storeReg r w s).nih = if r = .nih then w.extractLsb' 0 16 else s.nih := by
  cases r <;> rfl

theorem storeReg_ri : (storeReg r w s).ri = if r = .ri then w.extractLsb' 0 16 else s.ri := by
  cases r <;> rfl

theorem storeReg_msel : (storeReg r w s).msel =
    if r = .msel then { space := w.extractLsb' 0 4, sub := w.extractLsb' 4 4 } else s.msel := by
  cases r <;> rfl

theorem storeReg_midx : (storeReg r w s).midx = if r = .midx then w else s.midx := by
  cases r <;> rfl

end

/-- A parameter register reads the bits a rule names, and its reserved bits as 0. -/
theorem regWord_storeReg_self {r : Reg} (hr : isPlain r = true) (w : Word) (s : State) :
    regWord r (storeReg r w s) = w &&& namedBits r := by
  cases r with
  | frame => exact frameWord_extract w
  | mcux | mcuy | niw | nih | ri => exact halfWord_extract w
  | comp0 => exact (congrArg compWord (storeReg_comp0 .comp0 w s)).trans (compWord_compOf w)
  | comp1 => exact (congrArg compWord (storeReg_comp1 .comp1 w s)).trans (compWord_compOf w)
  | comp2 => exact (congrArg compWord (storeReg_comp2 .comp2 w s)).trans (compWord_compOf w)
  | qfconst | dcmul | midx => exact BitVec.and_allOnes.symm
  | qpos => exact qposWord_extract w
  | scan => exact scanWord_scanOf w
  | scomp0 => exact (congrArg scompWord (storeReg_scomp0 .scomp0 w s)).trans (scompWord_scompOf w)
  | scomp1 => exact (congrArg scompWord (storeReg_scomp1 .scomp1 w s)).trans (scompWord_scompOf w)
  | scomp2 => exact (congrArg scompWord (storeReg_scomp2 .scomp2 w s)).trans (scompWord_scompOf w)
  | msel => exact mselWord_extract w
  | id | finfo | faux | outcnt | ctrl | status | ie | cmd | mdata => cases hr

/-- A store in one register leaves the word of every other. -/
theorem regWord_storeReg_of_ne {r r' : Reg} (h : r ≠ r') (w : Word) (s : State) :
    regWord r' (storeReg r w s) = regWord r' s := by
  obtain ⟨-, hstatus, hfinfo, hfaux, -, -, -, houtcnt, -, -, -, hie, hctrl, -⟩ := storeReg_frame r w s
  cases r' with
  | id | cmd | mdata => rfl
  | ctrl => simp only [regWord, hctrl]
  | status => simp only [regWord, hstatus]
  | ie => simp only [regWord, hie]
  | finfo => simp only [regWord, hfinfo]
  | faux => exact hfaux
  | outcnt => exact houtcnt
  | frame => simp only [regWord, storeReg_nc, if_neg h]
  | mcux => simp only [regWord, storeReg_mcux, if_neg h]
  | mcuy => simp only [regWord, storeReg_mcuy, if_neg h]
  | comp0 => simp only [regWord, storeReg_comp0, if_neg h]
  | comp1 => simp only [regWord, storeReg_comp1, if_neg h]
  | comp2 => simp only [regWord, storeReg_comp2, if_neg h]
  | qfconst => simp only [regWord, storeReg_qfconst, if_neg h]
  | dcmul => simp only [regWord, storeReg_dcmul, if_neg h]
  | qpos => simp only [regWord, storeReg_qpos, if_neg h]
  | scan => simp only [regWord, storeReg_scan, if_neg h]
  | scomp0 => simp only [regWord, storeReg_scomp0, if_neg h]
  | scomp1 => simp only [regWord, storeReg_scomp1, if_neg h]
  | scomp2 => simp only [regWord, storeReg_scomp2, if_neg h]
  | niw => simp only [regWord, storeReg_niw, if_neg h]
  | nih => simp only [regWord, storeReg_nih, if_neg h]
  | ri => simp only [regWord, storeReg_ri, if_neg h]
  | msel => simp only [regWord, storeReg_msel, if_neg h]
  | midx => simp only [regWord, storeReg_midx, if_neg h]

theorem readReg_plain {r : Reg} (hr : isPlain r = true) (s : State) : readReg r s = (regWord r s, s) := by
  cases r <;> cases hr <;> rfl

/-- Settles O43: the state after the store is the next state, and its registers read as stored. -/
theorem parameterRegistersReadBack : Obligations.ParameterRegistersReadBack := by
  intro s r w hr hb
  obtain ⟨hmem, -, -, -, -, -, hout, -, -, hparams, hcmdreg, -, -, -⟩ := storeReg_frame r w s
  refine ⟨storeReg r w s, (hostWrite_reg s r w).trans (writeReg_plain hb hr w), ?_,
    fun r' h => regWord_storeReg_of_ne h.symm w s, hmem, hout, hcmdreg⟩
  rw [← hparams, hostRead_reg, readReg_plain hr, regWord_storeReg_self hr]
  rfl

/-- Settles O44: with bit 0 clear a write to CTRL is no soft reset, and an idle block stores it. -/
theorem ctrlAndIeStore : Obligations.CtrlAndIeStore := by
  refine fun s w => ⟨fun h0 hb => ⟨(storeCtrl w s).ctrl, ?_, regWord_storeCtrl w s⟩,
    (storeIe w s).ie, hostWrite_reg s .ie w, regWord_storeIe w s⟩
  have hw : writeReg .ctrl w s = .next (unlessBusy s (storeCtrl w s)) := if_neg (by rw [h0]; decide)
  rw [unlessBusy_of_idle hb] at hw
  exact (hostWrite_reg s .ctrl w).trans hw

/-- Settles O45: the write is accepted in every state, so the word is all there is to say. -/
theorem statusWriteClears : Obligations.StatusWriteClears := fun s w =>
  ⟨(writeStatus w s).status, hostWrite_reg s .status w, statusWord_writeStatus w s⟩

/-! ### Legal frames and scans (10_state.md R54, 41_serializer.md R132, R133) -/

theorem samplingOk_iff (c : Comp) : samplingOk c = true ↔
    (c.hs.toNat = 1 ∨ c.hs.toNat = 2 ∨ c.hs.toNat = 4 ∨ c.hs.toNat = 8) ∧ c.vs.toNat = c.hs.toNat := by
  simp [samplingOk, BitVec.toNat_eq, or_assoc]

theorem frameOk_iff (s : State) : frameOk s = true ↔ FrameLegal s := by
  have clauses : frameOk s = true ↔
      (((1 ≤ s.nc.toNat ∧ s.nc.toNat ≤ 3) ∧ 1 ≤ s.mcux.toNat ∧ 1 ≤ s.mcuy.toNat) ∧
        ∀ c < s.nc.toNat, samplingOk (compAt s c) = true) ∧
      ∀ c < s.nc.toNat, wib s c * hib s c ≤ s.params.coefBlocks := by
    simp only [frameOk, Bool.and_eq_true, decide_eq_true_eq, List.all_eq_true, List.mem_range]
  simp only [clauses, samplingOk_iff]
  constructor
  · rintro ⟨⟨⟨hnc, hmcu⟩, hsamp⟩, hcap⟩
    exact ⟨hnc, hmcu, hsamp, hcap⟩
  · rintro ⟨hnc, hmcu, hsamp, hcap⟩
    exact ⟨⟨⟨hnc, hmcu⟩, hsamp⟩, hcap⟩

/-- The scan kind decided on the numbers the fields hold. -/
theorem scanKind_eq (sc : Scan) : scanKind sc =
    if sc.ss.toNat = 0 then
      if sc.se.toNat = 63 ∧ sc.ah.toNat = 0 ∧ sc.al.toNat = 0 then some .seq
      else if sc.se.toNat = 0 ∧ sc.ah.toNat = 0 then some .dcf
      else if sc.se.toNat = 0 ∧ sc.al.toNat + 1 = sc.ah.toNat then some .dcr
      else none
    else if sc.ss.toNat ≤ sc.se.toNat ∧ sc.ns.toNat = 1 then
      if sc.ah.toNat = 0 then some .acf
      else if sc.al.toNat + 1 = sc.ah.toNat then some .acr
      else none
    else none := by
  simp only [scanKind, BitVec.toNat_eq]
  rfl

theorem hasKind_of_scanKind {s : State} {kind : ScanKind} (h : scanKind s.scan = some kind) : HasKind s kind := by
  rw [scanKind_eq] at h
  split_ifs at h <;> cases h <;> simp only [HasKind] <;> omega

theorem scanKind_of_hasKind {s : State} {kind : ScanKind} (h : HasKind s kind) : scanKind s.scan = some kind := by
  rw [scanKind_eq]
  cases kind <;> simp only [HasKind] at h
  case seq => rw [if_pos, if_pos] <;> omega
  case dcf => rw [if_pos, if_neg, if_pos] <;> omega
  case dcr => rw [if_pos, if_neg, if_neg, if_pos] <;> omega
  case acf => rw [if_neg, if_pos, if_pos] <;> omega
  case acr => rw [if_neg, if_pos, if_neg, if_pos] <;> omega

theorem scanKind_eq_some_iff (s : State) (kind : ScanKind) : scanKind s.scan = some kind ↔ HasKind s kind :=
  ⟨hasKind_of_scanKind, scanKind_of_hasKind⟩

theorem scanOk_iff (s : State) : scanOk s = true ↔ ScanLegal s := by
  have hkind : (scanKind s.scan).isSome = true ↔ ∃ kind, HasKind s kind := by
    simp only [Option.isSome_iff_exists, scanKind_eq_some_iff]
  simp only [scanOk, Bool.and_eq_true, Bool.or_eq_true, decide_eq_true_eq, List.all_eq_true, List.mem_range,
    bne_iff_ne, ne_eq, hkind]
  constructor
  · rintro ⟨⟨⟨⟨hns, hcomp⟩, hasc⟩, hk⟩, hext⟩
    refine ⟨hns, hcomp, fun j hj => hasc j (by omega), hk, fun h1 => ?_⟩
    obtain ⟨⟨⟨hw, hw'⟩, hh⟩, hh'⟩ := hext.resolve_left (fun hn => hn h1)
    exact ⟨hw, hw', hh, hh'⟩
  · rintro ⟨hns, hcomp, hasc, hk, hext⟩
    refine ⟨⟨⟨⟨hns, hcomp⟩, fun j hj => hasc j (by omega)⟩, hk⟩, or_iff_not_imp_left.2 fun h1 => ?_⟩
    obtain ⟨hw, hw', hh, hh'⟩ := hext (not_not.1 h1)
    exact ⟨⟨⟨hw, hw'⟩, hh⟩, hh'⟩

theorem foldl_max_le_iff (f : Nat → Nat) (l : List Nat) (m b : Nat) :
    l.foldl (fun m c => max m (f c)) m ≤ b ↔ m ≤ b ∧ ∀ c ∈ l, f c ≤ b := by
  induction l generalizing m with
  | nil => simp
  | cons c l ih => simp [ih, and_assoc]

theorem maxSampling_le_iff (s : State) (b : Nat) :
    maxSampling s ≤ b ↔ ∀ c < s.nc.toNat, (compAt s c).hs.toNat ≤ b := by
  rw [maxSampling, foldl_max_le_iff]
  simp

theorem maxSampling_eq {s : State} {maxs : Nat} (h : LargestSampling s maxs) : maxSampling s = maxs := by
  obtain ⟨⟨c, hc, rfl⟩, hle⟩ := h
  exact le_antisymm ((maxSampling_le_iff s _).2 hle) ((maxSampling_le_iff s _).1 le_rfl c hc)

/-! ### Configuration faults (60_exceptions.md R204) -/

/-- A command that ends in BADCFG changes nothing but the fault record and the accumulator. -/
theorem endCommand_badcfg (s : State) (c : BitVec 2) (aux : Nat) :
    endCommand s (some (.raised (raiseAt .badcfg c.toNat 0 aux))) = .next (faulted 2 c 0 (BitVec.ofNat 32 aux) s) := by
  rw [endCommand_raised, raiseAt, BitVec.ofNat_toNat, BitVec.setWidth_eq]
  rfl

section
variable {s : State} {c : Nat}

theorem quantBlock_illegal_frame (hf : frameOk s = false) :
    quantBlock s c = .error (.raised (raiseAt .badcfg 0 0 1)) := by
  simp [quantBlock, hf, bind, Except.bind, throw, throwThe, MonadExceptOf.throw]

variable (hf : frameOk s = true)
include hf

theorem quantBlock_outside_frame
    (hp : s.nc.toNat ≤ c ∨ wib s c ≤ s.qpos.bx.toNat ∨ hib s c ≤ s.qpos.byRow.toNat) :
    quantBlock s c = .error (.raised (raiseAt .badcfg c 0 2)) := by
  simp [quantBlock, hf, hp, bind, Except.bind, throw, throwThe, MonadExceptOf.throw]

theorem quantBlock_field_too_large (hc : c < s.nc.toNat) (hx : s.qpos.bx.toNat < wib s c)
    (hy : s.qpos.byRow.toNat < hib s c) (haq : s.ctrl.aq = true)
    (hcells : s.params.qfCells < qfWidth s * qfHeight s) :
    quantBlock s c = .error (.raised (raiseAt .badcfg c 0 3)) := by
  have hp : ¬(s.nc.toNat ≤ c ∨ wib s c ≤ s.qpos.bx.toNat ∨ hib s c ≤ s.qpos.byRow.toNat) := by omega
  simp [quantBlock, hf, hp, haq, hcells, bind, Except.bind, throw, throwThe, MonadExceptOf.throw]

end

/-- A QBLK whose block stops at BADCFG takes that fault and changes nothing else. -/
theorem exec_qblk_badcfg {s : State} {c c' : BitVec 2} {aux : Nat}
    (h : quantBlock s c.toNat = .error (.raised (raiseAt .badcfg c'.toNat 0 aux))) :
    exec (.qblk c) s = .next (faulted 2 c' 0 (BitVec.ofNat 32 aux) s) := by
  rw [← endCommand_badcfg]
  simp only [exec, execQblk, h]

/-- Settles O16: the three checks of QBLK in their order. -/
theorem qblkConfigurationFaults : Obligations.QblkConfigurationFaults := by
  intro c s
  refine ⟨frameOk_iff s, fun hf => ?_, fun hf => ⟨fun hp => ?_, ?_⟩⟩
  · rw [← frameOk_iff, Bool.not_eq_true] at hf
    exact exec_qblk_badcfg (c' := 0) (quantBlock_illegal_frame hf)
  · exact exec_qblk_badcfg (quantBlock_outside_frame ((frameOk_iff s).2 hf) hp)
  · intro hc hx hy haq maxs hmax hcells
    rw [← maxSampling_eq hmax] at hcells
    exact exec_qblk_badcfg (quantBlock_field_too_large ((frameOk_iff s).2 hf) hc hx hy haq hcells)

/-- Both scan commands take a configuration fault that stops the scan. -/
theorem exec_scan_badcfg {s : State} {aux : Nat} (h : scanRun s = .error (.raised (raiseAt .badcfg 0 0 aux))) :
    exec .hscan s = .next (faulted 2 0 0 (BitVec.ofNat 32 aux) s) ∧
      exec .escan s = .next (faulted 2 0 0 (BitVec.ofNat 32 aux) s) := by
  rw [← endCommand_badcfg s 0]
  constructor
  · simp only [exec, execHscan, h]; rfl
  · simp only [exec, execEscan, h]; rfl

/-- Settles O29: the frame is checked first and then the scan. -/
theorem scanConfigurationFaults : Obligations.ScanConfigurationFaults := by
  intro s
  refine ⟨frameOk_iff s, scanOk_iff s, scanKind_eq_some_iff s, fun hf => ?_, fun hf hs => ?_⟩
  · rw [← frameOk_iff, Bool.not_eq_true] at hf
    exact exec_scan_badcfg (by simp [scanRun, hf])
  · rw [← frameOk_iff] at hf
    rw [← scanOk_iff, Bool.not_eq_true] at hs
    exact exec_scan_badcfg (by simp [scanRun, hf, hs])

/-! ### OUTCNT (10_state.md R44) -/

/-- A read of OUTCNT of a busy block returns `busyOutcnt` and uses one free value. -/
theorem hostRead_outcnt_busy {s : State} (hb : s.status.busy = true) :
    hostRead (s.params.base + 0x68) 32 s = { s with busData := busyOutcnt s, free := s.free + 1 } := by
  have hread : readOutcnt s = (busyOutcnt s, { s with free := s.free + 1 }) := if_pos hb
  refine (hostRead_reg s .outcnt).trans ?_
  simp only [readReg, hread, answer]

theorem hostRead_outcnt_idle {s : State} (hb : s.status.busy = false) :
    hostRead (s.params.base + 0x68) 32 s = { s with busData := s.outcnt } := by
  have hread : readOutcnt s = (s.outcnt, s) := if_neg (by simp [hb])
  refine (hostRead_reg s .outcnt).trans ?_
  simp only [readReg, hread, answer]

/-- What a busy block adds to OUTCNT is at most the bytes its command appends, from memory as it is or with the
never-written elements filled. -/
theorem busyOutcnt_within {s : State} {n : Nat}
    (h : (appendedBytes s).or (appendedBytes (withFreeElements s)) = some n) :
    ∃ k ≤ n, busyOutcnt s = s.outcnt + BitVec.ofNat 32 k := by
  refine ⟨Config.freeNat s.free % (n + 1), Nat.le_of_lt_succ (Nat.mod_lt _ n.succ_pos), ?_⟩
  simp only [busyOutcnt, h, Option.getD_some]

theorem appendedBytes_of_next {s t : State} (h : runCommand s = .next t) :
    appendedBytes s = some (t.out.length - s.out.length) := by
  simp only [appendedBytes, h]

theorem completes_self (s : State) : Completes s s.mem := fun _ _ _ _ h => h

theorem completes_withFreeElements (s : State) : Completes s (withFreeElements s).mem :=
  fun _ _ _ _ h => elementWord_withFreeElements h

/-- The range of OUTCNT while an ESCAN runs is that of an ESCAN from some completion of the memory. -/
theorem escan_appends {s : State} (he : decode s.cmdreg = .ok .escan) :
    ∃ m t, Completes s m ∧ runCommand { s with mem := m } = .next t ∧
      (appendedBytes s).or (appendedBytes (withFreeElements s)) = some (t.out.length - s.out.length) := by
  cases h : appendedBytes s with
  | some n =>
    obtain ⟨t, ht, rfl⟩ := appendedBytes_eq_some h
    exact ⟨s.mem, t, completes_self s, ht, rfl⟩
  | none =>
    obtain ⟨t, ht⟩ := runCommand_withFreeElements he
    exact ⟨(withFreeElements s).mem, t, completes_withFreeElements s, ht, appendedBytes_of_next ht⟩

/-- Settles O47, clause by clause: an idle block, a command that appends nothing, a step that answers, an ESCAN. -/
theorem outcntReads : Obligations.OutcntReads := by
  intro s
  refine ⟨hostRead_outcnt_idle, fun hb he hp => ?_, fun t hb ht => ?_, fun hb he => ?_⟩
  · rw [hostRead_outcnt_busy hb, busyOutcnt_of_not_append he hp]
  · obtain ⟨k, hk, e⟩ := busyOutcnt_within (s := s) (by rw [appendedBytes_of_next ht, Option.some_or])
    exact ⟨k, hk, by rw [hostRead_outcnt_busy hb, e]⟩
  · obtain ⟨m, t, hm, ht, happ⟩ := escan_appends he
    obtain ⟨k, hk, e⟩ := busyOutcnt_within happ
    exact ⟨m, t, hm, ht, k, hk, by rw [hostRead_outcnt_busy hb, e]⟩

/-! ### The stream (10_state.md R50, 43_entropy.md R181, R191) -/

/-- The bytes received and still held, oldest first. -/
def stream (s : State) : List Byte := s.received ++ s.out

/-- `t` has the stream of `s` with some bytes appended. -/
def Extends (s t : State) : Prop := ∃ bytes, stream t = stream s ++ bytes

theorem Extends.of_eq {s t : State} (h : stream t = stream s) : Extends s t := ⟨[], by rw [h, List.append_nil]⟩

theorem extends_of_appends {s t : State} (h : Appends s t) : Extends s t := by
  obtain ⟨bytes, a, n, rfl⟩ := h
  exact ⟨bytes, (List.append_assoc _ _ _).symm⟩

theorem codeTokens_extends (s : State) (r : Run) : Extends s (codeTokens r.tokens (escanStart s r)).1 :=
  extends_of_appends (s := escanStart s r) (codeTokens_appends r.tokens _)

/-- A command only appends to the stream. -/
theorem exec_extends {i : Instr} {s t : State} (h : exec i s = .next t) : Extends s t := by
  cases i with
  | nop => cases h; exact .of_eq rfl
  | qblk c => obtain ⟨x, -, rfl⟩ | ⟨rs, -, rfl⟩ := execQblk_eq_next_iff.1 h <;> exact .of_eq rfl
  | hclr m => cases h; exact .of_eq rfl
  | hscan =>
    obtain ⟨x, -, rfl⟩ | ⟨r, -, -, -, rfl⟩ | ⟨r, x, -, -, rfl⟩ := execHscan_eq_next_iff.1 h <;> exact .of_eq rfl
  | hbuild n => obtain ⟨cs, -, rfl⟩ := execHbuild_eq_next_iff.1 h; exact .of_eq rfl
  | escan =>
    obtain ⟨x, -, rfl⟩ | ⟨r, -, -, -, rfl⟩ | ⟨r, x, -, -, rfl⟩ := execEscan_eq_next_iff.1 h
    · exact .of_eq rfl
    · exact codeTokens_extends s r
    · exact codeTokens_extends s r
  | putb b => cases h; exact (extends_of_appends (emitByte_appends b s) :)

theorem sequencerStep_stream {s t : State} (h : sequencerStep s = .next t) :
    ∃ bytes, stream t = stream s ++ bytes ∧ (s.status.busy = false → bytes = []) := by
  obtain ⟨-, rfl⟩ | ⟨hb, ⟨i, -, hi⟩ | ⟨-, rfl⟩⟩ := sequencerStep_eq_next_iff.1 h
  · exact ⟨[], (List.append_nil _).symm, fun _ => rfl⟩
  · obtain ⟨bytes, e⟩ := exec_extends hi
    exact ⟨bytes, e, fun hidle => by cases hb.symm.trans hidle⟩
  · exact ⟨[], (List.append_nil _).symm, fun _ => rfl⟩

theorem writeSrst_stream {s t : State} (h : writeSrst s = .next t) :
    ∃ bytes, stream t = stream s ++ bytes ∧ (s.status.busy = false → bytes = []) := by
  obtain ⟨m, o, f, rfl, -, bytes, rfl, hidle⟩ := writeSrst_next h
  exact ⟨bytes, (List.append_assoc _ _ _).symm, hidle⟩

/-- A write to a register that is no soft reset leaves the stream. -/
theorem writeReg_stream {r : Reg} {w : Word} {s t : State} (h : writeReg r w s = .next t)
    (hr : ¬(r = .ctrl ∧ w.getLsbD 0 = true)) : stream t = stream s := by
  obtain rfl | rfl | ⟨hc, h0, -⟩ | ⟨-, -, -, rfl⟩ | ⟨-, rfl⟩ | ⟨-, rfl⟩ | ⟨-, rfl⟩ | ⟨-, -, -, rfl⟩ |
    ⟨-, -, sp, u, i, -, -, rfl⟩ | ⟨-, -, rfl⟩ := writeReg_next h
  · rfl
  · rfl
  · exact absurd ⟨hc, h0⟩ hr
  · rfl
  · rfl
  · rfl
  · rfl
  · rfl
  · rfl
  · obtain ⟨-, -, -, -, -, -, hout, -, hrec, -⟩ := storeReg_frame r w s
    simp only [stream, hout, hrec]

theorem hostRead_stream (addr width : Nat) (s : State) : stream (hostRead addr width s) = stream s := by
  obtain ⟨w, m, a, n, e⟩ := hostRead_eq addr width s
  rw [e]
  rfl

theorem sinkTake_stream (s : State) : stream (sinkTake s) = stream s := by
  obtain ⟨o, r, e, h⟩ := sinkTake_eq s
  rw [e]
  exact h

/-- A host write leaves the stream, or is a 32-bit one to CTRL with bit 0 set, a soft reset. -/
theorem hostWrite_stream {addr width : Nat} {w : Word} {s t : State} (h : hostWrite addr width w s = .next t) :
    stream t = stream s ∨
      (addr = s.params.base + 0x04 ∧ width = 32 ∧ w.getLsbD 0 = true ∧ writeSrst s = .next t) := by
  obtain rfl | rfl | ⟨r, ha, hw, h⟩ := hostWrite_next_reg h
  · exact .inl rfl
  · exact .inl rfl
  · by_cases hr : r = .ctrl ∧ w.getLsbD 0 = true
    · obtain ⟨rfl, h0⟩ := hr
      exact .inr ⟨ha, hw, h0, by rwa [writeReg, if_pos h0] at h⟩
    · exact .inl (writeReg_stream h hr)

/-- Settles O56, by the kinds of moves. -/
theorem streamOnlyGrows : Obligations.StreamOnlyGrows := by
  intro e s t h hne
  have same (heq : stream t = stream s) : t.received ++ t.out = s.received ++ s.out ++ [] :=
    heq.trans (List.append_nil _).symm
  cases e with
  | read a w => cases h; exact ⟨[], same (hostRead_stream a w s), by simp⟩
  | sinkReady => cases h; exact ⟨[], same (sinkTake_stream s), by simp⟩
  | hardReset => exact absurd rfl hne
  | sequencer =>
    obtain ⟨bytes, hs, hidle⟩ := sequencerStep_stream h
    exact ⟨bytes, hs, hidle, by simp⟩
  | write a width w =>
    obtain hs | ⟨rfl, rfl, h0, hreset⟩ := hostWrite_stream h
    · exact ⟨[], same hs, by simp⟩
    · obtain ⟨bytes, hs, hidle⟩ := writeSrst_stream hreset
      refine ⟨bytes, hs, hidle, by simp, by simp, ?_⟩
      rintro _ _ _ ⟨⟩ (hne | hne | hne)
      · exact absurd rfl hne
      · exact absurd rfl hne
      · cases h0.symm.trans hne

end Sys2Proof.Proofs

/-! The statements of 20_memory.md: what every move keeps of the memory, the flags and the bit accumulator, and the
data port. -/

namespace Sys2Proof.Proofs

open Sys2Proof.Machine Sys2Proof.Claims

/-! ### Banks and the properties of their elements -/

section
variable {α : Type} {n : Nat} {P : α → Prop}

/-- Every element the bank lists has the property. -/
def BankAll (P : α → Prop) (b : Bank α n) : Prop := ∀ u (h : u < n), ∀ x ∈ b[u], P x.2

theorem BankAll.write {b : Bank α n} (h : BankAll P b) (u i : Nat) {v : α} (hv : P v) :
    BankAll P (Bank.write b u i v) := by
  intro u' hu' x hx
  rw [Bank.store_write b u i v hu'] at hx
  split_ifs at hx
  · obtain rfl | hx := Store.mem_write hx
    · exact hv
    · exact h u' hu' x hx
  · exact h u' hu' x hx

theorem BankAll.writeRun {b : Bank α n} (h : BankAll P b) (u i : Nat) {vs : List α} (hv : ∀ v ∈ vs, P v) :
    BankAll P (Bank.writeRun b u i vs) := by
  induction vs generalizing i with
  | nil => exact h
  | cons v vs ih =>
    rw [List.forall_mem_cons] at hv
    exact (ih (i + 1) hv.2).write u i hv.1

end

theorem huffSound_iff (m : Memory) : m.huffSound = true ↔ BankAll (fun e => huffLegal e = true) m.huff := by
  simp only [Memory.huffSound, List.all_eq_true, Vector.mem_toList_iff, BankAll]
  constructor
  · intro h u hu
    exact h _ (Vector.getElem_mem hu)
  · rintro h st hst
    obtain ⟨u, hu, rfl⟩ := Vector.getElem_of_mem hst
    exact h u hu

theorem huffLegal_iff (e : HuffEntry) : huffLegal e = true ↔ e.len.toNat ≤ 16 ∧ e.code.toNat < 2 ^ e.len.toNat := by
  simp [huffLegal]

/-- The element of a code word that is no longer than 16 bits and fits its length is one HUFF may hold. -/
theorem huffLegal_entry {x : CodeWord} (hl : x.len ≤ 16) (hc : x.code < 2 ^ x.len) : huffLegal x.entry = true := by
  have h16 : 2 ^ x.len ≤ 2 ^ 16 := Nat.pow_le_pow_right (by norm_num) hl
  have hlen : x.entry.len.toNat = x.len := by
    simp only [CodeWord.entry, BitVec.toNat_ofNat]
    omega
  have hcode : x.entry.code.toNat = x.code := by
    simp only [CodeWord.entry, BitVec.toNat_ofNat]
    exact Nat.mod_eq_of_lt (hc.trans_le h16)
  rw [huffLegal_iff, hlen, hcode]
  exact ⟨hl, hc⟩

/-! ### What keeps the memory sound (20_memory.md R61, R67, R80) -/

/-- Memory `m'` has each soundness property that `m` has: the canonical form, the bounds of R61, and the legal elements of
HUFF. -/
structure MemoryKept (p : Params) (m m' : Memory) : Prop where
  canonical : m.wf = true → m'.wf = true
  bounded : m.bounded p = true → m'.bounded p = true
  huffSound : m.huffSound = true → m'.huffSound = true

section
variable {p : Params} {m : Memory}

theorem MemoryKept.refl : MemoryKept p m m := ⟨id, id, id⟩

theorem MemoryKept.empty : MemoryKept p m Memory.empty :=
  ⟨fun _ => Memory.wf_empty, fun _ => Memory.bounded_empty p, fun _ => by decide⟩

theorem MemoryKept.coef {c : Bank Half 3} (hw : Bank.wf m.coef = true → Bank.wf c = true)
    (hb : Bank.within m.coef (elementCount p .coef) = true → Bank.within c (elementCount p .coef) = true) :
    MemoryKept p m { m with coef := c } where
  canonical := by simp only [Memory.wf_iff]; tauto
  bounded := by simp only [Memory.bounded_iff]; tauto
  huffSound := id

theorem MemoryKept.hist {h : Bank Word 8} (hw : Bank.wf m.hist = true → Bank.wf h = true)
    (hb : Bank.within m.hist slotSize = true → Bank.within h slotSize = true) :
    MemoryKept p m { m with hist := h } where
  canonical := by simp only [Memory.wf_iff]; tauto
  bounded := by simp only [Memory.bounded_iff]; tauto
  huffSound := id

theorem MemoryKept.huff {h : Bank HuffEntry 8} (hw : Bank.wf m.huff = true → Bank.wf h = true)
    (hb : Bank.within m.huff slotSize = true → Bank.within h slotSize = true)
    (hl : BankAll (fun e => huffLegal e = true) m.huff → BankAll (fun e => huffLegal e = true) h) :
    MemoryKept p m { m with huff := h } where
  canonical := by simp only [Memory.wf_iff]; tauto
  bounded := by simp only [Memory.bounded_iff]; tauto
  huffSound := by simpa only [huffSound_iff] using hl

/-- A data-port write at a legal triple, of a legal element where the space is HUFF (20_memory.md R69). -/
theorem MemoryKept.writeElement {sp : Space} {u i : Nat} {w : Word} (ht : legalTriple p sp u i = true)
    (hl : sp = .huff → huffLegal (huffOf w) = true) : MemoryKept p m (writeElement m sp u i w) where
  canonical h := Memory.wf_writeElement h sp u i w
  bounded h := Memory.bounded_writeElement h ht w
  huffSound h := by
    cases sp with
    | dbuf | qtab | qf | coef | hist => exact h
    | huff => exact (huffSound_iff _).2 (((huffSound_iff _).1 h).write u i (hl rfl))

end

/-- The block QBLK writes lies inside COEF (20_memory.md R80, 40_quantizer.md R117). -/
theorem memoryKept_qblk {s : State} {c : Nat} {rs : List Half} (h : quantBlock s c = .ok rs) :
    MemoryKept s.params s.mem { s.mem with coef := Bank.writeRun s.mem.coef c (64 * blockIndex s c) rs } := by
  obtain ⟨hf, hc, hx, hy, hlen⟩ := quantBlock_ok h
  have hblock := blockIndex_lt hf hc hx hy
  refine .coef (fun hw => Bank.wf_writeRun hw _ _ _) fun hb => Bank.within_writeRun hb ?_
  simp only [elementCount, hlen]
  omega

/-- HBUILD writes the slot whole, and every element it writes is legal (42_huffman.md R163, R168). -/
theorem memoryKept_hbuild {s : State} {t : Nat} {cs : List Nat} (h : slotCounts s.mem.hist t = .ok cs) :
    MemoryKept s.params s.mem { s.mem with
      huff := Bank.writeRun s.mem.huff t 0
        ((List.range (slotSize t)).map fun sy => (codeOf (buildCodes cs) sy).entry) } := by
  have hcs : cs.length ≤ 256 := slotCounts_length h ▸ slotSize_le t
  refine .huff (fun hw => Bank.wf_writeRun hw _ _ _) (fun hb => Bank.within_writeRun hb (by simp)) fun hl =>
    hl.writeRun _ _ fun e he => ?_
  obtain ⟨sy, -, rfl⟩ := List.mem_map.1 he
  obtain ⟨hlen, hcode⟩ := codeOf_sound hcs sy
  exact huffLegal_entry hlen hcode

/-! ### What one move can do to the flags, the fault record and the accumulator -/

/-- The bit accumulator holds nothing (10_state.md R48). -/
def AccEmpty (s : State) : Prop := s.acc = 0 ∧ s.nacc = 0

/-- `t` has the parameters and the fault record of `s`, its BUSY and FAULT, no DONE that `s` has not, and a memory as sound:
what every move leaves but acceptance, the end of a command and the resets. By default each part is untouched. -/
structure Keeps (s t : State) : Prop where
  params : t.params = s.params := by rfl
  busy : t.status.busy = s.status.busy := by rfl
  done : t.status.done = true → s.status.done = true := by exact id
  fault : t.status.fault = s.status.fault := by rfl
  cause : t.status.cause = s.status.cause := by rfl
  finfo : t.finfo = s.finfo := by rfl
  faux : t.faux = s.faux := by rfl
  memory : MemoryKept s.params s.mem t.mem := by exact .refl

/-- The kinds of moves, by what they do to the flags, the fault record and the accumulator. -/
inductive Move (s : State) : State → Prop
  /-- An access, the sink, or an idle sequencer. -/
  | quiet {t : State} (h : Keeps s t) (ha : AccEmpty s → AccEmpty t) : Move s t
  /-- Acceptance of a command (30_encoding.md R98). -/
  | accept (w : Word) (hf : s.status.fault = false) : Move s (acceptCommand w s)
  /-- A command's work and its completion (30_encoding.md R98). -/
  | complete {u : State} (hb : s.status.busy = true) (h : Keeps s u) (ha : AccEmpty s → AccEmpty u) :
      Move s (completeCommand u)
  /-- A command's work up to a fault (60_exceptions.md R203). -/
  | fault {u : State} (r : Raise) (hb : s.status.busy = true) (h : Keeps s u) : Move s (faultEntry r u)
  /-- A reset; a hard one also empties the memory and OUT (70_reset_and_hazards.md R230, R231). -/
  | reset {m : Memory} (o : List Byte) (f : Nat) (h : MemoryKept s.params s.mem m) :
      Move s (softReset { s with mem := m, out := o, free := f })

theorem Move.refl (s : State) : Move s s := .quiet {} id

theorem move_setAccerr (s : State) : Move s (setAccerr s) := .quiet {} id

theorem hscanState_keeps (s : State) (r : Run) : Keeps s (hscanState s r) :=
  { memory := .hist (wf_countTokens _) (within_countTokens _) }

theorem codeTokens_keeps (s : State) (r : Run) : Keeps s (codeTokens r.tokens (escanStart s r)).1 := by
  obtain ⟨bytes, a, n, e⟩ := codeTokens_appends r.tokens (escanStart s r)
  rw [e]
  exact {}

/-- ESCAN that codes every token ends with `End`, which empties the accumulator (43_entropy.md R188). -/
theorem codeTokens_accEmpty {s : State} {r : Run} (hr : scanRun s = .ok r) (hstop : r.stop = none)
    (hc : (codeTokens r.tokens (escanStart s r)).2 = none) : AccEmpty (codeTokens r.tokens (escanStart s r)).1 := by
  obtain ⟨x, hx, -⟩ | ⟨-, toks, htoks⟩ := scanRun_stop hr
  · cases hstop.symm.trans hx
  · rw [htoks] at hc ⊢
    obtain ⟨hn, ha⟩ := codeTokens_fin (escanStart_sound s r) (Prod.ext rfl hc)
    exact ⟨ha, hn⟩

theorem exec_move {i : Instr} {s t : State} (hb : s.status.busy = true) (h : exec i s = .next t) : Move s t := by
  cases i with
  | nop => cases h; exact .complete hb {} id
  | qblk c =>
    obtain ⟨x, -, rfl⟩ | ⟨rs, hrs, rfl⟩ := execQblk_eq_next_iff.1 h
    · exact .fault x hb {}
    · exact .complete hb { memory := memoryKept_qblk hrs } id
  | hclr mask =>
    cases h
    exact .complete hb { memory := .hist (wf_clearSlots mask) (within_clearSlots mask) } id
  | hscan =>
    obtain ⟨x, -, rfl⟩ | ⟨r, -, -, -, rfl⟩ | ⟨r, x, -, -, rfl⟩ := execHscan_eq_next_iff.1 h
    · exact .fault x hb {}
    · exact .complete hb (hscanState_keeps s r) id
    · exact .fault x hb (hscanState_keeps s r)
  | hbuild n =>
    obtain ⟨cs, hcs, rfl⟩ := execHbuild_eq_next_iff.1 h
    exact .complete hb { memory := memoryKept_hbuild hcs } id
  | escan =>
    obtain ⟨x, -, rfl⟩ | ⟨r, hr, hc, hstop, rfl⟩ | ⟨r, x, -, -, rfl⟩ := execEscan_eq_next_iff.1 h
    · exact .fault x hb {}
    · exact .complete hb (codeTokens_keeps s r) fun _ => codeTokens_accEmpty hr hstop hc
    · exact .fault x hb (codeTokens_keeps s r)
  | putb b => cases h; exact .complete hb {} id

theorem sequencerStep_move {s t : State} (h : sequencerStep s = .next t) : Move s t := by
  obtain ⟨-, rfl⟩ | ⟨hb, ⟨i, -, hi⟩ | ⟨-, rfl⟩⟩ := sequencerStep_eq_next_iff.1 h
  · exact .refl t
  · exact exec_move hb hi
  · exact .fault _ hb {}

theorem Move.memory {s t : State} (h : Move s t) : MemoryKept s.params s.mem t.mem := by
  cases h with
  | quiet h | complete _ h | fault _ _ h => exact h.memory
  | accept => exact .refl
  | reset _ _ h => exact h

theorem Move.params {s t : State} (h : Move s t) : t.params = s.params := by
  cases h with
  | quiet h | complete _ h | fault _ _ h => exact h.params
  | accept | reset => rfl

/-- The memory a soft reset leaves is the old one, or the one an aborted command's step leaves (70_reset_and_hazards.md
R232). -/
theorem writeSrst_move {s t : State} (h : writeSrst s = .next t) : Move s t := by
  obtain ⟨m, o, f, rfl, hm, -⟩ := writeSrst_next h
  refine .reset o f ?_
  obtain rfl | ⟨hb, u, hu, rfl⟩ := hm
  · exact .refl
  · exact (sequencerStep_move (by rw [sequencerStep, if_pos hb, hu])).memory

theorem selected_legal {s : State} {sp : Space} {u i : Nat} (h : selected s = some (sp, u, i)) :
    legalTriple s.params sp u i = true := by
  unfold selected at h
  split at h
  · cases h
  · split at h
    · cases h; assumption
    · cases h

theorem storeReg_move (r : Reg) (w : Word) (s : State) : Move s (storeReg r w s) := by
  cases r <;> exact .quiet {} id

theorem writeReg_move {r : Reg} {w : Word} {s t : State} (h : writeReg r w s = .next t) : Move s t := by
  obtain rfl | rfl | ⟨-, -, h⟩ | ⟨-, -, -, rfl⟩ | ⟨-, rfl⟩ | ⟨-, rfl⟩ | ⟨-, rfl⟩ | ⟨-, -, hf, rfl⟩ |
    ⟨-, -, sp, u, i, hsel, hl, rfl⟩ | ⟨-, -, rfl⟩ := writeReg_next h
  · exact .refl t
  · exact move_setAccerr s
  · exact writeSrst_move h
  · exact .quiet {} id
  · exact .quiet { done := fun h => (Bool.and_eq_true_iff.1 h).1 } id
  · exact .quiet {} id
  · exact .quiet {} id
  · exact .accept w hf
  · exact .quiet { memory := .writeElement (selected_legal hsel) hl } id
  · exact storeReg_move r w s

theorem perform_move {e : Event} {s t : State} (h : perform e s = .next t) : Move s t := by
  cases e with
  | read addr width =>
    cases h
    obtain ⟨w, m, a, n, e⟩ := hostRead_eq addr width s
    rw [e]
    exact .quiet {} id
  | write addr width w =>
    obtain rfl | rfl | ⟨r, h⟩ := hostWrite_next h
    · exact .refl t
    · exact move_setAccerr s
    · exact writeReg_move h
  | sinkReady =>
    cases h
    obtain ⟨o, r, e, -⟩ := sinkTake_eq s
    rw [e]
    exact .quiet {} id
  | sequencer => exact sequencerStep_move h
  | hardReset => cases h; exact .reset [] s.free .empty

/-- A step is a move of the state whose agenda is what is left of it. -/
theorem step_move {s t : State} (h : step s = .next t) : ∃ a, Move { s with agenda := a } t := by
  unfold step at h
  split at h
  · exact ⟨s.agenda, sequencerStep_move h⟩
  · exact ⟨_, perform_move h⟩

/-! ### The invariants (10_state.md R33, R46, R48; 20_memory.md R61, R67, R80) -/

/-- The flags stay sound where nothing but DONE, CMDOVR and ACCERR changes, and DONE is not set. -/
theorem statusSound_of_keeps {s t : State} (hs : StatusSound s) (h : Keeps s t) : StatusSound t := by
  obtain ⟨hbd, hbf, hdf, hnc, hnr, hfc⟩ := hs
  obtain ⟨-, hbusy, hdone, hfault, hcause, hfinfo, hfaux, -⟩ := h
  refine ⟨fun hb => Bool.eq_false_iff.2 fun hd => ?_, ?_, fun hd => ?_, ?_, ?_, ?_⟩
  · cases (hbd (hbusy ▸ hb)).symm.trans (hdone hd)
  · rwa [hbusy, hfault]
  · exact hfault.trans (hdf (hdone hd))
  · rwa [hfault, hcause]
  · rwa [hfault, hfinfo, hfaux]
  · rwa [hfault, hcause]

theorem statusSound_accept {s : State} (hs : StatusSound s) (hf : s.status.fault = false) (w : Word) :
    StatusSound (acceptCommand w s) :=
  ⟨fun _ => rfl, fun _ => hf, nofun, hs.no_fault_no_cause, hs.no_fault_no_record, hs.fault_has_cause⟩

theorem statusSound_complete {s : State} (hs : StatusSound s) (hb : s.status.busy = true) :
    StatusSound (completeCommand s) :=
  ⟨nofun, nofun, fun _ => hs.busy_not_fault hb, hs.no_fault_no_cause, hs.no_fault_no_record, hs.fault_has_cause⟩

theorem statusSound_faultEntry {s : State} (hs : StatusSound s) (hb : s.status.busy = true) (r : Raise) :
    StatusSound (faultEntry r s) where
  busy_not_done := nofun
  busy_not_fault := nofun
  done_not_fault hd := by cases (hs.busy_not_done hb).symm.trans hd
  no_fault_no_cause := nofun
  no_fault_no_record := nofun
  fault_has_cause _ := r.cause.code_range

theorem statusSound_softReset (s : State) : StatusSound (softReset s) :=
  ⟨nofun, nofun, nofun, fun _ => rfl, fun _ => ⟨rfl, rfl⟩, nofun⟩

theorem Move.status {s t : State} (hs : StatusSound s) (h : Move s t) : StatusSound t := by
  cases h with
  | quiet h => exact statusSound_of_keeps hs h
  | accept w hf => exact statusSound_accept hs hf w
  | complete hb h => exact statusSound_complete (statusSound_of_keeps hs h) (h.busy.trans hb)
  | fault r hb h => exact statusSound_faultEntry (statusSound_of_keeps hs h) (h.busy.trans hb) r
  | reset => exact statusSound_softReset _

theorem Move.accEmpty {s t : State} (hs : AccEmpty s) (h : Move s t) : AccEmpty t := by
  cases h with
  | quiet _ ha | complete _ _ ha => exact ha hs
  | accept => exact hs
  | fault | reset => exact ⟨rfl, rfl⟩

theorem Move.inv {s t : State} (hs : s.Inv) (h : Move s t) : t.Inv := by
  obtain ⟨hacc, hnacc⟩ := h.accEmpty ⟨hs.acc_empty, hs.nacc_empty⟩
  exact ⟨h.memory.canonical hs.canonical, h.params ▸ h.memory.bounded hs.bounded, h.status hs.status, hacc, hnacc⟩

/-- The invariant says nothing of the moves still to come. -/
theorem inv_agenda {s : State} (hs : s.Inv) (a : List Event) : State.Inv { s with agenda := a } :=
  Move.inv hs (.quiet {} id)

/-- Settles O58: each kind of move keeps each part of the invariant. -/
theorem stepKeepsInvariant : Obligations.StepKeepsInvariant := by
  intro s t hs h
  obtain ⟨a, hm⟩ := step_move h
  exact hm.inv (inv_agenda hs a)

/-- Settles O60: the data port refuses an illegal element, and HBUILD's codes fit their lengths. -/
theorem stepKeepsHuffSound : Obligations.StepKeepsHuffSound := by
  intro s t hs h
  obtain ⟨a, hm⟩ := step_move h
  exact hm.memory.huffSound hs

/-! ### Accesses (20_memory.md R71, R72) -/

section
variable (s : State) {offset width : Nat} (h : offset < 256) (hl : ¬(width = 32 ∧ offset % 4 = 0))
include h hl

theorem hostRead_illegal : hostRead (s.params.base + offset) width s = answer 0 (setAccerr s) := by
  rw [hostRead, if_pos ((selectsBlock_iff _ _).2 h), Nat.add_sub_cancel_left, if_neg ((legalAccess_iff _ _).not.2 hl)]

theorem hostWrite_illegal (w : Word) : hostWrite (s.params.base + offset) width w s = .next (setAccerr s) := by
  rw [hostWrite, if_pos ((selectsBlock_iff _ _).2 h), Nat.add_sub_cancel_left, if_neg ((legalAccess_iff _ _).not.2 hl)]

end

/-- Settles O41: such an access selects the block and is refused before any register is looked up. -/
theorem illegalAccessRefused : Obligations.IllegalAccessRefused := by
  intro s offset width w h hor
  have hl : ¬(width = 32 ∧ offset % 4 = 0) := by tauto
  exact ⟨hostRead_illegal s h hl, hostWrite_illegal s h hl w⟩

/-- Settles O50, by the law of host reads. -/
theorem readsHaveNoOtherEffect : Obligations.ReadsHaveNoOtherEffect := fun s addr width => hostRead_eq addr width s

/-! ### The element MSEL and MIDX select (20_memory.md R61, R68) -/

/-- The number of a space, the column SPACE of 20_memory.md R61. -/
def spaceNumber : Space → Nat
  | .dbuf => 0
  | .qtab => 1
  | .qf => 2
  | .coef => 3
  | .hist => 4
  | .huff => 5

theorem spaceOf_eq_some_iff (b : BitVec 4) (sp : Space) : spaceOf b = some sp ↔ b.toNat = spaceNumber sp := by
  revert b
  cases sp <;> decide

theorem legalTriple_iff (p : Params) (sp : Space) (u i : Nat) :
    legalTriple p sp u i = true ↔ u < subCount sp ∧ i < elementCount p sp u := by
  simp [legalTriple]

/-- The rows of R61 are the legal triples. -/
theorem selects_iff (s : State) (sp : Space) :
    Selects s sp ↔ spaceOf s.msel.space = some sp ∧
      legalTriple s.params sp s.msel.sub.toNat s.midx.toNat = true := by
  rw [spaceOf_eq_some_iff, legalTriple_iff]
  have hslot (u i : Nat) : i < slotSize u ↔ i ≤ if u ≤ 3 then 11 else 255 := by
    unfold slotSize
    split_ifs <;> omega
  cases sp with
  | hist | huff =>
    simp only [Selects, spaceNumber, subCount, elementCount, hslot]
    omega
  | dbuf | qtab | qf | coef =>
    simp only [Selects, spaceNumber, subCount, elementCount]
    omega

theorem selected_of_selects {s : State} {sp : Space} (h : Selects s sp) :
    selected s = some (sp, s.msel.sub.toNat, s.midx.toNat) := by
  obtain ⟨hsp, hl⟩ := (selects_iff s sp).1 h
  simp only [selected, hsp, hl, if_true]

theorem selected_eq_none {s : State} (h : ∀ sp, ¬Selects s sp) : selected s = none := by
  unfold selected
  split
  · rfl
  · rename_i sp hsp
    exact if_neg fun hl => h sp ((selects_iff s sp).2 ⟨hsp, hl⟩)

/-! ### Accesses to the data port (20_memory.md R68, R81) -/

theorem hostRead_mdata (s : State) : hostRead (s.params.base + 0x64) 32 s = answer (readPort s).1 (readPort s).2 :=
  hostRead_reg s .mdata

theorem hostWrite_mdata (s : State) (w : Word) :
    hostWrite (s.params.base + 0x64) 32 w s = .next (writePort w s) := hostWrite_reg s .mdata w

section
variable {s : State} (hb : s.status.busy = false)
include hb

theorem readPort_unselected (h : ∀ sp, ¬Selects s sp) : readPort s = (0, setAccerr s) := by
  simp [readPort, hb, selected_eq_none h]

theorem readPort_written {sp : Space} {w : Word} (h : Selects s sp)
    (hw : elementWord s.mem sp s.msel.sub.toNat s.midx.toNat = some w) : readPort s = (w, advance s) := by
  simp [readPort, hb, selected_of_selects h, hw]

theorem readPort_unwritten {sp : Space} (h : Selects s sp)
    (hw : elementWord s.mem sp s.msel.sub.toNat s.midx.toNat = none) :
    readPort s = (Config.freeWord s.free, advance { s with free := s.free + 1 }) := by
  simp [readPort, hb, selected_of_selects h, hw]

theorem writePort_unselected (h : ∀ sp, ¬Selects s sp) (w : Word) : writePort w s = setAccerr s := by
  simp [writePort, hb, selected_eq_none h]

theorem writePort_illegal (h : Selects s .huff) {w : Word} (hl : huffLegal (huffOf w) = false) :
    writePort w s = setAccerr s := by
  simp [writePort, hb, selected_of_selects h, hl]

theorem writePort_legal {sp : Space} (h : Selects s sp) {w : Word} (hl : sp = .huff → huffLegal (huffOf w) = true) :
    writePort w s = advance { s with mem := writeElement s.mem sp s.msel.sub.toNat s.midx.toNat w } := by
  have hn : ¬(sp = .huff ∧ huffLegal (huffOf w) = false) := fun ⟨e, hf⟩ => by cases (hl e).symm.trans hf
  simp only [writePort, hb, selected_of_selects h, if_neg hn, Bool.false_eq_true, if_false]

end

/-- Settles O48: the rows of R61 are the triples the model selects by, and a read of one answers what the element
holds. -/
theorem dataPortReads : Obligations.DataPortReads := by
  intro s hb
  simp only [hostRead_mdata]
  refine ⟨fun h => ?_, fun sp w h hw => ?_, fun sp h hw => ⟨Config.freeWord s.free, ?_⟩⟩
  · rw [readPort_unselected hb h]; rfl
  · rw [readPort_written hb h hw]; rfl
  · rw [readPort_unwritten hb h hw]; rfl

/-! ### Writes of the data port (20_memory.md R67, R69) -/

theorem huffLegal_huffOf_iff (w : Word) : huffLegal (huffOf w) = true ↔
    (w.extractLsb' 16 5).toNat ≤ 16 ∧ (w.extractLsb' 0 16).toNat < 2 ^ (w.extractLsb' 16 5).toNat :=
  huffLegal_iff (huffOf w)

theorem setWidth_extract_half (w : Word) : (w.extractLsb' 0 16).setWidth 32 = w &&& 0x0000FFFF#32 := by
  refine BitVec.eq_of_getLsbD_eq fun i hi => ?_
  simp only [BitVec.getLsbD_setWidth, BitVec.getLsbD_and, BitVec.getLsbD_extractLsb']
  interval_cases i <;> simp

theorem huffWord_huffOf (w : Word) : huffWord (huffOf w) = w &&& 0x001FFFFF#32 := by
  refine BitVec.eq_of_getLsbD_eq fun i hi => ?_
  simp only [huffWord, huffOf, BitVec.getLsbD_setWidth, BitVec.getLsbD_append, BitVec.getLsbD_and,
    BitVec.getLsbD_extractLsb']
  interval_cases i <;> simp

/-- How an element reads back after a write of `w` (20_memory.md R68, R69). -/
def storedWord (sp : Space) (w : Word) : Word :=
  match sp with
  | .dbuf | .qf | .hist => w
  | .qtab => w &&& 0x0000FFFF#32
  | .coef => (w.extractLsb' 0 16).signExtend 32
  | .huff => w &&& 0x001FFFFF#32

/-- A data-port write changes the element at its own triple alone. -/
theorem elementWord_writeElement (m : Memory) {sp : Space} {u : Nat} (hu : u < subCount sp) (i : Nat) (w : Word)
    (sp' : Space) (u' i' : Nat) : elementWord (writeElement m sp u i w) sp' u' i' =
      if sp' = sp ∧ u' = u ∧ i' = i then some (storedWord sp w) else elementWord m sp' u' i' := by
  by_cases hsp : sp' = sp
  · subst hsp
    cases sp' <;> simp only [subCount] at hu <;>
      simp only [elementWord, writeElement, Bank.read_write, hu, true_and, apply_ite (Option.map _), Option.map_some,
        storedWord, setWidth_extract_half, huffWord_huffOf]
  · rw [if_neg fun h => hsp h.1]
    cases sp <;> cases sp' <;> simp [elementWord, writeElement] at hsp ⊢

/-- Settles O49: a legal write changes the selected element alone, and the stored bits are those R69 names. -/
theorem dataPortWrites : Obligations.DataPortWrites := by
  intro s w hb
  simp only [hostWrite_mdata, ← huffLegal_huffOf_iff]
  refine ⟨fun h => ?_, fun h hl => ?_, fun sp h hl => ?_⟩
  · rw [writePort_unselected hb h]; rfl
  · have hfalse : huffLegal (huffOf w) = false := by
      rw [Bool.eq_false_iff, Ne, huffLegal_huffOf_iff]
      omega
    rw [writePort_illegal hb h hfalse]; rfl
  · have hu := ((legalTriple_iff _ _ _ _).1 ((selects_iff s sp).1 h).2).1
    refine ⟨_, congrArg _ (writePort_legal hb h hl), ?_, fun sp' u' i' hne => ?_⟩
    · rw [elementWord_writeElement _ hu, if_pos ⟨rfl, rfl, rfl⟩]
      rfl
    · rw [elementWord_writeElement _ hu, if_neg hne]

end Sys2Proof.Proofs

/-! The statements of 30_encoding.md: the decoder against the encoder and the opcode map, the step of the command in
CMDREG, and what every command leaves alone. -/

namespace Sys2Proof.Proofs

open Sys2Proof.Machine Sys2Proof.Claims

/-! ### A word and its three fields (30_encoding.md R90) -/

theorem fields_append (w : Word) : (zField w ++ aField w) ++ opField w = w := by
  have upper : zField w ++ aField w = w.extractLsb' 8 24 :=
    BitVec.extractLsb'_append_extractLsb'_eq_extractLsb' (start₁ := 8) (len₁ := 8) rfl
  have whole : w.extractLsb' 8 24 ++ w.extractLsb' 0 8 = w.extractLsb' 0 32 :=
    BitVec.extractLsb'_append_extractLsb'_eq_extractLsb' (start₁ := 0) (len₁ := 8) rfl
  rw [upper, opField, whole, BitVec.extractLsb'_eq_self]

/-- Two words are equal where their three fields are. -/
theorem word_eq_iff {w v : Word} : w = v ↔ zField w = zField v ∧ aField w = aField v ∧ opField w = opField v := by
  refine ⟨fun h => h ▸ ⟨rfl, rfl, rfl⟩, fun ⟨hz, ha, hop⟩ => ?_⟩
  rw [← fields_append w, ← fields_append v, hz, ha, hop]

@[simp] theorem opField_commandWord (op a : Byte) : opField (commandWord op a) = op :=
  BitVec.extractLsb'_append_eq_right

@[simp] theorem aField_commandWord (op a : Byte) : aField (commandWord op a) = a := by
  rw [aField, commandWord, BitVec.extractLsb'_append_eq_of_le (by decide)]
  exact BitVec.extractLsb'_append_eq_right

@[simp] theorem zField_commandWord (op a : Byte) : zField (commandWord op a) = 0 := by
  rw [zField, commandWord, BitVec.extractLsb'_append_eq_of_le (by decide)]
  exact BitVec.extractLsb'_append_eq_left

theorem commandWord_fields {w : Word} (hz : zField w = 0) : commandWord (opField w) (aField w) = w :=
  word_eq_iff.2 (by simp [hz])

/-! ### The decoder and the encoder (30_encoding.md R91, R92) -/

theorem noOperand_eq_ok_iff {op a : Byte} {i j : Instr} : noOperand op a i = .ok j ↔ a = 0 ∧ i = j := by
  by_cases h : a = 0
  · simp [noOperand, h]
  · rw [noOperand, if_neg h]
    exact ⟨nofun, fun h' => absurd h'.1 h⟩

/-- An operand whose upper bits are zero is its lower bits. -/
theorem zero_append_extract_two {a : Byte} (h : a.extractLsb' 2 6 = 0) : 0#6 ++ a.extractLsb' 0 2 = a := by
  revert a; decide

theorem zero_append_extract_three {a : Byte} (h : a.extractLsb' 3 5 = 0) : 0#5 ++ a.extractLsb' 0 3 = a := by
  revert a; decide

theorem encode_of_decodeOp {op a : Byte} {i : Instr} (h : decodeOp op a = .ok i) : encode i = commandWord op a := by
  have opcode : ∀ n : Byte, op.toNat = n.toNat → n = op := fun n e => (BitVec.eq_of_toNat_eq e).symm
  unfold decodeOp at h
  split at h
  case h_1 e => obtain ⟨rfl, rfl⟩ := noOperand_eq_ok_iff.1 h; rw [← opcode 0 e]; rfl
  case h_2 e =>
    split at h
    · cases h; rw [encode, zero_append_extract_two ‹_›, opcode 1 e]
    · cases h
  case h_3 e => cases h; rw [encode, opcode 2 e]
  case h_4 e => obtain ⟨rfl, rfl⟩ := noOperand_eq_ok_iff.1 h; rw [← opcode 3 e]; rfl
  case h_5 e =>
    split at h
    · cases h; rw [encode, zero_append_extract_three ‹_›, opcode 4 e]
    · cases h
  case h_6 e => obtain ⟨rfl, rfl⟩ := noOperand_eq_ok_iff.1 h; rw [← opcode 5 e]; rfl
  case h_7 e => cases h; rw [encode, opcode 6 e]
  case h_8 => cases h

theorem decode_commandWord (op a : Byte) : decode (commandWord op a) = decodeOp op a := by simp [decode]

theorem decode_encode (i : Instr) : decode (encode i) = .ok i := by
  cases i with
  | nop | hscan | escan => rfl
  | hclr mask => exact decode_commandWord 2 mask
  | putb b => exact decode_commandWord 6 b
  | qblk c => revert c; decide
  | hbuild t => revert t; decide

theorem encode_of_decode {w : Word} {i : Instr} (h : decode w = .ok i) : encode i = w := by
  unfold decode at h
  split at h
  · rename_i hz
    rw [encode_of_decodeOp h, commandWord_fields hz]
  · cases h

/-- Settles O2: the decoder inverts the encoder on every command, and reads no other word as one. -/
theorem decodeIffEncode : Obligations.DecodeIffEncode :=
  fun _ i => ⟨encode_of_decode, fun h => h ▸ decode_encode i⟩

/-- Settles O1: each word is the encoding of its command. -/
theorem specWordsDecode : Obligations.SpecWordsDecode :=
  ⟨decode_encode .nop, decode_encode (.qblk 0), decode_encode (.qblk 3), decode_encode (.hclr 0x11),
    decode_encode .hscan, decode_encode (.hbuild 4), decode_encode (.hbuild 7), decode_encode .escan,
    decode_encode (.putb 0xD8)⟩

/-! ### The opcode map (30_encoding.md R92) -/

theorem zField_and (w v : Word) : zField (w &&& v) = zField w &&& zField v := BitVec.extractLsb'_and

theorem aField_and (w v : Word) : aField (w &&& v) = aField w &&& aField v := BitVec.extractLsb'_and

theorem opField_and (w v : Word) : opField (w &&& v) = opField w &&& opField v := BitVec.extractLsb'_and

theorem zField_masked (w : Word) : zField (w &&& 0xFFFF0000#32) = zField w :=
  (zField_and w _).trans BitVec.and_allOnes

theorem aField_masked (w : Word) : aField (w &&& 0xFF00#32) = aField w :=
  (aField_and w _).trans BitVec.and_allOnes

theorem opField_masked (w : Word) : opField (w &&& 0xFF#32) = opField w :=
  (opField_and w _).trans BitVec.and_allOnes

/-- The command's word satisfies the three checks and one match and mask pair, its own. -/
theorem encode_matchesTable (i : Instr) :
    wellFormedWord (encode i) = true ∧ (formsOf (encode i)).map (·.mnemonic) = [mnemonicOf i] := by
  cases i with
  | nop => exact Laws.EncodeMatchesTable.nop
  | qblk c => exact Laws.EncodeMatchesTable.qblk c
  | hclr mask => exact Laws.EncodeMatchesTable.hclr mask
  | hscan => exact Laws.EncodeMatchesTable.hscan
  | hbuild t => exact Laws.EncodeMatchesTable.hbuild t
  | escan => exact Laws.EncodeMatchesTable.escan
  | putb b => exact Laws.EncodeMatchesTable.putb b

/-- Every row's mask holds all of Z and OP, and its pattern is 0 outside OP. -/
theorem form_fields {f : CommandForm} (hf : f ∈ commandForms) :
    zField f.mask = BitVec.allOnes 16 ∧ opField f.mask = BitVec.allOnes 8 ∧ zField f.pattern = 0 ∧
      aField f.pattern = 0 := by
  revert f; decide

/-- A word satisfies a row where Z is 0, the bits of A under the row's mask are 0 and OP is the row's. -/
theorem admits_iff {f : CommandForm} (hf : f ∈ commandForms) (w : Word) : f.admits w = true ↔
    zField w = 0 ∧ aField w &&& aField f.mask = 0 ∧ opField w = opField f.pattern := by
  obtain ⟨hzm, hom, hzp, hap⟩ := form_fields hf
  rw [CommandForm.admits, beq_iff_eq, word_eq_iff, zField_and, aField_and, opField_and, hzm, hom, hzp, hap,
    BitVec.and_allOnes, BitVec.and_allOnes]

/-- A word that passes the three checks satisfies a row: the one its opcode lists. -/
theorem admits_of_wellFormedWord {w : Word} (h : wellFormedWord w = true) :
    ∃ f ∈ commandForms, f.admits w = true := by
  simp only [wellFormedWord, zIsZero, opcodeListed, operandZeros, Bool.and_eq_true, List.any_eq_true,
    List.all_eq_true, beq_iff_eq, Bool.or_eq_true, Bool.not_eq_true', beq_eq_false_iff_ne] at h
  obtain ⟨⟨hz, f, hf, hop⟩, hzeros⟩ := h
  have ha := (hzeros f hf).resolve_left (not_not_intro hop)
  refine ⟨f, hf, (admits_iff hf w).2 ⟨?_, ?_, ?_⟩⟩
  · rw [← zField_masked, hz]
    rfl
  · rw [← aField_and, ← aField_masked, ha]
    rfl
  · rw [← opField_masked, hop]

/-- The opcode of a row with an operand whose bits under the row's mask are 0 is a command. -/
theorem decodeOp_of_form {f : CommandForm} (hf : f ∈ commandForms) {a : Byte} (ha : a &&& aField f.mask = 0) :
    ∃ i, decodeOp (opField f.pattern) a = .ok i := by
  have none_set : a &&& 0xFF = 0 → a = 0 := (BitVec.and_allOnes (x := a)).symm.trans
  have upper_six : ∀ a : Byte, a &&& 0xFC = 0 → a.extractLsb' 2 6 = 0 := by decide
  have upper_five : ∀ a : Byte, a &&& 0xF8 = 0 → a.extractLsb' 3 5 = 0 := by decide
  simp only [commandForms, List.mem_cons, List.not_mem_nil, or_false] at hf
  obtain rfl | rfl | rfl | rfl | rfl | rfl | rfl := hf
  · exact ⟨.nop, noOperand_eq_ok_iff.2 ⟨none_set ha, rfl⟩⟩
  · exact ⟨_, if_pos (upper_six a ha)⟩
  · exact ⟨.hclr a, rfl⟩
  · exact ⟨.hscan, noOperand_eq_ok_iff.2 ⟨none_set ha, rfl⟩⟩
  · exact ⟨_, if_pos (upper_five a ha)⟩
  · exact ⟨.escan, noOperand_eq_ok_iff.2 ⟨none_set ha, rfl⟩⟩
  · exact ⟨.putb a, rfl⟩

/-- A word that satisfies a row decodes to a command. -/
theorem decode_of_admits {f : CommandForm} (hf : f ∈ commandForms) {w : Word} (h : f.admits w = true) :
    ∃ i, decode w = .ok i := by
  obtain ⟨hz, ha, hop⟩ := (admits_iff hf w).1 h
  rw [decode, if_pos hz, hop]
  exact decodeOp_of_form hf ha

/-! ### The step of the command in CMDREG (30_encoding.md R92, R98) -/

section
variable {s : State} (hb : s.status.busy = true)
include hb

theorem sequencerStep_legal {i : Instr} (hd : decode s.cmdreg = .ok i) : sequencerStep s = exec i s := by
  rw [sequencerStep, if_pos hb, runCommand, hd]

/-- The step of an illegal word is fault entry with BADCMD (60_exceptions.md R203). -/
theorem sequencerStep_illegal (hd : ∀ i, decode s.cmdreg ≠ .ok i) :
    sequencerStep s = .next (faulted 1 0 0 s.cmdreg s) := by
  rw [sequencerStep, if_pos hb, runCommand]
  cases he : decode s.cmdreg with
  | ok i => exact absurd he (hd i)
  | error e => rfl

end

/-- Settles O3: a legal word is the encoding of its command, which the opcode map lists once; a word that satisfied a row or
passed the checks would decode, so an illegal one does neither. -/
theorem decoderMatchesOpcodeTable : Obligations.DecoderMatchesOpcodeTable := by
  intro w
  cases hd : decode w with
  | ok i =>
    obtain ⟨hwf, hforms⟩ := encode_matchesTable i
    rw [encode_of_decode hd] at hwf hforms
    refine ⟨hwf.symm, ?_, ?_, ?_⟩
    · rw [hwf, if_pos rfl, ← List.length_map, hforms]
      rfl
    · rintro _ ⟨⟩
      exact hforms
    · intro s _ _ hill
      cases hwf.symm.trans hill
  | error e =>
    have hno : ∀ f ∈ commandForms, ¬f.admits w = true := fun f hf ha => by
      obtain ⟨i, hi⟩ := decode_of_admits hf ha
      cases hd.symm.trans hi
    have hwf : wellFormedWord w = false := Bool.eq_false_iff.2 fun h => by
      obtain ⟨f, hf, ha⟩ := admits_of_wellFormedWord h
      exact hno f hf ha
    refine ⟨hwf.symm, ?_, ?_, ?_⟩
    · rw [formsOf, List.filter_eq_nil_iff.2 hno, hwf]
      rfl
    · rintro _ ⟨⟩
    · rintro s hb rfl -
      exact sequencerStep_illegal hb fun i hi => by cases hd.symm.trans hi

/-- Settles O4: a step with the sequencer next is the sequencer's step, and that runs the decoded command. -/
theorem stepRunsDecodedCommand : Obligations.StepRunsDecodedCommand := by
  intro s i hb hd
  refine ⟨fun ha => ?_, fun rest ha => ?_⟩
  · rw [step, ha]
    exact sequencerStep_legal hb hd
  · rw [step, ha]
    exact sequencerStep_legal (s := { s with agenda := rest }) hb hd

/-- Settles O5: with no move waiting the step is the sequencer's, and that of an illegal word is fault entry. -/
theorem illegalWordRaisesBadcmd : Obligations.IllegalWordRaisesBadcmd := by
  intro s hb hd ha
  rw [step, ha]
  exact sequencerStep_illegal hb hd

/-- Settles O6: the write reaches CMD, which refuses it or accepts it. -/
theorem cmdWriteAcceptedOrRefused : Obligations.CmdWriteAcceptedOrRefused := by
  intro s w
  have hcmd : hostWrite (s.params.base + 0x10) 32 w s = .next (writeCmd w s) := hostWrite_reg s .cmd w
  simp only [hcmd, writeCmd, Bool.or_eq_true]
  rfl

/-- Settles O7: NOP ends at once, without fault. -/
theorem nopCompletes : Obligations.NopCompletes := ⟨decode_encode .nop, endCommand_none⟩

/-! ### What every command leaves alone (30_encoding.md R97) -/

/-- `t` is `s` but for the flags, the fault record, the memory, the output and the working registers. -/
def HostSideKept (s t : State) : Prop :=
  t = { s with
    status := t.status, finfo := t.finfo, faux := t.faux, mem := t.mem, out := t.out, outcnt := t.outcnt
    pred := t.pred, acc := t.acc, nacc := t.nacc, rstn := t.rstn }

theorem codeTokens_hostSideKept (s : State) (r : Run) :
    HostSideKept s (codeTokens r.tokens (escanStart s r)).1 := by
  obtain ⟨bytes, a, n, e⟩ := codeTokens_appends r.tokens (escanStart s r)
  rw [e]
  rfl

theorem HostSideKept.completeCommand {s t : State} (h : HostSideKept s t) : HostSideKept s (completeCommand t) := by
  rw [h]; rfl

theorem HostSideKept.faultEntry {s t : State} (h : HostSideKept s t) (x : Raise) : HostSideKept s (faultEntry x t) := by
  rw [h]; rfl

/-- A command changes the flags, the fault record, the memory, the output and the working registers at most. -/
theorem exec_hostSideKept {i : Instr} {s t : State} (h : exec i s = .next t) : HostSideKept s t := by
  cases i with
  | nop => cases h; rfl
  | qblk c => obtain ⟨x, -, rfl⟩ | ⟨rs, -, rfl⟩ := execQblk_eq_next_iff.1 h <;> rfl
  | hclr mask => cases h; rfl
  | hscan =>
    obtain ⟨x, -, rfl⟩ | ⟨r, -, -, -, rfl⟩ | ⟨r, x, -, -, rfl⟩ := execHscan_eq_next_iff.1 h <;> rfl
  | hbuild n => obtain ⟨cs, -, rfl⟩ := execHbuild_eq_next_iff.1 h; rfl
  | escan =>
    obtain ⟨x, -, rfl⟩ | ⟨r, -, -, -, rfl⟩ | ⟨r, x, -, -, rfl⟩ := execEscan_eq_next_iff.1 h
    · rfl
    · exact (codeTokens_hostSideKept s r).completeCommand
    · exact (codeTokens_hostSideKept s r).faultEntry x
  | putb b => cases h; rfl

/-- Settles O11: the fields a command can change are none of the host's registers, and none outside the block. -/
theorem commandsKeepHostRegisters : Obligations.CommandsKeepHostRegisters := by
  intro i s t h
  rw [exec_hostSideKept h]
  exact ⟨rfl, rfl, rfl, rfl, rfl, rfl, rfl, rfl, rfl, rfl, rfl, rfl, rfl, rfl, rfl, rfl, rfl, rfl, rfl, rfl, rfl, rfl⟩

end Sys2Proof.Proofs

/-! The statements of 40_quantizer.md: what each command can change, the numbers of the quantizer, and the end of
QBLK. -/

namespace Sys2Proof.Proofs

open Sys2Proof.Machine Sys2Proof.Claims

/-! ### The unit of each command (10_state.md R47 to R50, 40_quantizer.md R121, 42_huffman.md R161 to R163) -/

/-- Coding the tokens of an ESCAN changes no memory. -/
theorem codeTokens_escanStart_mem (toks : List Token) (s : State) (r : Run) :
    (codeTokens toks (escanStart s r)).1.mem = s.mem := by
  obtain ⟨bytes, a, n, e⟩ := codeTokens_appends toks (escanStart s r)
  rw [e]
  rfl

/-- Settles O12: each command's next state is the old one with the fields of its unit changed; an ESCAN that codes every
token leaves an empty accumulator. -/
theorem commandsKeepOtherUnits : Obligations.CommandsKeepOtherUnits := by
  intro i s t h
  cases i with
  | nop => cases h; simp
  | qblk c => obtain ⟨x, -, rfl⟩ | ⟨rs, -, rfl⟩ := execQblk_eq_next_iff.1 h <;> simp
  | hclr mask => cases h; simp
  | hscan =>
    obtain ⟨x, -, rfl⟩ | ⟨r, -, -, -, rfl⟩ | ⟨r, x, -, -, rfl⟩ := execHscan_eq_next_iff.1 h <;> simp [hscanState]
  | hbuild n => obtain ⟨cs, -, rfl⟩ := execHbuild_eq_next_iff.1 h; simp
  | escan =>
    obtain ⟨x, -, rfl⟩ | ⟨r, hr, hc, hstop, rfl⟩ | ⟨r, x, -, -, rfl⟩ := execEscan_eq_next_iff.1 h
    · simp
    · obtain ⟨hacc, hnacc⟩ := codeTokens_accEmpty hr hstop hc
      simp [codeTokens_escanStart_mem, hacc, hnacc]
    · simp [codeTokens_escanStart_mem]
  | putb b => cases h; simp

/-! ### Values and rounding (40_quantizer.md R113 to R115) -/

theorem expField_eq (w : Word) : expField w = exponentOf w := by
  rw [expField, BitVec.extractLsb'_toNat, Nat.shiftRight_eq_div_pow, exponentOf]

theorem fracField_eq (w : Word) : fracField w = fractionOf w := by
  rw [fracField, BitVec.extractLsb'_toNat, Nat.shiftRight_zero, fractionOf]

/-- The value of a word is its magnitude in units of 2^-149 with the word's sign. -/
theorem valQ_eq (w : Word) : valQ w = valScaled w / 2 ^ 149 := by
  have magnitude : valQ w = (if w.getLsbD 31 then -1 else 1) * ((valMagnitude w : ℚ) / 2 ^ 149) := by
    unfold valQ valMagnitude
    rw [expField_eq, fracField_eq]
    rcases he : exponentOf w with _ | e
    · simp only [if_true]
      rw [zpow_neg, div_eq_mul_inv, mul_assoc]
      norm_cast
    · have hpow : (2 : ℚ) ^ (((e + 1 : Nat) : ℤ) - 150) = 2 ^ e / 2 ^ 149 := by
        rw [show ((e + 1 : Nat) : ℤ) - 150 = (e : ℤ) - (149 : Nat) by push_cast; ring, zpow_sub₀ two_ne_zero,
          zpow_natCast, zpow_natCast]
      simp only [Nat.add_eq_zero_iff, one_ne_zero, and_false, if_false, Nat.add_sub_cancel, hpow]
      push_cast
      ring
  rw [magnitude, valScaled]
  split <;> push_cast <;> ring

theorem valQ_pos_iff (w : Word) : 0 < valQ w ↔ 0 < valScaled w := by
  rw [valQ_eq, div_pos_iff_of_pos_right (by positivity), Int.cast_pos]

theorem operandsOk_iff (d m : Word) :
    operandsOk d m = true ↔ exponentOf d ≠ 255 ∧ exponentOf m ≠ 255 ∧ 0 < valQ m := by
  simp [operandsOk, isFinite, expField_eq, valQ_pos_iff, and_assoc]

/-- Half a unit added before the floor is one division of naturals. -/
theorem floor_div_add_half (a : Nat) {d : Nat} (hd : 0 < d) :
    ⌊(a : ℚ) / d + 1 / 2⌋ = ((2 * a + d) / (2 * d) : Nat) := by
  have hd' : (d : ℚ) ≠ 0 := Nat.cast_ne_zero.2 hd.ne'
  have quotient : (a : ℚ) / d + 1 / 2 = ((2 * a + d : Nat) : ℚ) / (2 * d : Nat) := by
    push_cast
    field_simp
  rw [quotient, Rat.floor_natCast_div_natCast, Int.natCast_div]

theorem rndQ_div (n : Int) {d : Nat} (hd : 0 < d) : rndQ (n / d) = roundQuotient n d := by
  have sign : (0 : ℚ) ≤ n / d ↔ 0 ≤ n := by
    rw [le_div_iff₀ (Nat.cast_pos.2 hd), zero_mul, Int.cast_nonneg_iff]
  unfold rndQ roundQuotient
  simp only [sign]
  split
  · rw [← floor_div_add_half _ hd, Nat.cast_natAbs, abs_of_nonneg ‹_›]
  · rw [← floor_div_add_half _ hd, Nat.cast_natAbs, abs_of_neg (not_le.1 ‹_›), Int.cast_neg, neg_div]

/-- Settles O14: both values are integers over 2^149, so the quotient is one of integers. -/
theorem quantizedIsRoundedRational : Obligations.QuantizedIsRoundedRational := by
  intro d m q _ _ hq
  have quotient : valQ d * valQ m / q = ((valScaled d * valScaled m : Int) : ℚ) / (2 ^ 149 * 2 ^ 149 * q : Nat) := by
    rw [valQ_eq, valQ_eq, div_mul_div_comm, div_div]
    norm_cast
  rw [quotient, rndQ_div _ (by positivity), quantized]

/-! ### One coefficient (40_quantizer.md R111, R112, R117) -/

theorem zigzag_eq (k : Nat) : zigzag k = zz k := rfl

theorem multiplierOf_eq (s : State) (mac : Word) (k : Nat) :
    multiplierOf s mac k = if k = 0 then dcMultiplier s mac else mac := by
  rw [multiplierOf, dcMultiplier, ite_and]

/-- A coefficient that passes every check is the rounded quotient. -/
theorem quantCoef_ready {s : State} {c k : Nat} {mac : Word} {q : Half} {d : Word} (h : CoefReady s c mac k q d)
    (b : Nat) : quantCoef s c b (compAt s c).tq.toNat mac k =
      .ok (BitVec.ofInt 16 (quantized d (multiplierOf s mac k) q.toNat)) := by
  obtain ⟨hq, ⟨hq1, hq2⟩, hd, ⟨hfd, hfm⟩, hpos, hlo, hhi⟩ := h
  rw [multiplierOf_eq] at hfm hpos hlo hhi ⊢
  exact quantCoef_eq_ok hq hq1 hq2 hd ((operandsOk_iff _ _).2 ⟨hfd, hfm, hpos⟩) hlo hhi

section
variable {s : State} {c b t k : Nat} {mac : Word} {q : Half} (hq : Bank.read s.mem.qtab t k = some q)
include hq

theorem quantCoef_qtabrange (h : q.toNat = 0 ∨ quantLimit s < q.toNat) :
    quantCoef s c b t mac k = .error (.raised (raiseAt .qtabrange c k b)) := by
  have h' : q = 0 ∨ quantLimit s < q.toNat := h.imp_left BitVec.eq_of_toNat_eq
  simp only [quantCoef, hq, needed_some, h', bind, Except.bind, throw, throwThe, MonadExceptOf.throw, if_true]

variable (hq1 : 1 ≤ q.toNat) (hq2 : q.toNat ≤ quantLimit s) {d : Word}
  (hd : Bank.read s.mem.dbuf 0 (zz k) = some d)
include hq1 hq2 hd

/-- Past the table entry and the input word, the operands and the rounded value are what is left to check. -/
theorem quantCoef_of_read : quantCoef s c b t mac k =
    if operandsOk d (multiplierOf s mac k) = false then .error (.raised (raiseAt .qnonfinite c k b))
    else if quantized d (multiplierOf s mac k) q.toNat < -32767 ∨
        32767 < quantized d (multiplierOf s mac k) q.toNat then .error (.raised (raiseAt .qrange c k b))
    else .ok (BitVec.ofInt 16 (quantized d (multiplierOf s mac k) q.toNat)) := by
  have hne : ¬(q = 0 ∨ quantLimit s < q.toNat) := by
    rintro (rfl | h)
    · cases hq1
    · omega
  simp only [quantCoef, hq, zigzag_eq, hd, needed_some, hne, multiplierOf_eq, bind, Except.bind, throw, throwThe,
    MonadExceptOf.throw, if_false, Bool.not_eq_true', pure, Except.pure]

theorem quantCoef_qnonfinite
    (h : exponentOf d = 255 ∨ exponentOf (multiplierOf s mac k) = 255 ∨ valQ (multiplierOf s mac k) ≤ 0) :
    quantCoef s c b t mac k = .error (.raised (raiseAt .qnonfinite c k b)) := by
  rw [quantCoef_of_read hq hq1 hq2 hd, if_pos]
  rw [Bool.eq_false_iff, Ne, operandsOk_iff]
  rintro ⟨hfd, hfm, hpos⟩
  exact h.elim hfd fun h => h.elim hfm hpos.not_ge

theorem quantCoef_qrange (hfd : exponentOf d ≠ 255) (hfm : exponentOf (multiplierOf s mac k) ≠ 255)
    (hpos : 0 < valQ (multiplierOf s mac k))
    (h : quantized d (multiplierOf s mac k) q.toNat < -32767 ∨
      32767 < quantized d (multiplierOf s mac k) q.toNat) :
    quantCoef s c b t mac k = .error (.raised (raiseAt .qrange c k b)) := by
  rw [quantCoef_of_read hq hq1 hq2 hd, if_neg, if_pos h]
  rw [(operandsOk_iff _ _).2 ⟨hfd, hfm, hpos⟩]
  nofun

end

/-! ### The whole block (40_quantizer.md R111, R117, R118) -/

theorem blockIndex_eq (s : State) (c : Nat) : blockIndex s c = blockOf s c := rfl

theorem qfCell_eq {s : State} {maxs : Nat} (h : LargestSampling s maxs) (c : Nat) : qfCell s c = cellOf s c maxs := by
  rw [qfCell, qfWidth, maxSampling_eq h, cellOf]

section
variable {s : State} {c : Nat} {mac : Word} (h : BlockReady s c mac)
include h

/-- Where AQ is set, the quant field fits QF (40_quantizer.md R117 step 4). -/
theorem field_fits_of_ready : ¬(s.ctrl.aq = true ∧ s.params.qfCells < qfWidth s * qfHeight s) := by
  rintro ⟨haq, hlt⟩
  obtain ⟨maxs, hmax, hfits, -⟩ := h.field haq
  rw [qfWidth, qfHeight, maxSampling_eq hmax] at hlt
  exact hlt.not_ge hfits

theorem acMultiplier_of_ready : acMultiplier s c = .ok mac := by
  unfold acMultiplier
  cases haq : s.ctrl.aq with
  | false => rw [h.constant haq]; rfl
  | true =>
    obtain ⟨maxs, hmax, -, hread⟩ := h.field haq
    rw [if_pos rfl, qfCell_eq hmax, hread, needed_some]

theorem quantBlock_of_ready : quantBlock s c =
    (List.range 64).mapM fun k => quantCoef s c (blockOf s c) (compAt s c).tq.toNat mac k :=
  quantBlock_of_config h.frame h.component h.column h.row (field_fits_of_ready h) (acMultiplier_of_ready h)

/-- The first coefficient that stops decides how the block stops. -/
theorem quantBlock_error_of_ready {k : Nat} {q : Nat → Half} {d : Nat → Word} {e : Stop} (hk : k < 64)
    (hbefore : ∀ j < k, CoefReady s c mac j (q j) (d j))
    (he : quantCoef s c (blockOf s c) (compAt s c).tq.toNat mac k = .error e) : quantBlock s c = .error e := by
  obtain ⟨n, hn⟩ : ∃ n, 64 = k + (n + 1) := ⟨63 - k, by omega⟩
  have hrange : List.range 64 = List.range k ++ k :: (List.range n).map (k + ·.succ) := by
    rw [hn, List.range_add, List.range_succ_eq_map, List.map_cons, List.map_map]
    rfl
  rw [quantBlock_of_ready h, hrange]
  exact mapM_error_of _ _ _ _ _ (fun j hj => ⟨_, quantCoef_ready (hbefore j (List.mem_range.1 hj)) _⟩) he

theorem quantBlock_ok_of_ready {q : Nat → Half} {d : Nat → Word}
    (hcoef : ∀ k < 64, CoefReady s c mac k (q k) (d k)) :
    quantBlock s c = .ok ((List.range 64).map fun k =>
      BitVec.ofInt 16 (quantized (d k) (multiplierOf s mac k) (q k).toNat)) := by
  rw [quantBlock_of_ready h, mapM_ok_iff, List.forall₂_map_right_iff, List.forall₂_same]
  exact fun k hk => quantCoef_ready (hcoef k (List.mem_range.1 hk)) _

end

/-! ### What QBLK leaves (40_quantizer.md R117 step 7, R121; 60_exceptions.md R203) -/

theorem component_lt {s : State} {c : BitVec 2} (h : c.toNat < s.nc.toNat) : c.toNat < 3 := by
  have := s.nc.isLt
  omega

/-- Settles O13: the block is written whole at the 64 elements from 64 times its number on. -/
theorem qblkWritesRoundedBlock : Obligations.QblkWritesRoundedBlock := by
  intro c s mac q d h hcoef
  have hc := component_lt h.component
  refine ⟨_, execQblk_eq_next_iff.2 (.inr ⟨_, quantBlock_ok_of_ready h hcoef, rfl⟩), fun k hk => ?_, fun u i hout => ?_⟩
  · rw [Bank.read_writeRun, blockIndex_eq, if_pos (by simp [hc, hk])]
    simp [hk]
  · rw [Bank.read_writeRun, blockIndex_eq, if_neg]
    rintro ⟨hu, -, hlo, hhi⟩
    exact hout ⟨hu, hlo, by simpa using hhi⟩

/-- A QBLK whose block stops at a fault takes that fault and changes nothing else. -/
theorem exec_qblk_raised {s : State} {c : BitVec 2} {cause : Cause} {k b : Nat}
    (h : quantBlock s c.toNat = .error (.raised (raiseAt cause c.toNat k b))) :
    exec (.qblk c) s = .next (faulted cause.code c (BitVec.ofNat 6 k) (BitVec.ofNat 32 b) s) := by
  refine execQblk_eq_next_iff.2 (.inl ⟨_, h, ?_⟩)
  rw [raiseAt, BitVec.ofNat_toNat, BitVec.setWidth_eq]
  rfl

/-- Settles O15: a completion sets DONE, and what is left is fault entry. -/
theorem qblkAllOrNothing : Obligations.QblkAllOrNothing := by
  intro c s t h hdone hclear
  obtain ⟨r, -, rfl⟩ | ⟨rs, -, rfl⟩ := execQblk_eq_next_iff.1 h
  · exact ⟨r.cause.code, r.c, r.k, r.aux, rfl⟩
  · cases hdone.trans hclear

/-- Settles O17: the coefficients before pass, so the check that fails at `k` decides. -/
theorem qblkFirstDataFault : Obligations.QblkFirstDataFault := by
  intro c s mac q d k h hk hbefore hq
  have stops {cause : Cause} (he : quantCoef s c.toNat (blockOf s c.toNat) (compAt s c.toNat).tq.toNat mac k =
      .error (.raised (raiseAt cause c.toNat k (blockOf s c.toNat)))) :=
    exec_qblk_raised (quantBlock_error_of_ready h hk hbefore he)
  refine ⟨fun ht => stops (quantCoef_qtabrange hq ht), fun hq1 hq2 hd => ⟨fun hn => ?_, fun hfd hfm hpos hr => ?_⟩⟩
  · exact stops (quantCoef_qnonfinite hq hq1 hq2 hd hn)
  · exact stops (quantCoef_qrange hq hq1 hq2 hd hfd hfm hpos hr)

/-- What a QBLK of component `c` writes at element `i` of sub-space `u` of COEF, if anything. -/
def qblkWrite (s : State) (c u i : Nat) : Option Half :=
  match quantBlock s c with
  | .ok rs => if u = c ∧ i / 64 = blockOf s c then rs[i % 64]? else none
  | .error _ => none

/-- An element QBLK writes lies in its block. -/
theorem qblkWrite_eq_none {s : State} {c u i : Nat} (h : ¬(u = c ∧ i / 64 = blockOf s c)) :
    qblkWrite s c u i = none := by
  unfold qblkWrite
  split
  · exact if_neg h
  · rfl

/-- COEF after QBLK reads as what was written, and as before elsewhere. -/
theorem read_coef_qblk {s t : State} {c : BitVec 2} (h : exec (.qblk c) s = .next t) (u i : Nat) :
    Bank.read t.mem.coef u i = (qblkWrite s c.toNat u i).or (Bank.read s.mem.coef u i) := by
  obtain ⟨r, hr, rfl⟩ | ⟨rs, hrs, rfl⟩ := execQblk_eq_next_iff.1 h
  · simp only [qblkWrite, hr]
    rfl
  · obtain ⟨-, hc, -, -, hlen⟩ := quantBlock_ok hrs
    have hc := component_lt hc
    simp only [completeCommand_mem, Bank.read_writeRun, blockIndex_eq, hlen]
    by_cases hin : u = c.toNat ∧ i / 64 = blockOf s c.toNat
    · have hmod : i - 64 * blockOf s c.toNat = i % 64 := by omega
      have hlt : i % 64 < rs.length := by omega
      rw [if_pos ⟨hin.1, hc, by omega, by omega⟩, qblkWrite, hrs, hmod]
      simp only [if_pos hin, List.getElem?_eq_getElem hlt, Option.some_or]
    · rw [qblkWrite_eq_none hin, Option.none_or, if_neg]
      rintro ⟨hu, -, hlo, hhi⟩
      exact hin ⟨hu, by omega⟩

/-- What a QBLK writes does not depend on what another one left (40_quantizer.md R121). -/
theorem qblkWrite_after {s t : State} {c : BitVec 2} {p : QPos} {d : Bank Word 1}
    (h : exec (.qblk c) (withBlock s p d) = .next t) (p' : QPos) (d' : Bank Word 1) :
    qblkWrite (withBlock t p' d') = qblkWrite (withBlock s p' d') := by
  obtain ⟨r, -, rfl⟩ | ⟨rs, -, rfl⟩ := execQblk_eq_next_iff.1 h <;> rfl

/-- COEF after two QBLK commands, each with its own position and DCT outputs. -/
theorem read_coef_qblk_qblk {s t v : State} {c c' : BitVec 2} {p p' : QPos} {d d' : Bank Word 1}
    (h : exec (.qblk c) (withBlock s p d) = .next t) (h' : exec (.qblk c') (withBlock t p' d') = .next v)
    (u i : Nat) : Bank.read v.mem.coef u i = (qblkWrite (withBlock s p' d') c'.toNat u i).or
      ((qblkWrite (withBlock s p d) c.toNat u i).or (Bank.read s.mem.coef u i)) := by
  rw [read_coef_qblk h', qblkWrite_after h]
  exact congrArg _ (read_coef_qblk h u i)

/-- Settles O18: no element lies in both blocks, so at most one of the two commands writes it. -/
theorem qblkOrderDoesNotMatter : Obligations.QblkOrderDoesNotMatter := by
  intro s t1 t2 u1 u2 c1 c2 p1 p2 d1 d2 hne h1 h2 h3 h4 u i
  rw [read_coef_qblk_qblk h1 h2, read_coef_qblk_qblk h3 h4]
  by_cases hin : u = c1.toNat ∧ i / 64 = blockOf (withBlock s p1 d1) c1.toNat
  · have hout : ¬(u = c2.toNat ∧ i / 64 = blockOf (withBlock s p2 d2) c2.toNat) := fun hin' =>
      hne.elim (fun hc => hc (BitVec.eq_of_toNat_eq (hin.1.symm.trans hin'.1)))
        fun hb => hb (hin.2.symm.trans hin'.2)
    rw [qblkWrite_eq_none hout, Option.none_or, Option.none_or]
  · rw [qblkWrite_eq_none hin, Option.none_or, Option.none_or]

end Sys2Proof.Proofs

/-! The statements of 41_serializer.md about the scan as a whole: what Serialize reads, the ranges of its tokens, the
order of blocks and the restart boundaries. -/

namespace Sys2Proof.Proofs

open Sys2Proof.Machine Sys2Proof.Claims

/-! ### What Serialize reads (41_serializer.md R141) -/

section
variable {s s' : State} (h : SameScanInputs s s')
include h

theorem compAt_congr : compAt s = compAt s' := by
  funext c
  rw [compAt, h.comp, compAt]

theorem scompAt_congr : scompAt s = scompAt s' := by
  funext j
  rw [scompAt, h.scomp, scompAt]

theorem wib_congr : wib s = wib s' := by
  funext c
  rw [wib, h.mcux, compAt_congr h, wib]

theorem hib_congr : hib s = hib s' := by
  funext c
  rw [hib, h.mcuy, compAt_congr h, hib]

theorem frameOk_congr : frameOk s = frameOk s' := by
  simp only [frameOk, h.nc, h.mcux, h.mcuy, h.blocks, compAt_congr h, wib_congr h, hib_congr h]

theorem scanOk_congr : scanOk s = scanOk s' := by
  simp only [scanOk, h.nc, h.scan, h.niw, h.nih, scompAt_congr h, wib_congr h, hib_congr h]

theorem mcuList_congr : mcuList s = mcuList s' := by
  simp only [mcuList, mcuBlocks, h.scan, h.niw, h.nih, h.mcux, h.mcuy, compAt_congr h, scompAt_congr h, wib_congr h]

theorem coefAt_congr : coefAt s = coefAt s' := by
  funext c b k
  rw [coefAt, h.coef, coefAt]

theorem acFirst_congr (e : McuEntry) (ta al : Nat) (ks : List Nat) (r : Nat) :
    acFirst s e ta al ks r = acFirst s' e ta al ks r := by
  induction ks generalizing r with
  | nil => rfl
  | cons k ks ih => simp only [acFirst, coefAt_congr h, ih]

theorem entryTokens_congr : entryTokens s = entryTokens s' := by
  funext kind e p
  simp only [entryTokens, dcTokens, dcRefineTokens, acRefineTokens, bandCoefs, h.scan, coefAt_congr h, scompAt_congr h,
    acFirst_congr h]

theorem restartBefore_congr : restartBefore s = restartBefore s' := by
  funext m
  rw [restartBefore, h.ri, restartBefore]

theorem mcuTokens_congr (kind : ScanKind) (es : List McuEntry) (p : Vector Half 3) :
    mcuTokens s kind es p = mcuTokens s' kind es p := by
  induction es generalizing p with
  | nil => rfl
  | cons e es ih => simp only [mcuTokens, entryTokens_congr h, ih]

theorem serializeFrom_congr (kind : ScanKind) (m : Nat) (ms : List (List McuEntry)) (p : Vector Half 3)
    (n : BitVec 3) : serializeFrom s kind m ms p n = serializeFrom s' kind m ms p n := by
  induction ms generalizing m p n with
  | nil => rfl
  | cons mcu ms ih => simp only [serializeFrom, restartBefore_congr h, mcuTokens_congr h, ih]

end

/-- Settles O20: every function Serialize is made of reads the scan's inputs alone. -/
theorem serializeReadsOnlyItsInputs : Obligations.SerializeReadsOnlyItsInputs := by
  intro s s' h
  simp only [scanRun, serialize, frameOk_congr h, scanOk_congr h, h.scan, mcuList_congr h, serializeFrom_congr h]

/-! ### The tokens of a scan (41_serializer.md R131, R135) -/

theorem tokenInRange_of_blockToken {t : Token} (h : blockToken t) : tokenInRange t := by
  cases t with
  | sym t sy => exact h
  | bits n v => exact h
  | rst n => exact h.elim
  | fin => trivial

section
variable (s : State) (m : Nat)

/-- The restart token in front of MCU `m` when RSTN is `n` (41_serializer.md R135). -/
def restartMark (n : BitVec 3) : List Token := if restartBefore s m then [.rst n.toNat] else []

/-- RSTN from MCU `m` on. -/
def nextRstn (n : BitVec 3) : BitVec 3 := if restartBefore s m then n + 1 else n

/-- The predictors MCU `m` starts from, when those before it left `p`. -/
def startPreds (p : Vector Half 3) : Vector Half 3 := if restartBefore s m then predZero else p

end

section
variable {s : State} {kind : ScanKind} {m : Nat} {mcu : List McuEntry} {p p' : Vector Half 3} {ts : List Token}

/-- A scan stops at the first MCU that stops (41_serializer.md R141). -/
theorem serializeFrom_of_stop {st : Stop} (h : mcuTokens s kind mcu (startPreds s m p) = ((ts, some st), p'))
    (ms : List (List McuEntry)) (n : BitVec 3) : serializeFrom s kind m (mcu :: ms) p n =
      { tokens := restartMark s m n ++ ts, stop := some st, pred := p', rstn := nextRstn s m n } := by
  unfold startPreds at h
  simp only [serializeFrom, h]
  rfl

theorem serializeFrom_of_coded (h : mcuTokens s kind mcu (startPreds s m p) = ((ts, none), p'))
    (ms : List (List McuEntry)) (n : BitVec 3) : serializeFrom s kind m (mcu :: ms) p n =
      let r := serializeFrom s kind (m + 1) ms p' (nextRstn s m n)
      { r with tokens := restartMark s m n ++ ts ++ r.tokens } := by
  unfold startPreds at h
  simp only [serializeFrom, h]
  rfl

end

/-- The tokens of a scan are restart tokens, tokens of entries, and `End`. -/
theorem serializeFrom_tokens {P : Token → Prop} (hrst : ∀ n < 8, P (.rst n)) (hblock : ∀ t, blockToken t → P t)
    (hfin : P .fin) (s : State) (kind : ScanKind) (m : Nat) (ms : List (List McuEntry)) (p : Vector Half 3)
    (n : BitVec 3) : ∀ t ∈ (serializeFrom s kind m ms p n).tokens, P t := by
  induction ms generalizing m p n with
  | nil => simpa [serializeFrom] using hfin
  | cons mcu ms ih =>
    have hmark : ∀ t ∈ restartMark s m n, P t := by
      unfold restartMark
      split
      · simpa using hrst _ n.isLt
      · simp
    have hmcu := (mcuTokens_tokens s kind mcu (startPreds s m p)).1
    rcases hrun : mcuTokens s kind mcu (startPreds s m p) with ⟨⟨ts, _ | st⟩, p'⟩
    · rw [hrun] at hmcu
      rw [serializeFrom_of_coded hrun]
      intro t ht
      simp only [List.mem_append] at ht
      exact ht.elim (Or.rec (hmark t) fun ht => hblock t (hmcu t ht)) (ih _ _ _ t)
    · rw [hrun] at hmcu
      rw [serializeFrom_of_stop hrun]
      exact fun t ht => (List.mem_append.1 ht).elim (hmark t) fun ht => hblock t (hmcu t ht)

/-- Settles O19: the ranges hold of the tokens of every entry and of every restart token. -/
theorem tokensInRange : Obligations.TokensInRange := by
  intro s r h
  obtain ⟨-, -, kind, -, rfl, -⟩ := scanRun_eq_ok_iff.1 h
  exact serializeFrom_tokens (fun n hn => hn) (fun t => tokenInRange_of_blockToken) trivial s kind 0 _ _ _

/-! ### The order of blocks (41_serializer.md R134) -/

/-- Rows of `b` elements, one after another, are one run in which element `m` stands in row `m / b`, column `m % b`. -/
theorem rows_eq_map {α : Type} (f : Nat → Nat → α) (a b : Nat) :
    ((List.range a).flatMap fun y => (List.range b).map fun x => f y x) =
      (List.range (a * b)).map fun m => f (m / b) (m % b) := by
  induction a with
  | zero => simp
  | succ a ih =>
    have row : (List.range b).map (f a) = (List.range b).map fun x => f ((a * b + x) / b) ((a * b + x) % b) := by
      refine List.map_congr_left fun x hx => ?_
      have hx := List.mem_range.1 hx
      rw [Nat.mul_comm, Nat.mul_add_div (by omega), Nat.mul_add_mod, Nat.mod_eq_of_lt hx, Nat.div_eq_of_lt hx,
        Nat.add_zero]
    rw [List.range_succ, List.flatMap_append, ih, Nat.succ_mul, List.range_add, List.map_append, List.map_map]
    simp [row, Function.comp_def]

theorem mcuBlocks_eq (s : State) (my mx j : Nat) :
    let c := (scompAt s j).ci.toNat
    let hs := (compAt s c).hs.toNat
    let vs := (compAt s c).vs.toNat
    mcuBlocks s my mx j = (List.range (vs * hs)).map fun n =>
      { slot := j, comp := c, block := (my * vs + n / hs) * wibOf s c + (mx * hs + n % hs) } := rows_eq_map _ _ _

/-- MCU `m` of a scan, in raster order. -/
def mcuAt (s : State) (m : Nat) : List McuEntry :=
  if s.scan.ns = 1 then
    [{ slot := 0, comp := (scompAt s 0).ci.toNat
       block := m / s.niw.toNat * wibOf s (scompAt s 0).ci.toNat + m % s.niw.toNat }]
  else interleavedMcu s (m / s.mcux.toNat) (m % s.mcux.toNat)

theorem mcuList_eq (s : State) : mcuList s = (List.range (mcuCount s)).map (mcuAt s) := by
  unfold mcuList mcuCount mcuAt
  split
  · rw [rows_eq_map, Nat.mul_comm]
    rfl
  · simp only [mcuBlocks_eq, rows_eq_map, Nat.mul_comm s.mcux.toNat]
    rfl

theorem mcuList_length (s : State) : (mcuList s).length = mcuCount s := by simp [mcuList_eq]

theorem mcuList_getElem? {s : State} {m : Nat} (hm : m < mcuCount s) : (mcuList s)[m]? = some (mcuAt s m) := by
  simp [mcuList_eq, hm]

theorem mem_mcuList_flatten {s : State} {e : McuEntry} :
    e ∈ (mcuList s).flatten ↔ ∃ m < mcuCount s, e ∈ mcuAt s m := by
  simp [mcuList_eq, List.mem_flatten]

theorem raster_lt {w h x y : Nat} (hy : y < h) (hx : x < w) : y * w + x < h * w := by
  calc y * w + x < (y + 1) * w := by rw [Nat.succ_mul]; omega
    _ ≤ h * w := Nat.mul_le_mul_right _ hy

theorem raster_div {w x : Nat} (y : Nat) (hx : x < w) : (y * w + x) / w = y := by
  rw [Nat.mul_comm, Nat.mul_add_div (Nat.zero_lt_of_lt hx), Nat.div_eq_of_lt hx, Nat.add_zero]

theorem raster_mod {w x : Nat} (y : Nat) (hx : x < w) : (y * w + x) % w = x := by
  rw [Nat.mul_comm, Nat.mul_add_mod, Nat.mod_eq_of_lt hx]

/-- Lists joined are free of duplicates where each is, and each element tells the list it is from. -/
theorem nodup_flatMap_of_key {α β : Type} {l : List α} {f : α → List β} {key : β → α} (hl : l.Nodup)
    (hf : ∀ x ∈ l, (f x).Nodup) (hkey : ∀ x ∈ l, ∀ y ∈ f x, key y = x) : (l.flatMap f).Nodup := by
  refine List.nodup_flatMap.2 ⟨hf, hl.imp_of_mem fun hx hy hne z hzx hzy => ?_⟩
  exact hne ((hkey _ hx z hzx).symm.trans (hkey _ hy z hzy))

theorem mem_interleavedMcu {s : State} {my mx j b : Nat} :
    (j, b) ∈ (interleavedMcu s my mx).map (fun e => (e.slot, e.block)) ↔ j < s.scan.ns.toNat ∧
      ∃ n < (compAt s (scompAt s j).ci.toNat).vs.toNat * (compAt s (scompAt s j).ci.toNat).hs.toNat,
        b = (my * (compAt s (scompAt s j).ci.toNat).vs.toNat + n / (compAt s (scompAt s j).ci.toNat).hs.toNat) *
            wibOf s (scompAt s j).ci.toNat +
          (mx * (compAt s (scompAt s j).ci.toNat).hs.toNat + n % (compAt s (scompAt s j).ci.toNat).hs.toNat) := by
  simp only [interleavedMcu, List.mem_map, List.mem_flatMap, List.mem_range, Prod.mk.injEq]
  constructor
  · rintro ⟨e, ⟨j, hj, n, hn, rfl⟩, rfl, rfl⟩
    exact ⟨hj, n, hn, rfl⟩
  · rintro ⟨hj, n, hn, rfl⟩
    exact ⟨_, ⟨j, hj, n, hn, rfl⟩, rfl, rfl⟩

theorem mcuAt_comp {s : State} {m : Nat} {e : McuEntry} (he : e ∈ mcuAt s m) :
    e.comp = (scompAt s e.slot).ci.toNat := by
  unfold mcuAt at he
  split at he
  · obtain rfl := List.mem_singleton.1 he
    rfl
  · simp only [interleavedMcu, List.mem_flatMap, List.mem_map] at he
    obtain ⟨j, -, n, -, rfl⟩ := he
    rfl

/-- The number of the MCU in which a block of a slot's component stands, in an interleaved scan. -/
def mcuOfBlock (s : State) (x : Nat × Nat) : Nat :=
  let c := (scompAt s x.1).ci.toNat
  x.2 / wibOf s c / (compAt s c).vs.toNat * s.mcux.toNat + x.2 % wibOf s c / (compAt s c).hs.toNat

section
variable {s : State} (hf : FrameLegal s) (hs : ScanLegal s)
include hf hs

theorem sampling_pos {j : Nat} (hj : j < s.scan.ns.toNat) :
    0 < (compAt s (scompAt s j).ci.toNat).hs.toNat ∧ 0 < (compAt s (scompAt s j).ci.toNat).vs.toNat := by
  have := hf.sampling _ (hs.components j hj)
  omega

/-- A block of an interleaved MCU lies in its component, and its index tells the MCU. -/
theorem block_of_interleavedMcu {m j b : Nat} (hm : m < s.mcux.toNat * s.mcuy.toNat)
    (h : (j, b) ∈ (interleavedMcu s (m / s.mcux.toNat) (m % s.mcux.toNat)).map fun e => (e.slot, e.block)) :
    j < s.scan.ns.toNat ∧ b < wibOf s (scompAt s j).ci.toNat * hibOf s (scompAt s j).ci.toNat ∧
      mcuOfBlock s (j, b) = m := by
  obtain ⟨hj, n, hn, rfl⟩ := mem_interleavedMcu.1 h
  obtain ⟨hh, hv⟩ := sampling_pos hf hs hj
  have hmx : m % s.mcux.toNat < s.mcux.toNat := Nat.mod_lt _ hf.mcus.1
  have hmy : m / s.mcux.toNat < s.mcuy.toNat := Nat.div_lt_of_lt_mul hm
  have hyy := Nat.div_lt_of_lt_mul (hn.trans_eq (Nat.mul_comm _ _))
  have hcol := raster_lt hmx (Nat.mod_lt n hh)
  refine ⟨hj, ?_, ?_⟩
  · rw [Nat.mul_comm (wibOf s _)]
    exact raster_lt (raster_lt hmy hyy) hcol
  · dsimp only [mcuOfBlock]
    rw [wibOf, raster_div _ hcol, raster_mod _ hcol, raster_div _ hyy, raster_div _ (Nat.mod_lt n hh), Nat.div_add_mod']

/-- Every block of a scanned component stands in an interleaved MCU. -/
theorem exists_interleavedMcu {j b : Nat} (hj : j < s.scan.ns.toNat)
    (hb : b < wibOf s (scompAt s j).ci.toNat * hibOf s (scompAt s j).ci.toNat) :
    ∃ m < s.mcux.toNat * s.mcuy.toNat,
      (j, b) ∈ (interleavedMcu s (m / s.mcux.toNat) (m % s.mcux.toNat)).map fun e => (e.slot, e.block) := by
  obtain ⟨hh, hv⟩ := sampling_pos hf hs hj
  have hw : 0 < wibOf s (scompAt s j).ci.toNat := Nat.pos_of_mul_pos_right (Nat.zero_lt_of_lt hb)
  have hrow := Nat.div_lt_of_lt_mul hb
  have hcol := Nat.mod_lt b hw
  have hmy := Nat.div_lt_of_lt_mul (hrow.trans_eq (Nat.mul_comm _ _))
  have hmx := Nat.div_lt_of_lt_mul (hcol.trans_eq (Nat.mul_comm _ _))
  refine ⟨mcuOfBlock s (j, b), ?_, mem_interleavedMcu.2 ⟨hj, ?_⟩⟩
  · rw [Nat.mul_comm]
    exact raster_lt hmy hmx
  · dsimp only [mcuOfBlock]
    have hxx := Nat.mod_lt (b % wibOf s (scompAt s j).ci.toNat) hh
    refine ⟨_, raster_lt (Nat.mod_lt (b / wibOf s (scompAt s j).ci.toNat) hv) hxx, ?_⟩
    rw [raster_div _ hmx, raster_mod _ hmx, raster_div _ hxx, raster_mod _ hxx, Nat.div_add_mod', Nat.div_add_mod',
      Nat.div_add_mod']

theorem nodup_interleavedMcu {my mx : Nat} (hmx : mx < s.mcux.toNat) :
    ((interleavedMcu s my mx).map fun e => (e.slot, e.block)).Nodup := by
  rw [interleavedMcu, List.map_flatMap]
  refine nodup_flatMap_of_key (key := Prod.fst) List.nodup_range (fun j hj => ?_) (fun j _ x hx => ?_)
  · obtain ⟨hh, hv⟩ := sampling_pos hf hs (List.mem_range.1 hj)
    rw [List.map_map]
    refine List.Nodup.map_on (fun n hn n' hn' heq => ?_) List.nodup_range
    have hyy := Nat.div_lt_of_lt_mul ((List.mem_range.1 hn).trans_eq (Nat.mul_comm _ _))
    have hyy' := Nat.div_lt_of_lt_mul ((List.mem_range.1 hn').trans_eq (Nat.mul_comm _ _))
    have hcol := raster_lt hmx (Nat.mod_lt n hh)
    have hcol' := raster_lt hmx (Nat.mod_lt n' hh)
    have hb := (Prod.mk.inj heq).2
    have hrow := congrArg (· / wibOf s (scompAt s j).ci.toNat) hb
    have hcols := congrArg (· % wibOf s (scompAt s j).ci.toNat) hb
    simp only [wibOf, raster_div _ hcol, raster_div _ hcol', raster_mod _ hcol, raster_mod _ hcol',
      Nat.add_left_cancel_iff] at hrow hcols
    rw [← Nat.div_add_mod' n, hrow, hcols, Nat.div_add_mod']
  · simp only [List.map_map, List.mem_map] at hx
    obtain ⟨n, -, rfl⟩ := hx
    rfl

/-- The blocks of an interleaved scan stand in it once. -/
theorem nodup_interleaved (hns : s.scan.ns ≠ 1) :
    ((mcuList s).flatten.map fun e => (e.slot, e.block)).Nodup := by
  have hmcu : ∀ m, mcuAt s m = interleavedMcu s (m / s.mcux.toNat) (m % s.mcux.toNat) := fun m => if_neg hns
  rw [mcuList_eq, ← List.flatMap_def, List.map_flatMap, mcuCount, if_neg hns]
  refine nodup_flatMap_of_key (key := mcuOfBlock s) List.nodup_range (fun m _ => ?_) (fun m hm x hx => ?_)
  · rw [hmcu]
    exact nodup_interleavedMcu hf hs (Nat.mod_lt _ hf.mcus.1)
  · rw [hmcu] at hx
    exact (block_of_interleavedMcu hf hs (List.mem_range.1 hm) hx).2.2

theorem mem_interleaved (hns : s.scan.ns ≠ 1) (j b : Nat) :
    (j, b) ∈ (mcuList s).flatten.map (fun e => (e.slot, e.block)) ↔
      j < s.scan.ns.toNat ∧ b < wibOf s (scompAt s j).ci.toNat * hibOf s (scompAt s j).ci.toNat := by
  have hmcu : ∀ m, mcuAt s m = interleavedMcu s (m / s.mcux.toNat) (m % s.mcux.toNat) := fun m => if_neg hns
  rw [mcuList_eq, ← List.flatMap_def, List.map_flatMap, mcuCount, if_neg hns]
  simp only [List.mem_flatMap, List.mem_range, hmcu]
  constructor
  · rintro ⟨m, hm, h⟩
    obtain ⟨hj, hb, -⟩ := block_of_interleavedMcu hf hs hm h
    exact ⟨hj, hb⟩
  · rintro ⟨hj, hb⟩
    exact exists_interleavedMcu hf hs hj hb

end

/-- Settles O21: the MCUs stand in raster order, and an interleaved block's index tells its MCU and its place there. -/
theorem scanVisitsEveryBlockOnce : Obligations.ScanVisitsEveryBlockOnce := by
  intro s hf hs
  rw [frameOk_iff] at hf
  rw [scanOk_iff] at hs
  refine ⟨mcuList_length s, fun hns => ⟨fun m hm => ?_, nodup_interleaved hf hs hns, fun e he => ?_,
    mem_interleaved hf hs hns⟩, fun hns m hm => ?_⟩
  · rw [mcuList_getElem? hm, mcuAt, if_neg hns]
  · obtain ⟨m, -, he⟩ := mem_mcuList_flatten.1 he
    exact mcuAt_comp he
  · rw [mcuList_getElem? hm, mcuAt, if_pos hns]

end Sys2Proof.Proofs

/-! The statements of 41_serializer.md about the tokens of one entry: the numbers coded, the DC tokens, the first AC pass
and the refinement pass. -/

namespace Sys2Proof.Proofs

open Sys2Proof.Machine Sys2Proof.Claims

/-! ### Categories and magnitudes (00_scope.md R12) -/

theorem category_eq_iff (v : Int) (n : Nat) : category v = n ↔ HasCategory v n := by
  constructor
  · rintro rfl
    by_cases hv : v = 0
    · exact .inl ⟨hv, category_eq_zero_iff.2 hv⟩
    · exact .inr ⟨hv, category_spec hv⟩
  · rintro (⟨rfl, rfl⟩ | ⟨hv, hn, hlo, hhi⟩)
    · rfl
    · have hle : category v ≤ n := category_le hhi
      have hlt : 2 ^ (n - 1) < 2 ^ category v := hlo.trans_lt (category_spec hv).2.2
      have := (Nat.pow_lt_pow_iff_right (by norm_num)).1 hlt
      omega

theorem magnitude_eq {v : Int} {n : Nat} (hv : v ≠ 0) (h : HasCategory v n) : (magnitude v n : Int) = magOf v n := by
  obtain ⟨h0, -⟩ | ⟨-, -, -, hhi⟩ := h
  · exact absurd h0 hv
  · have hpow : (v.natAbs : Int) < 2 ^ n := by exact_mod_cast hhi
    unfold magnitude magOf
    split <;> omega

/-- A DC difference can be coded where it has one of the categories 0 to 11 (41_serializer.md R136). -/
theorem eleven_lt_category_iff (v : Int) : 11 < category v ↔ 2047 < v.natAbs := by
  constructor
  · intro h
    by_contra hv
    have := category_le (v := v) (n := 11) (by omega)
    omega
  · intro h
    have hlt := (category_spec (v := v) (by omega)).2.2
    by_contra hc
    have := Nat.pow_le_pow_right (n := 2) (by norm_num) (Nat.le_of_not_lt hc)
    omega

/-! ### The DC tokens (41_serializer.md R136, R138) -/

theorem coefAt_of_read {s : State} {c b k : Nat} {w : Half} (h : Bank.read s.mem.coef c (64 * b + k) = some w) :
    coefAt s c b k = .ok w.toInt := coefAt_eq_ok_iff.2 ⟨w, h, rfl⟩

/-- The transformed DC value is the stored one shifted (41_serializer.md R143), so it fits 16 bits. -/
theorem dcTransform_toInt (w : Half) (al : Nat) : dcTransform w.toInt al = (w.sshiftRight al).toInt := by
  rw [BitVec.toInt_sshiftRight, Int.shiftRight_eq_div_pow, dcTransform]
  norm_cast

/-- The parity of a two's complement number is its lowest bit. -/
theorem toInt_mod_two (w : Half) : (w.toInt % 2).toNat = (w.getLsbD 0).toNat := by
  rw [BitVec.toInt_eq_toNat_cond, ← BitVec.testBit_toNat, Nat.testBit_zero]
  rcases Nat.mod_two_eq_zero_or_one w.toNat with hw | hw <;> rw [hw] <;> split <;> simp <;> omega

section
variable {s : State} {e : McuEntry} {v : Half} (h : Bank.read s.mem.coef e.comp (64 * e.block) = some v)
include h

theorem dcTokens_of_read (td al : Nat) (p : Vector Half 3) : dcTokens s e td al p =
    if 2047 < (dcTransform v.toInt al - predAt p e.comp).natAbs then
      (([], some (.raised (raiseAt .symrange e.comp 0 e.block))), p)
    else ((diffTokens td (dcTransform v.toInt al - predAt p e.comp), none),
      p.setIfInBounds e.comp (BitVec.ofInt 16 (dcTransform v.toInt al))) := by
  simp only [dcTokens, coefAt_of_read (k := 0) h, eleven_lt_category_iff]
  rfl

/-- The DC refinement token is the bit of weight `2^al` of the stored value. -/
theorem dcRefineTokens_of_read {al : Nat} (hal : al < 16) :
    dcRefineTokens s e al = ([.bits 1 (v.getLsbD al).toNat], none) := by
  have hbit : (v.sshiftRight al).getLsbD 0 = v.getLsbD al := by
    rw [BitVec.getLsbD_sshiftRight]
    simp [hal]
  simp only [dcRefineTokens, coefAt_of_read (k := 0) h, dcTransform_toInt, toInt_mod_two, hbit]

end

/-! ### The first AC pass (41_serializer.md R137) -/

/-- The coefficients of an entry at the positions `ks` are `v`, and none is the one value that has no code. -/
def BandIs (s : State) (e : McuEntry) (v : Nat → Half) (ks : List Nat) : Prop :=
  ∀ k ∈ ks, Bank.read s.mem.coef e.comp (64 * e.block + k) = some (v k) ∧ (v k).toInt ≠ -32768

theorem half_range {w : Half} (h : w.toInt ≠ -32768) : -32767 ≤ w.toInt ∧ w.toInt ≤ 32767 := by
  have h1 := BitVec.le_toInt w
  have h2 := BitVec.toInt_lt (x := w)
  norm_num at h1 h2
  omega

theorem transformed_eq_zero_iff (v : Int) (al : Nat) : transformed v al = 0 ↔ acTransform v al = 0 := by
  unfold transformed acTransform
  split <;> omega

/-- The magnitude bits of a transformed coefficient stand for it, "ones-complement for negatives". -/
theorem fieldValue_category {v : Int} {al : Nat} (h : acTransform v al ≠ 0) :
    let n := category (acTransform v al)
    fieldValue n (if 0 < v then acTransform v al else 2 ^ n - 1 - acTransform v al) = transformed v al := by
  have hv : v ≠ 0 := by
    rintro rfl
    simp [acTransform] at h
  obtain ⟨hn, hlo, hhi⟩ := category_spec (v := (acTransform v al : Nat)) (by exact_mod_cast h)
  simp only [Int.natAbs_natCast] at hlo hhi
  intro n
  have htwo : 2 ^ n = 2 * 2 ^ (n - 1) := by
    obtain ⟨m, hm⟩ : ∃ m, n = m + 1 := ⟨n - 1, by omega⟩
    rw [hm, pow_succ, Nat.add_sub_cancel, Nat.mul_comm]
  have hpow : (2 : Int) ^ n = ((2 ^ n : Nat) : Int) := by push_cast; rfl
  change 2 ^ (n - 1) ≤ _ at hlo
  change _ < 2 ^ n at hhi
  by_cases hpos : 0 < v
  · rw [if_pos hpos, fieldValue, if_pos hlo, transformed, if_pos hpos.le, acTransform]
  · rw [if_neg hpos, fieldValue, if_neg (by omega), transformed, if_neg (by omega), ← acTransform, hpow]
    omega

theorem decodeBand_pair {t sy m f n : Nat} {rest : List Token} (hsize : sy % 16 = m) (hm : 1 ≤ m)
    (hrun : sy / 16 < n) : decodeBand (.sym t sy :: .bits m f :: rest) n =
      (decodeBand rest (n - sy / 16 - 1)).map fun vs => List.replicate (sy / 16) 0 ++ fieldValue m f :: vs := by
  rw [decodeBand, if_pos ⟨hsize, hm, hrun⟩]

/-- ZRLs in front of a symbol stand for 16 zeros each, where the symbol's band holds a value. -/
theorem decodeBand_zrls {ta t sy n : Nat} {rest : List Token} {vs : List Int}
    (h : decodeBand (.sym t sy :: rest) n = some vs) (hvs : ∃ v ∈ vs, v ≠ 0) (q : Nat) :
    decodeBand (List.replicate q (zrl ta) ++ .sym t sy :: rest) (16 * q + n) =
      some (List.replicate (16 * q) 0 ++ vs) := by
  induction q with
  | zero => simpa using h
  | succ q ih =>
    obtain ⟨t', sy', rest', hrest⟩ : ∃ t' sy' rest', List.replicate q (zrl ta) ++ .sym t sy :: rest =
        .sym t' sy' :: rest' := by
      cases q with
      | zero => exact ⟨_, _, _, rfl⟩
      | succ q => exact ⟨_, _, _, rfl⟩
    have hne : ¬∀ v ∈ List.replicate (16 * q) 0 ++ vs, v = 0 := by
      obtain ⟨v, hv, h0⟩ := hvs
      exact fun hall => h0 (hall v (List.mem_append_right _ hv))
    rw [List.replicate_succ, List.cons_append, hrest, zrl, decodeBand, if_pos ⟨rfl, by omega⟩,
      show 16 * (q + 1) + n - 16 = 16 * q + n by omega, ← hrest, ih]
    · simp only [if_neg hne, Nat.mul_succ, Nat.add_comm (16 * q), List.replicate_add, List.append_assoc]
    all_goals simp

/-- The tokens of the first pass stand for the pending zeros and the transformed band. -/
theorem acFirst_decodes {s : State} {e : McuEntry} {v : Nat → Half} {ks : List Nat} (h : BandIs s e v ks)
    (ta al r : Nat) : ∃ toks, acFirst s e ta al ks r = (toks, none) ∧
      decodeBand toks (r + ks.length) =
        some (List.replicate r 0 ++ ks.map fun k => transformed (v k).toInt al) := by
  induction ks generalizing r with
  | nil =>
    refine ⟨_, rfl, ?_⟩
    rcases Nat.eq_zero_or_pos r with rfl | hr
    · rfl
    · simp [hr, decodeBand]
  | cons k ks ih =>
    have ih := ih fun j hj => h j (List.mem_cons_of_mem _ hj)
    obtain ⟨hread, hmin⟩ := h k (by simp)
    simp only [acFirst, coefAt_of_read hread, if_neg hmin, List.length_cons, List.map_cons]
    by_cases ht : acTransform (v k).toInt al = 0
    · obtain ⟨toks, htoks, hdec⟩ := ih (r + 1)
      refine ⟨toks, by rw [if_pos ht, htoks], ?_⟩
      rw [Nat.add_comm ks.length, ← Nat.add_assoc, hdec, (transformed_eq_zero_iff _ _).2 ht, List.replicate_succ']
      simp
    · obtain ⟨toks, htoks, hdec⟩ := ih 0
      obtain ⟨hlo, hhi⟩ := half_range hmin
      have hn : category (acTransform (v k).toInt al : Nat) ≤ 15 :=
        category_le (by simpa using acTransform_lt hlo hhi al)
      obtain ⟨hn1, -⟩ := category_spec (v := (acTransform (v k).toInt al : Nat)) (by exact_mod_cast ht)
      have hfield := fieldValue_category ht
      have hcoded := decodeBand_pair (t := ta) (sy := 16 * (r % 16) + category (acTransform (v k).toInt al : Nat))
        (f := if 0 < (v k).toInt then acTransform (v k).toInt al
          else 2 ^ category (acTransform (v k).toInt al : Nat) - 1 - acTransform (v k).toInt al)
        (n := r % 16 + 1 + ks.length) (rest := toks) (by omega) hn1 (by omega)
      rw [show (16 * (r % 16) + category (acTransform (v k).toInt al : Nat)) / 16 = r % 16 by omega,
        show r % 16 + 1 + ks.length - r % 16 - 1 = 0 + ks.length by omega, hdec, Option.map_some, hfield] at hcoded
      have hzrl := decodeBand_zrls (ta := ta) hcoded
        ⟨_, List.mem_append_right _ List.mem_cons_self, mt (transformed_eq_zero_iff _ _).1 ht⟩ (r / 16)
      refine ⟨_, by rw [if_neg ht, htoks]; rfl, ?_⟩
      rw [show r + (ks.length + 1) = 16 * (r / 16) + (r % 16 + 1 + ks.length) by omega]
      simp only [List.append_assoc, List.cons_append, List.nil_append]
      rw [hzrl, ← List.append_assoc, List.replicate_append_replicate, Nat.div_add_mod]
      simp

theorem acFirst_slot {s : State} {e : McuEntry} {ta al : Nat} {ks : List Nat} {r t sy : Nat}
    (h : Token.sym t sy ∈ (acFirst s e ta al ks r).1) : t = ta := by
  induction ks generalizing r with
  | nil =>
    simp only [acFirst] at h
    split at h
    · simp at h
      exact h.1
    · simp at h
  | cons k ks ih =>
    simp only [acFirst] at h
    split at h
    · simp at h
    · split at h
      · simp at h
      · split at h
        · exact ih h
        · simp only [emitFirst, zrl, List.mem_append, List.mem_replicate, List.mem_cons, Token.sym.injEq, reduceCtorEq,
            List.not_mem_nil, or_false] at h
          rcases h with (⟨-, h, -⟩ | h) | h
          · exact h
          · exact h.1
          · exact ih h

/-- The tokens of the first pass over positions `k0..k1` of an entry (41_serializer.md R140). -/
def acPass (s : State) (e : McuEntry) (k0 k1 al : Nat) : List Token :=
  (acFirst s e (4 + (scompAt s e.slot).ta.toNat) al (positions k0 k1) 0).1

/-- A first pass over written coefficients other than -32768 ends without fault and can be decoded. -/
theorem acPass_spec {s : State} {e : McuEntry} {v : Nat → Half} {k0 k1 : Nat} (h : BandIs s e v (positions k0 k1))
    (al : Nat) :
    acFirst s e (4 + (scompAt s e.slot).ta.toNat) al (positions k0 k1) 0 = (acPass s e k0 k1 al, none) ∧
      FirstPass s e k0 k1 al (acPass s e k0 k1 al) := by
  obtain ⟨toks, htoks, hdec⟩ := acFirst_decodes h (4 + (scompAt s e.slot).ta.toNat) al 0
  have hpass : acPass s e k0 k1 al = toks := by rw [acPass, htoks]
  refine ⟨by rw [htoks, hpass], fun t sy ht => acFirst_slot ht, ?_⟩
  have hlen : 0 + (positions k0 k1).length = k1 + 1 - k0 := by simp [positions]
  rw [hlen, List.replicate_zero, List.nil_append] at hdec
  refine hpass ▸ hdec.trans (congrArg some (List.map_congr_left fun k hk => ?_))
  rw [(h k hk).1, Option.getD_some]

/-- Settles O25: the decoder follows the encoder token by token, and the entries are such passes. -/
theorem acTokensRecoverBand : Obligations.AcTokensRecoverBand := by
  refine ⟨fun s e ta al k0 n v h => ?_, fun s e p v h => ?_, fun s e p v h => ?_⟩
  · have hband : BandIs s e v (List.range' k0 n) := fun k hk => by
      rw [List.mem_range'_1] at hk
      exact h k hk.1 hk.2
    obtain ⟨toks, htoks, hdec⟩ := acFirst_decodes hband ta al 0
    exact ⟨toks, htoks, by simpa using hdec⟩
  · have hband : BandIs s e v (positions s.scan.ss.toNat s.scan.se.toNat) := fun k hk =>
      h k (List.mem_range'_1.1 hk).1 (mem_positions hk)
    obtain ⟨htoks, hpass⟩ := acPass_spec hband s.scan.al.toNat
    exact ⟨_, by simp only [entryTokens, htoks], hpass⟩
  · intro diff hdiff
    have hband : BandIs s e v (positions 1 63) := fun k hk => by
      have hk1 := (List.mem_range'_1.1 hk).1
      have hk63 := mem_positions hk
      exact ⟨(h k (by omega)).1, (h k (by omega)).2 hk1⟩
    obtain ⟨htoks, hpass⟩ := acPass_spec hband 0
    have hdc := dcTokens_of_read (h 0 (by norm_num)).1 (scompAt s e.slot).td.toNat 0 p
    have hv : dcTransform (v 0).toInt 0 = (v 0).toInt := by simp [dcTransform]
    rw [hv, BitVec.ofInt_toInt, if_neg (by change ¬2047 < diff.natAbs; omega)] at hdc
    exact ⟨_, by simp only [entryTokens, hdc, htoks, emitFirst]; rfl, hpass⟩

/-! ### The refinement pass (41_serializer.md R139) -/

@[simp] theorem bitTokens_nil : bitTokens [] = [] := rfl

@[simp] theorem bitTokens_cons (b : Nat) (bs : List Nat) : bitTokens (b :: bs) = .bits 1 b :: bitTokens bs := rfl

@[simp] theorem bitTokens_append (bs cs : List Nat) : bitTokens (bs ++ cs) = bitTokens bs ++ bitTokens cs :=
  List.map_append

/-- Coefficients the refinement encoder has passed since the last symbol, in their order: `none` for a zero, `some b` for
one that was already non-zero and has the correction bit `b`. -/
abbrev Passed := List (Option Nat)

/-- Which of the passed coefficients were already non-zero. -/
def Passed.flags (ps : Passed) : List Bool := ps.map Option.isSome

/-- What the decoder recovers of the passed coefficients. -/
def Passed.values (ps : Passed) : List Int := ps.map fun o => ((o.getD 0 : Nat) : Int)

/-- The run of zeros among the passed coefficients. -/
def Passed.zeros (ps : Passed) : Nat := ps.count none

/-- The correction bits the encoder has buffered. -/
def Passed.buffered (ps : Passed) : List Nat := ps.filterMap id

section
variable (ps qs : Passed) (b z : Nat)

@[simp] theorem Passed.flags_nil : Passed.flags [] = [] := rfl
@[simp] theorem Passed.values_nil : Passed.values [] = [] := rfl
@[simp] theorem Passed.zeros_nil : Passed.zeros [] = 0 := rfl
@[simp] theorem Passed.buffered_nil : Passed.buffered [] = [] := rfl

@[simp] theorem Passed.flags_none : Passed.flags (none :: ps) = false :: Passed.flags ps := rfl
@[simp] theorem Passed.values_none : Passed.values (none :: ps) = 0 :: Passed.values ps := rfl
@[simp] theorem Passed.zeros_none : Passed.zeros (none :: ps) = Passed.zeros ps + 1 := List.count_cons_self
@[simp] theorem Passed.buffered_none : Passed.buffered (none :: ps) = Passed.buffered ps := rfl

@[simp] theorem Passed.flags_some : Passed.flags (some b :: ps) = true :: Passed.flags ps := rfl
@[simp] theorem Passed.values_some : Passed.values (some b :: ps) = (b : Int) :: Passed.values ps := rfl
@[simp] theorem Passed.zeros_some : Passed.zeros (some b :: ps) = Passed.zeros ps := List.count_cons_of_ne (by simp)
@[simp] theorem Passed.buffered_some : Passed.buffered (some b :: ps) = b :: Passed.buffered ps := rfl

@[simp] theorem Passed.flags_append : Passed.flags (ps ++ qs) = Passed.flags ps ++ Passed.flags qs := List.map_append

@[simp] theorem Passed.values_append : Passed.values (ps ++ qs) = Passed.values ps ++ Passed.values qs :=
  List.map_append

@[simp] theorem Passed.zeros_append : Passed.zeros (ps ++ qs) = Passed.zeros ps + Passed.zeros qs := List.count_append

@[simp] theorem Passed.buffered_append :
    Passed.buffered (ps ++ qs) = Passed.buffered ps ++ Passed.buffered qs := List.filterMap_append

@[simp] theorem Passed.flags_replicate : Passed.flags (List.replicate z none) = List.replicate z false := by
  simp [Passed.flags]

@[simp] theorem Passed.values_replicate : Passed.values (List.replicate z none) = List.replicate z 0 := by
  simp [Passed.values]

@[simp] theorem Passed.zeros_replicate : Passed.zeros (List.replicate z none) = z := by simp [Passed.zeros]

@[simp] theorem Passed.buffered_replicate : Passed.buffered (List.replicate z none) = [] := by
  simp [Passed.buffered]

theorem Passed.zeros_le_length : Passed.zeros ps ≤ (Passed.flags ps).length := by
  rw [Passed.flags, List.length_map]
  exact List.count_le_length

/-- Where nothing is pending, nothing was passed. -/
theorem Passed.pending_iff : 0 < Passed.zeros ps ∨ Passed.buffered ps ≠ [] ↔ ps ≠ [] := by
  cases ps with
  | nil => simp
  | cons o ps => cases o <;> simp

end

/-- The decoder passes over the coefficients the encoder passed, taking their correction bits. -/
theorem passOver_passed {n : Nat} (ps : Passed) (hn : ps.zeros ≤ n) (hs : List Bool) (ts : List Token) :
    passOver n (ps.flags ++ hs) (bitTokens ps.buffered ++ ts) =
      (passOver (n - ps.zeros) hs ts).map fun x => (ps.values ++ x.1, x.2) := by
  induction ps generalizing n with
  | nil => simp
  | cons o ps ih =>
    cases o with
    | none =>
      rw [Passed.zeros_none] at hn
      obtain ⟨n, rfl⟩ : ∃ m, n = m + 1 := ⟨n - 1, by omega⟩
      rw [Passed.zeros_none, Nat.add_sub_add_right]
      simp only [Passed.flags_none, Passed.buffered_none, Passed.values_none, List.cons_append, passOver,
        ih (Nat.le_of_succ_le_succ hn), Option.map_map, Function.comp_def]
    | some b =>
      rw [Passed.zeros_some] at hn ⊢
      simp only [Passed.flags_some, Passed.buffered_some, Passed.values_some, bitTokens_cons, List.cons_append, passOver,
        ih hn, Option.map_map, Function.comp_def]

/-- The passed coefficients before one without history: the decoder stops there. -/
theorem passOver_stops (ps : Passed) (hs : List Bool) (ts : List Token) :
    passOver ps.zeros (ps.flags ++ false :: hs) (bitTokens ps.buffered ++ ts) =
      some (ps.values, false :: hs, ts) := by
  rw [passOver_passed ps le_rfl, Nat.sub_self]
  simp [passOver]

/-- The passed coefficients at the end of the band. -/
theorem passOver_ends (ps : Passed) :
    passOver ps.flags.length ps.flags (bitTokens ps.buffered) = some (ps.values, [], []) := by
  have := passOver_passed ps ps.zeros_le_length [] []
  simp only [List.append_nil] at this
  rw [this]
  simp [passOver]

/-- What the decoder recovers of a coefficient of a refinement band (41_serializer.md R139). -/
def refinedCoef (x : BandCoef) : Int :=
  if 1 < x.mag then (x.mag % 2 : Nat) else if x.mag = 1 then (if x.negative then -1 else 1) else 0

/-- A ZRL takes 16 coefficients without history, and the correction bits of those with history before the last of
them. -/
theorem decodeRefinement_zrl (ta fuel : Nat) (ps : Passed) (h15 : ps.zeros = 15) (hs : List Bool) (ts : List Token) :
    decodeRefinement (fuel + 1) (ps.flags ++ false :: hs) (zrl ta :: (bitTokens ps.buffered ++ ts)) =
      (decodeRefinement fuel hs ts).map fun ws => ps.values ++ 0 :: ws := by
  conv_lhs => unfold decodeRefinement
  simp only [zrl, ← h15, passOver_stops]
  rfl

/-- ZRLs alone take 16 zeros each. -/
theorem decodeRefinement_zrls (ta q fuel : Nat) (hs : List Bool) (ts : List Token) :
    decodeRefinement (fuel + q) (List.replicate (16 * q) false ++ hs) (List.replicate q (zrl ta) ++ ts) =
      (decodeRefinement fuel hs ts).map fun ws => List.replicate (16 * q) 0 ++ ws := by
  induction q with
  | zero => simp
  | succ q ih =>
    have h := decodeRefinement_zrl ta (fuel + q) (List.replicate 15 none) (Passed.zeros_replicate 15)
      (List.replicate (16 * q) false ++ hs) (List.replicate q (zrl ta) ++ ts)
    rw [ih] at h
    have hf : List.replicate (16 * (q + 1)) false ++ hs =
        List.replicate 15 false ++ false :: (List.replicate (16 * q) false ++ hs) := by
      rw [show 16 * (q + 1) = 15 + (1 + 16 * q) by omega, List.replicate_add, List.replicate_add]
      simp
    have hv : ∀ ws : List Int, List.replicate (16 * (q + 1)) 0 ++ ws =
        List.replicate 15 0 ++ 0 :: (List.replicate (16 * q) 0 ++ ws) := by
      intro ws
      rw [show 16 * (q + 1) = 15 + (1 + 16 * q) by omega, List.replicate_add, List.replicate_add]
      simp
    simp only [Passed.flags_replicate, Passed.buffered_replicate, Passed.values_replicate, bitTokens_nil,
      List.nil_append] at h
    rw [hf, List.replicate_succ (n := q), List.cons_append, ← Nat.add_assoc, h]
    simp only [Option.map_map, Function.comp_def, hv]

/-- EOB closes the band: it takes what is left, and something is. -/
theorem decodeRefinement_eob (ta fuel : Nat) {ps : Passed} (h : ps ≠ []) :
    decodeRefinement (fuel + 1) ps.flags (.sym ta 0 :: bitTokens ps.buffered) = some ps.values := by
  have hflags : ps.flags ≠ [] := by simpa [Passed.flags] using h
  conv_lhs => unfold decodeRefinement
  simp only [passOver_ends, if_true, if_neg hflags]

/-- A symbol of size 1 stands for its run of zeros and the newly non-zero coefficient after it. -/
theorem decodeRefinement_new (ta fuel sign : Nat) (ps : Passed) (hs : List Bool) (ts : List Token) :
    decodeRefinement (fuel + 1) (ps.flags ++ false :: hs)
        (.sym ta (16 * ps.zeros + 1) :: .bits 1 sign :: (bitTokens ps.buffered ++ ts)) =
      (decodeRefinement fuel hs ts).map fun ws => ps.values ++ (if sign = 1 then 1 else -1) :: ws := by
  have hdiv : (16 * ps.zeros + 1) / 16 = ps.zeros := by omega
  rw [decodeRefinement, if_neg (by omega), if_neg (by omega), if_pos (by omega)]
  simp only [hdiv, passOver_stops]

section
variable {ta eob r : Nat} {x : BandCoef} {xs : List BandCoef} {br : List Nat}

theorem acRefine_zero (h : x.mag = 0) : acRefine ta eob (x :: xs) r br = acRefine ta eob xs (r + 1) br := by
  rw [acRefine, if_pos h]

theorem acRefine_old (h : 1 < x.mag) (hr : ¬(15 < r ∧ x.k ≤ eob)) :
    acRefine ta eob (x :: xs) r br = acRefine ta eob xs r (br ++ [x.mag % 2]) := by
  rw [acRefine, if_neg (by omega)]
  simp only [if_neg hr, if_pos h, List.nil_append]

theorem acRefine_new (h : x.mag = 1) (hr : ¬(15 < r ∧ x.k ≤ eob)) : acRefine ta eob (x :: xs) r br =
    .sym ta (16 * r + 1) :: .bits 1 (if x.negative then 0 else 1) :: (bitTokens br ++ acRefine ta eob xs 0 []) := by
  rw [acRefine, if_neg (by omega)]
  simp only [if_neg hr, if_neg (show ¬1 < x.mag by omega), List.nil_append, List.cons_append]

/-- Where ZRLs are due, they come first: the buffered bits follow the first of them. -/
theorem acRefine_long (h : x.mag ≠ 0) (hr : 15 < r ∧ x.k ≤ eob) : acRefine ta eob (x :: xs) r br =
    zrl ta :: (bitTokens br ++ (List.replicate (r / 16 - 1) (zrl ta) ++ acRefine ta eob (x :: xs) (r % 16) [])) := by
  have hmod : ¬(15 < r % 16 ∧ x.k ≤ eob) := by omega
  simp only [acRefine, if_neg h, if_pos hr, if_neg hmod, List.cons_append, List.append_assoc, List.nil_append]

end

/-- Either no ZRL can be sent any more, or every buffered correction bit stands before the 16th zero, so that the first
ZRL takes them all. -/
def FirstZrlTakesBits (eob : Nat) (band : List BandCoef) (ps : Passed) : Prop :=
  (∀ x ∈ band, eob < x.k) ∨ ∃ (qs : Passed) (z : Nat), ps = qs ++ List.replicate z none ∧ qs.zeros ≤ 15

theorem FirstZrlTakesBits.split {eob : Nat} {band : List BandCoef} {ps : Passed} (h : FirstZrlTakesBits eob band ps)
    {x : BandCoef} (hx : x ∈ band) (hr : 15 < ps.zeros ∧ x.k ≤ eob) :
    ∃ (qs : Passed) (q r : Nat), qs.zeros = 15 ∧ r < 16 ∧
      ps = qs ++ none :: (List.replicate (16 * q) none ++ List.replicate r none) := by
  obtain ⟨qs, z, rfl, hq⟩ := h.resolve_left fun h => absurd (h x hx) (by omega)
  rw [Passed.zeros_append, Passed.zeros_replicate] at hr
  refine ⟨qs ++ List.replicate (15 - qs.zeros) none, (qs.zeros + z - 16) / 16, (qs.zeros + z) % 16, ?_, by omega, ?_⟩
  · rw [Passed.zeros_append, Passed.zeros_replicate]
    omega
  · rw [List.append_assoc, ← List.replicate_add, ← List.replicate_succ, ← List.replicate_add]
    congr 2
    omega

/-- The ZRLs that are due take their zeros, and the first one all the buffered correction bits. -/
theorem decodeRefinement_long (ta fuel q : Nat) {ps : Passed} (h15 : ps.zeros = 15) (hs : List Bool)
    (ts : List Token) :
    decodeRefinement (fuel + q + 1) (ps.flags ++ false :: (List.replicate (16 * q) false ++ hs))
        (zrl ta :: (bitTokens ps.buffered ++ (List.replicate q (zrl ta) ++ ts))) =
      (decodeRefinement fuel hs ts).map fun ws => ps.values ++ 0 :: (List.replicate (16 * q) 0 ++ ws) := by
  rw [decodeRefinement_zrl ta _ ps h15, decodeRefinement_zrls]
  simp only [Option.map_map, Function.comp_def]

/-- The refinement tokens stand for what was passed before and for the band. -/
theorem acRefine_decodes {ta eob : Nat} {band : List BandCoef} (hk : band.Pairwise (·.k < ·.k))
    (he : ∀ x ∈ band, x.mag = 1 → x.k ≤ eob) {ps : Passed} (hz : FirstZrlTakesBits eob band ps) {fuel : Nat}
    (hfuel : (acRefine ta eob band ps.zeros ps.buffered).length ≤ fuel) :
    decodeRefinement fuel (ps.flags ++ band.map fun x => decide (1 < x.mag))
        (acRefine ta eob band ps.zeros ps.buffered) = some (ps.values ++ band.map refinedCoef) := by
  induction band generalizing ps fuel with
  | nil =>
    simp only [acRefine, Passed.pending_iff, List.map_nil, List.append_nil] at hfuel ⊢
    split at hfuel
    · rename_i hps
      obtain ⟨fuel, rfl⟩ : ∃ n, fuel = n + 1 := ⟨fuel - 1, by simp at hfuel; omega⟩
      rw [if_pos hps, decodeRefinement_eob ta fuel hps]
    · rename_i hps
      obtain rfl := not_not.1 hps
      simp [decodeRefinement]
  | cons x xs ih =>
    rw [List.pairwise_cons] at hk
    have ih := @ih hk.2 fun y hy => he y (List.mem_cons_of_mem _ hy)
    have short : ∀ {ps : Passed} {fuel : Nat}, x.mag ≠ 0 → (x.k ≤ eob → ps.zeros ≤ 15) →
        (acRefine ta eob (x :: xs) ps.zeros ps.buffered).length ≤ fuel →
        decodeRefinement fuel (ps.flags ++ (x :: xs).map fun x => decide (1 < x.mag))
          (acRefine ta eob (x :: xs) ps.zeros ps.buffered) = some (ps.values ++ (x :: xs).map refinedCoef) := by
      intro ps fuel h0 hr hfuel
      have hshort : ¬(15 < ps.zeros ∧ x.k ≤ eob) := by omega
      by_cases h1 : 1 < x.mag
      · have hpass : Passed.zeros (ps ++ [some (x.mag % 2)]) = ps.zeros := by simp
        have hbuf : Passed.buffered (ps ++ [some (x.mag % 2)]) = ps.buffered ++ [x.mag % 2] := by simp
        rw [acRefine_old h1 hshort, ← hbuf, ← hpass] at hfuel ⊢
        have hz' : FirstZrlTakesBits eob xs (ps ++ [some (x.mag % 2)]) := by
          by_cases hx : x.k ≤ eob
          · exact .inr ⟨_, 0, (List.append_nil _).symm, hpass.trans_le (hr hx)⟩
          · exact .inl fun y hy => (Nat.lt_of_not_le hx).trans (hk.1 y hy)
        have := ih hz' hfuel
        simpa [h1, refinedCoef] using this
      · have h1 : x.mag = 1 := by omega
        rw [acRefine_new h1 hshort] at hfuel ⊢
        simp only [List.length_cons, List.length_append] at hfuel
        obtain ⟨fuel, rfl⟩ : ∃ n, fuel = n + 1 := ⟨fuel - 1, by omega⟩
        have := ih (ps := []) (.inr ⟨[], 0, rfl, by simp⟩) (fuel := fuel)
          (by rw [Passed.zeros_nil, Passed.buffered_nil]; omega)
        simp only [Passed.zeros_nil, Passed.buffered_nil, Passed.flags_nil, Passed.values_nil, List.nil_append] at this
        simp only [List.map_cons, h1, lt_irrefl, decide_false]
        rw [decodeRefinement_new, this]
        cases hneg : x.negative <;> simp [refinedCoef, h1, hneg]
    by_cases h0 : x.mag = 0
    · have hpass : Passed.zeros (ps ++ [none]) = ps.zeros + 1 := by simp
      have hbuf : Passed.buffered (ps ++ [none]) = ps.buffered := by simp
      rw [acRefine_zero h0, ← hbuf, ← hpass] at hfuel ⊢
      have hz' : FirstZrlTakesBits eob xs (ps ++ [none]) := by
        rcases hz with hz | ⟨qs, z, rfl, hq⟩
        · exact .inl fun y hy => hz y (List.mem_cons_of_mem _ hy)
        · exact .inr ⟨qs, z + 1, by rw [List.replicate_succ', List.append_assoc], hq⟩
      have := ih hz' hfuel
      simpa [h0, refinedCoef] using this
    · by_cases hr : 15 < ps.zeros ∧ x.k ≤ eob
      · obtain ⟨qs, q, r, h15, hr16, rfl⟩ := hz.split (by simp) hr
        have hzeros : Passed.zeros (qs ++ none :: (List.replicate (16 * q) none ++ List.replicate r none)) =
            16 * (q + 1) + r := by
          simp
          omega
        have hbuf : Passed.buffered (qs ++ none :: (List.replicate (16 * q) none ++ List.replicate r none)) =
            qs.buffered := by simp
        rw [acRefine_long h0 hr, hzeros, hbuf, show (16 * (q + 1) + r) / 16 - 1 = q by omega,
          show (16 * (q + 1) + r) % 16 = r by omega] at hfuel ⊢
        simp only [List.length_cons, List.length_append, List.length_replicate] at hfuel
        obtain ⟨fuel, rfl⟩ : ∃ n, fuel = n + q + 1 := ⟨fuel - q - 1, by omega⟩
        have := short (ps := List.replicate r none) (fuel := fuel) h0 (by simp; omega) (by simp; omega)
        simp only [Passed.zeros_replicate, Passed.buffered_replicate, Passed.flags_replicate,
          Passed.values_replicate] at this
        simp only [Passed.flags_append, Passed.flags_none, Passed.flags_replicate, List.append_assoc, List.cons_append]
        rw [decodeRefinement_long ta fuel q h15, this]
        simp only [Option.map_some, Passed.values_append, Passed.values_none, Passed.values_replicate,
          List.append_assoc, List.cons_append]
      · exact short h0 (by omega) hfuel

theorem acRefine_slot {ta eob : Nat} {band : List BandCoef} {r : Nat} {br : List Nat} {t sy : Nat}
    (h : Token.sym t sy ∈ acRefine ta eob band r br) : t = ta := by
  induction band generalizing r br with
  | nil =>
    simp only [acRefine] at h
    split at h
    · simp [bitTokens] at h
      exact h.1
    · simp at h
  | cons x xs ih =>
    simp only [acRefine] at h
    split at h
    · exact ih h
    · rcases List.mem_append.1 h with h | h
      · split at h
        · simp [zrl, bitTokens, List.mem_replicate] at h
          tauto
        · simp at h
      · split at h
        · exact ih h
        · simp only [List.cons_append, List.mem_cons, List.mem_append, Token.sym.injEq, reduceCtorEq, false_or,
            bitTokens, List.mem_map, and_false, exists_false] at h
          exact h.elim And.left ih

/-- The coefficient of a refinement band at position `k` (41_serializer.md R139). -/
def bandCoefAt (v : Nat → Half) (al k : Nat) : BandCoef :=
  { k, negative := decide ((v k).toInt < 0), mag := acTransform (v k).toInt al }

theorem bandCoefs_of_bandIs {s : State} {e : McuEntry} {v : Nat → Half} {ks : List Nat} (h : BandIs s e v ks)
    (al : Nat) : bandCoefs s e al ks = .ok (ks.map (bandCoefAt v al)) := by
  rw [bandCoefs, mapM_ok_iff, List.forall₂_map_right_iff, List.forall₂_same]
  intro k hk
  obtain ⟨hread, hmin⟩ := h k hk
  simp only [coefAt_of_read hread, bind, Except.bind, if_neg hmin, pure, Except.pure, bandCoefAt]

theorem refinedCoef_bandCoefAt (v : Nat → Half) (al k : Nat) :
    refinedCoef (bandCoefAt v al k) = refinedValue (v k).toInt al := by
  simp [refinedCoef, refinedValue, bandCoefAt, acTransform]

/-- The tokens of a refinement entry, decoded against the coefficients that were already non-zero. -/
theorem acRefineTokens_decodes {s : State} {e : McuEntry} {v : Nat → Half} {ks : List Nat} (h : BandIs s e v ks)
    (hks : ks.Pairwise (· < ·)) (ta al : Nat) : ∃ toks, acRefineTokens s e ta al ks = (toks, none) ∧
      (∀ t sy, Token.sym t sy ∈ toks → t = ta) ∧
      decodeRefinement toks.length (ks.map fun k => decide (1 < (v k).toInt.natAbs / 2 ^ al)) toks =
        some (ks.map fun k => refinedValue (v k).toInt al) := by
  set band := ks.map (bandCoefAt v al) with hband
  refine ⟨acRefine ta (lastNew band) band 0 [], ?_, fun t sy ht => acRefine_slot ht, ?_⟩
  · rw [acRefineTokens, bandCoefs_of_bandIs h]
  · have hsorted : band.Pairwise (·.k < ·.k) := List.pairwise_map.2 hks
    have := acRefine_decodes (ta := ta) hsorted (fun x hx hm => lastNew_ge hx hm) (ps := [])
      (.inr ⟨[], 0, rfl, by simp⟩) le_rfl
    have hflags : (band.map fun x => decide (1 < x.mag)) =
        ks.map fun k => decide (1 < (v k).toInt.natAbs / 2 ^ al) := List.map_map
    have hvalues : band.map refinedCoef = ks.map fun k => refinedValue (v k).toInt al := by
      simp [hband, refinedCoef_bandCoefAt]
    rw [hflags, hvalues] at this
    exact this

/-- The token carries raw bits. -/
def isBits : Token → Bool
  | .bits _ _ => true
  | _ => false

/-- The token is a symbol of size 1. -/
def isNewSymbol : Token → Bool
  | .sym _ sy => decide (sy % 16 = 1)
  | _ => false

/-- Tokens counted in a refinement pass, where ZRL and EOB do not count: `bit` for every correction or sign bit and `new`
for every symbol of size 1. -/
theorem countP_acRefine {P : Token → Bool} {ta bit new : Nat} (hzrl : P (zrl ta) = false) (heob : P (.sym ta 0) = false)
    (hbit : ∀ b, (P (.bits 1 b)).toNat = bit) (hnew : ∀ r, (P (.sym ta (16 * r + 1))).toNat = new) (eob : Nat)
    (band : List BandCoef) (r : Nat) (br : List Nat) :
    (acRefine ta eob band r br).countP P =
      bit * (br.length + band.countP fun x => decide (x.mag ≠ 0)) +
        new * band.countP fun x => decide (x.mag = 1) := by
  have cons (t : Token) (ts : List Token) : (t :: ts).countP P = (P t).toNat + ts.countP P := by
    rw [List.countP_cons, Nat.add_comm]
    cases P t <;> rfl
  have bits (bs : List Nat) : (bitTokens bs).countP P = bit * bs.length := by
    induction bs with
    | nil => rfl
    | cons b bs ih => rw [bitTokens_cons, cons, hbit, ih, List.length_cons, Nat.mul_succ, Nat.add_comm]
  have zrls (n : Nat) : (List.replicate n (zrl ta)).countP P = 0 := by simp [List.countP_replicate, hzrl]
  induction band generalizing r br with
  | nil =>
    rw [acRefine]
    split
    · simp [cons, bits, heob]
    · have : br = [] := by tauto
      simp [this]
  | cons x xs ih =>
    have short : ∀ (r : Nat) (br : List Nat), x.mag ≠ 0 → ¬(15 < r ∧ x.k ≤ eob) →
        (acRefine ta eob (x :: xs) r br).countP P =
          bit * (br.length + (x :: xs).countP fun x => decide (x.mag ≠ 0)) +
            new * (x :: xs).countP fun x => decide (x.mag = 1) := by
      intro r br h0 hr
      by_cases h1 : x.mag = 1
      · rw [acRefine_new h1 hr, cons, cons, List.countP_append, bits, ih, hnew, hbit]
        simp [h1]
        ring
      · rw [acRefine_old (by omega) hr, ih]
        rw [List.countP_cons_of_pos (by simpa using h0), List.countP_cons_of_neg (by simpa using h1), List.length_append,
          List.length_singleton]
        ring
    by_cases h0 : x.mag = 0
    · rw [acRefine_zero h0, ih]
      simp [h0]
    · by_cases hr : 15 < r ∧ x.k ≤ eob
      · rw [acRefine_long h0 hr, cons, List.countP_append, List.countP_append, bits, zrls, short _ _ h0 (by omega), hzrl]
        simp
        ring
      · exact short r br h0 hr

/-- Settles O26: the decoder follows the encoder symbol by symbol, and each coefficient counts once. -/
theorem refinementBitCount : Obligations.RefinementBitCount := by
  refine ⟨fun s e p v h => ?_, fun s e p v h => ?_, fun ta band => ?_⟩
  · simp only [entryTokens, dcRefineTokens_of_read h s.scan.al.isLt]
  · have hband : BandIs s e v (positions s.scan.ss.toNat s.scan.se.toNat) := fun k hk =>
      h k (List.mem_range'_1.1 hk).1 (mem_positions hk)
    obtain ⟨toks, htoks, hslot, hdec⟩ := acRefineTokens_decodes hband List.pairwise_lt_range'
      (4 + (scompAt s e.slot).ta.toNat) s.scan.al.toNat
    exact ⟨toks, by simp only [entryTokens, htoks], hslot, hdec⟩
  · have hbits := countP_acRefine (P := isBits) (ta := ta) rfl rfl (fun _ => rfl) (fun _ => rfl) (lastNew band) band 0 []
    have hnews := countP_acRefine (P := isNewSymbol) (ta := ta) (bit := 0) (new := 1) rfl rfl (fun _ => rfl)
      (fun r => by simp [isNewSymbol]) (lastNew band) band 0 []
    refine ⟨?_, ?_⟩
    · rw [← List.countP_eq_length_filter]
      refine hbits.trans ?_
      simp
    · rw [← List.countP_eq_length_filter]
      refine hnews.trans ?_
      simp

end Sys2Proof.Proofs

/-! The statements of 41_serializer.md about whole scans, MCU by MCU: restart boundaries, the differences coded, and where a
scan stops. -/

namespace Sys2Proof.Proofs

open Sys2Proof.Machine Sys2Proof.Claims

/-! ### Restart boundaries (41_serializer.md R135) -/

theorem restartBefore_iff (s : State) (m : Nat) : restartBefore s m = true ↔ boundaryBefore s m := by
  simp [restartBefore, boundaryBefore, and_assoc]

/-- The number of restart boundaries that stand before MCUs below `m`. -/
def boundaries (s : State) (m : Nat) : Nat := (m - 1) / s.ri.toNat

theorem boundaries_succ (s : State) (m : Nat) :
    boundaries s (m + 1) = boundaries s m + if restartBefore s m then 1 else 0 := by
  cases m with
  | zero => simp [boundaries, restartBefore]
  | succ m =>
    have hiff : restartBefore s (m + 1) = true ↔ s.ri.toNat ∣ m + 1 := by
      rw [restartBefore_iff, boundaryBefore, Nat.dvd_iff_mod_eq_zero]
      constructor
      · exact fun h => h.2.2
      · intro h
        refine ⟨Nat.pos_of_ne_zero fun h0 => ?_, Nat.succ_pos m, h⟩
        rw [h0, Nat.mod_zero] at h
        omega
    rw [boundaries, boundaries, Nat.add_sub_cancel, Nat.add_sub_cancel, Nat.succ_div]
    simp only [hiff]

/-- The marker in front of MCU `m` has the number of boundaries before it as its index. -/
theorem markerBefore_eq (s : State) (m : Nat) :
    markerBefore s m = restartMark s m (BitVec.ofNat 3 (boundaries s m)) := by
  unfold markerBefore restartMark
  by_cases h : boundaryBefore s m
  · have hb := boundaries_succ s m
    rw [if_pos ((restartBefore_iff s m).2 h), boundaries, Nat.add_sub_cancel] at hb
    rw [if_pos h, if_pos ((restartBefore_iff s m).2 h), BitVec.toNat_ofNat, hb, Nat.add_sub_cancel]
  · rw [if_neg h, if_neg (mt (restartBefore_iff s m).1 h)]

theorem ofNat_boundaries_succ (s : State) (m : Nat) : BitVec.ofNat 3 (boundaries s (m + 1)) =
    if restartBefore s m then BitVec.ofNat 3 (boundaries s m) + 1 else BitVec.ofNat 3 (boundaries s m) := by
  rw [boundaries_succ]
  split
  · exact BitVec.ofNat_add _ _
  · rfl

@[simp] theorem restartIndices_append (ts us : List Token) :
    restartIndices (ts ++ us) = restartIndices ts ++ restartIndices us := List.filterMap_append

theorem restartIndices_of_blockTokens {ts : List Token} (h : ∀ t ∈ ts, blockToken t) : restartIndices ts = [] := by
  refine List.filterMap_eq_nil_iff.2 fun t ht => ?_
  have := h t ht
  cases t with
  | rst n => exact this.elim
  | sym t sy => rfl
  | bits n v => rfl
  | fin => rfl

/-- The restart tokens of a part of a scan that starts with RSTN = `n` are numbered from `n` on modulo 8, and `n'` counts
them. -/
def NumberedFrom (n n' : BitVec 3) (toks : List Token) : Prop := ∃ count,
  restartIndices toks = (List.range count).map (fun i => (n.toNat + i) % 8) ∧ n'.toNat = (n.toNat + count) % 8

theorem NumberedFrom.append {n n' n'' : BitVec 3} {ts us : List Token} (h : NumberedFrom n n' ts)
    (h' : NumberedFrom n' n'' us) : NumberedFrom n n'' (ts ++ us) := by
  obtain ⟨c, hts, hn'⟩ := h
  obtain ⟨d, hus, hn''⟩ := h'
  refine ⟨c + d, ?_, by omega⟩
  rw [restartIndices_append, hts, hus, List.range_add, List.map_append, List.map_map]
  refine congrArg _ (List.map_congr_left fun i _ => ?_)
  simp only [Function.comp_apply]
  omega

theorem NumberedFrom.of_none {toks : List Token} (h : restartIndices toks = []) (n : BitVec 3) :
    NumberedFrom n n toks := ⟨0, h, by have := n.isLt; omega⟩

theorem numberedFrom_restartMark (s : State) (m : Nat) (n : BitVec 3) :
    NumberedFrom n (nextRstn s m n) (restartMark s m n) := by
  have hn := n.isLt
  unfold nextRstn restartMark
  split
  · exact ⟨1, by simp [restartIndices]; omega, by simp [BitVec.toNat_add]⟩
  · exact .of_none rfl n

theorem numberedFrom_serializeFrom (s : State) (kind : ScanKind) (m : Nat) (ms : List (List McuEntry))
    (p : Vector Half 3) (n : BitVec 3) :
    NumberedFrom n (serializeFrom s kind m ms p n).rstn (serializeFrom s kind m ms p n).tokens := by
  induction ms generalizing m p n with
  | nil => exact .of_none rfl n
  | cons mcu ms ih =>
    have hmcu := restartIndices_of_blockTokens (mcuTokens_tokens s kind mcu (startPreds s m p)).1
    have hmark := numberedFrom_restartMark s m n
    rcases hrun : mcuTokens s kind mcu (startPreds s m p) with ⟨⟨ts, _ | st⟩, p'⟩
    · rw [hrun] at hmcu
      rw [serializeFrom_of_coded hrun]
      exact (hmark.append (.of_none hmcu _)).append (ih _ _ _)
    · rw [hrun] at hmcu
      rw [serializeFrom_of_stop hrun]
      exact hmark.append (.of_none hmcu _)

/-! ### The MCUs of a scan in their order (41_serializer.md R134, R141) -/

section
variable (s : State) (kind : ScanKind)

/-- The predictors MCU `m - 1` leaves, 0 at the start of the scan. -/
def predsLeft : Nat → Vector Half 3
  | 0 => predZero
  | m + 1 => (mcuTokens s kind (mcuAt s m) (startPreds s m (predsLeft m))).2

/-- What MCU `m` produces. -/
def mcuRun (m : Nat) : Emission × Vector Half 3 :=
  mcuTokens s kind (mcuAt s m) (startPreds s m (predsLeft s kind m))

/-- The MCUs from number `m` on. -/
def serializeRest (m : Nat) : Run :=
  serializeFrom s kind m ((mcuList s).drop m) (predsLeft s kind m) (BitVec.ofNat 3 (boundaries s m))

theorem startPreds_predsLeft (m : Nat) : startPreds s m (predsLeft s kind m) = predBefore s (predsLeft s kind) m := by
  unfold startPreds predBefore
  by_cases h : boundaryBefore s m
  · rw [if_pos ((restartBefore_iff s m).2 h), if_pos (.inr h)]
    rfl
  · rw [if_neg (mt (restartBefore_iff s m).1 h)]
    by_cases h0 : m = 0
    · rw [if_pos (.inl h0), h0]
      rfl
    · rw [if_neg (by tauto)]

theorem serializeRest_zero : serializeRest s kind 0 = serialize s kind := by
  simp [serializeRest, serialize, predsLeft, boundaries]

theorem serializeRest_end : serializeRest s kind (mcuCount s) =
    { tokens := [.fin], stop := none, pred := predsLeft s kind (mcuCount s)
      rstn := BitVec.ofNat 3 (boundaries s (mcuCount s)) } := by
  rw [serializeRest, List.drop_of_length_le (mcuList_length s).le]
  rfl

variable {s kind} {m : Nat} (hm : m < mcuCount s)
include hm

theorem mcuList_drop : (mcuList s).drop m = mcuAt s m :: (mcuList s).drop (m + 1) := by
  have h : m < (mcuList s).length := hm.trans_eq (mcuList_length s).symm
  rw [List.drop_eq_getElem_cons h]
  congr 1
  exact Option.some.inj ((List.getElem?_eq_getElem h).symm.trans (mcuList_getElem? hm))

theorem serializeRest_of_stop {st : Stop} (h : (mcuRun s kind m).1.2 = some st) :
    (serializeRest s kind m).stop = some st := by
  rcases hrun : mcuRun s kind m with ⟨⟨ts, o⟩, p⟩
  rw [hrun] at h
  obtain rfl : o = some st := h
  rw [serializeRest, mcuList_drop hm, serializeFrom_of_stop hrun]

theorem serializeRest_of_coded (h : (mcuRun s kind m).1.2 = none) : serializeRest s kind m =
    { serializeRest s kind (m + 1) with
      tokens := markerBefore s m ++ (mcuRun s kind m).1.1 ++ (serializeRest s kind (m + 1)).tokens } := by
  rcases hrun : mcuRun s kind m with ⟨⟨ts, o⟩, p⟩
  rw [hrun] at h
  obtain rfl : o = none := h
  have hp : predsLeft s kind (m + 1) = p := congrArg Prod.snd hrun
  rw [serializeRest, mcuList_drop hm, serializeFrom_of_coded hrun, serializeRest, hp, ofNat_boundaries_succ,
    markerBefore_eq]
  rfl

end

section
variable {s : State} {kind : ScanKind}

/-- A scan is the MCUs that are coded, and the rest. -/
theorem serialize_eq_of_coded {m : Nat} (hm : m ≤ mcuCount s) (h : ∀ i < m, (mcuRun s kind i).1.2 = none) :
    serialize s kind = { serializeRest s kind m with
      tokens := ((List.range m).flatMap fun i => markerBefore s i ++ (mcuRun s kind i).1.1) ++
        (serializeRest s kind m).tokens } := by
  induction m with
  | zero => exact (serializeRest_zero s kind).symm
  | succ m ih =>
    rw [ih (by omega) fun i hi => h i (by omega), serializeRest_of_coded (by omega) (h m (by omega)),
      List.range_succ, List.flatMap_append]
    simp

/-- A scan stops where the first of its MCUs stops. -/
theorem serialize_stop_of_first {m : Nat} (hm : m < mcuCount s) (h : ∀ i < m, (mcuRun s kind i).1.2 = none) {st : Stop}
    (hst : (mcuRun s kind m).1.2 = some st) : (serialize s kind).stop = some st := by
  rw [serialize_eq_of_coded hm.le h]
  exact serializeRest_of_stop hm hst

/-- A scan ends without stop exactly where each of its MCUs does. -/
theorem serialize_stop_eq_none_iff :
    (serialize s kind).stop = none ↔ ∀ m < mcuCount s, (mcuRun s kind m).1.2 = none := by
  constructor
  · intro h m
    induction m using Nat.strong_induction_on with
    | h m ih =>
      intro hm
      rcases hst : (mcuRun s kind m).1.2 with _ | st
      · rfl
      · rw [serialize_stop_of_first hm (fun i hi => ih i hi (hi.trans hm)) hst] at h
        cases h
  · intro h
    rw [serialize_eq_of_coded le_rfl h, serializeRest_end]

/-- A whole scan (41_serializer.md R141). -/
theorem serialize_of_coded (h : (serialize s kind).stop = none) :
    (serialize s kind).tokens =
        ((List.range (mcuCount s)).flatMap fun m => markerBefore s m ++ (mcuRun s kind m).1.1) ++ [.fin] ∧
      (serialize s kind).pred = predsLeft s kind (mcuCount s) := by
  have heq := serialize_eq_of_coded le_rfl (serialize_stop_eq_none_iff.1 h)
  rw [serializeRest_end] at heq
  exact ⟨congrArg Run.tokens heq, congrArg Run.pred heq⟩

theorem restartIndices_mcuRun (m : Nat) : restartIndices (mcuRun s kind m).1.1 = [] :=
  restartIndices_of_blockTokens (mcuTokens_tokens s kind _ _).1

/-- The markers of the MCUs below `m` are as many as the boundaries. -/
theorem restartIndices_length (m : Nat) :
    (restartIndices ((List.range m).flatMap fun i => markerBefore s i ++ (mcuRun s kind i).1.1)).length =
      boundaries s m := by
  induction m with
  | zero => simp [boundaries, restartIndices]
  | succ m ih =>
    have hmark : (restartIndices (markerBefore s m)).length = if restartBefore s m then 1 else 0 := by
      rw [markerBefore_eq, restartMark]
      split <;> rfl
    rw [List.range_succ, List.flatMap_append, restartIndices_append, List.length_append, ih, boundaries_succ]
    simp [hmark, restartIndices_mcuRun]

end

/-- Settles O22: RSTN counts the markers from the start of the scan, and a scan is its MCUs in their order. -/
theorem restartMarkersCycle : Obligations.RestartMarkersCycle := by
  intro s r h
  obtain ⟨-, -, kind, hkind, rfl, -⟩ := scanRun_eq_ok_iff.1 h
  obtain ⟨count, hind, hrstn⟩ := numberedFrom_serializeFrom s kind 0 (mcuList s) predZero 0
  simp only [show (0 : BitVec 3).toNat = 0 from rfl, Nat.zero_add] at hind hrstn
  have hcount : (restartIndices (serialize s kind).tokens).length = count := by
    rw [serialize, hind, List.length_map, List.length_range]
  refine ⟨by rw [hcount]; exact hind, by rw [hcount]; exact hrstn, fun hstop => ?_⟩
  obtain ⟨htokens, hpred⟩ := serialize_of_coded hstop
  refine ⟨?_, kind, fun m => (mcuRun s kind m).1.1, predsLeft s kind, hkind, fun m hm => ?_, htokens, hpred⟩
  · rw [htokens, restartIndices_append, List.length_append, restartIndices_length, boundaries]
    split
    · rename_i hri
      simp [hri, restartIndices]
    · rfl
  · refine ⟨mcuAt s m, mcuList_getElem? hm, ?_, restartIndices_mcuRun m⟩
    rw [← startPreds_predsLeft]
    exact Prod.ext (Prod.ext rfl (serialize_stop_eq_none_iff.1 hstop m hm)) rfl

end Sys2Proof.Proofs

/-! The statements of 41_serializer.md and 42_huffman.md R162 about what a scan codes entry by entry: the differences
against the last DC value of the component, and the first coefficient that cannot be coded. -/

namespace Sys2Proof.Proofs

open Sys2Proof.Machine Sys2Proof.Claims

/-! ### One entry (41_serializer.md R140) -/

/-- Coefficient `k` of an entry; asked only where it is written. -/
def storedAt (s : State) (e : McuEntry) (k : Nat) : Half := (Bank.read s.mem.coef e.comp (64 * e.block + k)).getD 0

/-- Coefficient `k` of entry `x` cannot be coded, given the entries before it. -/
def Uncodable (s : State) (earlier : List (Nat × McuEntry)) (x : Nat × McuEntry) (k : Nat) : Prop :=
  s.scan.ss.toNat ≤ k ∧ k ≤ s.scan.se.toNat ∧
    (k = 0 → s.scan.ah = 0 ∧ 2047 < (diffOf s earlier x).natAbs) ∧
    (k ≠ 0 → Bank.read s.mem.coef x.2.comp (64 * x.2.block + k) = some 0x8000#16)

theorem uncodable_iff (s : State) (n k : Nat) : uncodable s n k ↔
    ∃ x, (scanEntries s)[n]? = some x ∧ Uncodable s ((scanEntries s).take n) x k := Iff.rfl

/-- Every coefficient the scan takes of the entry is written. -/
def BandWritten (s : State) (e : McuEntry) : Prop :=
  ∀ k, s.scan.ss.toNat ≤ k → k ≤ s.scan.se.toNat → ∃ v, Bank.read s.mem.coef e.comp (64 * e.block + k) = some v

theorem BandWritten.read {s : State} {e : McuEntry} (h : BandWritten s e) {k : Nat} (h0 : s.scan.ss.toNat ≤ k)
    (h1 : k ≤ s.scan.se.toNat) : Bank.read s.mem.coef e.comp (64 * e.block + k) = some (storedAt s e k) := by
  obtain ⟨v, hv⟩ := h k h0 h1
  rw [storedAt, hv, Option.getD_some]

theorem toInt_ne_min {w : Half} (h : w ≠ 0x8000#16) : w.toInt ≠ -32768 := fun hw =>
  h (BitVec.eq_of_toInt_eq (hw.trans (by decide)))

/-- AC coefficients that can be coded make a band. -/
theorem BandWritten.bandIs {s : State} {earlier : List (Nat × McuEntry)} {x : Nat × McuEntry} (h : BandWritten s x.2)
    {ks : List Nat} (hks : ∀ k ∈ ks, 1 ≤ k ∧ s.scan.ss.toNat ≤ k ∧ k ≤ s.scan.se.toNat ∧ ¬Uncodable s earlier x k) :
    BandIs s x.2 (storedAt s x.2) ks := by
  intro k hk
  obtain ⟨hpos, h0, h1, hc⟩ := hks k hk
  have hr := h.read h0 h1
  exact ⟨hr, toInt_ne_min fun he => hc ⟨h0, h1, fun hk0 => absurd hpos (by omega), fun _ => by rw [hr, he]⟩⟩

/-- A run of positions, cut at one of them. -/
theorem positions_split {k0 k1 k : Nat} (h0 : k0 ≤ k) (h1 : k ≤ k1) :
    ∃ rest, positions k0 k1 = List.range' k0 (k - k0) ++ k :: rest := by
  refine ⟨List.range' (k + 1) (k1 - k), ?_⟩
  rw [positions, show k1 + 1 - k0 = (k - k0) + (k1 - k + 1) by omega, ← List.range'_append, List.range'_succ, Nat.one_mul,
    Nat.add_sub_cancel' h0]

section
variable {s : State} {e : McuEntry} {v : Nat → Half} {ks : List Nat} (h : BandIs s e v ks) {k : Nat}
  (hk : Bank.read s.mem.coef e.comp (64 * e.block + k) = some 0x8000#16)
include h hk

/-- The first AC pass stops at the first coefficient -32768 (41_serializer.md R137). -/
theorem acFirst_stops (ta al : Nat) (rest : List Nat) (r : Nat) :
    (acFirst s e ta al (ks ++ k :: rest) r).2 = some (.raised (raiseAt .symrange e.comp k e.block)) := by
  induction ks generalizing r with
  | nil =>
    simp only [List.nil_append, acFirst, coefAt_of_read hk]
    rfl
  | cons j ks ih =>
    have ih := ih fun i hi => h i (List.mem_cons_of_mem _ hi)
    obtain ⟨hread, hmin⟩ := h j (by simp)
    simp only [List.cons_append, acFirst, coefAt_of_read hread, if_neg hmin]
    split
    · exact ih _
    · exact ih _

/-- The refinement pass stops at the first coefficient -32768, before any token (41_serializer.md R139). -/
theorem acRefineTokens_stops (ta al : Nat) (rest : List Nat) :
    acRefineTokens s e ta al (ks ++ k :: rest) =
      ([], some (.raised (raiseAt .symrange e.comp k e.block))) := by
  have hstop : bandCoefs s e al (ks ++ k :: rest) = .error (.raised (raiseAt .symrange e.comp k e.block)) := by
    refine mapM_error_of _ _ _ _ _ (fun j hj => ?_) ?_
    · obtain ⟨hread, hmin⟩ := h j hj
      exact ⟨bandCoefAt v al j, by simp only [coefAt_of_read hread, bind, Except.bind, if_neg hmin]; rfl⟩
    · simp only [coefAt_of_read hk, bind, Except.bind]
      rfl
  rw [acRefineTokens, hstop]

end

/-- The kinds whose entries code a DC difference (41_serializer.md R140). -/
def CodesDc : ScanKind → Prop
  | .seq | .dcf => True
  | .dcr | .acf | .acr => False

/-- The AC tokens of an entry of kind SEQ; none where the scan takes the DC value alone. -/
def acOf (s : State) (e : McuEntry) : List Token := if s.scan.se.toNat = 0 then [] else acPass s e 1 63 0

section
variable {s : State} {kind : ScanKind} {earlier : List (Nat × McuEntry)} {x : Nat × McuEntry} {p : Vector Half 3}
  (hkind : HasKind s kind) (hw : BandWritten s x.2)
include hkind

theorem CodesDc.start (hdc : CodesDc kind) : s.scan.ss.toNat = 0 ∧ s.scan.ah = 0 := by
  cases kind with
  | seq => exact ⟨hkind.1, BitVec.eq_of_toNat_eq hkind.2.2.1⟩
  | dcf => exact ⟨hkind.1, BitVec.eq_of_toNat_eq hkind.2.2⟩
  | dcr | acf | acr => exact hdc.elim

theorem uncodable_zero_iff (hdc : CodesDc kind) :
    Uncodable s earlier x 0 ↔ 2047 < (diffOf s earlier x).natAbs := by
  obtain ⟨hss, hah⟩ := hdc.start hkind
  exact ⟨fun h => (h.2.2.1 rfl).2, fun h => ⟨hss.le, Nat.zero_le _, fun _ => ⟨hah, h⟩, fun h0 => absurd rfl h0⟩⟩

include hw
variable (hp : CodesDc kind → dcOf s x.2 - predAt p x.2.comp = diffOf s earlier x)
include hp

theorem dcTokens_eq (hdc : CodesDc kind) (td : Nat) : dcTokens s x.2 td s.scan.al.toNat p =
    if 2047 < (diffOf s earlier x).natAbs then
      (([], some (.raised (raiseAt .symrange x.2.comp 0 x.2.block))), p)
    else ((diffTokens td (diffOf s earlier x), none), p.setIfInBounds x.2.comp (BitVec.ofInt 16 (dcOf s x.2))) := by
  rw [dcTokens_of_read (hw.read (hdc.start hkind).1.le (Nat.zero_le _)), ← hp hdc]
  rfl

/-- The DC tokens of an entry of kind SEQ or DCF (41_serializer.md R136). -/
theorem dcTokens_coded (hdc : CodesDc kind) (hc : ¬Uncodable s earlier x 0) (td : Nat) :
    dcTokens s x.2 td s.scan.al.toNat p =
      ((diffTokens td (diffOf s earlier x), none), p.setIfInBounds x.2.comp (BitVec.ofInt 16 (dcOf s x.2))) := by
  rw [uncodable_zero_iff hkind hdc] at hc
  rw [dcTokens_eq hkind hw hp hdc, if_neg hc]

theorem dcTokens_stops (hdc : CodesDc kind) (hu : Uncodable s earlier x 0) (td : Nat) :
    dcTokens s x.2 td s.scan.al.toNat p = (([], some (.raised (raiseAt .symrange x.2.comp 0 x.2.block))), p) := by
  rw [uncodable_zero_iff hkind hdc] at hu
  rw [dcTokens_eq hkind hw hp hdc, if_pos hu]

/-- An entry with no coefficient that cannot be coded ends without stop. -/
theorem entryTokens_coded (hc : ∀ k, ¬Uncodable s earlier x k) : ∃ ts p', entryTokens s kind x.2 p = ((ts, none), p') ∧
    (CodesDc kind → ts = diffTokens (scompAt s x.2.slot).td.toNat (diffOf s earlier x) ++ acOf s x.2 ∧
      p' = p.setIfInBounds x.2.comp (BitVec.ofInt 16 (dcOf s x.2))) := by
  have hdc (h : CodesDc kind) := dcTokens_coded hkind hw hp h (hc 0) (scompAt s x.2.slot).td.toNat
  have hband {k0 k1 : Nat} (h1 : 1 ≤ k0) (h0 : s.scan.ss.toNat ≤ k0) (hse : k1 = s.scan.se.toNat) :
      BandIs s x.2 (storedAt s x.2) (positions k0 k1) := by
    refine hw.bandIs (earlier := earlier) fun k hk => ?_
    have hk0 := (List.mem_range'_1.1 hk).1
    have hk1 := mem_positions hk
    exact ⟨by omega, by omega, by omega, hc k⟩
  cases kind with
  | seq =>
    obtain ⟨hss, hse, -, hal⟩ := hkind
    have hdc := hdc trivial
    rw [hal] at hdc
    have hac := (acPass_spec (hband le_rfl (by omega) hse.symm) 0).1
    refine ⟨_, _, ?_, fun _ => ⟨rfl, rfl⟩⟩
    simp only [entryTokens, hdc, hac, emitFirst, acOf, hse]
    rfl
  | dcf =>
    refine ⟨_, _, hdc trivial, fun _ => ⟨?_, rfl⟩⟩
    rw [acOf, if_pos hkind.2.1, List.append_nil]
  | dcr =>
    refine ⟨[.bits 1 ((storedAt s x.2 0).getLsbD s.scan.al.toNat).toNat], p, ?_, False.elim⟩
    have hread := hw.read hkind.1.le (Nat.zero_le _)
    simp only [entryTokens, dcRefineTokens_of_read hread s.scan.al.isLt]
  | acf =>
    refine ⟨acPass s x.2 s.scan.ss.toNat s.scan.se.toNat s.scan.al.toNat, p, ?_, False.elim⟩
    simp only [entryTokens, (acPass_spec (hband hkind.1 le_rfl rfl) s.scan.al.toNat).1]
  | acr =>
    obtain ⟨toks, htoks, -⟩ := acRefineTokens_decodes (hband hkind.1 le_rfl rfl) List.pairwise_lt_range'
      (4 + (scompAt s x.2.slot).ta.toNat) s.scan.al.toNat
    refine ⟨toks, p, ?_, False.elim⟩
    simp only [entryTokens, htoks]

/-- An entry stops at the first coefficient that cannot be coded. -/
theorem entryTokens_stops {k : Nat} (hu : Uncodable s earlier x k) (hfirst : ∀ j < k, ¬Uncodable s earlier x j) :
    (entryTokens s kind x.2 p).1.2 = some (.raised (raiseAt .symrange x.2.comp k x.2.block)) := by
  have ⟨hss, hse, hu0, hu1⟩ := hu
  have hcut {k0 : Nat} (h1 : 1 ≤ k0) (h0 : s.scan.ss.toNat ≤ k0) (hk0 : k0 ≤ k) :
      ∃ ks rest, positions k0 s.scan.se.toNat = ks ++ k :: rest ∧ BandIs s x.2 (storedAt s x.2) ks := by
    obtain ⟨rest, hrest⟩ := positions_split hk0 hse
    refine ⟨_, rest, hrest, hw.bandIs (earlier := earlier) fun j hj => ?_⟩
    rw [List.mem_range'_1] at hj
    exact ⟨by omega, by omega, by omega, hfirst j (by omega)⟩
  cases kind with
  | seq =>
    have hal : s.scan.al.toNat = 0 := hkind.2.2.2
    rcases Nat.eq_zero_or_pos k with rfl | hk
    · have hdc := dcTokens_stops hkind hw hp trivial hu (scompAt s x.2.slot).td.toNat
      rw [hal] at hdc
      simp only [entryTokens, hdc]
    · have hdc := dcTokens_coded hkind hw hp trivial (hfirst 0 hk) (scompAt s x.2.slot).td.toNat
      rw [hal] at hdc
      obtain ⟨ks, rest, hks, hband⟩ := hcut le_rfl (hkind.1.le.trans (Nat.zero_le _)) hk
      rw [hkind.2.1] at hks
      simp only [entryTokens, hdc, hks]
      exact acFirst_stops hband (hu1 hk.ne') _ _ _ _
  | dcf =>
    obtain rfl : k = 0 := Nat.le_zero.1 (hse.trans hkind.2.1.le)
    simp only [entryTokens, dcTokens_stops hkind hw hp trivial hu]
  | dcr =>
    obtain rfl : k = 0 := Nat.le_zero.1 (hse.trans hkind.2.1.le)
    have hah := hkind.2.2.1
    rw [(hu0 rfl).1] at hah
    exact absurd hah (by decide)
  | acf =>
    obtain ⟨ks, rest, hks, hband⟩ := hcut hkind.1 le_rfl hss
    simp only [entryTokens, hks]
    exact acFirst_stops hband (hu1 (by have := hkind.1; omega)) _ _ _ _
  | acr =>
    obtain ⟨ks, rest, hks, hband⟩ := hcut hkind.1 le_rfl hss
    simp only [entryTokens, hks]
    rw [acRefineTokens_stops hband (hu1 (by have := hkind.1; omega))]

end

/-! ### The entries before an entry (41_serializer.md R135, R136) -/

/-- The last DC value of component `c` in restart interval `q` among the entries given, 0 where there is none. -/
def lastDc (s : State) (earlier : List (Nat × McuEntry)) (q c : Nat) : Int :=
  ((earlier.filter fun y => y.1 / s.ri.toNat = q ∧ y.2.comp = c).getLast?.map fun y => dcOf s y.2).getD 0

theorem diffOf_eq (s : State) (earlier : List (Nat × McuEntry)) (x : Nat × McuEntry) :
    diffOf s earlier x = dcOf s x.2 - lastDc s earlier (x.1 / s.ri.toNat) x.2.comp := rfl

theorem lastDc_append (s : State) (earlier : List (Nat × McuEntry)) (y : Nat × McuEntry) (q c : Nat) :
    lastDc s (earlier ++ [y]) q c =
      if y.1 / s.ri.toNat = q ∧ y.2.comp = c then dcOf s y.2 else lastDc s earlier q c := by
  unfold lastDc
  rw [List.filter_append]
  split
  · rename_i h
    rw [List.filter_cons_of_pos (by simpa using h), List.filter_nil, List.getLast?_concat]
    rfl
  · rename_i h
    rw [List.filter_cons_of_neg (by simpa using h), List.filter_nil, List.append_nil]

theorem lastDc_eq_zero {s : State} {earlier : List (Nat × McuEntry)} {q : Nat}
    (h : ∀ y ∈ earlier, y.1 / s.ri.toNat ≠ q) (c : Nat) : lastDc s earlier q c = 0 := by
  have : earlier.filter (fun y => y.1 / s.ri.toNat = q ∧ y.2.comp = c) = [] :=
    List.filter_eq_nil_iff.2 fun y hy => by simp [h y hy]
  rw [lastDc, this]
  rfl

/-- MCU `m + 1` starts a restart interval or goes on with that of MCU `m`. -/
theorem interval_succ (s : State) (m : Nat) :
    (m + 1) / s.ri.toNat = m / s.ri.toNat + if restartBefore s (m + 1) then 1 else 0 := boundaries_succ s (m + 1)

/-- The predictors are the last DC values in the restart interval of MCU `m`, in a scan that codes DC differences. -/
def Tracks (s : State) (kind : ScanKind) (earlier : List (Nat × McuEntry)) (m : Nat) (p : Vector Half 3) : Prop :=
  CodesDc kind → ∀ c < 3, predAt p c = lastDc s earlier (m / s.ri.toNat) c

theorem predAt_predZero (c : Nat) : predAt predZero c = 0 := by
  unfold predAt predZero
  rcases Nat.lt_or_ge c 3 with h | h
  · simp [h]
  · simp [h]

section
variable {s : State} {kind : ScanKind} {earlier : List (Nat × McuEntry)} {m : Nat} {p : Vector Half 3}

theorem tracks_nil (m : Nat) : Tracks s kind [] m predZero := fun _ c _ => by
  rw [predAt_predZero, lastDc_eq_zero (by simp)]

theorem dcOf_toInt (s : State) (e : McuEntry) : (BitVec.ofInt 16 (dcOf s e)).toInt = dcOf s e := by
  have h : dcOf s e = ((storedAt s e 0).sshiftRight s.scan.al.toNat).toInt := dcTransform_toInt _ _
  rw [h, BitVec.ofInt_toInt]

variable (h : Tracks s kind earlier m p)
include h

theorem Tracks.diff {e : McuEntry} (he : e.comp < 3) (hdc : CodesDc kind) :
    dcOf s e - predAt p e.comp = diffOf s earlier (m, e) := by
  rw [h hdc _ he, diffOf_eq]

/-- After an entry the predictor of its component is its DC value. -/
theorem Tracks.entry {e : McuEntry} (he : e.comp < 3) {p' : Vector Half 3}
    (hp' : CodesDc kind → p' = p.setIfInBounds e.comp (BitVec.ofInt 16 (dcOf s e))) :
    Tracks s kind (earlier ++ [(m, e)]) m p' := by
  intro hdc c hc
  rw [lastDc_append, hp' hdc, predAt, Vector.getElem?_setIfInBounds]
  by_cases hec : e.comp = c
  · rw [if_pos hec, if_pos he, if_pos ⟨rfl, hec⟩, Option.getD_some, dcOf_toInt]
  · rw [if_neg hec, if_neg (fun hx => hec hx.2), ← h hdc c hc, predAt]

/-- At a restart boundary no entry before is of the interval that starts. -/
theorem Tracks.next (hle : ∀ y ∈ earlier, y.1 ≤ m) : Tracks s kind earlier (m + 1) (startPreds s (m + 1) p) := by
  intro hdc c hc
  have hint := interval_succ s m
  unfold startPreds
  by_cases hb : restartBefore s (m + 1) = true
  · rw [if_pos hb] at hint ⊢
    rw [predAt_predZero, lastDc_eq_zero fun y hy => ?_]
    have := Nat.div_le_div_right (c := s.ri.toNat) (hle y hy)
    omega
  · rw [if_neg hb] at hint ⊢
    rw [hint, Nat.add_zero]
    exact h hdc c hc

end

/-- No coefficient of the entries `xs` that come after `earlier` is one that cannot be coded. -/
def Codable (s : State) : List (Nat × McuEntry) → List (Nat × McuEntry) → Prop
  | _, [] => True
  | earlier, x :: xs => (∀ k, ¬Uncodable s earlier x k) ∧ Codable s (earlier ++ [x]) xs

theorem codable_append {s : State} {xs : List (Nat × McuEntry)} (earlier ys : List (Nat × McuEntry)) :
    Codable s earlier (xs ++ ys) ↔ Codable s earlier xs ∧ Codable s (earlier ++ xs) ys := by
  induction xs generalizing earlier with
  | nil => simp [Codable]
  | cons x xs ih => simp [Codable, ih, and_assoc]

theorem codable_of_getElem? {s : State} {earlier xs : List (Nat × McuEntry)}
    (h : ∀ n x, xs[n]? = some x → ∀ k, ¬Uncodable s (earlier ++ xs.take n) x k) : Codable s earlier xs := by
  induction xs generalizing earlier with
  | nil => trivial
  | cons x xs ih =>
    refine ⟨fun k => by simpa using h 0 x rfl k, ih fun n y hy k => ?_⟩
    simpa using h (n + 1) y hy k

/-- The tokens of entries of kind SEQ and DCF, each given the entries before it (41_serializer.md R136, R140). -/
def codedTokens (s : State) : List (Nat × McuEntry) → List (Nat × McuEntry) → List Token
  | _, [] => []
  | earlier, x :: xs =>
    diffTokens (scompAt s x.2.slot).td.toNat (diffOf s earlier x) ++ acOf s x.2 ++ codedTokens s (earlier ++ [x]) xs

/-! ### The entries of an MCU (41_serializer.md R140) -/

theorem emitFirst_emitFirst (ts us : List Token) (e : Emission) :
    emitFirst ts (emitFirst us e) = emitFirst (ts ++ us) e := by simp [emitFirst]

section
variable {s : State} {kind : ScanKind} {p p' : Vector Half 3} {ts : List Token}

theorem mcuTokens_of_stop {e : McuEntry} {st : Stop} (h : (entryTokens s kind e p).1.2 = some st)
    (es : List McuEntry) : (mcuTokens s kind (e :: es) p).1.2 = some st := by
  rcases hrun : entryTokens s kind e p with ⟨⟨ts, o⟩, p'⟩
  rw [hrun] at h
  obtain rfl : o = some st := h
  simp only [mcuTokens, hrun]

theorem mcuTokens_of_coded {e : McuEntry} (h : entryTokens s kind e p = ((ts, none), p')) (es : List McuEntry) :
    mcuTokens s kind (e :: es) p = (emitFirst ts (mcuTokens s kind es p').1, (mcuTokens s kind es p').2) := by
  simp only [mcuTokens, h]

end

section
variable {s : State} {kind : ScanKind} {earlier : List (Nat × McuEntry)} {m : Nat} {p : Vector Half 3}
  (hkind : HasKind s kind)
include hkind

/-- Entries with no coefficient that cannot be coded end without stop, and the predictors follow them; the entries after
them go on from there. -/
theorem mcuTokens_coded {es : List McuEntry} (hes : ∀ e ∈ es, e.comp < 3 ∧ BandWritten s e)
    (hp : Tracks s kind earlier m p) (hc : Codable s earlier (es.map (m, ·))) :
    ∃ ts p', Tracks s kind (earlier ++ es.map (m, ·)) m p' ∧
      (CodesDc kind → ts = codedTokens s earlier (es.map (m, ·))) ∧
      ∀ rest, mcuTokens s kind (es ++ rest) p =
        (emitFirst ts (mcuTokens s kind rest p').1, (mcuTokens s kind rest p').2) := by
  induction es generalizing earlier p with
  | nil => exact ⟨[], p, by simpa using hp, fun _ => rfl, fun rest => rfl⟩
  | cons e es ih =>
    obtain ⟨hce, hces⟩ : (∀ k, ¬Uncodable s earlier (m, e) k) ∧ Codable s (earlier ++ [(m, e)]) (es.map (m, ·)) := hc
    obtain ⟨he3, hew⟩ := hes e (by simp)
    obtain ⟨ts, p', hrun, hdc⟩ := entryTokens_coded (x := (m, e)) hkind hew (hp.diff he3) hce
    obtain ⟨us, p'', htracks, hus, hrest⟩ := ih (fun e' he' => hes e' (List.mem_cons_of_mem _ he'))
      (hp.entry he3 fun h => (hdc h).2) hces
    refine ⟨ts ++ us, p'', by simpa using htracks, fun h => ?_, fun rest => ?_⟩
    · rw [hus h, (hdc h).1]
      rfl
    · rw [List.cons_append, mcuTokens_of_coded hrun, hrest, emitFirst_emitFirst]

end

/-! ### A whole scan (41_serializer.md R141) -/

/-- The entries of the MCUs below `m`, each with the number of its MCU. -/
def entriesBelow (s : State) (m : Nat) : List (Nat × McuEntry) :=
  (List.range m).flatMap fun i => (mcuAt s i).map (i, ·)

theorem scanEntries_eq (s : State) : scanEntries s = entriesBelow s (mcuCount s) := by
  have hzip : ((List.range (mcuCount s)).map (mcuAt s)).zipIdx =
      (List.range (mcuCount s)).map fun i => (mcuAt s i, i) := by
    refine List.ext_getElem (by simp) fun i _ _ => ?_
    simp
  rw [scanEntries, mcuList_eq, hzip, List.flatMap_map]
  rfl

theorem entriesBelow_succ (s : State) (m : Nat) :
    entriesBelow s (m + 1) = entriesBelow s m ++ (mcuAt s m).map (m, ·) := by
  simp [entriesBelow, List.range_succ]

theorem lt_of_mem_entriesBelow {s : State} {m : Nat} {x : Nat × McuEntry} (h : x ∈ entriesBelow s m) : x.1 < m := by
  simp only [entriesBelow, List.mem_flatMap, List.mem_range, List.mem_map] at h
  obtain ⟨i, hi, e, -, rfl⟩ := h
  exact hi

/-- An entry and the entries before it. -/
theorem entriesBelow_getElem? {s : State} {m n : Nat} {x : Nat × McuEntry} (h : (entriesBelow s m)[n]? = some x) :
    ∃ before after, x.1 < m ∧ mcuAt s x.1 = before ++ x.2 :: after ∧
      (entriesBelow s m).take n = entriesBelow s x.1 ++ before.map (x.1, ·) := by
  induction m with
  | zero => simp [entriesBelow] at h
  | succ m ih =>
    rw [entriesBelow_succ] at h ⊢
    rcases Nat.lt_or_ge n (entriesBelow s m).length with hn | hn
    · rw [List.getElem?_append_left hn] at h
      obtain ⟨before, after, hlt, hmcu, htake⟩ := ih h
      exact ⟨before, after, by omega, hmcu, by rw [List.take_append_of_le_length hn.le, htake]⟩
    · rw [List.getElem?_append_right hn, List.getElem?_map, Option.map_eq_some_iff] at h
      obtain ⟨e, he, rfl⟩ := h
      obtain ⟨hlt, rfl⟩ := List.getElem?_eq_some_iff.1 he
      refine ⟨(mcuAt s m).take (n - (entriesBelow s m).length), _, m.lt_succ_self,
        ((mcuAt s m).take_append_drop _).symm.trans (congrArg _ (List.drop_eq_getElem_cons hlt)), ?_⟩
      rw [List.take_append, List.take_of_length_le hn, List.map_take]

theorem codable_entriesBelow {s : State} (hc : ∀ n k, ¬uncodable s n k) :
    Codable s [] (entriesBelow s (mcuCount s)) := by
  rw [← scanEntries_eq]
  exact codable_of_getElem? fun n x hx k hu =>
    hc n k ((uncodable_iff s n k).2 ⟨x, hx, by rwa [List.nil_append] at hu⟩)

/-- A legal scan whose coefficients are written. -/
structure WrittenScan (s : State) (kind : ScanKind) : Prop where
  frame : frameOk s = true
  scan : scanOk s = true
  kind : HasKind s kind
  written : ∀ e ∈ (mcuList s).flatten, BandWritten s e

section
variable {s : State} {kind : ScanKind} (h : WrittenScan s kind)
include h

theorem WrittenScan.entry {m : Nat} (hm : m < mcuCount s) {e : McuEntry} (he : e ∈ mcuAt s m) :
    e.comp < 3 ∧ BandWritten s e :=
  ⟨(mcuList_bound h.frame h.scan (List.mem_of_getElem? (mcuList_getElem? hm)) he).1,
    h.written e (mem_mcuList_flatten.2 ⟨m, hm, he⟩)⟩

/-- The MCUs below `m`, where none of their coefficients is one that cannot be coded. -/
theorem mcuRuns_coded {m : Nat} (hm : m ≤ mcuCount s) (hc : Codable s [] (entriesBelow s m)) :
    Tracks s kind (entriesBelow s m) m (startPreds s m (predsLeft s kind m)) ∧
      ∀ i < m, (mcuRun s kind i).1.2 = none ∧
        (CodesDc kind → (mcuRun s kind i).1.1 = codedTokens s (entriesBelow s i) ((mcuAt s i).map (i, ·))) := by
  induction m with
  | zero =>
    have hstart : startPreds s 0 (predsLeft s kind 0) = predZero := ite_self _
    rw [hstart]
    exact ⟨tracks_nil 0, by simp⟩
  | succ m ih =>
    rw [entriesBelow_succ, codable_append, List.nil_append] at hc
    obtain ⟨htracks, hbelow⟩ := ih (by omega) hc.1
    obtain ⟨ts, p', hafter, hts, hrun⟩ := mcuTokens_coded h.kind (fun e he => h.entry hm he) htracks hc.2
    have hmcu : mcuRun s kind m = ((ts, none), p') := by
      have := hrun []
      rw [List.append_nil] at this
      rw [mcuRun, this]
      simp [mcuTokens, emitFirst]
    have hleft : predsLeft s kind (m + 1) = p' := congrArg Prod.snd hmcu
    rw [← entriesBelow_succ] at hafter
    refine ⟨hleft ▸ hafter.next fun y hy => Nat.le_of_lt_succ (lt_of_mem_entriesBelow hy), fun i hi => ?_⟩
    rcases Nat.lt_succ_iff_lt_or_eq.1 hi with hi | rfl
    · exact hbelow i hi
    · exact ⟨by rw [hmcu], fun hdc => by rw [hmcu]; exact hts hdc⟩

/-- The scan stops at the first coefficient that cannot be coded, and records it. -/
theorem serialize_stops {n k : Nat} {x : Nat × McuEntry} (hx : (scanEntries s)[n]? = some x) (hu : uncodable s n k)
    (hfirst : ∀ n' k', uncodable s n' k' → n < n' ∨ (n = n' ∧ k ≤ k')) :
    (serialize s kind).stop = some (.raised (raiseAt .symrange x.2.comp k x.2.block)) := by
  have hbefore : Codable s [] ((scanEntries s).take n) := by
    refine codable_of_getElem? fun n' y hy k' hu' => ?_
    obtain ⟨hlt, -⟩ := List.getElem?_eq_some_iff.1 hy
    rw [List.length_take] at hlt
    rw [List.getElem?_take_of_lt (by omega)] at hy
    rw [List.nil_append, List.take_take, Nat.min_eq_left (by omega)] at hu'
    have := hfirst n' k' ((uncodable_iff s n' k').2 ⟨y, hy, hu'⟩)
    omega
  have hat : ∀ j, Uncodable s ((scanEntries s).take n) x j → k ≤ j := fun j hj => by
    have := hfirst n j ((uncodable_iff s n j).2 ⟨x, hx, hj⟩)
    omega
  obtain ⟨x', hx', hu⟩ := (uncodable_iff s n k).1 hu
  obtain rfl : x = x' := Option.some.inj (hx.symm.trans hx')
  rw [scanEntries_eq] at hx hbefore hat hu
  obtain ⟨before, after, hm, hmcu, htake⟩ := entriesBelow_getElem? hx
  rw [htake] at hbefore hat hu
  rw [codable_append, List.nil_append] at hbefore
  obtain ⟨htracks, hbelow⟩ := mcuRuns_coded h hm.le hbefore.1
  have hes : ∀ e ∈ before ++ x.2 :: after, e.comp < 3 ∧ BandWritten s e := fun e he => h.entry hm (hmcu ▸ he)
  obtain ⟨ts, p', hafter, -, hrun⟩ := mcuTokens_coded h.kind
    (fun e he => hes e (List.mem_append_left _ he)) htracks hbefore.2
  obtain ⟨hx3, hxw⟩ := hes x.2 (by simp)
  have hstop := entryTokens_stops h.kind hxw (hafter.diff hx3) hu fun j hj hj' => absurd (hat j hj') (by omega)
  refine serialize_stop_of_first hm (fun i hi => (hbelow i hi).1) ?_
  rw [mcuRun, hmcu, hrun]
  exact mcuTokens_of_stop hstop after

variable (hc : ∀ n k, ¬uncodable s n k)
include hc

theorem serialize_coded : (serialize s kind).stop = none :=
  serialize_stop_eq_none_iff.2 fun m hm => ((mcuRuns_coded h le_rfl (codable_entriesBelow hc)).2 m hm).1

/-- The tokens of a scan of kind SEQ or DCF. -/
theorem serialize_tokens (hdc : CodesDc kind) : (serialize s kind).tokens =
    ((List.range (mcuCount s)).flatMap fun m =>
      markerBefore s m ++ codedTokens s (entriesBelow s m) ((mcuAt s m).map (m, ·))) ++ [.fin] := by
  rw [(serialize_of_coded (serialize_coded h hc)).1]
  refine congrArg (· ++ _) (List.flatMap_congr fun m hm => ?_)
  rw [((mcuRuns_coded h le_rfl (codable_entriesBelow hc)).2 m (List.mem_range.1 hm)).2 hdc]

end
end Sys2Proof.Proofs


/-! The statements of 41_serializer.md about legal scans over written coefficients: those that can be coded end without
fault, and the others stop at the first that cannot. -/

namespace Sys2Proof.Proofs

open Sys2Proof.Machine Sys2Proof.Claims

/-! ### Runs of legal scans -/

section
variable {s : State} {kind : ScanKind} (h : WrittenScan s kind)
include h

theorem WrittenScan.scanRun_eq (hstop : ∀ f, (serialize s kind).stop ≠ some (.stuck f)) :
    scanRun s = .ok (serialize s kind) :=
  scanRun_eq_ok_iff.2 ⟨h.frame, h.scan, kind, scanKind_of_hasKind h.kind, rfl, hstop⟩

theorem WrittenScan.scanRun_coded (hc : ∀ n k, ¬uncodable s n k) : scanRun s = .ok (serialize s kind) :=
  h.scanRun_eq fun f => by rw [serialize_coded h hc]; exact nofun

end

/-- The kind of a legal scan. -/
theorem exists_writtenScan {s : State} (hf : frameOk s = true) (hs : scanOk s = true)
    (hw : ∀ e ∈ (mcuList s).flatten, BandWritten s e) : ∃ kind, WrittenScan s kind := by
  obtain ⟨kind, hkind⟩ := ((scanOk_iff s).1 hs).kind
  exact ⟨kind, hf, hs, hkind, hw⟩

theorem mem_scanEntries {s : State} {x : Nat × McuEntry} (hx : x ∈ scanEntries s) : x.2 ∈ (mcuList s).flatten := by
  rw [scanEntries_eq] at hx
  simp only [entriesBelow, List.mem_flatMap, List.mem_range, List.mem_map] at hx
  obtain ⟨m, hm, e, he, rfl⟩ := hx
  exact mem_mcuList_flatten.2 ⟨m, hm, he⟩

/-- The one block of MCU `m` of a scan of one component lies in the component. -/
theorem singleBlock_lt {s : State} (hs : ScanLegal s) (hns : s.scan.ns = 1) {m : Nat}
    (hm : m < s.niw.toNat * s.nih.toNat) : m / s.niw.toNat * wibOf s (scompAt s 0).ci.toNat + m % s.niw.toNat <
      wibOf s (scompAt s 0).ci.toNat * hibOf s (scompAt s 0).ci.toNat := by
  obtain ⟨hw0, hw, -, hh⟩ := hs.extent (by rw [hns]; rfl)
  rw [Nat.mul_comm (wibOf _ _)]
  exact raster_lt (by have := Nat.div_lt_of_lt_mul hm; omega) (by have := Nat.mod_lt m hw0; omega)

/-- Every block a legal scan visits is one of its component. -/
theorem block_of_scan {s : State} (hf : FrameLegal s) (hs : ScanLegal s) {e : McuEntry}
    (he : e ∈ (mcuList s).flatten) : ∃ j < s.scan.ns.toNat, e.comp = (scompAt s j).ci.toNat ∧
      e.block < wibOf s e.comp * hibOf s e.comp := by
  obtain ⟨m, hm, hem⟩ := mem_mcuList_flatten.1 he
  have hcomp := mcuAt_comp hem
  by_cases hns : s.scan.ns = 1
  · rw [mcuAt, if_pos hns, List.mem_singleton] at hem
    rw [mcuCount, if_pos hns] at hm
    subst hem
    exact ⟨0, hs.number.1, hcomp, singleBlock_lt hs hns hm⟩
  · obtain ⟨hj, hb⟩ := (mem_interleaved hf hs hns e.slot e.block).1 (List.mem_map_of_mem he)
    exact ⟨e.slot, hj, hcomp, hcomp ▸ hb⟩

/-! ### Codable scans -/

section
variable {s : State} (hf : FrameLegal s) (hs : ScanLegal s)
  (hc : ∀ j < s.scan.ns.toNat, codable s (scompAt s j).ci.toNat)
include hf hs hc

theorem codable_stored {e : McuEntry} (he : e ∈ (mcuList s).flatten) {k : Nat} (hk : k < 64) :
    Bank.read s.mem.coef e.comp (64 * e.block + k) = some (storedAt s e k) ∧
      (k = 0 → -1023 ≤ (storedAt s e k).toInt ∧ (storedAt s e k).toInt ≤ 1023) ∧
      (storedAt s e k).toInt ≠ -32768 := by
  obtain ⟨j, hj, hcomp, hb⟩ := block_of_scan hf hs he
  obtain ⟨v, hread, hdc, hmin⟩ := hc j hj e.block (hcomp ▸ hb) k hk
  rw [← hcomp] at hread
  have hv : storedAt s e k = v := by rw [storedAt, hread, Option.getD_some]
  rw [hv]
  exact ⟨hread, hdc, hmin⟩

theorem dcOf_bound {e : McuEntry} (he : e ∈ (mcuList s).flatten) : -1023 ≤ dcOf s e ∧ dcOf s e ≤ 1023 := by
  obtain ⟨-, hdc, -⟩ := codable_stored hf hs hc he (k := 0) (by omega)
  obtain ⟨h0, h1⟩ := hdc rfl
  have hpow : (1 : Int) ≤ 2 ^ s.scan.al.toNat := one_le_pow₀ (by norm_num)
  change -1023 ≤ (storedAt s e 0).toInt / 2 ^ s.scan.al.toNat ∧ (storedAt s e 0).toInt / 2 ^ s.scan.al.toNat ≤ 1023
  exact ⟨(Int.le_ediv_iff_mul_le (by omega)).2 (by nlinarith), Int.ediv_le_of_le_mul (by omega) (by nlinarith)⟩

/-- The predictor an entry is coded against is 0 or the DC value of an entry before. -/
theorem lastDc_bound {earlier : List (Nat × McuEntry)} (he : ∀ y ∈ earlier, y.2 ∈ (mcuList s).flatten) (q c : Nat) :
    -1023 ≤ lastDc s earlier q c ∧ lastDc s earlier q c ≤ 1023 := by
  unfold lastDc
  cases hlast : (earlier.filter fun y => y.1 / s.ri.toNat = q ∧ y.2.comp = c).getLast? with
  | none => simp
  | some y => exact dcOf_bound hf hs hc (he y (List.mem_filter.1 (List.mem_of_getLast? hlast)).1)

theorem not_uncodable_of_codable (n k : Nat) : ¬uncodable s n k := by
  rw [uncodable_iff]
  rintro ⟨x, hx, -, hse, hzero, hac⟩
  have hmem := mem_scanEntries (List.mem_of_getElem? hx)
  rcases Nat.eq_zero_or_pos k with rfl | hk
  · obtain ⟨-, hdiff⟩ := hzero rfl
    rw [diffOf_eq] at hdiff
    have hdc := dcOf_bound hf hs hc hmem
    have hlast := lastDc_bound hf hs hc (earlier := (scanEntries s).take n)
      (fun y hy => mem_scanEntries (List.mem_of_mem_take hy)) (x.1 / s.ri.toNat) x.2.comp
    omega
  · obtain ⟨hread, -, hmin⟩ := codable_stored hf hs hc hmem (k := k) (by have := s.scan.se.isLt; omega)
    rw [hac hk.ne', Option.some.injEq] at hread
    rw [← hread] at hmin
    exact hmin (by decide)

end

/-- Settles O23: no DC difference of such a scan exceeds 2 * 1023, so no coefficient is one that cannot be coded. -/
theorem codableScanSerializes : Obligations.CodableScanSerializes := by
  intro s hf hs hc
  have hfl := (frameOk_iff s).1 hf
  have hsl := (scanOk_iff s).1 hs
  obtain ⟨kind, h⟩ := exists_writtenScan hf hs fun e he k _ hk =>
    ⟨_, (codable_stored hfl hsl hc he (k := k) (by have := s.scan.se.isLt; omega)).1⟩
  have hcoded := not_uncodable_of_codable hfl hsl hc
  exact ⟨_, h.scanRun_coded hcoded, serialize_coded h hcoded⟩
end Sys2Proof.Proofs


/-! The statement of 41_serializer.md about the tokens of SEQ and DCF scans: the differences per component, with the
category and the magnitude bits written out. -/

namespace Sys2Proof.Proofs

open Sys2Proof.Machine Sys2Proof.Claims

/-! ### The entries of one MCU among those of the scan -/

theorem entriesBelow_split (s : State) {m c : Nat} (hm : m < c) : ∃ rest,
    entriesBelow s c = entriesBelow s m ++ (mcuAt s m).map (m, ·) ++ rest ∧ ∀ y ∈ rest, y.1 ≠ m := by
  induction c with
  | zero => exact absurd hm m.not_lt_zero
  | succ c ih =>
    rw [entriesBelow_succ]
    rcases Nat.lt_succ_iff_lt_or_eq.1 hm with hm | rfl
    · obtain ⟨rest, hsplit, hrest⟩ := ih hm
      refine ⟨rest ++ (mcuAt s c).map (c, ·), by rw [hsplit, List.append_assoc], fun y hy => ?_⟩
      rcases List.mem_append.1 hy with hy | hy
      · exact hrest y hy
      · obtain ⟨e, -, rfl⟩ := List.mem_map.1 hy
        exact hm.ne'
    · exact ⟨[], by simp, by simp⟩

section
variable {s : State} {m : Nat}

/-- What entry number `y.2` adds to the tokens of MCU `m`. -/
def entryPart (s : State) (m : Nat) (y : (Nat × McuEntry) × Nat) : List Token :=
  if y.1.1 = m then entryTokensOf s (acOf s) y.2 y.1 else []

theorem flatMap_entryPart_of_ne {xs : List (Nat × McuEntry)} (h : ∀ x ∈ xs, x.1 ≠ m) (n : Nat) :
    (xs.zipIdx n).flatMap (entryPart s m) = [] :=
  List.flatMap_eq_nil_iff.2 fun _ hy => if_neg (h _ (List.fst_mem_of_mem_zipIdx hy))

theorem flatMap_entryPart_of_eq {before xs after : List (Nat × McuEntry)} (h : ∀ x ∈ xs, x.1 = m)
    (hsplit : scanEntries s = before ++ xs ++ after) :
    (xs.zipIdx before.length).flatMap (entryPart s m) = codedTokens s before xs := by
  induction xs generalizing before with
  | nil => rfl
  | cons x xs ih =>
    have hrest := ih (before := before ++ [x]) (fun y hy => h y (List.mem_cons_of_mem _ hy)) (by simp [hsplit])
    rw [List.length_append, List.length_singleton] at hrest
    have htake : (scanEntries s).take before.length = before := by simp [hsplit]
    rw [List.zipIdx_cons, List.flatMap_cons, hrest, entryPart, if_pos (h x (by simp)), entryTokensOf, htake]
    rfl

theorem codedTokens_mcu (hm : m < mcuCount s) :
    codedTokens s (entriesBelow s m) ((mcuAt s m).map (m, ·)) = mcuTokensOf s (acOf s) m := by
  obtain ⟨rest, hsplit, hrest⟩ := entriesBelow_split s hm
  rw [← scanEntries_eq] at hsplit
  have hbefore : ∀ y ∈ entriesBelow s m, y.1 ≠ m := fun y hy => (lt_of_mem_entriesBelow hy).ne
  have hat : ∀ y ∈ (mcuAt s m).map (m, ·), y.1 = m := by simp
  have hmiddle := flatMap_entryPart_of_eq hat hsplit
  change _ = (scanEntries s).zipIdx.flatMap (entryPart s m)
  rw [hsplit, List.zipIdx_append, List.zipIdx_append, List.flatMap_append, List.flatMap_append,
    flatMap_entryPart_of_ne hbefore, flatMap_entryPart_of_ne hrest, List.nil_append, List.append_nil, ← hmiddle,
    Nat.zero_add]

end

/-! ### The AC tokens of a SEQ entry -/

theorem exists_scanEntries_of_mem {s : State} {e : McuEntry} (he : e ∈ (mcuList s).flatten) :
    ∃ (n : Nat) (x : Nat × McuEntry), (scanEntries s)[n]? = some x ∧ x.2 = e := by
  obtain ⟨m, hm, he⟩ := mem_mcuList_flatten.1 he
  have hx : (m, e) ∈ scanEntries s := by
    rw [scanEntries_eq, entriesBelow, List.mem_flatMap]
    exact ⟨m, List.mem_range.2 hm, List.mem_map_of_mem he⟩
  obtain ⟨n, hn⟩ := List.mem_iff_getElem?.1 hx
  exact ⟨n, _, hn, rfl⟩

theorem acOf_spec {s : State} {kind : ScanKind} (h : WrittenScan s kind) (hdc : CodesDc kind)
    (hc : ∀ n k, ¬uncodable s n k) (e : McuEntry) :
    if s.scan.se.toNat = 0 then acOf s e = [] else e ∈ (mcuList s).flatten → FirstPass s e 1 63 0 (acOf s e) := by
  unfold acOf
  split
  · rfl
  · rename_i hse
    intro he
    obtain ⟨n, x, hx, rfl⟩ := exists_scanEntries_of_mem he
    have hss := (hdc.start h.kind).1
    have h63 : 63 ≤ s.scan.se.toNat := by
      cases kind with
      | seq => exact h.kind.2.1.ge
      | dcf => exact absurd h.kind.2.1 hse
      | dcr | acf | acr => exact hdc.elim
    refine (acPass_spec ((h.written _ he).bandIs (earlier := (scanEntries s).take n) fun k hk => ?_) 0).2
    have hk0 := (List.mem_range'_1.1 hk).1
    have hk1 := mem_positions hk
    exact ⟨hk0, by omega, by omega, fun hu => hc n k ((uncodable_iff s n k).2 ⟨x, hx, hu⟩)⟩

/-! ### A DC scan of one component -/

section
variable {s : State} (hns : s.scan.ns = 1)

/-- The one entry of MCU `m` of a scan of one component. -/
def singleEntry (s : State) (m : Nat) : McuEntry :=
  { slot := 0, comp := (scompAt s 0).ci.toNat
    block := m / s.niw.toNat * wibOf s (scompAt s 0).ci.toNat + m % s.niw.toNat }

include hns

theorem mcuAt_single (m : Nat) : mcuAt s m = [singleEntry s m] := if_pos hns

theorem mcuCount_single : mcuCount s = s.niw.toNat * s.nih.toNat := if_pos hns

/-- The difference of MCU `m` of a scan of one component is that against the MCU before in the restart interval. -/
theorem diffOf_single (m : Nat) : diffOf s (entriesBelow s m) (m, singleEntry s m) =
    dcOf s (singleEntry s m) - if m = 0 ∨ restartBefore s m then 0 else dcOf s (singleEntry s (m - 1)) := by
  rw [diffOf_eq]
  congr 1
  cases m with
  | zero => exact lastDc_eq_zero (by simp [entriesBelow]) _
  | succ m =>
    have hint := interval_succ s m
    by_cases hb : restartBefore s (m + 1) = true
    · rw [if_pos hb] at hint
      rw [if_pos (.inr hb), lastDc_eq_zero fun y hy (heq : _ = (m + 1) / s.ri.toNat) => ?_]
      have := Nat.div_le_div_right (c := s.ri.toNat) (Nat.le_of_lt_succ (lt_of_mem_entriesBelow hy))
      omega
    · rw [if_neg hb] at hint
      rw [if_neg (by simp [hb]), entriesBelow_succ, mcuAt_single hns, List.map_singleton, lastDc_append,
        if_pos ⟨hint.symm, rfl⟩]
      rfl

variable {dc : Nat → Half} (hs : ScanLegal s)
  (hdc : ∀ b < wibOf s (scompAt s 0).ci.toNat * hibOf s (scompAt s 0).ci.toNat,
    Bank.read s.mem.coef (scompAt s 0).ci.toNat (64 * b) = some (dc b))
include hs hdc

theorem dcOf_single {m : Nat} (hm : m < s.niw.toNat * s.nih.toNat) : dcOf s (singleEntry s m) = dcOfMcu s dc m := by
  rw [dcOf, singleEntry, hdc _ (singleBlock_lt hs hns hm), Option.getD_some, dcOfMcu]

theorem diffOf_eq_dcDiff {m : Nat} (hm : m < s.niw.toNat * s.nih.toNat) :
    diffOf s (entriesBelow s m) (m, singleEntry s m) = dcDiff s dc m := by
  rw [diffOf_single hns, dcDiff, dcOf_single hns hs hdc hm, dcOf_single hns hs hdc (m := m - 1) (by omega)]
  by_cases h0 : m = 0 ∨ boundaryBefore s m
  · rw [if_pos h0, if_pos (h0.imp_right (restartBefore_iff s m).2)]
  · rw [if_neg h0, if_neg (mt (Or.imp_right (restartBefore_iff s m).1) h0)]

variable (hf : frameOk s = true) (hkind : HasKind s .dcf)
include hf hkind

theorem writtenScan_single : WrittenScan s .dcf where
  frame := hf
  scan := (scanOk_iff s).2 hs
  kind := hkind
  written e he k _ hk := by
    obtain ⟨m, hm, he⟩ := mem_mcuList_flatten.1 he
    rw [mcuAt_single hns, List.mem_singleton] at he
    rw [mcuCount_single hns] at hm
    obtain rfl : k = 0 := Nat.le_zero.1 (hk.trans hkind.2.1.le)
    subst he
    exact ⟨_, hdc _ (singleBlock_lt hs hns hm)⟩

omit hf in
theorem not_uncodable_single (hdiff : ∀ m < s.niw.toNat * s.nih.toNat, -2047 ≤ dcDiff s dc m ∧ dcDiff s dc m ≤ 2047)
    (n k : Nat) : ¬uncodable s n k := by
  rw [uncodable_iff]
  rintro ⟨⟨m, e⟩, hx, hu⟩
  obtain rfl : k = 0 := Nat.le_zero.1 (hu.2.1.trans hkind.2.1.le)
  have hbig := (uncodable_zero_iff hkind trivial).1 hu
  rw [scanEntries_eq] at hx hbig
  obtain ⟨before, after, hm, hmcu, htake⟩ := entriesBelow_getElem? hx
  rw [mcuAt_single hns] at hmcu
  obtain ⟨rfl, rfl, rfl⟩ : before = [] ∧ e = singleEntry s m ∧ after = [] := by
    cases before with
    | nil => simpa [eq_comm] using hmcu
    | cons b before => simp at hmcu
  rw [mcuCount_single hns] at hm
  dsimp only at hm
  rw [htake, List.map_nil, List.append_nil, diffOf_eq_dcDiff hns hs hdc hm] at hbig
  have hbound := hdiff m hm
  change 2047 < (dcDiff s dc m).natAbs at hbig
  omega

end

/-- Settles O24: entry by entry, the predictor is the last DC value of the component in the restart interval. -/
theorem dcScanCodesDifferences : Obligations.DcScanCodesDifferences := by
  refine ⟨category_eq_iff, fun v n => magnitude_eq, fun s hf hs hkind hw hc => ?_,
    fun s dc hf hs hns hkind hdc hdiff => ?_⟩
  · obtain ⟨kind, hk, hcodes⟩ : ∃ kind, HasKind s kind ∧ CodesDc kind :=
      hkind.elim (fun h => ⟨.seq, h, trivial⟩) fun h => ⟨.dcf, h, trivial⟩
    have h : WrittenScan s kind := ⟨hf, hs, hk, hw⟩
    refine ⟨_, acOf s, h.scanRun_coded hc, serialize_coded h hc, acOf_spec h hcodes hc, ?_⟩
    rw [serialize_tokens h hc hcodes]
    exact congrArg (· ++ _) (List.flatMap_congr fun m hm => by rw [codedTokens_mcu (List.mem_range.1 hm)])
  · have hkind := hasKind_of_scanKind hkind
    have hsl := (scanOk_iff s).1 hs
    have h := writtenScan_single hns hsl hdc hf hkind
    have hc := not_uncodable_single hns hsl hdc hkind hdiff
    refine ⟨_, h.scanRun_coded hc, serialize_coded h hc, ?_⟩
    rw [serialize_tokens h hc trivial, mcuCount_single hns, dcScanTokens]
    refine congrArg (· ++ _) (List.flatMap_congr fun m hm => ?_)
    rw [mcuAt_single hns, List.map_singleton, codedTokens, diffOf_eq_dcDiff hns hsl hdc (List.mem_range.1 hm), codedTokens,
      acOf, if_pos hkind.2.1, List.append_nil, List.append_nil]
    rfl

end Sys2Proof.Proofs


/-! ESCAN's bytes (43_entropy.md R182 to R188, R190): the accumulator holds the bits that do not fill a byte, and the
bytes appended are those of the packed bits. -/

namespace Sys2Proof.Proofs

open Sys2Proof.Machine Sys2Proof.Claims

/-! ### Packed bits -/

theorem bitsValue_concat (bs : List Bool) (b : Bool) : bitsValue (bs ++ [b]) = 2 * bitsValue bs + b.toNat := by
  simp [bitsValue]

theorem packWith_congr {n m : Nat} {bs : List Bool} (hn : bs.length ≤ n) (hm : bs.length ≤ m) :
    packWith n bs = packWith m bs := by
  induction n generalizing m bs with
  | zero =>
    obtain rfl : bs = [] := List.length_eq_zero_iff.1 (Nat.le_zero.1 hn)
    cases m <;> rfl
  | succ n ih =>
    cases m with
    | zero =>
      obtain rfl : bs = [] := List.length_eq_zero_iff.1 (Nat.le_zero.1 hm)
      rfl
    | succ m =>
      have hrest := ih (m := m) (bs := bs.drop 8) (by rw [List.length_drop]; omega) (by rw [List.length_drop]; omega)
      rw [packWith, packWith, hrest]

@[simp] theorem pack_nil : pack [] = [] := rfl

theorem pack_of_ne_nil {bs : List Bool} (h : bs ≠ []) :
    pack bs = stuffed (BitVec.ofNat 8 (bitsValue ((bs ++ List.replicate 8 true).take 8))) ++ pack (bs.drop 8) := by
  have hpos := List.length_pos_iff.2 h
  obtain ⟨n, hn⟩ : ∃ n, bs.length = n + 1 := ⟨bs.length - 1, by omega⟩
  have hrest : packWith n (bs.drop 8) = pack (bs.drop 8) :=
    packWith_congr (by rw [List.length_drop]; omega) le_rfl
  rw [pack, hn, packWith, if_neg h, hrest]

/-- Whole bytes are packed by themselves. -/
theorem pack_append {as : List Bool} (h : 8 ∣ as.length) (bs : List Bool) : pack (as ++ bs) = pack as ++ pack bs := by
  obtain ⟨n, hn⟩ := h
  induction n generalizing as with
  | zero =>
    obtain rfl : as = [] := List.length_eq_zero_iff.1 hn
    rfl
  | succ n ih =>
    have hne : as ≠ [] := by
      rintro rfl
      simp at hn
    have hbyte : ∀ cs, (as ++ cs).take 8 = as.take 8 := fun cs => List.take_append_of_le_length (by omega)
    rw [pack_of_ne_nil hne, pack_of_ne_nil (by simp [hne]), List.append_assoc, hbyte, hbyte,
      List.drop_append_of_le_length (by omega), ih (by rw [List.length_drop]; omega), List.append_assoc]

/-- A byte, completed with 1 bits. -/
theorem pack_byte {bs : List Bool} (h0 : bs ≠ []) (h8 : bs.length ≤ 8) :
    pack bs = stuffed (BitVec.ofNat 8 (bitsValue (bs ++ List.replicate (8 - bs.length) true))) := by
  rw [pack_of_ne_nil h0, List.drop_eq_nil_of_le h8, pack_nil, List.append_nil, List.take_append, List.take_of_length_le h8,
    List.take_replicate, Nat.min_eq_left (by omega)]

/-- The bits of a run that fill whole bytes. -/
def wholeBits (bs : List Bool) : List Bool := bs.take (bs.length / 8 * 8)

/-- The bits of a run that do not fill a byte. -/
def pendingBits (bs : List Bool) : List Bool := bs.drop (bs.length / 8 * 8)

theorem wholeBits_append_pendingBits (bs : List Bool) : wholeBits bs ++ pendingBits bs = bs := List.take_append_drop _ _

theorem pendingBits_length (bs : List Bool) : (pendingBits bs).length = bs.length % 8 := by
  rw [pendingBits, List.length_drop]
  omega

theorem dvd_wholeBits_length (bs : List Bool) : 8 ∣ (wholeBits bs).length := by
  rw [wholeBits, List.length_take, Nat.min_eq_left (by omega)]
  exact Nat.dvd_mul_left _ _

theorem pack_eq_packWhole (bs tail : List Bool) :
    pack (bs ++ tail) = packWhole bs ++ pack (pendingBits bs ++ tail) := by
  conv_lhs => rw [← wholeBits_append_pendingBits bs, List.append_assoc]
  exact pack_append (dvd_wholeBits_length bs) _

theorem wholeBits_of_dvd {bs : List Bool} (h : 8 ∣ bs.length) : wholeBits bs = bs :=
  List.take_of_length_le (Nat.div_mul_cancel h).ge

theorem pendingBits_of_dvd {bs : List Bool} (h : 8 ∣ bs.length) : pendingBits bs = [] :=
  List.drop_eq_nil_of_le (Nat.div_mul_cancel h).ge

theorem packWhole_of_dvd {bs : List Bool} (h : 8 ∣ bs.length) : packWhole bs = pack bs :=
  congrArg pack (wholeBits_of_dvd h)

/-- Completing the last byte with 1 bits does not change the packed bytes. -/
theorem pack_pad {bs : List Bool} (h : 0 < bs.length % 8) :
    pack (bs ++ List.replicate (8 - bs.length % 8) true) = pack bs := by
  have hlen := pendingBits_length bs
  have hne : pendingBits bs ≠ [] := by
    intro h0
    rw [h0, List.length_nil] at hlen
    omega
  have hfull : (pendingBits bs ++ List.replicate (8 - bs.length % 8) true).length = 8 := by
    rw [List.length_append, List.length_replicate]
    omega
  have hbase := pack_eq_packWhole bs []
  rw [List.append_nil, List.append_nil] at hbase
  rw [pack_eq_packWhole, hbase, pack_byte hne (by omega), pack_byte (by simp [hne]) hfull.le, hfull, hlen, Nat.sub_self,
    List.replicate_zero, List.append_nil]

/-! ### The accumulator -/

/-- `s` with bytes appended and counted, and another accumulator. -/
def withBytes (s : State) (bytes : List Byte) (a : Byte) (n : Nat) : State :=
  { s with out := s.out ++ bytes, outcnt := s.outcnt + BitVec.ofNat 32 bytes.length, acc := a, nacc := n }

@[simp] theorem withBytes_withBytes (s : State) (bs cs : List Byte) (a a' : Byte) (n n' : Nat) :
    withBytes (withBytes s bs a n) cs a' n' = withBytes s (bs ++ cs) a' n' := by
  simp [withBytes, BitVec.ofNat_add, BitVec.add_assoc]

@[simp] theorem emitByte_withBytes (b : Byte) (s : State) (bs : List Byte) (a : Byte) (n : Nat) :
    emitByte b (withBytes s bs a n) = withBytes s (bs ++ [b]) a n := by
  simp [withBytes, emitByte, BitVec.ofNat_add, BitVec.add_assoc]

/-- `s` after the bits `bs` have entered an empty accumulator. -/
def loaded (s : State) (bs : List Bool) : State :=
  withBytes s (packWhole bs) (BitVec.ofNat 8 (bitsValue (pendingBits bs))) (bs.length % 8)

theorem withBytes_empty (s : State) (bytes : List Byte) : withBytes s bytes 0 0 = loaded (withBytes s bytes 0 0) [] := by
  rw [loaded, withBytes_withBytes]
  simp [packWhole, pendingBits, bitsValue]

theorem loaded_of_dvd (s : State) {bs : List Bool} (h : 8 ∣ bs.length) : loaded s bs = withBytes s (pack bs) 0 0 := by
  rw [loaded, packWhole_of_dvd h, pendingBits_of_dvd h, Nat.mod_eq_zero_of_dvd h]
  rfl

theorem acc_concat (x : Nat) (b : Bool) :
    2 * BitVec.ofNat 8 x + BitVec.setWidth 8 (bit b) = BitVec.ofNat 8 (2 * x + b.toNat) := by
  rw [BitVec.ofNat_add, BitVec.ofNat_mul]
  cases b <;> rfl

theorem putBit_of_full {s : State} (h : s.nacc + 1 = 8) (b : Bool) :
    putBit b s = withBytes s (stuffed (2 * s.acc + BitVec.setWidth 8 (bit b))) 0 0 := by
  rw [putBit, stuffed]
  simp only [if_pos h]
  split
  · simp [withBytes, emitByte, BitVec.add_assoc]
  · simp [withBytes, emitByte]

theorem putBit_of_room {s : State} (h : s.nacc + 1 ≠ 8) (b : Bool) :
    putBit b s = withBytes s [] (2 * s.acc + BitVec.setWidth 8 (bit b)) (s.nacc + 1) := by
  simp only [putBit, if_neg h]
  simp [withBytes]

theorem withBytes_loaded (s : State) (bs : List Bool) (bytes : List Byte) (a : Byte) (n : Nat) :
    withBytes (loaded s bs) bytes a n = withBytes s (packWhole bs ++ bytes) a n := withBytes_withBytes _ _ _ _ _ _ _

theorem pack_concat_full {bs : List Bool} (h : bs.length % 8 + 1 = 8) (b : Bool) :
    pack (bs ++ [b]) = packWhole bs ++ stuffed (BitVec.ofNat 8 (bitsValue (pendingBits bs ++ [b]))) := by
  have hlen : (pendingBits bs ++ [b]).length = 8 := by
    rw [List.length_append, pendingBits_length, List.length_singleton, h]
  rw [pack_eq_packWhole, pack_byte (by simp) hlen.le, hlen, Nat.sub_self, List.replicate_zero, List.append_nil]

theorem concat_room {bs : List Bool} (h : bs.length % 8 + 1 ≠ 8) (b : Bool) :
    packWhole (bs ++ [b]) = packWhole bs ∧ pendingBits (bs ++ [b]) = pendingBits bs ++ [b] ∧
      (bs ++ [b]).length % 8 = bs.length % 8 + 1 := by
  have hlen : (bs ++ [b]).length = bs.length + 1 := by simp
  have hdiv : (bs ++ [b]).length / 8 = bs.length / 8 := by omega
  have hle : bs.length / 8 * 8 ≤ bs.length := by omega
  refine ⟨?_, ?_, by omega⟩
  · rw [packWhole, hdiv, List.take_append_of_le_length hle, packWhole]
  · rw [pendingBits, hdiv, List.drop_append_of_le_length hle, pendingBits]

/-- One pass of the loop of 43_entropy.md R182. -/
theorem putBit_loaded (s : State) (bs : List Bool) (b : Bool) : putBit b (loaded s bs) = loaded s (bs ++ [b]) := by
  have hacc : 2 * (loaded s bs).acc + BitVec.setWidth 8 (bit b) =
      BitVec.ofNat 8 (bitsValue (pendingBits bs ++ [b])) := by
    rw [bitsValue_concat]
    exact acc_concat _ b
  have hnacc : (loaded s bs).nacc = bs.length % 8 := rfl
  by_cases h : bs.length % 8 + 1 = 8
  · have hdvd : 8 ∣ (bs ++ [b]).length := by
      rw [List.length_append, List.length_singleton]
      omega
    rw [putBit_of_full h, hacc, withBytes_loaded, loaded_of_dvd s hdvd, pack_concat_full h]
  · obtain ⟨hwhole, hpending, hmod⟩ := concat_room h b
    rw [putBit_of_room h, hacc, hnacc, withBytes_loaded, List.append_nil, loaded, hwhole, hpending, hmod]

theorem msbFirst_succ (n v : Nat) : msbFirst (n + 1) v = v.testBit n :: msbFirst n v := by
  rw [msbFirst, List.range_succ_eq_map, List.map_cons, List.map_map, msbFirst]
  congr 1
  exact List.map_congr_left fun i _ => by simp [Nat.sub_sub, Nat.add_comm]

theorem msbFirst_ones (n : Nat) : msbFirst n (2 ^ n - 1) = List.replicate n true := by
  refine List.eq_replicate_iff.2 ⟨by simp [msbFirst], fun b hb => ?_⟩
  simp only [msbFirst, List.mem_map, List.mem_range, Nat.testBit_two_pow_sub_one] at hb
  obtain ⟨i, hi, rfl⟩ := hb
  exact decide_eq_true (by omega)

/-- `put_bits` (43_entropy.md R182). -/
theorem putBits_loaded (n v : Nat) (s : State) (bs : List Bool) :
    putBits n v (loaded s bs) = loaded s (bs ++ msbFirst n v) := by
  induction n generalizing bs with
  | zero => simp [putBits, msbFirst]
  | succ n ih => rw [putBits, putBit_loaded, ih, msbFirst_succ, List.append_assoc, List.singleton_append]

/-- `flush()` (43_entropy.md R184). -/
theorem flush_loaded (s : State) (bs : List Bool) : flush (loaded s bs) = withBytes s (pack bs) 0 0 := by
  have hnacc : (loaded s bs).nacc = bs.length % 8 := rfl
  rw [flush, hnacc]
  by_cases hpos : 0 < bs.length % 8
  · rw [if_pos hpos, putBits_loaded, msbFirst_ones, loaded_of_dvd, pack_pad hpos]
    rw [List.length_append, List.length_replicate]
    omega
  · rw [if_neg hpos, loaded_of_dvd s (Nat.dvd_of_mod_eq_zero (by omega))]

/-! ### Coded tokens (43_entropy.md R185 to R188) -/

/-- Tokens whose symbols all have codes are coded to the end, and append their whole bytes. -/
theorem codeTokens_loaded {toks : List Token} {s : State} (h : allCoded s.mem.huff toks) (bs : List Bool) :
    ∃ a n, codeTokens toks (loaded s bs) = (withBytes s (bytesBeforeFault s.mem.huff toks bs) a n, none) := by
  induction toks generalizing s bs with
  | nil => exact ⟨_, _, rfl⟩
  | cons tok toks ih =>
    have hrest : allCoded s.mem.huff toks := fun t sy ht => h t sy (List.mem_cons_of_mem _ ht)
    have hcontinue (u : State) (hu : codeToken (loaded s bs) tok = .ok u) :
        codeTokens (tok :: toks) (loaded s bs) = codeTokens toks u := by
      simp only [codeTokens, hu]
    cases tok with
    | sym t sy =>
      obtain ⟨e, he, hlen⟩ := h t sy (by simp)
      rw [hcontinue (putBits e.len.toNat e.code.toNat (loaded s bs)), putBits_loaded]
      · simpa only [bytesBeforeFault, he, Option.getD_some] using ih hrest (bs ++ msbFirst e.len.toNat e.code.toNat)
      · have hread : Bank.read (loaded s bs).mem.huff t sy = some e := he
        simp only [codeToken, hread, needed_some, if_neg hlen]
    | bits n v =>
      rw [hcontinue (putBits n v (loaded s bs)) rfl, putBits_loaded]
      exact ih hrest _
    | rst n =>
      rw [hcontinue _ rfl, flush_loaded, emitByte_withBytes, emitByte_withBytes, withBytes_empty]
      obtain ⟨a, n, hrun⟩ := ih (s := withBytes s _ 0 0) hrest []
      refine ⟨a, n, hrun.trans ?_⟩
      rw [withBytes_withBytes, bytesBeforeFault, List.append_assoc _ [_] [_]]
      rfl
    | fin =>
      rw [hcontinue _ rfl, flush_loaded, withBytes_empty]
      obtain ⟨a, n, hrun⟩ := ih (s := withBytes s _ 0 0) hrest []
      refine ⟨a, n, hrun.trans ?_⟩
      rw [withBytes_withBytes, bytesBeforeFault]
      rfl

/-! ### A fault Serialize passes on (42_huffman.md R162, 43_entropy.md R190) -/

theorem faultEntry_symrange {x : Raise} (hx : x.cause = .symrange) (s : State) :
    faultEntry x s = faulted 6 x.c x.k x.aux s := by rw [faultEntry, hx, faulted, Cause.code]

/-- The accumulator does not outlast a fault. -/
theorem faulted_withBytes (code : BitVec 8) (c : BitVec 2) (k : BitVec 6) (aux : Word) (s : State) (bytes : List Byte)
    (a : Byte) (n : Nat) : faulted code c k aux (withBytes s bytes a n) = faulted code c k aux
      { s with out := s.out ++ bytes, outcnt := s.outcnt + BitVec.ofNat 32 bytes.length } := rfl

section
variable {s : State} {r : Run} {x : Raise} (hrun : scanRun s = .ok r) (hstop : r.stop = some (.raised x))
include hrun hstop

theorem symrange_of_scanRun : x.cause = .symrange := by
  rcases scanRun_stop hrun with ⟨y, hy, hsym⟩ | ⟨hnone, -⟩
  · rw [hstop, Option.some.injEq, Stop.raised.injEq] at hy
    exact hy ▸ hsym
  · rw [hstop] at hnone
    cases hnone

theorem execEscan_symrange (hcoded : allCoded s.mem.huff r.tokens) :
    execEscan s = .next (faulted 6 x.c x.k x.aux
      { s with
        out := s.out ++ bytesBeforeFault s.mem.huff r.tokens []
        outcnt := s.outcnt + BitVec.ofNat 32 (bytesBeforeFault s.mem.huff r.tokens []).length
        pred := r.pred, rstn := r.rstn }) := by
  have hstart : escanStart s r = loaded { s with pred := r.pred, rstn := r.rstn } [] := by
    rw [loaded_of_dvd _ (by simp)]
    simp [withBytes, escanStart]
  obtain ⟨a, n, htoks⟩ := codeTokens_loaded (s := { s with pred := r.pred, rstn := r.rstn }) hcoded []
  rw [← hstart] at htoks
  refine execEscan_eq_next_iff.2 (.inr (.inr ⟨r, x, hrun, by rw [htoks, hstop]; rfl, ?_⟩))
  rw [htoks, faultEntry_symrange (symrange_of_scanRun hrun hstop), faulted_withBytes]

theorem execHscan_symrange (hroom : ∀ t sy, 0 < symbolCount r.tokens t sy →
    ∃ v : Word, Bank.read s.mem.hist t sy = some v ∧ v.toNat + symbolCount r.tokens t sy < 2 ^ 32) :
    ∃ h : Bank Word 8, execHscan s = .next (faulted 6 x.c x.k x.aux
      { s with pred := r.pred, rstn := r.rstn, mem := { s.mem with hist := h } }) ∧
      ∀ t sy, Bank.read h t sy =
        (Bank.read s.mem.hist t sy).map (· + BitVec.ofNat 32 (symbolCount r.tokens t sy)) := by
  obtain ⟨h, hcount, hread⟩ := countTokens_room r.tokens s.mem.hist hroom
  refine ⟨h, execHscan_eq_next_iff.2 (.inr (.inr ⟨r, x, hrun, by rw [hcount, hstop]; rfl, ?_⟩)), hread⟩
  rw [hscanState, hcount, faultEntry_symrange (symrange_of_scanRun hrun hstop)]

end

/-- Of the coefficients that cannot be coded, one is the first. -/
theorem exists_first_uncodable {s : State} (h : ∃ n k, uncodable s n k) : ∃ n k, uncodable s n k ∧
    ∀ n' k', uncodable s n' k' → n < n' ∨ (n = n' ∧ k ≤ k') := by
  classical
  have hentry := Nat.find_spec h
  refine ⟨Nat.find h, Nat.find hentry, Nat.find_spec hentry, fun n' k' hu => ?_⟩
  rcases (Nat.find_min' h ⟨k', hu⟩).lt_or_eq with hlt | heq
  · exact .inl hlt
  · exact .inr ⟨heq, Nat.find_min' hentry (heq ▸ hu)⟩

/-- A legal scan over written coefficients never stops but by a fault of its own. -/
theorem WrittenScan.not_stuck {s : State} {kind : ScanKind} (h : WrittenScan s kind) (f : Fault) :
    (serialize s kind).stop ≠ some (.stuck f) := by
  by_cases hc : ∃ n k, uncodable s n k
  · obtain ⟨n, k, hu, hfirst⟩ := exists_first_uncodable hc
    obtain ⟨x, hx, -⟩ := (uncodable_iff s n k).1 hu
    rw [serialize_stops h hx hu hfirst]
    exact nofun
  · rw [serialize_coded h fun n k hu => hc ⟨n, k, hu⟩]
    exact nofun

/-- Settles O37: the entries before the first coefficient that cannot be coded leave the predictors it is coded against,
and the tokens before it are coded or counted in full. -/
theorem symrangePassedOn : Obligations.SymrangePassedOn := by
  refine ⟨fun s hf hs hw => ?_, fun s r x hrun hstop => ⟨symrange_of_scanRun hrun hstop,
    execEscan_symrange hrun hstop, execHscan_symrange hrun hstop⟩⟩
  obtain ⟨kind, h⟩ := exists_writtenScan hf hs hw
  exact ⟨serialize s kind, h.scanRun_eq h.not_stuck, serialize_coded h, fun n k x => serialize_stops h⟩

end Sys2Proof.Proofs

/-! The statements of 42_huffman.md: the counters of HIST (R161, R162), the slots HBUILD writes (R163, R169), and the
code tables (R164 to R168). -/

namespace Sys2Proof.Proofs

open Sys2Proof.Machine Sys2Proof.Claims

/-! ### The counters (42_huffman.md R161, R162) -/

/-- A command word is its opcode plus its operand field in bits 15:8 (30_encoding.md R90, R95). -/
theorem commandWord_eq_add (op a : Byte) :
    commandWord op a = BitVec.setWidth 32 op + (BitVec.setWidth 32 a <<< 8) := by
  apply BitVec.eq_of_toNat_eq
  rw [commandWord, BitVec.toNat_append, BitVec.toNat_append, ← Nat.shiftLeft_add_eq_or_of_lt op.isLt]
  simp only [BitVec.toNat_add, BitVec.toNat_shiftLeft, BitVec.toNat_setWidth, Nat.shiftLeft_eq, BitVec.toNat_ofNat,
    Nat.zero_mod, Nat.zero_mul, Nat.zero_or]
  omega

/-- Settles O9: the word is that of HCLR, and clearing the selected slots is said once in `read_clearSlots`. -/
theorem hclrClearsSelectedSlots : Obligations.HclrClearsSelectedSlots := fun mask =>
  ⟨commandWord_eq_add 2 mask ▸ decode_encode (.hclr mask), fun s =>
    ⟨clearSlots mask s.mem.hist, rfl, read_clearSlots mask s.mem.hist⟩⟩

/-- Settles O27: with room in every counter, all tokens are counted. -/
theorem hscanCountsSymbols : Obligations.HscanCountsSymbols := by
  intro s r hrun hstop hroom
  obtain ⟨h, hcount, hread⟩ := countTokens_room r.tokens s.mem.hist hroom
  refine ⟨h, execHscan_eq_next_iff.2 (.inr (.inl ⟨r, hrun, by rw [hcount], hstop, ?_⟩)), hread⟩
  rw [hscanState, hcount]
  rfl

/-- Counting stops with HISTOVF at a symbol whose counter is full, and counts no token after it. -/
theorem countTokens_full {h : Bank Word 8} {t sy : Nat} (hfull : Bank.read h t sy = some 0xFFFFFFFF#32)
    (post : List Token) :
    countTokens (.sym t sy :: post) h = (h, some (.raised (raiseAt .histovf 0 0 (256 * t + sy)))) := by
  simp [countTokens, countToken, hfull]

/-- A counter whose value and increment add up to 2^32 - 1 is full after the increment. -/
theorem add_ofNat_eq_full {v : Word} {n : Nat} (h : v.toNat + n = 2 ^ 32 - 1) :
    v + BitVec.ofNat 32 n = 0xFFFFFFFF#32 := by
  apply BitVec.eq_of_toNat_eq
  rw [BitVec.toNat_add, BitVec.toNat_ofNat, Nat.add_mod_mod, h]
  rfl

/-- Settles O28: the tokens before the symbol are counted, and the symbol finds its counter full. -/
theorem hscanOverflowKeepsIncrements : Obligations.HscanOverflowKeepsIncrements := by
  rintro s r pre post t sy hrun htoks hroom ⟨v, hv, hfull⟩
  obtain ⟨h, hcount, hread⟩ := countTokens_room pre s.mem.hist hroom
  have hsy : Bank.read h t sy = some 0xFFFFFFFF#32 := by
    rw [hread, hv, Option.map_some]
    exact congrArg some (add_ofNat_eq_full hfull)
  have hall : countTokens r.tokens s.mem.hist = (h, some (.raised (raiseAt .histovf 0 0 (256 * t + sy)))) := by
    rw [htoks, countTokens_append, hcount]
    exact countTokens_full hsy post
  refine ⟨h, execHscan_eq_next_iff.2 (.inr (.inr ⟨r, _, hrun, by rw [hall]; rfl, ?_⟩)), hread⟩
  rw [hscanState, hall]
  rfl

/-! ### The slot HBUILD writes (42_huffman.md R163, R169) -/

theorem slotCounts_of_written {s : State} {t : Nat}
    (h : ∀ sy < slotSize t, ∃ n : Word, Bank.read s.mem.hist t sy = some n) :
    slotCounts s.mem.hist t = .ok (countsOf s t) := by
  rw [slotCounts_eq_ok_iff, countsOf, List.forall₂_map_right_iff, List.forall₂_same]
  intro sy hsy
  obtain ⟨n, hn⟩ := h sy (List.mem_range.1 hsy)
  exact ⟨n, hn, by rw [hn, Option.getD_some]⟩

theorem countsOf_length (s : State) (t : Nat) : (countsOf s t).length = slotSize t := by simp [countsOf]

theorem buildCodes_of_unused {h : List Nat} (hz : ∀ n ∈ h, n = 0) : buildCodes h = [] :=
  if_pos (List.all_eq_true.2 fun n hn => beq_iff_eq.2 (hz n hn))

theorem mem_countsOf_eq_zero {s : State} {t : Nat} (h : ∀ sy < slotSize t, Bank.read s.mem.hist t sy = some 0) :
    ∀ n ∈ countsOf s t, n = 0 := by
  simp only [countsOf, List.forall_mem_map, List.mem_range]
  intro sy hsy
  rw [h sy hsy]
  rfl

/-- Settles O30: HUFFLEN never comes, and a run of writes from symbol 0 on fills the slot. -/
theorem hbuildWritesSlot : Obligations.HbuildWritesSlot := by
  intro t s hw
  change ∀ sy < slotSize t.toNat, _ at hw
  have hexec := execHbuild_eq_next_iff.2 ⟨_, slotCounts_of_written hw, rfl⟩
  have hin : ∀ sy < slotSize t.toNat, Bank.read (Bank.writeRun s.mem.huff t.toNat 0
      ((List.range (slotSize t.toNat)).map fun sy => (codeOf (buildCodes (countsOf s t.toNat)) sy).entry)) t.toNat sy =
      some (codeOf (buildCodes (countsOf s t.toNat)) sy).entry := by
    intro sy hsy
    rw [Bank.read_writeRun, if_pos ⟨rfl, t.isLt, Nat.zero_le _, by simpa using hsy⟩]
    simp [hsy]
  refine ⟨_, hexec, hin, fun u i hout => ?_, fun hzero sy hsy => ?_⟩
  · rw [Bank.read_writeRun, if_neg]
    rintro ⟨hu, -, -, hi⟩
    exact hout ⟨hu, by simpa [slotSize] using hi⟩
  · rw [hin sy hsy, buildCodes_of_unused (mem_countsOf_eq_zero hzero)]
    rfl

/-! ### The codes of every table (42_huffman.md R167, R168) -/

section
variable {h : List Nat} (hl : h.length ≤ 256) {x y : CodeWord} (hx : x ∈ buildCodes h)

include hx in
theorem used_of_mem_buildCodes : ¬(h.all (· == 0)) = true := by
  intro hz
  rw [buildCodes, if_pos hz] at hx
  exact List.not_mem_nil hx

variable (hy : y ∈ buildCodes h)

/-- `x` stands before `y` in a table: in (length, symbol) order, and with a code below that of `y` and below everything
its own code is the beginning of. -/
def CodeBefore (x y : CodeWord) : Prop :=
  (x.len < y.len ∨ (x.len = y.len ∧ x.symbol < y.symbol)) ∧ (x.code + 1) * 2 ^ (y.len - x.len) ≤ y.code

include hl hx hy in
/-- Of two code words of a table, one stands before the other. -/
theorem codeBefore_total (hne : x ≠ y) : CodeBefore x y ∨ CodeBefore y x := by
  obtain ⟨-, horder, hcodes, -⟩ := buildCodes_spec h hl (used_of_mem_buildCodes hx)
  have hpair : (buildCodes h).Pairwise CodeBefore := (horder.and hcodes).imp fun h => ⟨h.1, h.2.2⟩
  have hsymm : Std.Symm fun x y => CodeBefore x y ∨ CodeBefore y x := ⟨fun _ _ => Or.symm⟩
  exact (hpair.imp Or.inl : (buildCodes h).Pairwise fun x y => CodeBefore x y ∨ CodeBefore y x).forall hx hy hne

end

/-- Settles O34: of two code words, the one before in (length, symbol) order stands before in the table. -/
theorem huffmanCodesCanonical : Obligations.HuffmanCodesCanonical := by
  intro h hl x hx y hy hxy
  have hne : x ≠ y := by rintro rfl; omega
  rcases codeBefore_total hl hx hy hne with ⟨-, hcode⟩ | ⟨hyx, -⟩
  · have hlt : x.code * 2 ^ (y.len - x.len) < y.code :=
      (Nat.mul_lt_mul_of_pos_right (Nat.lt_succ_self _) (by positivity)).trans_le hcode
    refine ⟨fun heq => ?_, hlt⟩
    rwa [heq, Nat.sub_self, pow_zero, mul_one] at hlt
  · omega

/-- Settles O32: the code word that stands later lies above everything the earlier one is the beginning of. -/
theorem huffmanTablePrefixFree : Obligations.HuffmanTablePrefixFree := by
  intro h hl x hx y hy hne hle
  rcases codeBefore_total hl hx hy hne with ⟨-, hcode⟩ | ⟨hyx, hcode⟩
  · have := (Nat.le_div_iff_mul_le (by positivity)).2 hcode
    omega
  · have heq : x.len - y.len = 0 ∧ y.len - x.len = 0 := by omega
    rw [heq.1, pow_zero] at hcode
    rw [heq.2, pow_zero, Nat.div_one]
    omega

/-- Settles O33: the weights of the codes leave one code word of the longest length free. -/
theorem huffmanTableReservesAllOnes : Obligations.HuffmanTableReservesAllOnes := by
  intro h hl
  have hones : ∀ x ∈ buildCodes h, x.code + 1 < 2 ^ x.len := by
    intro x hx
    obtain ⟨-, -, -, L, -, hL, -, hlen, hsum, hcode⟩ := buildCodes_spec h hl (used_of_mem_buildCodes hx)
    have hlt : (x.code + 1) * 2 ^ (16 - x.len) < 2 ^ x.len * 2 ^ (16 - x.len) := by
      have hfree : 0 < 2 ^ (16 - L) := by positivity
      have := hcode x hx
      rw [← pow_add, show x.len + (16 - x.len) = 16 by have := hlen x hx; omega]
      omega
    exact Nat.lt_of_mul_lt_mul_right hlt
  refine ⟨hones, fun x hone => ?_⟩
  have hx : x ∈ buildCodes h := by simp [hone]
  obtain ⟨-, -, -, L, -, hL, ⟨y, hy, hyL⟩, hlen, hsum, -⟩ := buildCodes_spec h hl (used_of_mem_buildCodes hx)
  obtain rfl : y = x := by simpa [hone] using hy
  rw [hone, List.map_singleton, List.sum_singleton, ← hyL] at hsum
  have hlen1 : y.len = 1 := by
    have hpow : 2 ^ (16 - y.len + 1) = 2 ^ 16 := by rw [pow_succ]; omega
    have := Nat.pow_right_injective le_rfl hpow
    omega
  have := hones y hx
  rw [hlen1] at this
  exact ⟨hlen1, by omega⟩

end Sys2Proof.Proofs

/-! The lengths of the tables of 42_huffman.md (R164 to R168): they follow the counts where no code size was limited. The
merging loop of R164 is followed from its end to its start: of two nodes, taken or still to be taken, the more frequent
one lies no deeper. -/

namespace Sys2Proof.Proofs

open Sys2Proof.Machine Sys2Proof.Claims

/-! ### How much deeper the merging loop makes each node (42_huffman.md R164) -/

theorem takeLeast_le {ns rest : List HuffNode} {m : HuffNode} (h : takeLeast ns = some (m, rest)) :
    ∀ n ∈ rest, m.freq ≤ n.freq := by
  induction ns generalizing m rest with
  | nil => cases h
  | cons n ns ih =>
    simp only [takeLeast] at h
    split at h
    · cases h
      exact List.forall_mem_nil _
    · rename_i m' rest' hrest
      have hmin := ih hrest
      have hperm := takeLeast_perm hrest
      split at h <;> rename_i hbefore <;> cases h
      · have hle : n.freq ≤ m'.freq := by
          simp only [takenBefore, Bool.or_eq_true, Bool.and_eq_true, decide_eq_true_eq, beq_iff_eq] at hbefore
          omega
        intro k hk
        rcases List.mem_cons.1 (hperm.mem_iff.1 hk) with rfl | hk
        · exact hle
        · exact hle.trans (hmin k hk)
      · have hle : m.freq ≤ n.freq := by
          simp only [takenBefore, Bool.or_eq_true, decide_eq_true_eq, not_or] at hbefore
          omega
        exact List.forall_mem_cons.2 ⟨hle, hmin⟩

/-- The sum of the frequencies of a list of nodes. -/
def totalFreq (ns : List HuffNode) : Nat := (ns.map (·.freq)).sum

theorem totalFreq_perm {ns ms : List HuffNode} (h : ns.Perm ms) : totalFreq ns = totalFreq ms := (h.map _).sum_eq

theorem freq_le_totalFreq {ns : List HuffNode} {n : HuffNode} (h : n ∈ ns) : n.freq ≤ totalFreq ns :=
  List.le_sum_of_mem (List.mem_map_of_mem h)

/-- Every entry `d` bits longer. -/
def deepen (d : Nat) (xs : List (Nat × Nat)) : List (Nat × Nat) := xs.map fun x => (x.1, x.2 + d)

/-- What the rest of the merging loop does with the nodes `ns`: `depth r` is the number of bits that the leaves of the
node with root `r` still get, and `nodes` holds the frequency and the depth of every node of `ns` and of every node
merged later. -/
structure MergeDepths (ns : List HuffNode) (depth : Nat → Nat) (nodes : Set (Nat × Nat)) : Prop where
  here : ∀ n ∈ ns, (n.freq, depth n.root) ∈ nodes
  least : ∀ v ∈ nodes, ∃ n ∈ ns, n.freq ≤ v.1
  parent : ∀ v ∈ nodes, v.2 = 0 ∨ ∃ p ∈ nodes, ∃ w ∈ nodes, p.1 = v.1 + w.1 ∧ v.2 = p.2 + 1
  antitone : ∀ u ∈ nodes, ∀ v ∈ nodes, u.1 < v.1 → v.2 ≤ u.2
  single : ∀ n, ns = [n] → depth n.root = 0
  major : ∀ n ∈ ns, totalFreq ns < 2 * n.freq → depth n.root ≤ 1

theorem MergeDepths.perm {ns ms : List HuffNode} {depth : Nat → Nat} {nodes : Set (Nat × Nat)}
    (h : MergeDepths ns depth nodes) (hp : ns.Perm ms) : MergeDepths ms depth nodes where
  here n hn := h.here n (hp.mem_iff.2 hn)
  least v hv := by
    obtain ⟨n, hn, hle⟩ := h.least v hv
    exact ⟨n, hp.mem_iff.1 hn, hle⟩
  parent := h.parent
  antitone := h.antitone
  single n hn := h.single n (List.perm_singleton.1 (hn ▸ hp))
  major n hn hlt := h.major n (hp.mem_iff.2 hn) (totalFreq_perm hp ▸ hlt)

theorem mergeDepths_single (m : HuffNode) : MergeDepths [m] (fun _ => 0) {(m.freq, 0)} where
  here := by simp
  least := by simp
  parent := by simp
  antitone := by simp
  single _ _ := rfl
  major _ _ _ := Nat.zero_le _

/-- The depths before a round, from those after it: the two nodes merged lie one bit below the node they make. -/
def depthBefore (c1 c2 : HuffNode) (depth : Nat → Nat) (r : Nat) : Nat :=
  if r = c1.root ∨ r = c2.root then depth c1.root + 1 else depth r

section
variable {c1 c2 : HuffNode} {rest : List HuffNode} {depth : Nat → Nat} {nodes : Set (Nat × Nat)}
  (hroots : ((c1 :: c2 :: rest).map (·.root)).Nodup)

theorem depthBefore_left : depthBefore c1 c2 depth c1.root = depth c1.root + 1 := if_pos (.inl rfl)

theorem depthBefore_right : depthBefore c1 c2 depth c2.root = depth c1.root + 1 := if_pos (.inr rfl)

include hroots in
theorem depthBefore_rest {n : HuffNode} (hn : n ∈ rest) : depthBefore c1 c2 depth n.root = depth n.root := by
  simp only [List.map_cons, List.nodup_cons, List.mem_cons, not_or] at hroots
  obtain ⟨⟨-, h1⟩, h2, -⟩ := hroots
  refine if_neg ?_
  rintro (h | h)
  · exact h1 (h ▸ List.mem_map_of_mem hn)
  · exact h2 (h ▸ List.mem_map_of_mem hn)

include hroots in
theorem deepen_merged : (mergeNodes c1 c2 :: rest).flatMap (fun n => deepen (depth n.root) n.leaves) =
    (c1 :: c2 :: rest).flatMap fun n => deepen (depthBefore c1 c2 depth n.root) n.leaves := by
  have hrest : rest.flatMap (fun n => deepen (depthBefore c1 c2 depth n.root) n.leaves) =
      rest.flatMap fun n => deepen (depth n.root) n.leaves :=
    List.flatMap_congr fun n hn => by rw [depthBefore_rest hroots hn]
  have hpair : deepen (depth c1.root) (mergeNodes c1 c2).leaves =
      deepen (depth c1.root + 1) c1.leaves ++ deepen (depth c1.root + 1) c2.leaves := by
    simp [deepen, mergeNodes, Function.comp_def, Nat.add_assoc, Nat.add_comm 1]
  rw [List.flatMap_cons, List.flatMap_cons, List.flatMap_cons, depthBefore_left, depthBefore_right, hrest,
    ← List.append_assoc, ← hpair]
  rfl

theorem totalFreq_merged : totalFreq (mergeNodes c1 c2 :: rest) = totalFreq (c1 :: c2 :: rest) := by
  simp [totalFreq, mergeNodes, Nat.add_assoc]

variable (h12 : c1.freq ≤ c2.freq) (hrest : ∀ n ∈ rest, c2.freq ≤ n.freq)
  (h : MergeDepths (mergeNodes c1 c2 :: rest) depth nodes)
include hrest h

/-- No node taken after a round is less frequent than the two nodes it merges. -/
theorem MergeDepths.le_of_mem {v : Nat × Nat} (hv : v ∈ nodes) : c2.freq ≤ v.1 := by
  obtain ⟨n, hn, hle⟩ := h.least v hv
  refine le_trans ?_ hle
  rcases List.mem_cons.1 hn with rfl | hn
  · exact Nat.le_add_left _ _
  · exact hrest n hn

/-- A node taken after a round and more frequent than one that the round merges lies no deeper: its parent, made of two
nodes that are at least as frequent as the two merged, lies no deeper than theirs. -/
theorem MergeDepths.le_merged {v : Nat × Nat} (hv : v ∈ nodes) (hlt : c1.freq < v.1) : v.2 ≤ depth c1.root + 1 := by
  rcases h.parent v hv with hv0 | ⟨p, hp, w, hw, hpw, hd⟩
  · omega
  · have hw2 := h.le_of_mem hrest hw
    have hfreq : (mergeNodes c1 c2).freq < p.1 := by
      rw [hpw]
      change c1.freq + c2.freq < _
      omega
    have hle : p.2 ≤ depth c1.root := h.antitone _ (h.here _ List.mem_cons_self) p hp hfreq
    omega

include h12

/-- A node that holds more than half of the whole frequency is merged once at most: it is the last one left. -/
theorem MergeDepths.major_before (hroots : ((c1 :: c2 :: rest).map (·.root)).Nodup) {n : HuffNode}
    (hn : n ∈ c1 :: c2 :: rest) (hmajor : totalFreq (c1 :: c2 :: rest) < 2 * n.freq) :
    depthBefore c1 c2 depth n.root ≤ 1 := by
  have htotal : totalFreq (c1 :: c2 :: rest) = c1.freq + (c2.freq + totalFreq rest) := rfl
  simp only [List.mem_cons] at hn
  obtain rfl | rfl | hn := hn
  · omega
  · cases rest with
    | nil =>
      have := h.single _ rfl
      rw [depthBefore_right]
      exact Nat.succ_le_succ this.le
    | cons e rest =>
      have he := hrest e List.mem_cons_self
      have := freq_le_totalFreq (List.mem_cons_self (a := e) (l := rest))
      omega
  · rw [depthBefore_rest hroots hn]
    exact h.major n (List.mem_cons_of_mem _ hn) (totalFreq_merged ▸ hmajor)

/-- The depths before a round, its two nodes the least frequent ones. -/
theorem MergeDepths.before (hroots : ((c1 :: c2 :: rest).map (·.root)).Nodup) :
    MergeDepths (c1 :: c2 :: rest) (depthBefore c1 c2 depth)
      ({(c1.freq, depth c1.root + 1), (c2.freq, depth c1.root + 1)} ∪ nodes) where
  here n hn := by
    simp only [List.mem_cons] at hn
    obtain rfl | rfl | hn := hn
    · exact .inl (.inl (by rw [depthBefore_left]))
    · exact .inl (.inr (by rw [depthBefore_right]; rfl))
    · rw [depthBefore_rest hroots hn]
      exact .inr (h.here n (List.mem_cons_of_mem _ hn))
  least v hv := by
    refine ⟨c1, List.mem_cons_self, ?_⟩
    rcases hv with (rfl | rfl) | hv
    · exact le_rfl
    · exact h12
    · exact h12.trans (h.le_of_mem hrest hv)
  parent v hv := by
    have hmerged : ((mergeNodes c1 c2).freq, depth c1.root) ∈ nodes := h.here _ List.mem_cons_self
    rcases hv with (rfl | rfl) | hv
    · exact .inr ⟨_, .inr hmerged, _, .inl (.inr rfl), rfl, rfl⟩
    · exact .inr ⟨_, .inr hmerged, _, .inl (.inl rfl), Nat.add_comm _ _, rfl⟩
    · rcases h.parent v hv with hv0 | ⟨p, hp, w, hw, hpw, hd⟩
      · exact .inl hv0
      · exact .inr ⟨p, .inr hp, w, .inr hw, hpw, hd⟩
  antitone u hu v hv hlt := by
    rcases hv with (rfl | rfl) | hv <;> rcases hu with (rfl | rfl) | hu
    · exact le_rfl
    · exact le_rfl
    · exact absurd hlt (Nat.not_lt.2 (h12.trans (h.le_of_mem hrest hu)))
    · exact le_rfl
    · exact le_rfl
    · exact absurd hlt (Nat.not_lt.2 (h.le_of_mem hrest hu))
    · exact h.le_merged hrest hv hlt
    · exact h.le_merged hrest hv (h12.trans_lt hlt)
    · exact h.antitone u hu v hv hlt
  single n hn := by simp at hn
  major n hn := h.major_before h12 hrest hroots hn

end

theorem mergeAll_depths_single (fuel : Nat) (m : HuffNode) : ∃ m' depth nodes, mergeAll fuel [m] = [m'] ∧
    m'.leaves.Perm ([m].flatMap fun n => deepen (depth n.root) n.leaves) ∧ MergeDepths [m] depth nodes :=
  ⟨m, _, _, by cases fuel <;> rfl, by simp [deepen], mergeDepths_single m⟩

/-- The merging loop ends with one node, whose leaves are those of all nodes, as much deeper as `MergeDepths` says. -/
theorem mergeAll_depths (fuel : Nat) {ns : List HuffNode} (hne : ns ≠ []) (hfuel : ns.length ≤ fuel + 1)
    (hroots : (ns.map (·.root)).Nodup) : ∃ m depth nodes, mergeAll fuel ns = [m] ∧
      m.leaves.Perm (ns.flatMap fun n => deepen (depth n.root) n.leaves) ∧ MergeDepths ns depth nodes := by
  induction fuel generalizing ns with
  | zero =>
    match ns, hne, hfuel with
    | [m], _, _ => exact mergeAll_depths_single 0 m
  | succ fuel ih =>
    rcases h1 : takeLeast ns with _ | ⟨c1, rest1⟩
    · exact absurd (takeLeast_eq_none_iff.1 h1) hne
    rcases h2 : takeLeast rest1 with _ | ⟨c2, rest⟩
    · have hp := takeLeast_perm h1
      rw [takeLeast_eq_none_iff.1 h2, List.perm_singleton] at hp
      exact hp ▸ mergeAll_depths_single (fuel + 1) c1
    have hp2 := takeLeast_perm h2
    have hp : ns.Perm (c1 :: c2 :: rest) := (takeLeast_perm h1).trans (hp2.cons c1)
    have hroots' := (hp.map _).nodup_iff.1 hroots
    have hlen := hp.length_eq
    obtain ⟨m, depth, nodes, hm, hleaves, hd⟩ := ih (ns := mergeNodes c1 c2 :: rest) (List.cons_ne_nil _ _)
      (by simp only [List.length_cons] at hlen ⊢; omega) (hroots'.sublist (by simp [mergeNodes]))
    rw [deepen_merged hroots'] at hleaves
    exact ⟨m, depthBefore c1 c2 depth, _, by simp only [mergeAll, h1, h2]; exact hm,
      hleaves.trans (hp.symm.flatMap_right _),
      (hd.before (takeLeast_le h1 c2 (hp2.mem_iff.2 List.mem_cons_self)) (takeLeast_le h2) hroots').perm hp.symm⟩

/-! ### The code sizes and the counts (42_huffman.md R164) -/

/-- An entry of R164 before the first round. -/
def leafNode (sy freq : Nat) : HuffNode := { root := sy, freq, leaves := [(sy, 0)] }

theorem filterMap_nonzero (f : Nat → Nat) (l : List Nat) :
    (l.filterMap fun sy => if f sy = 0 then none else some (leafNode sy (f sy))) =
      (l.filter fun sy => f sy ≠ 0).map fun sy => leafNode sy (f sy) := by
  induction l with
  | nil => rfl
  | cons sy l ih => by_cases h : f sy = 0 <;> simp [h, ih]

theorem sum_nonzero (f : Nat → Nat) (l : List Nat) : ((l.filter fun sy => f sy ≠ 0).map f).sum = (l.map f).sum := by
  induction l with
  | nil => rfl
  | cons sy l ih => by_cases h : f sy = 0 <;> simp [h] at ih ⊢ <;> exact ih

section
variable (h : List Nat)

theorem map_getD_range : (List.range h.length).map (h.getD · 0) = h :=
  List.ext_getElem (by simp) fun i h1 h2 => by simp [List.getElem?_eq_getElem h2]

theorem zipIdx_eq_map_range : h.zipIdx = (List.range h.length).map fun sy => (h.getD sy 0, sy) :=
  List.ext_getElem (by simp) fun i h1 h2 => by
    have hi : i < h.length := by simpa using h1
    simp [List.getElem?_eq_getElem hi]

theorem initialNodes_eq :
    initialNodes h = (usedSymbols h).map (fun sy => leafNode sy (h.getD sy 0)) ++ [leafNode 256 1] := by
  rw [initialNodes, zipIdx_eq_map_range, List.filterMap_map, usedSymbols]
  exact congrArg (· ++ _) (filterMap_nonzero (h.getD · 0) _)

theorem totalFreq_initialNodes : totalFreq (initialNodes h) = h.sum + 1 := by
  have hused : ((usedSymbols h).map (h.getD · 0)).sum = h.sum :=
    (sum_nonzero (h.getD · 0) _).trans (congrArg List.sum (map_getD_range h))
  rw [totalFreq, initialNodes_eq, List.map_append, List.sum_append, List.map_map]
  exact congrArg (· + 1) hused

theorem mem_usedSymbols {sy : Nat} : sy ∈ usedSymbols h ↔ h.getD sy 0 ≠ 0 := by
  rw [usedSymbols, List.mem_filter, List.mem_range, decide_eq_true_eq]
  refine and_iff_right_of_imp fun hne => ?_
  by_contra hle
  exact hne (List.getD_eq_default _ _ (Nat.le_of_not_lt hle))

theorem nodup_initialNodes (hl : h.length ≤ 256) : ((initialNodes h).map (·.root)).Nodup := by
  have hroots : (initialNodes h).map (·.root) = usedSymbols h ++ [256] := by
    simp [initialNodes_eq, leafNode, Function.comp_def]
  rw [hroots, List.nodup_append]
  refine ⟨usedSymbols_nodup h, List.nodup_singleton _, fun a ha b hb => ?_⟩
  have := List.mem_range.1 (List.mem_filter.1 ha).1
  rw [List.mem_singleton.1 hb]
  omega

/-- The code sizes of the used symbols and of the reserved entry: larger counts have no larger size, and a symbol
counted more often than all the others and the reserved entry together has size 1 at most. -/
structure SizesFollow (size : Nat → Nat) : Prop where
  perm : (codeSizes h).Perm ((usedSymbols h).map (fun sy => (sy, size sy)) ++ [(256, size 256)])
  antitone : ∀ a ∈ usedSymbols h, ∀ b ∈ usedSymbols h, h.getD a 0 < h.getD b 0 → size b ≤ size a
  reserved : ∀ b ∈ usedSymbols h, 1 < h.getD b 0 → size b ≤ size 256
  major : ∀ b ∈ usedSymbols h, h.sum + 1 < 2 * h.getD b 0 → size b ≤ 1

theorem codeSizes_follow (hl : h.length ≤ 256) : ∃ size, SizesFollow h size := by
  obtain ⟨m, depth, nodes, hm, hleaves, hd⟩ := mergeAll_depths (initialNodes h).length (ns := initialNodes h)
    (by simp [initialNodes]) (Nat.le_succ _) (nodup_initialNodes h hl)
  have hsymbol : ∀ a ∈ usedSymbols h, leafNode a (h.getD a 0) ∈ initialNodes h := fun a ha => by
    rw [initialNodes_eq]
    exact List.mem_append_left _ (List.mem_map_of_mem ha)
  have hreserved : leafNode 256 1 ∈ initialNodes h := by simp [initialNodes_eq]
  refine ⟨depth, ?_, ?_, ?_, ?_⟩
  · have hsizes : codeSizes h = m.leaves := by simp [codeSizes, hm]
    rw [hsizes]
    refine hleaves.trans (List.Perm.of_eq ?_)
    simp [initialNodes_eq, leafNode, deepen, List.flatMap_map, ← List.map_eq_flatMap]
  · exact fun a ha b hb => hd.antitone _ (hd.here _ (hsymbol a ha)) _ (hd.here _ (hsymbol b hb))
  · exact fun b hb => hd.antitone _ (hd.here _ hreserved) _ (hd.here _ (hsymbol b hb))
  · intro b hb hlt
    exact hd.major _ (hsymbol b hb) (totalFreq_initialNodes h ▸ hlt)

end

/-! ### Length limiting (42_huffman.md R165) -/

/-- Length limiting changes nothing where no code is longer than 16. -/
theorem limitLengths_of_short {bits : List Nat} (h : ∀ i, 16 < i → bitsAt bits i = 0) : limitLengths bits = bits := by
  refine List.foldlRecOn (motive := (· = bits)) _ _ rfl fun b hb i hi => ?_
  rw [hb, h (256 - i) (by have := List.mem_range.1 hi; omega)]
  rfl

theorem limitRound_length (bits : List Nat) (l : Nat) : (limitRound bits l).length = bits.length := by simp [limitRound]

/-- A round at length `l + 2` adds a code of length `l + 1`. -/
theorem limitRound_pred {bits : List Nat} {l : Nat} (hl : l + 2 < bits.length) :
    bitsAt (limitRound bits (l + 2)) (l + 1) ≠ 0 := by
  have hj := nearestUsed_le bits l
  simp only [limitRound, Nat.add_sub_cancel, show l + 2 - 1 = l + 1 by omega]
  generalize nearestUsed bits l = j at hj
  rw [bitsAt_bitsSet _ _ _ _ (by simp only [bitsSet_length]; omega), if_neg (by omega),
    bitsAt_bitsSet _ _ _ _ (by simp only [bitsSet_length]; omega)]
  split
  · omega
  · rw [bitsAt_bitsSet _ _ _ _ (by simp only [bitsSet_length]; omega), if_pos rfl]
    omega

theorem limitLength_length (l fuel : Nat) (bits : List Nat) : (limitLength l fuel bits).length = bits.length := by
  induction fuel generalizing bits with
  | zero => rfl
  | succ fuel ih =>
    simp only [limitLength]
    split
    · rfl
    · rw [ih, limitRound_length]

/-- The rounds at length `l + 2` leave codes of length `l + 1`, if there are any or a round comes. -/
theorem limitLength_pred {bits : List Nat} {l fuel : Nat} (hl : l + 2 < bits.length)
    (h : bitsAt bits (l + 1) ≠ 0 ∨ bitsAt bits (l + 2) ≠ 0 ∧ fuel ≠ 0) :
    bitsAt (limitLength (l + 2) fuel bits) (l + 1) ≠ 0 := by
  induction fuel generalizing bits with
  | zero => exact h.resolve_right fun h => h.2 rfl
  | succ fuel ih =>
    simp only [limitLength]
    split
    · rename_i hz
      exact h.resolve_right fun h => h.1 hz
    · exact ih (by rwa [limitRound_length]) (.inl (limitRound_pred hl))

/-- The rounds at length `l` change no count where no code has that length. -/
theorem limitLength_of_unused {bits : List Nat} {l : Nat} (h : bitsAt bits l = 0) (fuel : Nat) :
    limitLength l fuel bits = bits := by
  cases fuel with
  | zero => rfl
  | succ fuel => exact if_pos h

/-- The counts hold a code of some length in 16..`l`. -/
def LongTo (bits : List Nat) (l : Nat) : Prop := bits.length = 257 ∧ ∃ k, 16 ≤ k ∧ k ≤ l ∧ bitsAt bits k ≠ 0

/-- The rounds at length `l + 2` move its codes to shorter lengths, one of them to length `l + 1`. -/
theorem LongTo.down {bits : List Nat} {l : Nat} (h : LongTo bits (l + 2)) (h15 : 15 ≤ l) (hl : l + 2 ≤ 256) :
    LongTo (limitLength (l + 2) (bitsAt bits (l + 2)) bits) (l + 1) := by
  obtain ⟨hlen, k, h16, hk, hused⟩ := h
  refine ⟨by rw [limitLength_length, hlen], ?_⟩
  by_cases hz : bitsAt bits (l + 2) = 0
  · have hne : k ≠ l + 2 := fun hkl => hused (hkl ▸ hz)
    exact ⟨k, h16, by omega, by rwa [limitLength_of_unused hz]⟩
  · exact ⟨l + 1, by omega, le_rfl, limitLength_pred (by omega) (.inr ⟨hz, hz⟩)⟩

/-- Where a code is longer than 16, length limiting leaves codes of length 16. -/
theorem limitLengths_of_long {bits : List Nat} (h : LongTo bits 256) : bitsAt (limitLengths bits) 16 ≠ 0 := by
  have key : ∀ m ≤ 240, LongTo
      ((List.range m).foldl (fun bits i => limitLength (256 - i) (bitsAt bits (256 - i)) bits) bits) (256 - m) := by
    intro m
    induction m with
    | zero => exact fun _ => h
    | succ m ih =>
      intro hm
      have hbelow := ih (by omega)
      rw [show 256 - m = 254 - m + 2 by omega] at hbelow
      rw [List.range_succ, List.foldl_append, List.foldl_cons, List.foldl_nil, show 256 - m = 254 - m + 2 by omega,
        show 256 - (m + 1) = 254 - m + 1 by omega]
      exact hbelow.down (by omega) (by omega)
  obtain ⟨-, k, h16, hk, hused⟩ := key 240 le_rfl
  obtain rfl : k = 16 := by omega
  exact hused

/-- Dropping the reserved code leaves a code of length 16 where there are any. -/
theorem dropReserved_sixteen {bits : List Nat} {n : Nat} (h : CompleteTo bits 16 n) (hused : bitsAt bits 16 ≠ 0) :
    bitsAt (dropReserved bits) 16 ≠ 0 := by
  have heven : bitsAt bits 16 % 2 = 0 := h.even
  have hlongest : nearestUsed bits 16 = 16 := if_neg hused
  rw [dropReserved, hlongest, bitsAt_bitsSet _ _ _ _ (by rw [h.length]; omega), if_pos rfl]
  omega

/-! ### The lengths of a table (42_huffman.md R166) -/

theorem lengthList_sorted (bits : List Nat) : (lengthList bits).Pairwise (· ≤ ·) := by
  rw [lengthList_eq]
  exact lengthsFrom_sorted _ _

theorem count_lengthsFrom (counts : List Nat) (l x : Nat) :
    (lengthsFrom l counts).count x = if l ≤ x then counts.getD (x - l) 0 else 0 := by
  induction counts generalizing l with
  | nil => simp [lengthsFrom]
  | cons n counts ih =>
    rw [lengthsFrom, List.count_append, List.count_replicate, ih]
    rcases lt_trichotomy l x with hlt | rfl | hgt
    · obtain ⟨d, rfl⟩ : ∃ d, x = l + 1 + d := ⟨x - (l + 1), by omega⟩
      have e : l + 1 + d - l = d + 1 := by omega
      simp [e, show l ≤ l + 1 + d by omega, show l ≠ l + 1 + d by omega]
    · simp
    · simp [show ¬l ≤ x by omega, show ¬l + 1 ≤ x by omega, show l ≠ x by omega]

theorem count_lengthList (bits : List Nat) (l : Nat) :
    (lengthList bits).count l = if 1 ≤ l ∧ l ≤ 16 then bitsAt bits l else 0 := by
  rw [lengthList_eq, count_lengthsFrom]
  by_cases h1 : 1 ≤ l
  · obtain ⟨d, rfl⟩ : ∃ d, l = 1 + d := ⟨l - 1, by omega⟩
    by_cases h2 : d < 16
    · simp [h2, show 1 + d ≤ 16 by omega]
    · simp [h2, show ¬1 + d ≤ 16 by omega]
  · simp [h1]

section
variable {sizes : List (Nat × Nat)} (hs : ∀ x ∈ sizes, 1 ≤ x.2 ∧ x.2 ≤ 16)
include hs

theorem sizeCounts_eq_count (l : Nat) :
    (sizeCounts sizes).length = 257 ∧ bitsAt (sizeCounts sizes) l = (sizes.map Prod.snd).count l := by
  obtain ⟨hlen, hcount⟩ := bitsAt_sizeCounts sizes (fun x hx => (hs x hx).2.trans (by norm_num)) l
  refine ⟨hlen, ?_⟩
  rw [hcount, List.count, List.countP_map]
  exact List.countP_congr fun x _ => by simp

/-- The longest length that has a code is the longest code size. -/
theorem le_nearestUsed_sizeCounts : ∀ x ∈ sizes, x.2 ≤ nearestUsed (sizeCounts sizes) 16 := by
  intro x hx
  by_contra hgt
  have hunused := nearestUsed_above (Nat.lt_of_not_le hgt) (hs x hx).2
  rw [(sizeCounts_eq_count hs _).2, List.count_eq_zero] at hunused
  exact hunused (List.mem_map_of_mem hx)

theorem sizeCounts_eq_zero {l : Nat} (hl : ¬(1 ≤ l ∧ l ≤ 16)) : bitsAt (sizeCounts sizes) l = 0 := by
  rw [(sizeCounts_eq_count hs l).2, List.count_eq_zero, List.mem_map]
  rintro ⟨x, hx, rfl⟩
  exact hl (hs x hx)

/-- Where no code is longer than 16, the lengths of R166 and the longest of all code sizes are the code sizes. -/
theorem lengthList_dropReserved (hne : sizes ≠ []) : ∃ L, (∀ x ∈ sizes, x.2 ≤ L) ∧
    (lengthList (dropReserved (sizeCounts sizes)) ++ [L]).Perm (sizes.map Prod.snd) := by
  have hmax := le_nearestUsed_sizeCounts hs
  have h16 := nearestUsed_le (sizeCounts sizes) 16
  have h0 : nearestUsed (sizeCounts sizes) 16 ≠ 0 := by
    obtain ⟨x, hx⟩ := List.exists_mem_of_ne_nil _ hne
    have := hmax x hx
    have := (hs x hx).1
    omega
  have hused := nearestUsed_used h0
  have hlen := (sizeCounts_eq_count hs 0).1
  refine ⟨_, hmax, List.perm_iff_count.2 fun l => ?_⟩
  rw [List.count_append, count_lengthList, List.count_singleton, ← (sizeCounts_eq_count hs l).2, dropReserved,
    bitsAt_bitsSet _ _ _ _ (by omega)]
  by_cases hl : l = nearestUsed (sizeCounts sizes) 16
  · rw [← hl] at h0 hused h16 ⊢
    rw [if_pos ⟨Nat.pos_of_ne_zero h0, h16⟩, if_pos rfl, if_pos (beq_self_eq_true l)]
    omega
  · by_cases hr : 1 ≤ l ∧ l ≤ 16
    · simp [hl, hr, Ne.symm hl]
    · simp [hr, sizeCounts_eq_zero hs hr, Ne.symm hl]

end

/-! ### Ranks -/

/-- Elements of a sorted list against the elements one rank before, the first against a smaller one. -/
theorem rank_before {d : Nat} {xs : List Nat} (hxs : (d :: xs).Pairwise (· ≤ ·)) :
    ∀ p ∈ xs.zip (d :: xs), p.2 ≤ p.1 ∧ d ≤ p.2 := by
  induction xs generalizing d with
  | nil => exact List.forall_mem_nil _
  | cons x xs ih =>
    rw [List.pairwise_cons] at hxs
    have hdx := hxs.1 x List.mem_cons_self
    exact List.forall_mem_cons.2 ⟨⟨hdx, le_rfl⟩, fun p hp => ⟨(ih hxs.2 p hp).1, hdx.trans (ih hxs.2 p hp).2⟩⟩

/-- Elements of a sorted list against those of the same rank once `d` is inserted: up to `d` they are the same, and
above they move by one rank. -/
theorem rank_orderedInsert (d : Nat) {xs : List Nat} (hxs : xs.Pairwise (· ≤ ·)) :
    ∀ p ∈ xs.zip (xs.orderedInsert (· ≤ ·) d), p.2 ≤ p.1 ∧ min p.1 d ≤ p.2 := by
  induction xs with
  | nil => exact List.forall_mem_nil _
  | cons x xs ih =>
    by_cases hdx : d ≤ x
    · rw [List.orderedInsert_cons_of_le _ _ hdx]
      intro p hp
      have hsorted : (d :: x :: xs).Pairwise (· ≤ ·) := by
        refine List.pairwise_cons.2 ⟨List.forall_mem_cons.2 ⟨hdx, fun y hy => ?_⟩, hxs⟩
        exact hdx.trans ((List.pairwise_cons.1 hxs).1 y hy)
      obtain ⟨hle, hd⟩ := rank_before hsorted p hp
      exact ⟨hle, min_le_of_right_le hd⟩
    · rw [List.orderedInsert_of_not_le _ _ hdx]
      exact List.forall_mem_cons.2 ⟨⟨le_rfl, min_le_left _ _⟩, ih (List.pairwise_cons.1 hxs).2⟩

/-! ### The lengths of a table against the code sizes (42_huffman.md R164, R166) -/

/-- The codes of R167 keep the lengths they are assigned by. -/
theorem canonical_pairs {l code : Nat} {counts : List Nat} {xs : List (Nat × Nat)}
    (h : xs.map Prod.snd = lengthsFrom l counts) :
    (canonical l code counts (xs.map Prod.fst)).map (fun x => (x.symbol, x.len)) = xs := by
  have hlen : (xs.map Prod.fst).length = counts.sum := by
    rw [← lengthsFrom_length l, ← h, List.length_map, List.length_map]
  calc _ = List.zip ((canonical l code counts (xs.map Prod.fst)).map (·.symbol))
        ((canonical l code counts (xs.map Prod.fst)).map (·.len)) := List.zip_map'.symm
    _ = xs := by
      rw [canonical_symbols _ _ _ _ hlen, canonical_lens _ _ _ _ hlen, ← h, List.zip_map']
      exact List.map_id' xs

/-- A sort by key puts the keys in order. -/
theorem sortByKey_keys {xs : List (Nat × Nat)} (h : (xs.map Prod.fst).Nodup) :
    ((sortByKey xs).map Prod.snd).Pairwise (· ≤ ·) := by
  rw [List.pairwise_map]
  exact (sortByKey_sorted h).imp fun hab => hab.elim Nat.le_of_lt fun hab => hab.1.le

theorem longest_le_iff (cs : List CodeWord) (b : Nat) : longest cs ≤ b ↔ ∀ x ∈ cs, x.len ≤ b := by
  simpa [longest, List.foldl_map] using foldl_max_le_iff id (cs.map CodeWord.len) 0 b

section
variable {h : List Nat} (hl : h.length ≤ 256) (hne : ¬(h.all (· == 0)) = true)

/-- The code sizes of the used symbols in the order of R166. -/
def orderedSizes (h : List Nat) : List (Nat × Nat) := sortByKey ((codeSizes h).filter fun x => decide (x.1 < 256))

theorem symbolLengths_eq (bits : List Nat) :
    symbolLengths (codeSizes h) bits = ((orderedSizes h).map Prod.fst).zip (lengthList bits) := rfl

include hl in
theorem SizesFollow.ordered_perm {size : Nat → Nat} (hf : SizesFollow h size) :
    (orderedSizes h).Perm ((usedSymbols h).map fun sy => (sy, size sy)) := by
  have hused : ∀ x ∈ (usedSymbols h).map fun sy => (sy, size sy), decide (x.1 < 256) = true := by
    simp only [List.forall_mem_map, decide_eq_true_eq]
    intro sy hsy
    have := List.mem_range.1 (List.mem_filter.1 hsy).1
    omega
  refine (sortByKey_perm _).trans ((hf.perm.filter _).trans (List.Perm.of_eq ?_))
  rw [List.filter_append, List.filter_eq_self.2 hused]
  simp

include hl in
theorem orderedSizes_symbols : ((orderedSizes h).map Prod.fst).Perm (usedSymbols h) := by
  obtain ⟨size, hf⟩ := codeSizes_follow h hl
  simpa [Function.comp_def] using (hf.ordered_perm hl).map Prod.fst

theorem codeSizes_length : (codeSizes h).length = (usedSymbols h).length + 1 := by
  simpa using (codeSizes_spec h).1.length_eq

include hl in
theorem usedSymbols_length_le : (usedSymbols h).length ≤ 256 := (List.length_filter_le _ _).trans (by simpa using hl)

include hne in
theorem usedSymbols_ne_nil : usedSymbols h ≠ [] := by
  simp only [List.all_eq_true, beq_iff_eq, not_forall] at hne
  obtain ⟨x, hx, hx0⟩ := hne
  obtain ⟨i, hi, rfl⟩ := List.getElem_of_mem hx
  exact List.ne_nil_of_mem ((mem_usedSymbols h).2 (by simpa [hi] using hx0 : h.getD i 0 ≠ 0))

include hl in
theorem codeSizes_le : ∀ x ∈ codeSizes h, x.2 ≤ 256 := fun x hx =>
  ((codeSizes_spec h).2.2 x hx).trans (usedSymbols_length_le hl)

include hl in
theorem bitsAt_codeSizes (l : Nat) :
    bitsAt (sizeCounts (codeSizes h)) l = (codeSizes h).countP fun x => x.2 = l :=
  (bitsAt_sizeCounts (codeSizes h) (codeSizes_le hl) l).2

include hl in
theorem orderedSizes_keys : ((orderedSizes h).map Prod.snd).Pairwise (· ≤ ·) :=
  sortByKey_keys (((sortByKey_perm _).map _).nodup_iff.1 ((orderedSizes_symbols hl).nodup_iff.2 (usedSymbols_nodup h)))

include hl in
/-- Where no code size exceeds 16, length limiting changes nothing. -/
theorem limitedBits_of_short (hs : ∀ x ∈ codeSizes h, x.2 ≤ 16) :
    limitedBits h = dropReserved (sizeCounts (codeSizes h)) := by
  rw [limitedBits, limitLengths_of_short fun i hi => ?_]
  rw [bitsAt_codeSizes hl, List.countP_eq_zero]
  intro x hx
  have := hs x hx
  simp only [decide_eq_true_eq]
  omega

include hl hne

/-- The code sizes of a histogram with a used symbol are those of a complete code. -/
theorem sizeCounts_codeSizes : CompleteTo (sizeCounts (codeSizes h)) 256 (codeSizes h).length := by
  refine sizeCounts_complete (codeSizes_le hl) (codeSizes_spec h).2.1 ?_
  have := List.length_pos_iff.2 (usedSymbols_ne_nil hne)
  rw [codeSizes_length]
  omega

theorem limitLengths_codeSizes : CompleteTo (limitLengths (sizeCounts (codeSizes h))) 16 (codeSizes h).length :=
  limitLengths_spec (sizeCounts_codeSizes hl hne)
    (codeSizes_length.trans_le (Nat.succ_le_succ (usedSymbols_length_le hl)))

/-- There are as many lengths as used symbols. -/
theorem orderedSizes_length : (orderedSizes h).length = (lengthList (limitedBits h)).length := by
  obtain ⟨L, -, -, -, h0, -, -, hcount⟩ := dropReserved_spec (limitLengths_codeSizes hl hne)
  rw [codeSizes_length] at hcount
  rw [limitedBits, lengthList_length h0, Nat.succ_injective hcount, ← (orderedSizes_symbols hl).length_eq,
    List.length_map]

theorem symbolLengths_symbols :
    (symbolLengths (codeSizes h) (limitedBits h)).map Prod.fst = (orderedSizes h).map Prod.fst :=
  List.map_fst_zip (by simpa [orderedSizes] using (orderedSizes_length hl hne).le)

theorem symbolLengths_lens : (symbolLengths (codeSizes h) (limitedBits h)).map Prod.snd = lengthList (limitedBits h) :=
  List.map_snd_zip (by simpa [orderedSizes] using (orderedSizes_length hl hne).ge)

/-- A table holds the symbols with the lengths that R166 gives them. -/
theorem buildCodes_perm :
    ((buildCodes h).map fun x => (x.symbol, x.len)).Perm (symbolLengths (codeSizes h) (limitedBits h)) := by
  have hperm := sortByKey_perm (symbolLengths (codeSizes h) (limitedBits h))
  have hsorted : (sortByKey (symbolLengths (codeSizes h) (limitedBits h))).map Prod.snd =
      lengthsFrom 1 ((List.range' 1 16).map (bitsAt (limitedBits h))) := by
    rw [← lengthList_eq]
    refine ((hperm.map _).trans (List.Perm.of_eq (symbolLengths_lens hl hne))).eq_of_pairwise
      (fun a b _ _ h1 h2 => le_antisymm h1 h2) (sortByKey_keys ?_) (lengthList_sorted _)
    rw [symbolLengths_symbols hl hne]
    exact (orderedSizes_symbols hl).nodup_iff.2 (usedSymbols_nodup h)
  have hcodes : buildCodes h = canonical 1 0 ((List.range' 1 16).map (bitsAt (limitedBits h)))
      ((sortByKey (symbolLengths (codeSizes h) (limitedBits h))).map Prod.fst) := if_neg hne
  rw [hcodes, canonical_pairs hsorted]
  exact hperm

theorem codeSizes_pos : ∀ x ∈ codeSizes h, 1 ≤ x.2 := by
  refine fun x hx => Nat.pos_of_ne_zero fun hx0 => ?_
  have hzero := (sizeCounts_codeSizes hl hne).zero
  rw [bitsAt_codeSizes hl, List.countP_eq_zero] at hzero
  exact hzero x hx (by simpa using hx0)

section
variable (hs : ∀ x ∈ codeSizes h, x.2 ≤ 16) {size : Nat → Nat} (hf : SizesFollow h size)
include hs hf

/-- The lengths, with the longest code size after them, are the ordered code sizes of the used symbols with that of the
reserved entry put in its place. -/
theorem SizesFollow.lengthList_insert : ∃ L, lengthList (limitedBits h) ++ [L] =
    ((orderedSizes h).map Prod.snd).orderedInsert (· ≤ ·) (size 256) := by
  obtain ⟨L, hmax, hperm⟩ := lengthList_dropReserved (fun x hx => ⟨codeSizes_pos hl hne x hx, hs x hx⟩)
    (List.ne_nil_of_length_pos (by rw [codeSizes_length]; omega))
  rw [← limitedBits_of_short hl hs] at hperm
  refine ⟨L, List.Perm.eq_of_pairwise (fun a b _ _ h1 h2 => le_antisymm h1 h2) ?_
    ((orderedSizes_keys hl).orderedInsert _ _) ?_⟩
  · refine List.pairwise_append.2 ⟨lengthList_sorted _, List.pairwise_singleton _ _, fun a ha b hb => ?_⟩
    obtain ⟨y, hy, rfl⟩ := List.mem_map.1 (hperm.mem_iff.1 (List.mem_append_left _ ha))
    exact (hmax y hy).trans (List.mem_singleton.1 hb).ge
  · have hsizes := hf.perm.map Prod.snd
    rw [List.map_append] at hsizes
    exact hperm.trans (hsizes.trans ((List.perm_append_singleton _ _).trans
      ((((hf.ordered_perm hl).map Prod.snd).symm.cons _).trans (List.perm_orderedInsert _ _ _).symm)))

/-- Where no code size exceeds 16, the length of a symbol is at most its code size, and at least the smaller of its code
size and that of the reserved entry. -/
theorem SizesFollow.len_bounds : ∀ x ∈ buildCodes h,
    x.len ≤ size x.symbol ∧ min (size x.symbol) (size 256) ≤ x.len := by
  obtain ⟨L, hinsert⟩ := hf.lengthList_insert hl hne hs
  intro x hx
  have hmem := (buildCodes_perm hl hne).mem_iff.1 (List.mem_map_of_mem hx)
  rw [symbolLengths_eq, List.zip_map_left] at hmem
  obtain ⟨⟨y, len⟩, hy, heq⟩ := List.mem_map.1 hmem
  obtain ⟨sy, -, rfl⟩ := List.mem_map.1 ((hf.ordered_perm hl).mem_iff.1 (List.of_mem_zip hy).1)
  obtain ⟨hsy : sy = x.symbol, rfl⟩ := Prod.mk.inj heq
  rw [← hsy]
  refine rank_orderedInsert (size 256) (orderedSizes_keys hl) (size sy, x.len) ?_
  rw [← hinsert, ← List.append_nil (List.map _ _), List.zip_append (by simp [orderedSizes_length hl hne]),
    List.zip_map_left]
  exact List.mem_append_left _ (List.mem_map.2 ⟨_, hy, rfl⟩)

end

/-- Where the longest code is shorter than 16, no code size was limited (42_huffman.md R165). -/
theorem codeSizes_of_longest (hlong : longest (buildCodes h) < 16) : ∀ x ∈ codeSizes h, x.2 ≤ 16 := by
  intro x hx
  by_contra hgt
  have hlongTo : LongTo (sizeCounts (codeSizes h)) 256 := by
    refine ⟨(sizeCounts_codeSizes hl hne).length, x.2, by omega, codeSizes_le hl x hx, ?_⟩
    rw [bitsAt_codeSizes hl, ← Nat.pos_iff_ne_zero, List.countP_pos_iff]
    exact ⟨x, hx, by simp⟩
  have h16 : 16 ∈ lengthList (limitedBits h) := mem_lengthList.2 ⟨by norm_num, le_rfl,
    dropReserved_sixteen (limitLengths_codeSizes hl hne) (limitLengths_of_long hlongTo)⟩
  rw [← symbolLengths_lens hl hne] at h16
  obtain ⟨p, hp, hlen⟩ := List.mem_map.1 h16
  obtain ⟨y, hy, rfl⟩ := List.mem_map.1 ((buildCodes_perm hl hne).mem_iff.2 hp)
  have := (longest_le_iff _ _).1 le_rfl y hy
  change y.len = 16 at hlen
  omega

end

/-- Settles O31: what every table is (`buildCodes_spec`), and, where no code size was limited, the lengths against the
code sizes (`SizesFollow.len_bounds`) and the code sizes against the counts (`codeSizes_follow`). -/
theorem huffmanTableKraft : Obligations.HuffmanTableKraft := by
  rintro h hl ⟨n, hn, hn0⟩
  have hne : ¬(h.all (· == 0)) = true := fun hz => hn0 (beq_iff_eq.1 (List.all_eq_true.1 hz n hn))
  obtain ⟨hsyms, -, -, L, hL1, hL16, ⟨x, hx, hxL⟩, hlen, hsum, -⟩ := buildCodes_spec h hl hne
  have hlongest : longest (buildCodes h) = L := by
    refine le_antisymm ((longest_le_iff _ _).2 fun y hy => (hlen y hy).2) ?_
    rw [← hxL]
    exact (longest_le_iff _ _).1 le_rfl x hx
  have hused {y : CodeWord} (hy : y ∈ buildCodes h) : y.symbol ∈ usedSymbols h :=
    hsyms.mem_iff.1 (List.mem_map_of_mem hy)
  refine ⟨hsyms.nodup_iff.2 (usedSymbols_nodup h), fun sy => ?_, fun y hy => ?_, hlongest ▸ hsum, fun hshort => ?_⟩
  · rw [← mem_usedSymbols, ← hsyms.mem_iff, List.mem_map]
  · exact ⟨(hlen y hy).1, (hlen y hy).2.trans hL16⟩
  · have hs : ∀ x ∈ codeSizes h, x.2 ≤ 16 := hshort.elim id (codeSizes_of_longest hl hne)
    obtain ⟨size, hf⟩ := codeSizes_follow h hl
    have hbounds := hf.len_bounds hl hne hs
    refine ⟨fun y hy z hz hlt => ?_, fun y hy hmajor => ?_⟩
    · have hz0 := (mem_usedSymbols h).1 (hused hz)
      have hsize := hf.antitone _ (hused hz) _ (hused hy) hlt
      have hreserved := hf.reserved _ (hused hy) (by omega)
      have hy' := (hbounds y hy).1
      have hz' := (hbounds z hz).2
      omega
    · have hsize := hf.major _ (hused hy) hmajor
      have := (hbounds y hy).1
      have := (hlen y hy).1
      omega

end Sys2Proof.Proofs

/-! The statements of 43_entropy.md: the bytes ESCAN appends (R182 to R190, R193), `flush()` (R184), PUTB (R192), and
the sink (R191). -/

namespace Sys2Proof.Proofs

open Sys2Proof.Machine Sys2Proof.Claims

/-! ### One byte at a time (43_entropy.md R184, R191, R192) -/

/-- Settles O8: the word is that of PUTB, whose step appends the byte and ends. -/
theorem putbAppendsByte : Obligations.PutbAppendsByte := fun b =>
  ⟨commandWord_eq_add 6 b ▸ decode_encode (.putb b), fun _ => rfl⟩

/-- Settles O55: the sink takes the head of OUT, where there is one. -/
theorem sinkTakesHeadByte : Obligations.SinkTakesHeadByte := fun s =>
  ⟨fun h => ⟨by simp [outValid, h], congrArg Host.Outcome.next (sinkTake_nil h)⟩,
    fun b rest h => ⟨by simp [outValid, h], by simp [outData, h], congrArg Host.Outcome.next (sinkTake_cons h)⟩⟩

@[simp] theorem msbFirst_length (n v : Nat) : (msbFirst n v).length = n := by simp [msbFirst]

theorem bitsValue_append_msbFirst (as : List Bool) (n v : Nat) :
    bitsValue (as ++ msbFirst n v) = bitsValue as * 2 ^ n + v % 2 ^ n := by
  induction n generalizing as with
  | zero => simp [msbFirst, Nat.mod_one]
  | succ n ih =>
    rw [msbFirst_succ, List.append_cons, ih, bitsValue_concat, Nat.mod_pow_succ, Nat.toNat_testBit]
    ring

theorem bitsValue_msbFirst {n v : Nat} (h : v < 2 ^ n) : bitsValue (msbFirst n v) = v := by
  simpa [bitsValue, Nat.mod_eq_of_lt h] using bitsValue_append_msbFirst [] n v

/-- A sound accumulator (43_entropy.md R194) is one that the pending bits have entered. -/
theorem eq_loaded_of_sound {s : State} (h : AccSound s) : s = loaded s (msbFirst s.nacc s.acc.toNat) := by
  have hdiv : s.nacc / 8 = 0 := Nat.div_eq_of_lt h.nacc
  simp [loaded, packWhole, pendingBits, hdiv, bitsValue_msbFirst h.acc, withBytes, Nat.mod_eq_of_lt h.nacc]

/-- Settles O40: the pending bits are packed as a byte completed with 1 bits. -/
theorem flushPadsWithOnes : Obligations.FlushPadsWithOnes := by
  intro s hnacc hacc
  have h : AccSound s := ⟨hnacc, hacc⟩
  have hflush : flush s = withBytes s (pack (msbFirst s.nacc s.acc.toNat)) 0 0 := by
    conv_lhs => rw [eq_loaded_of_sound h, flush_loaded]
  refine ⟨fun hpos => ?_, fun hzero => ?_⟩
  · have hne : msbFirst s.nacc s.acc.toNat ≠ [] := List.ne_nil_of_length_pos (by simpa using hpos)
    have hbyte : pack (msbFirst s.nacc s.acc.toNat) =
        stuffed (BitVec.ofNat 8 (s.acc.toNat * 2 ^ (8 - s.nacc) + (2 ^ (8 - s.nacc) - 1))) := by
      rw [pack_byte hne (by simpa using hnacc.le), msbFirst_length, ← msbFirst_ones, bitsValue_append_msbFirst,
        bitsValue_msbFirst hacc, Nat.mod_eq_of_lt (Nat.sub_lt (Nat.two_pow_pos _) Nat.one_pos)]
    rw [hflush, hbyte]
    rfl
  · have hself : flush s = s := by rw [flush, if_neg (by omega)]
    exact ⟨hself, hself ▸ (flush_empty h).2⟩

/-! ### The bytes of an ESCAN (43_entropy.md R182 to R190) -/

theorem escanStart_eq_loaded (s : State) (r : Run) :
    escanStart s r = loaded { s with pred := r.pred, rstn := r.rstn } [] := by
  rw [loaded_of_dvd _ (by simp)]
  simp [withBytes, escanStart]

theorem codeTokens_escanStart {s : State} {toks : List Token} (h : allCoded s.mem.huff toks) (r : Run) :
    ∃ a n, codeTokens toks (escanStart s r) =
      (withBytes { s with pred := r.pred, rstn := r.rstn } (bytesBeforeFault s.mem.huff toks []) a n, none) := by
  rw [escanStart_eq_loaded]
  exact codeTokens_loaded (s := { s with pred := r.pred, rstn := r.rstn }) h []

/-- Tokens coded to the end are followed by the coding of the rest. -/
theorem codeTokens_append_of_coded {ts : List Token} {s u : State} (h : codeTokens ts s = (u, none)) (us : List Token) :
    codeTokens (ts ++ us) s = codeTokens us u := by
  rw [codeTokens_append, h]

/-- `End` leaves no pending bits to drop (43_entropy.md R188). -/
theorem codedBytes_fin (huff : Bank HuffEntry 8) (toks : List Token) (bs : List Bool) :
    codedBytes huff (toks ++ [.fin]) bs = bytesBeforeFault huff (toks ++ [.fin]) bs := by
  induction toks generalizing bs with
  | nil => rfl
  | cons tok toks ih => cases tok <;> simp only [List.cons_append, codedBytes, bytesBeforeFault, ih]

/-- Settles O35: the tokens are coded to the end, and `End` has emptied the accumulator. -/
theorem escanEmitsPackedBits : Obligations.EscanEmitsPackedBits := by
  intro s r hrun hstop hcoded
  obtain ⟨a, n, hcode⟩ := codeTokens_escanStart hcoded r
  have hempty := codeTokens_accEmpty hrun hstop (by rw [hcode])
  rw [hcode] at hempty
  obtain ⟨rfl, rfl⟩ := hempty
  have hbytes : codedBytes s.mem.huff r.tokens [] = bytesBeforeFault s.mem.huff r.tokens [] := by
    obtain ⟨x, hx, -⟩ | ⟨-, toks, htoks⟩ := scanRun_stop hrun
    · cases hstop.symm.trans hx
    · rw [htoks, codedBytes_fin]
  refine execEscan_eq_next_iff.2 (.inr (.inl ⟨r, hrun, by rw [hcode], hstop, ?_⟩))
  rw [hcode, hbytes]
  rfl

/-- Coding stops with NOCODE at a symbol without a code, and codes no token after it (43_entropy.md R185, R190). -/
theorem codeTokens_uncoded {s : State} {t sy : Nat} {e : HuffEntry} (hread : Bank.read s.mem.huff t sy = some e)
    (hlen : e.len = 0) (post : List Token) :
    codeTokens (.sym t sy :: post) s = (s, some (.raised (raiseAt .nocode 0 0 (256 * t + sy)))) := by
  simp [codeTokens, codeToken, hread, hlen]

/-- Settles O36: the tokens before the symbol are coded, and fault entry discards the accumulator. -/
theorem escanNocode : Obligations.EscanNocode := by
  intro s r pre post t sy e hrun htoks hcoded hread hlen
  obtain ⟨a, n, hpre⟩ := codeTokens_escanStart hcoded r
  have hcode : codeTokens r.tokens (escanStart s r) = (withBytes { s with pred := r.pred, rstn := r.rstn }
      (bytesBeforeFault s.mem.huff pre []) a n, some (.raised (raiseAt .nocode 0 0 (256 * t + sy)))) := by
    rw [htoks, codeTokens_append_of_coded hpre]
    refine codeTokens_uncoded ?_ hlen post
    exact hread
  refine execEscan_eq_next_iff.2 (.inr (.inr ⟨r, _, hrun, by rw [hcode]; rfl, ?_⟩))
  rw [hcode]
  rfl

/-! ### What any ESCAN appends (43_entropy.md R190, R193) -/

/-- The token is not a symbol without a code in HUFF (43_entropy.md R185). -/
def codable (huff : Bank HuffEntry 8) : Token → Bool
  | .sym t sy => (Bank.read huff t sy).any (·.len != 0)
  | .bits _ _ | .rst _ | .fin => true

theorem allCoded_takeWhile (huff : Bank HuffEntry 8) (toks : List Token) :
    allCoded huff (toks.takeWhile (codable huff)) := by
  intro t sy ht
  simpa [codable, Option.any_eq_true] using List.mem_takeWhile_imp ht

theorem codeTokens_of_not_codable {s : State} {tok : Token} (h : codable s.mem.huff tok = false) (toks : List Token) :
    (codeTokens (tok :: toks) s).1 = s := by
  cases tok with
  | sym t sy =>
    cases hread : Bank.read s.mem.huff t sy with
    | none => simp [codeTokens, codeToken, hread, needed]
    | some e => rw [codeTokens_uncoded hread (by simpa [codable, hread] using h)]
  | bits n v => cases h
  | rst n => cases h
  | fin => cases h

/-- The bytes an ESCAN of `s` appends: those of the tokens before the first that cannot be coded. -/
def escanBytes (s : State) : List Byte :=
  match scanRun s with
  | .error _ => []
  | .ok r => bytesBeforeFault s.mem.huff (r.tokens.takeWhile (codable s.mem.huff)) []

theorem codeTokens_out (s : State) (r : Run) : (codeTokens r.tokens (escanStart s r)).1.out =
    s.out ++ bytesBeforeFault s.mem.huff (r.tokens.takeWhile (codable s.mem.huff)) [] := by
  obtain ⟨a, n, hpre⟩ := codeTokens_escanStart (allCoded_takeWhile s.mem.huff r.tokens) r
  conv_lhs => rw [← List.takeWhile_append_dropWhile (p := codable s.mem.huff) (l := r.tokens),
    codeTokens_append_of_coded hpre]
  cases hrest : r.tokens.dropWhile (codable s.mem.huff) with
  | nil => rfl
  | cons tok toks =>
    have htok : codable s.mem.huff tok = false := by
      simpa [hrest] using List.head?_dropWhile_not (codable s.mem.huff) r.tokens
    refine congrArg State.out (codeTokens_of_not_codable ?_ toks)
    exact htok

theorem exec_escan_out {s t : State} (h : exec .escan s = .next t) : t.out = s.out ++ escanBytes s := by
  obtain ⟨x, hrun, rfl⟩ | ⟨r, hrun, -, -, rfl⟩ | ⟨r, x, hrun, -, rfl⟩ := execEscan_eq_next_iff.1 h
  · simp [escanBytes, hrun]
  · simp [escanBytes, hrun, codeTokens_out]
  · simp [escanBytes, hrun, codeTokens_out]

/-- Settles O39: the tokens and HUFF determine the bytes, and the scan's inputs the tokens. -/
theorem escanBytesDependOnInputsOnly : Obligations.EscanBytesDependOnInputsOnly := by
  intro s s' t t' hsame hhuff ht ht'
  have hbytes : escanBytes s = escanBytes s' := by
    rw [escanBytes, serializeReadsOnlyItsInputs s s' hsame, hhuff, escanBytes]
  rw [exec_escan_out ht, exec_escan_out ht', List.drop_left, List.drop_left, hbytes]

theorem ffFollowed_append {as bs : List Byte} (ha : ffFollowed as) (hb : ffFollowed bs) : ffFollowed (as ++ bs) := by
  induction as using ffFollowed.induct with
  | case1 => exact hb
  | case2 a =>
    cases bs with
    | nil => exact ha
    | cons b bs => exact ⟨fun h => absurd h ha, hb⟩
  | case3 a a' as ih => exact ⟨ha.1, ih ha.2⟩

theorem ffFollowed_stuffed (b : Byte) : ffFollowed (stuffed b) := by
  unfold stuffed
  split
  · exact ⟨fun _ => .inl rfl, (by decide : (0x00 : Byte) ≠ 0xFF)⟩
  · assumption

theorem ffFollowed_pack (bs : List Bool) : ffFollowed (pack bs) := by
  unfold pack
  generalize bs.length = fuel
  induction fuel generalizing bs with
  | zero => trivial
  | succ fuel ih =>
    unfold packWith
    split
    · trivial
    · exact ffFollowed_append (ffFollowed_stuffed _) (ih _)

/-- The marker of a restart boundary (43_entropy.md R187). -/
theorem ffFollowed_marker {n : Nat} (h : n < 8) : ffFollowed [0xFF, 0xD0 + BitVec.ofNat 8 n] := by
  have hvalue : (0xD0 + BitVec.ofNat 8 n : Byte).toNat = 0xD0 + n := by
    simp only [BitVec.ofNat_eq_ofNat, BitVec.toNat_add, BitVec.toNat_ofNat]
    omega
  refine ⟨fun _ => .inr (by omega), fun heq => ?_⟩
  rw [heq, show (0xFF : Byte).toNat = 0xFF from rfl] at hvalue
  omega

theorem ffFollowed_bytesBeforeFault (huff : Bank HuffEntry 8) {toks : List Token} (h : ∀ t ∈ toks, tokenInRange t)
    (bs : List Bool) : ffFollowed (bytesBeforeFault huff toks bs) := by
  induction toks generalizing bs with
  | nil => exact ffFollowed_pack _
  | cons tok toks ih =>
    obtain ⟨htok, hrest⟩ := List.forall_mem_cons.1 h
    cases tok with
    | sym t sy => exact ih hrest _
    | bits n v => exact ih hrest _
    | rst n => exact ffFollowed_append (ffFollowed_append (ffFollowed_pack bs) (ffFollowed_marker htok)) (ih hrest [])
    | fin => exact ffFollowed_append (ffFollowed_pack bs) (ih hrest [])

/-- Settles O38: every interval's bytes are stuffed, and marker indices are below 8. -/
theorem escanStuffsEveryFF : Obligations.EscanStuffsEveryFF := by
  refine fun s t h => ⟨escanBytes s, exec_escan_out h, ?_⟩
  unfold escanBytes
  split
  · trivial
  · rename_i r hrun
    exact ffFollowed_bytesBeforeFault s.mem.huff
      (fun t ht => tokensInRange s r hrun t (List.takeWhile_subset _ ht)) []

end Sys2Proof.Proofs

/-! The statements of 60_exceptions.md: what each command can end as, the fault state, and the interrupt line. -/

namespace Sys2Proof.Proofs

open Sys2Proof.Machine Sys2Proof.Claims

/-! ### The causes QBLK can raise (40_quantizer.md R117, 60_exceptions.md R219) -/

/-- A computation that raises a fault raises one of the listed causes. -/
def RaisesOnly {α : Type} (causes : List Cause) (x : Except Stop α) : Prop :=
  ∀ r, x = .error (.raised r) → r.cause ∈ causes

section
variable {α β : Type} {causes : List Cause}

theorem raisesOnly_pure (a : α) : RaisesOnly causes (pure a) := nofun

theorem raisesOnly_throw {cause : Cause} {c k aux : Nat} (h : cause ∈ causes) :
    RaisesOnly (α := α) causes (throw (.raised (raiseAt cause c k aux))) := by
  rintro _ ⟨⟩
  exact h

/-- A never-written element is a stop of the model, no fault of JBE (20_memory.md R81). -/
theorem raisesOnly_needed {sp : Space} {u i : Nat} {o : Option α} : RaisesOnly causes (needed sp u i o) := by
  intro r h
  cases (needed_eq_error_iff.1 h).2

theorem RaisesOnly.bind {x : Except Stop α} {f : α → Except Stop β} (hx : RaisesOnly causes x)
    (hf : ∀ a, RaisesOnly causes (f a)) : RaisesOnly causes (x >>= f) := by
  cases x with
  | error e => rintro r ⟨⟩; exact hx r rfl
  | ok a => exact hf a

theorem RaisesOnly.ite {p : Prop} [Decidable p] {x y : Except Stop α} (hx : RaisesOnly causes x)
    (hy : RaisesOnly causes y) : RaisesOnly causes (if p then x else y) := by
  split
  · exact hx
  · exact hy

theorem RaisesOnly.mapM {f : α → Except Stop β} (hf : ∀ a, RaisesOnly causes (f a)) (l : List α) :
    RaisesOnly causes (l.mapM f) := by
  induction l with
  | nil => exact raisesOnly_pure []
  | cons a l ih =>
    rw [List.mapM_cons]
    exact (hf a).bind fun _ => ih.bind fun _ => raisesOnly_pure _

end

/-- The causes the rule of QBLK names (40_quantizer.md R117). -/
def qblkCauses : List Cause := [.badcfg, .qtabrange, .qnonfinite, .qrange]

theorem quantCoef_raisesOnly (s : State) (c b t : Nat) (mac : Word) (k : Nat) :
    RaisesOnly qblkCauses (quantCoef s c b t mac k) := by
  refine raisesOnly_needed.bind fun q => .ite (raisesOnly_throw (by decide)) ?_
  refine raisesOnly_needed.bind fun d => .ite (raisesOnly_throw (by decide)) ?_
  exact .ite (raisesOnly_throw (by decide)) (raisesOnly_pure _)

theorem acMultiplier_raisesOnly (s : State) (c : Nat) : RaisesOnly qblkCauses (acMultiplier s c) :=
  .ite raisesOnly_needed (raisesOnly_pure _)

theorem quantBlock_raisesOnly (s : State) (c : Nat) : RaisesOnly qblkCauses (quantBlock s c) := by
  refine .ite (raisesOnly_throw (by decide)) (.ite (raisesOnly_throw (by decide)) ?_)
  refine .ite (raisesOnly_throw (by decide)) ?_
  exact (acMultiplier_raisesOnly s c).bind fun mac => .mapM (quantCoef_raisesOnly s c _ _ mac) _

/-! ### The causes a scan can raise (42_huffman.md R162, 43_entropy.md R189) -/

/-- A scan that does not start stops at the frame or at the scan parameters. -/
theorem scanRun_error_cause {s : State} {x : Raise} (h : scanRun s = .error (.raised x)) : x.cause = .badcfg := by
  obtain ⟨-, e⟩ | ⟨-, -, e⟩ | ⟨f, e⟩ := scanRun_error h
  · cases e; rfl
  · cases e; rfl
  · cases e

/-- A run ends early by the fault of what consumes its tokens, or by Serialize's own. -/
theorem scanRun_or_cause {s : State} {r : Run} {own : Option Stop} {x : Raise} {cause : Cause}
    (hr : scanRun s = .ok r) (hown : own = some (.raised x) → x.cause = cause)
    (h : own.or r.stop = some (.raised x)) : x.cause = cause ∨ x.cause = .symrange := by
  obtain h | ⟨-, h⟩ := Option.or_eq_some_iff.1 h
  · exact .inl (hown h)
  · obtain ⟨y, hy, hcause⟩ | ⟨hnone, -⟩ := scanRun_stop hr
    · cases hy.symm.trans h
      exact .inr hcause
    · cases hnone.symm.trans h

/-! ### The ends of a command (30_encoding.md R98, 60_exceptions.md R203, R219) -/

/-- `u` has the flags and the fault record of `s`, as everything a command does before it ends leaves them. -/
structure FlagsKept (s u : State) : Prop where
  status : u.status = s.status := by rfl
  finfo : u.finfo = s.finfo := by rfl
  faux : u.faux = s.faux := by rfl

theorem codeTokens_flagsKept (s : State) (r : Run) : FlagsKept s (codeTokens r.tokens (escanStart s r)).1 := by
  obtain ⟨bytes, a, n, e⟩ := codeTokens_appends r.tokens (escanStart s r)
  rw [e]
  exact {}

/-- The two ends of command `i` from `s`: its work leaves the flags, and then it completes or enters a fault of the
table of 60_exceptions.md R219. -/
inductive Ends (i : Instr) (s : State) : State → Prop
  | complete {u : State} (h : FlagsKept s u) : Ends i s (completeCommand u)
  | fault {u : State} (h : FlagsKept s u) (r : Raise) (hr : r.cause.code ∈ causesOf i) : Ends i s (faultEntry r u)

theorem qblkCauses_code (c : BitVec 2) : ∀ cause ∈ qblkCauses, cause.code ∈ causesOf (.qblk c) := by
  decide +revert

theorem exec_ends {i : Instr} {s t : State} (h : exec i s = .next t) : Ends i s t := by
  cases i with
  | nop => cases h; exact .complete {}
  | qblk c =>
    obtain ⟨x, hx, rfl⟩ | ⟨rs, -, rfl⟩ := execQblk_eq_next_iff.1 h
    · exact .fault {} x (qblkCauses_code c _ (quantBlock_raisesOnly s _ x hx))
    · exact .complete {}
  | hclr mask => cases h; exact .complete {}
  | hscan =>
    obtain ⟨x, hx, rfl⟩ | ⟨r, -, -, -, rfl⟩ | ⟨r, x, hr, hx, rfl⟩ := execHscan_eq_next_iff.1 h
    · exact .fault {} x (by rw [scanRun_error_cause hx]; decide)
    · exact .complete (u := hscanState s r) {}
    · refine .fault (u := hscanState s r) {} x ?_
      obtain e | e := scanRun_or_cause hr countTokens_stop hx <;> rw [e] <;> decide
  | hbuild n => obtain ⟨cs, -, rfl⟩ := execHbuild_eq_next_iff.1 h; exact .complete {}
  | escan =>
    obtain ⟨x, hx, rfl⟩ | ⟨r, -, -, -, rfl⟩ | ⟨r, x, hr, hx, rfl⟩ := execEscan_eq_next_iff.1 h
    · exact .fault {} x (by rw [scanRun_error_cause hx]; decide)
    · exact .complete (codeTokens_flagsKept s r)
    · refine .fault (codeTokens_flagsKept s r) x ?_
      obtain e | e := scanRun_or_cause hr codeTokens_stop hx <;> rw [e] <;> decide
  | putb b => cases h; exact .complete {}

/-- Settles O10: a completion sets DONE and leaves the fault record, and fault entry sets the record with a listed
cause. -/
theorem commandOutcomesTable : Obligations.CommandOutcomesTable := by
  intro i s t h
  cases exec_ends h with
  | complete hu =>
    obtain ⟨hstatus, hfinfo, hfaux⟩ := hu
    simp [hstatus, hfinfo, hfaux]
  | fault hu r hr =>
    simp [hu.status, hr]

/-! ### The fault state (60_exceptions.md R207) -/

/-- What a faulted block keeps until a reset: `t` has FAULT, BUSY, the fault record, CMDREG, OUTCNT and the stream of `s`.
By default each part is untouched. -/
structure FaultStateKept (s t : State) : Prop where
  fault : t.status.fault = s.status.fault := by rfl
  busy : t.status.busy = s.status.busy := by rfl
  cause : t.status.cause = s.status.cause := by rfl
  finfo : t.finfo = s.finfo := by rfl
  faux : t.faux = s.faux := by rfl
  cmdreg : t.cmdreg = s.cmdreg := by rfl
  outcnt : t.outcnt = s.outcnt := by rfl
  stream : stream t = stream s := by rfl

theorem storeReg_faultStateKept (r : Reg) (w : Word) (s : State) : FaultStateKept s (storeReg r w s) := by
  cases r <;> exact {}

/-- A faulted block refuses a command word, so that only a soft reset is left of the writes that could change the fault
state. -/
theorem writeReg_faultStateKept {r : Reg} {w : Word} {s t : State} (hf : s.status.fault = true)
    (h : writeReg r w s = .next t) (hr : ¬(r = .ctrl ∧ w.getLsbD 0 = true)) : FaultStateKept s t := by
  obtain rfl | rfl | ⟨hc, h0, -⟩ | ⟨-, -, -, rfl⟩ | ⟨-, rfl⟩ | ⟨-, rfl⟩ | ⟨-, rfl⟩ | ⟨-, -, hidle, -⟩ |
    ⟨-, -, sp, u, i, -, -, rfl⟩ | ⟨-, -, rfl⟩ := writeReg_next h
  · exact {}
  · exact {}
  · exact absurd ⟨hc, h0⟩ hr
  · exact {}
  · exact {}
  · exact {}
  · exact {}
  · cases hf.symm.trans hidle
  · exact {}
  · exact storeReg_faultStateKept r w s

theorem hostRead_faultStateKept (addr width : Nat) (s : State) : FaultStateKept s (hostRead addr width s) := by
  obtain ⟨w, m, a, n, e⟩ := hostRead_eq addr width s
  rw [e]
  exact {}

theorem sinkTake_faultStateKept (s : State) : FaultStateKept s (sinkTake s) := by
  obtain ⟨o, r, e, hstream⟩ := sinkTake_eq s
  rw [e]
  exact { stream := hstream }

/-- Every move of a faulted block that is not busy keeps its fault state, but for a hard reset and a soft one. -/
theorem perform_faultStateKept {e : Event} {s t : State} (hf : s.status.fault = true) (hb : s.status.busy = false)
    (h : perform e s = .next t) (hhard : e ≠ .hardReset)
    (hsoft : ∀ width w, e = .write (s.params.base + 0x04) width w → w.getLsbD 0 = false) : FaultStateKept s t := by
  cases e with
  | read addr width => cases h; exact hostRead_faultStateKept addr width s
  | write addr width w =>
    obtain rfl | rfl | ⟨r, rfl, rfl, hw⟩ := hostWrite_next_reg h
    · exact {}
    · exact {}
    · refine writeReg_faultStateKept hf hw ?_
      rintro ⟨rfl, h0⟩
      cases h0.symm.trans (hsoft 32 w rfl)
  | sinkReady => cases h; exact sinkTake_faultStateKept s
  | sequencer =>
    obtain ⟨-, rfl⟩ | ⟨hbusy, -⟩ := sequencerStep_eq_next_iff.1 h
    · exact {}
    · cases hbusy.symm.trans hb
  | hardReset => exact absurd rfl hhard

/-- Settles O51, by the kinds of moves. -/
theorem onlyResetLeavesFault : Obligations.OnlyResetLeavesFault := by
  intro e s t hf hb h hhard hsoft
  obtain ⟨hfault, hbusy, hcause, hfinfo, hfaux, hcmdreg, houtcnt, hstream⟩ :=
    perform_faultStateKept hf hb h hhard hsoft
  exact ⟨hfault.trans hf, hbusy.trans hb, hcause, hfinfo, hfaux, hcmdreg, houtcnt, hstream⟩

/-! ### The interrupt line (60_exceptions.md R208) -/

theorem irq_iff (s : State) : irq s = true ↔
    (s.ie.doneIe = true ∧ s.status.done = true) ∨ (s.ie.faultIe = true ∧ s.status.fault = true) := by
  simp [irq]

/-- With neither source pending the line is low, whatever is enabled. -/
theorem irq_low {s : State} (hd : s.status.done = false) (hf : s.status.fault = false) : irq s = false := by
  simp [irq, hd, hf]

/-- A command does not change what is enabled. -/
theorem exec_ie {i : Instr} {s t : State} (h : exec i s = .next t) : t.ie = s.ie := by
  rw [exec_hostSideKept h]

/-- Settles O57: a pending source that is enabled raises the line, and a write to STATUS with bit 1 set and an accepted
command clear DONE. -/
theorem interruptLine : Obligations.InterruptLine := by
  refine ⟨irq_iff, fun i s t h hd hie => ?_, fun i s t h hf hie => ?_, fun s t w hw hf h => ?_,
    fun s t w hb hf h => ?_⟩
  · exact (irq_iff t).2 (.inl ⟨by rw [exec_ie h, hie], hd⟩)
  · exact (irq_iff t).2 (.inr ⟨by rw [exec_ie h, hie], hf⟩)
  · cases (hostWrite_reg s .status w).symm.trans h
    exact irq_low (by simp [hw]) hf
  · rw [cmdWriteAcceptedOrRefused, if_neg (by simp [hb, hf])] at h
    cases h
    exact irq_low rfl hf

end Sys2Proof.Proofs

/-! The statements of 70_reset_and_hazards.md: the resets (R230 to R232), the accesses to a busy block (R243), and the
invariant of the state after reset. -/

namespace Sys2Proof.Proofs

open Sys2Proof.Machine Sys2Proof.Claims

/-! ### Accesses to a busy block (70_reset_and_hazards.md R243, 60_exceptions.md R209) -/

section
variable {s : State} (hb : s.status.busy = true)
include hb

theorem unlessBusy_of_busy (t : State) : unlessBusy s t = setAccerr s := if_pos hb

theorem readPort_of_busy : readPort s = (0, setAccerr s) := if_pos hb

theorem writePort_of_busy (w : Word) : writePort w s = setAccerr s := if_pos hb

/-- Every register but the four that R243 exempts takes its writes through `unlessBusy` or through the data port. -/
theorem writeReg_of_busy {r : Reg} (hstatus : r ≠ .status) (hie : r ≠ .ie) (hcmd : r ≠ .cmd) (hctrl : r ≠ .ctrl)
    (w : Word) : writeReg r w s = .next (setAccerr s) := by
  cases r with
  | status => exact absurd rfl hstatus
  | ie => exact absurd rfl hie
  | cmd => exact absurd rfl hcmd
  | ctrl => exact absurd rfl hctrl
  | mdata => exact congrArg _ (writePort_of_busy hb w)
  | _ => exact congrArg _ (unlessBusy_of_busy hb _)

/-- A write to CTRL with bit 0 clear is no soft reset and so is refused. -/
theorem writeReg_ctrl_of_busy {w : Word} (h0 : w.getLsbD 0 = false) : writeReg .ctrl w s = .next (setAccerr s) := by
  have hstore : writeReg .ctrl w s = .next (unlessBusy s (storeCtrl w s)) := if_neg (by rw [h0]; decide)
  rw [hstore, unlessBusy_of_busy hb]

end

/-- Only reads of MDATA and OUTCNT do more than return the register's word, in every state of the block. -/
theorem readReg_of_ne {r : Reg} (hmdata : r ≠ .mdata) (houtcnt : r ≠ .outcnt) (s : State) :
    readReg r s = (regWord r s, s) := by
  cases r with
  | mdata => exact absurd rfl hmdata
  | outcnt => exact absurd rfl houtcnt
  | _ => rfl

/-- Settles O46: each access is one of the register at its address. -/
theorem busyAccessesRefused : Obligations.BusyAccessesRefused := by
  intro s w hb
  refine ⟨fun r hstatus hie hcmd hctrl => ?_, fun h0 => ?_, ?_, ?_, fun r hmdata houtcnt => ?_⟩
  · exact (hostWrite_reg s r w).trans (writeReg_of_busy hb hstatus hie hcmd hctrl w)
  · exact (hostWrite_reg s .ctrl w).trans (writeReg_ctrl_of_busy hb h0)
  · rw [cmdWriteAcceptedOrRefused, if_pos (.inl hb)]
  · rw [hostRead_mdata, readPort_of_busy hb]
    rfl
  · rw [hostRead_reg, readReg_of_ne hmdata houtcnt]
    rfl

/-! ### The reset words (10_state.md R25, 70_reset_and_hazards.md R230, R231) -/

/-- The word of each register after a reset (10_state.md R25); CMD and MDATA hold no word of their own and are 0. -/
def resetWord : Reg → Word
  | .id => 0x4A424501#32
  | .ctrl => 6
  | .comp0 | .comp1 | .comp2 => 0x11#32
  | .qfconst => 0x3F133333#32
  | .dcmul => 0x3F800000#32
  | .scan => 0x003F0001#32
  | .status | .ie | .cmd | .finfo | .faux | .frame | .mcux | .mcuy | .qpos => 0
  | .scomp0 | .scomp1 | .scomp2 | .niw | .nih | .ri | .msel | .midx | .mdata | .outcnt => 0

theorem regWord_reset (r : Reg) : regWord r State.reset = resetWord r := by cases r <;> decide

/-- The reset words depend neither on the parameters nor on the state before. -/
theorem regWord_hardReset (r : Reg) (s : State) : regWord r (hardReset s) = resetWord r := by
  rw [← regWord_reset]
  cases r <;> rfl

/-- A soft reset leaves the registers as a hard reset does: what it keeps no register reads. -/
theorem regWord_softReset (r : Reg) (s t : State) : regWord r (softReset s) = regWord r (hardReset t) := by
  rw [regWord_hardReset, ← regWord_reset]
  cases r <;> rfl

theorem read_emptyBank {α : Type} (n u i : Nat) : Bank.read (Vector.replicate n ([] : Store α)) u i = none := by
  rw [Bank.read, Vector.getElem?_replicate]
  split <;> rfl

/-- No element of an empty memory has a value (20_memory.md R81). -/
theorem elementWord_empty (sp : Space) (u i : Nat) : elementWord Memory.empty sp u i = none := by
  cases sp with
  | dbuf | qf | hist => exact read_emptyBank _ u i
  | qtab | coef | huff => exact congrArg (Option.map _) (read_emptyBank _ u i)

/-- Settles O52: the reset words, a memory without values, and no flag that could raise the line. -/
theorem hardResetState : Obligations.HardResetState := by
  intro s
  have hirq : irq (hardReset s) = false := irq_low rfl rfl
  refine ⟨hardReset s, rfl, ?_⟩
  simp [regWord_hardReset, resetWord, hirq, elementWord_empty, State.resetWith]

/-! ### Soft reset (70_reset_and_hazards.md R231, R232) -/

/-- A write to CTRL with bit 0 set is a soft reset, whatever its other bits. -/
theorem hostWrite_srst {w : Word} (h0 : w.getLsbD 0 = true) (s : State) :
    hostWrite (s.params.base + 0x04) 32 w s = writeSrst s :=
  (hostWrite_reg s .ctrl w).trans (if_pos h0)

theorem writeSrst_of_idle {s : State} (hb : s.status.busy = false) : writeSrst s = .next (softReset s) :=
  if_neg (by simp [hb])

/-- Everything the soft reset of a busy block can answer: the command's step did not happen, or it did, and then its
memory goes with some first bytes of what it appends. -/
theorem writeSrst_of_busy {s t : State} (hb : s.status.busy = true) (h : writeSrst s = .next t) :
    (∃ f, t = softReset { s with free := f }) ∨
    (∃ u n f, runCommand s = .next u ∧
      t = softReset { s with mem := u.mem, out := s.out ++ (u.out.drop s.out.length).take n, free := f }) := by
  rw [writeSrst, if_pos hb] at h
  dsimp only at h
  split at h
  · split at h
    · rename_i u hu
      cases h
      exact .inr ⟨u, _, _, hu, rfl⟩
    · cases h
    · cases h
  · cases h
    exact .inl ⟨_, rfl⟩

/-- Settles O53: an idle block has nothing to abort. -/
theorem softResetKeepsMemories : Obligations.SoftResetKeepsMemories := by
  intro s w h0 hb
  refine ⟨softReset s, hardReset s, (hostWrite_srst h0 s).trans (writeSrst_of_idle hb), rfl,
    fun r => regWord_softReset r s s, rfl, rfl, rfl, rfl, rfl, rfl, rfl, rfl⟩

/-- Settles O54: either way the next state is a soft reset of the state with the memory and the OUT named. -/
theorem softResetAbortsCommand : Obligations.SoftResetAbortsCommand := by
  intro s t w h0 hb h
  rw [hostWrite_srst h0] at h
  obtain ⟨f, rfl⟩ | ⟨u, n, f, hu, rfl⟩ := writeSrst_of_busy hb h
  · exact ⟨fun r => regWord_softReset r _ s, rfl, .inl ⟨rfl, rfl⟩⟩
  · exact ⟨fun r => regWord_softReset r _ s, rfl, .inr ⟨u, n, hu, rfl, rfl⟩⟩

/-! ### The invariant after reset (70_reset_and_hazards.md R230) -/

theorem inv_resetWith (p : Params) : (State.resetWith p).Inv where
  canonical := Memory.wf_empty
  bounded := Memory.bounded_empty p
  status := statusSound_softReset (State.resetWith p)
  acc_empty := rfl
  nacc_empty := rfl

/-- Settles O59: no parameter matters to an empty memory and cleared flags. -/
theorem resetHasInvariant : Obligations.ResetHasInvariant := ⟨inv_resetWith Params.standard, inv_resetWith⟩

end Sys2Proof.Proofs
